-- ==== Sys2Proof/Word.lean ====
section
/-! DEFINITION. Widths and the plain data types of the Babe BTC block. -/

namespace Sys2Proof

/-- An 8-bit value: a buffer byte, a colour channel, a palette-local index. -/
abbrev Byte := BitVec 8

/-- A 16-bit value: a configuration register, a stripe coordinate (10_state.md R24, R27). -/
abbrev Half := BitVec 16

/-- A 64-bit register value (10_state.md R20). -/
abbrev Word := BitVec 64

/-- A pixel, leaf colour or palette entry: three 8-bit channels (10_state.md R30). -/
structure Color where
  r : Byte
  g : Byte
  b : Byte
deriving DecidableEq, Repr, Inhabited

/-- A region: the rectangle of pixels `x ≤ px < x+w`, `y ≤ py < y+h` (00_scope.md R9).
The coordinates are naturals, as R7 and R23 allow; every walk keeps them within 16 bits. -/
structure Region where
  x : Nat
  y : Nat
  w : Nat
  h : Nat
deriving DecidableEq, Repr, Inhabited

/-- An entry of the STRIPE table (10_state.md R27). -/
structure Stripe where
  y : Half
  h : Half
deriving DecidableEq, Repr, Inhabited

/-- A paint job (10_state.md R37): a rectangle, as a `Region`'s; the 16-bit palette index; the 8-bit
in-palette index. -/
structure Job where
  x : Nat
  y : Nat
  w : Nat
  h : Nat
  pal : Half
  idx : Byte
deriving DecidableEq, Repr, Inhabited

/-- What the split rule answers for a region (41_classifier.md R140): no split (for `classify`:
a leaf), a width split or a height split, with the two sizes. -/
inductive Division where
  | undivided
  | width (w1 w2 : Nat)
  | height (h1 h2 : Nat)
deriving DecidableEq, Repr

end Sys2Proof
end

