-- ==== Sys2Proof/Config.lean ====
section
/-! DEFINITION. What an implementation fixes (00_scope.md R5, R6) and the free values of the model.
An `opaque` constant has no body: nothing can be proved about its value. -/

namespace Sys2Proof.Config

/-- `MINBLOCK`, hardwired to 1 (10_state.md R25). -/
def minBlock : Nat := 1

/-- `GROUP`: the number of consecutive leaves that share a palette (00_scope.md R5). -/
def group : Nat := 256

/-- Capacity of the STRIPE table (10_state.md R27). -/
def stripeCapacity : Nat := 65535

/-- Most pixels a raster can have: the largest `IMG_W` times the largest `IMG_H` (10_state.md R24). -/
def rasterCapacity : Nat := 65535 * 65535

/-- Entries RBUF can be addressed at: RLEN is a 64-bit number of bytes (10_state.md R32). -/
def rbufCapacity : Nat := 2 ^ 64

/-- `LUMA`: a total function of one pixel's three channels, result 0..65535 (00_scope.md R6).
OPEN in the spec; log 5. -/
opaque luma : Color → BitVec 16

/-- `WBUF_CAP` in bytes, `none` = infinite (40_bitio.md R130). OPEN in the spec; log 4. -/
opaque wbufCap : Option Nat

/-- `MAGIC`, the artifact header's 4-byte tag (30_encoding.md R100). OPEN in the spec; log 12. -/
opaque magic : BitVec 32

/-- What a RASTER entry holds that the host has not written since power-on number `era`
(10_state.md R44, unspecified; log 1). Arguments: era, entry number. -/
opaque unwrittenPixel : Nat → Nat → Color

/-- What a STRIPE entry holds that the host has not written since power-on number `era` (log 1). -/
opaque unwrittenStripe : Nat → Nat → Stripe

/-- What an RBUF byte holds that the host has not written since power-on number `era` (log 1). -/
opaque unwrittenByte : Nat → Nat → Byte

/-- The `pal` of a paint job whose palette index has more than the 16 bits of that field (10_state.md
R37; log 8). The argument is the index. -/
opaque widePal : Nat → Half

/-! What a register or buffer holds after the body of a command that writes it has faulted
(60_exceptions.md R225, unspecified; log 2). The argument is the number of the fault. -/

opaque freeWbuf : Nat → List Byte
opaque freeWacc : Nat → Byte
opaque freeWnb : Nat → BitVec 3
opaque freeRlen : Nat → Nat
opaque freeRpos : Nat → Nat
opaque freePattern : Nat → List Bool
opaque freeLeafcolor : Nat → List Color
opaque freePalettes : Nat → List (List Color)
opaque freeLeafref : Nat → List Byte
opaque freePatcur : Nat → Nat
opaque freeRefcur : Nat → Nat
opaque freeJobq : Nat → List Job
opaque freeLeaford : Nat → Nat
opaque freeStack : Nat → List Region

/-- A result register left unspecified: number of the fault, number of the register. -/
opaque freeRes : Nat → Nat → Word

end Sys2Proof.Config
end

