-- ==== Sys2Proof/Machine/State.lean ====
section
/-! DEFINITION. The state of the block (10_state.md), the reasons a step can stop, and reset. -/

namespace Sys2Proof.Machine

/-- An entry-addressed space held as (address, entry) pairs, addresses strictly rising. An address
that is not listed holds no value yet (10_state.md R44; log 1). -/
abbrev Memory (α : Type) := List (Nat × α)

/-- The host-written address spaces (10_state.md R38). -/
inductive Space where
  | raster
  | stripe
  | rbuf
deriving DecidableEq, Repr

/-- Why the machine stops. A fault of the spec is no stop: it is a next state with STATUS.FAULT set
(60_exceptions.md R221). -/
inductive Fault where
  /-- Raised by a host action that writes an entry the address space does not have (log 15). Safe:
  the spec gives such a write no meaning. -/
  | noSuchEntry (space : Space) (entry : Nat)
deriving DecidableEq, Repr

/-- Why an instruction has no meaning. -/
inductive Refusal where
  /-- Raised by `exec` for an instruction without a meaning; no arm does. Safe. -/
  | notModelled (mnemonic : String)
deriving DecidableEq, Repr

/-- The causes a command can raise (60_exceptions.md R210, R211). -/
inductive Cause where
  | palTabTruncated
  | streamExhausted
  | paletteRange
  | indexRange
  | unsplittable
  | paletteFull
  | palSizeUnrepresentable
  | palCountOverflow
  | wbufFull
  | patternGeometry
  | patternExhausted
  | leafRefExhausted
  | leftover
  | illegalCommand
  | illegalOperand
  | badConfig
deriving DecidableEq, Repr

/-- `raise Class.Name(info0, info1)` (00_scope.md R8). -/
structure Raise where
  cause : Cause
  info0 : Nat
  info1 : Nat
deriving DecidableEq, Repr

/-- Four 64-bit registers: ARG[0..3] or RES[0..3] (10_state.md R20). -/
structure Quad where
  r0 : Word
  r1 : Word
  r2 : Word
  r3 : Word
deriving DecidableEq, Repr

/-- STATUS.FAULT, STATUS.ERR, ERRINFO0 and ERRINFO1 (10_state.md R22). -/
structure FaultRegs where
  flag : Bool
  err : Byte
  info0 : Word
  info1 : Word
deriving DecidableEq, Repr

/-- IMG_W, IMG_H, MAXGRAD, COLORTOL, NSTRIPE (10_state.md R24, R26, R27). -/
structure ConfigRegs where
  imgW : Half
  imgH : Half
  maxgrad : Half
  colortol : Half
  nstripe : Half
deriving DecidableEq, Repr

/-- The bit writer: WBUF (its length is WLEN), WACC, WNB (10_state.md R31, R40). -/
structure Writer where
  wbuf : List Byte
  wacc : Byte
  wnb : BitVec 3
deriving DecidableEq, Repr

/-- The bit reader: RLEN in bytes, RPOS in bits (10_state.md R32, R41). -/
structure Reader where
  rlen : Nat
  rpos : Nat
deriving DecidableEq, Repr

/-- PATTERN (length NPAT) and LEAFCOLOR (length NLEAF) (10_state.md R33, R34). -/
structure Analysis where
  pattern : List Bool
  leafcolor : List Color
deriving DecidableEq, Repr

/-- PALETTE with NPAL and PALSIZE, and LEAFREF with NREF (10_state.md R35, R36): `palettes` has NPAL
entries and entry p has PALSIZE[p] colours. -/
structure Palettes where
  palettes : List (List Color)
  leafref : List Byte
deriving DecidableEq, Repr

/-- PATCUR and REFCUR (10_state.md R42). -/
structure Cursors where
  patcur : Nat
  refcur : Nat
deriving DecidableEq, Repr

/-- JOBQ (length NJOB) and LEAFORD (10_state.md R37). -/
structure Jobs where
  jobq : List Job
  leaford : Nat
deriving DecidableEq, Repr

/-- What the decoder reads next when a table parse or a walk is taken one wire field at a time
(log 10). Between commands it is `none`. -/
inductive Due where
  /-- no field is due -/
  | none
  /-- PAL_COUNT -/
  | count
  /-- PAL_SIZE; this many palettes are still to come -/
  | size (left : Nat)
  /-- PAL_ENTRY; palettes still to come, entries still to come, entries of the present palette -/
  | entry (left ents : Nat) (done : List Color)
  /-- a token of stripe `i`'s tree -/
  | node (i : Nat)
deriving DecidableEq, Repr

/-- What the host may do between commands (20_memory.md R71; 45_system.md R202, R203). Reads have no
effect (R69, R202) and are functions of the state, not actions. -/
inductive HostOp where
  /-- write a register by its number (10_state.md R43) -/
  | writeReg (num : Byte) (v : Word)
  /-- write RASTER[a] -/
  | writeRaster (a : Nat) (c : Color)
  /-- write STRIPE[i] -/
  | writeStripe (i : Nat) (v : Stripe)
  /-- write RBUF[a] -/
  | writeRbuf (a : Nat) (v : Byte)
  /-- write PATTERN[i] -/
  | writePattern (i : Nat) (v : Bool)
  /-- write LEAFCOLOR[i] -/
  | writeLeafcolor (i : Nat) (c : Color)
  /-- read an artifact's 9-byte header (30_encoding.md R100) -/
  | readHeader (bytes : List Byte)
  /-- power-on reset (70_reset_and_hazards.md R240) -/
  | powerOn
deriving DecidableEq, Repr

/-- The whole machine. -/
structure State where
  /-- CMD: a written code whose command has not run yet (10_state.md R28) -/
  cmd : Option Byte
  arg : Quad
  res : Quad
  fault : FaultRegs
  cfg : ConfigRegs
  /-- WBUF_CAP in bytes, `none` = infinite; no step changes it (40_bitio.md R130; log 4) -/
  wbufCap : Option Nat
  raster : Memory Color
  stripe : Memory Stripe
  rbuf : Memory Byte
  wr : Writer
  rd : Reader
  ana : Analysis
  pal : Palettes
  enc : Cursors
  dec : Jobs
  /-- WSTK, top first (10_state.md R39) -/
  wstk : List Region
  /-- the model's own: the wire field that is due (log 10) -/
  due : Due
  /-- the model's own: the host's actions to come (log 6) -/
  hostq : List HostOp
  /-- the model's own: how many body faults have left free values (log 3) -/
  freeCtr : Nat
  /-- the model's own: how many power-on resets have passed (log 3) -/
  era : Nat
deriving DecidableEq, Repr

/-- Power-on reset (10_state.md R44, 70_reset_and_hazards.md R240): every register and counter 0,
every length-counted buffer empty, no command pending, nothing written to RASTER, STRIPE, RBUF. -/
def State.reset : State where
  cmd := none
  arg := ⟨0, 0, 0, 0⟩
  res := ⟨0, 0, 0, 0⟩
  fault := ⟨false, 0, 0, 0⟩
  cfg := ⟨0, 0, 0, 0, 0⟩
  wbufCap := Config.wbufCap
  raster := []
  stripe := []
  rbuf := []
  wr := ⟨[], 0, 0⟩
  rd := ⟨0, 0⟩
  ana := ⟨[], []⟩
  pal := ⟨[], []⟩
  enc := ⟨0, 0⟩
  dec := ⟨[], 0⟩
  wstk := []
  due := .none
  hostq := []
  freeCtr := 0
  era := 0

end Sys2Proof.Machine
end

