-- ==== Sys2Proof/Machine/Ops.lean ====
section
/-! DEFINITION. The named operations over memory, registers and buffers; taking a fault and leaving
it; the shape every command has. -/

namespace Sys2Proof.Machine

/-! ## Sparse memory -/

/-- The value an address holds, `none` where nothing was ever written. -/
def Memory.read {α : Type} : Memory α → Nat → Option α
  | [], _ => none
  | (b, v) :: rest, a => if a = b then some v else Memory.read rest a

/-- Write one entry; the listing stays in rising order of address. -/
def Memory.write {α : Type} : Memory α → Nat → α → Memory α
  | [], a, v => [(a, v)]
  | (b, u) :: rest, a, v =>
    if a < b then (a, v) :: (b, u) :: rest
    else if a = b then (a, v) :: rest
    else (b, u) :: Memory.write rest a v

/-- The canonical form: addresses strictly rising. An unlisted address holds no value, so no entry
equals what an unlisted address holds (log 1). -/
def Memory.wf {α : Type} : Memory α → Bool
  | [] => true
  | [_] => true
  | (a, _) :: (b, v) :: rest => decide (a < b) && Memory.wf ((b, v) :: rest)

/-- RASTER[x,y] (00_scope.md R8, 20_memory.md R67); a pixel never written is a free value (log 1). -/
def pixel (s : State) (x y : Nat) : Color :=
  let a := y * s.cfg.imgW.toNat + x
  (Memory.read s.raster a).getD (Config.unwrittenPixel s.era a)

/-- STRIPE[i] (10_state.md R27); an entry never written is a free value (log 1). -/
def stripeAt (s : State) (i : Nat) : Stripe :=
  (Memory.read s.stripe i).getD (Config.unwrittenStripe s.era i)

/-- RBUF[a] (10_state.md R32); a byte never written is a free value (log 1). -/
def rbyte (s : State) (a : Nat) : Byte :=
  (Memory.read s.rbuf a).getD (Config.unwrittenByte s.era a)

/-! ## Colours -/

/-- The 24-bit entry of a colour: R in bits 23:16, G in 15:8, B in 7:0 (10_state.md R30). -/
def packColor (c : Color) : Nat := c.r.toNat * 65536 + c.g.toNat * 256 + c.b.toNat

/-- The colour of a 24-bit entry. -/
def unpackColor (v : Nat) : Color :=
  ⟨BitVec.ofNat 8 (v / 65536), BitVec.ofNat 8 (v / 256), BitVec.ofNat 8 v⟩

/-- `absdiff` of 00_scope.md R7. -/
def absdiff (a b : Nat) : Nat := if b ≤ a then a - b else b - a

/-! ## Updates of one part of the state -/

def State.withWr (s : State) (w : Writer) : State := { s with wr := w }
def State.withRd (s : State) (r : Reader) : State := { s with rd := r }
def State.withAna (s : State) (a : Analysis) : State := { s with ana := a }
def State.withPal (s : State) (p : Palettes) : State := { s with pal := p }
def State.withEnc (s : State) (c : Cursors) : State := { s with enc := c }
def State.withDec (s : State) (d : Jobs) : State := { s with dec := d }
def State.withStack (s : State) (k : List Region) : State := { s with wstk := k }
def State.withDue (s : State) (d : Due) : State := { s with due := d }
def State.withRes (s : State) (q : Quad) : State := { s with res := q }
def State.withFault (s : State) (f : FaultRegs) : State := { s with fault := f }

/-- Write RES[0]; RES[1..3] stay (10_state.md R20). -/
def setRes0 (s : State) (a : Nat) : State := s.withRes { s.res with r0 := BitVec.ofNat 64 a }

/-- Write RES[0] and RES[1]. -/
def setRes01 (s : State) (a b : Nat) : State :=
  s.withRes { s.res with r0 := BitVec.ofNat 64 a, r1 := BitVec.ofNat 64 b }

/-- Write RES[0], RES[1] and RES[2]. -/
def setRes012 (s : State) (a b c : Nat) : State :=
  s.withRes { s.res with
    r0 := BitVec.ofNat 64 a, r1 := BitVec.ofNat 64 b, r2 := BitVec.ofNat 64 c }

/-- Write RES[0..3]. -/
def setRes0123 (s : State) (a b c d : Nat) : State :=
  s.withRes ⟨BitVec.ofNat 64 a, BitVec.ofNat 64 b, BitVec.ofNat 64 c, BitVec.ofNat 64 d⟩

/-! ## Taking a fault and leaving it -/

/-- The code of a cause: the class in the high nibble (60_exceptions.md R210, R211). -/
def causeCode : Cause → Byte
  | .palTabTruncated => 0x11
  | .streamExhausted => 0x12
  | .paletteRange => 0x13
  | .indexRange => 0x14
  | .unsplittable => 0x15
  | .paletteFull => 0x21
  | .palSizeUnrepresentable => 0x22
  | .palCountOverflow => 0x23
  | .wbufFull => 0x24
  | .patternGeometry => 0x31
  | .patternExhausted => 0x32
  | .leafRefExhausted => 0x33
  | .leftover => 0x34
  | .illegalCommand => 0x41
  | .illegalOperand => 0x42
  | .badConfig => 0x43

/-- Fault entry (60_exceptions.md R221): FAULT, ERR, ERRINFO0, ERRINFO1, and the command ends, so no
wire field is due any more. -/
def raiseFault (r : Raise) (s : State) : State :=
  { s with
    fault := ⟨true, causeCode r.cause, BitVec.ofNat 64 r.info0, BitVec.ofNat 64 r.info1⟩
    due := .none }

/-- Leaving the fault state, the first line of RESET's body (45_system.md R201; 60_exceptions.md R226). -/
def clearFault (s : State) : State := s.withFault ⟨false, 0, 0, 0⟩

/-! What a faulting body leaves unspecified (60_exceptions.md R225): each function frees one part of
the state; a command composes those its own rule lists as written (log 2, log 19). -/

def freeWriter (s : State) : State :=
  s.withWr ⟨Config.freeWbuf s.freeCtr, Config.freeWacc s.freeCtr, Config.freeWnb s.freeCtr⟩

def freePosition (s : State) : State := s.withRd { s.rd with rpos := Config.freeRpos s.freeCtr }

def freeLength (s : State) : State := s.withRd { s.rd with rlen := Config.freeRlen s.freeCtr }

def freeAnalysis (s : State) : State :=
  s.withAna ⟨Config.freePattern s.freeCtr, Config.freeLeafcolor s.freeCtr⟩

def freePaletteTable (s : State) : State :=
  s.withPal { s.pal with palettes := Config.freePalettes s.freeCtr }

def freeReferences (s : State) : State :=
  s.withPal { s.pal with leafref := Config.freeLeafref s.freeCtr }

def freeCursors (s : State) : State :=
  s.withEnc ⟨Config.freePatcur s.freeCtr, Config.freeRefcur s.freeCtr⟩

def freeJobs (s : State) : State :=
  s.withDec ⟨Config.freeJobq s.freeCtr, Config.freeLeaford s.freeCtr⟩

def freeWalk (s : State) : State := s.withStack (Config.freeStack s.freeCtr)

def freeRes0 (s : State) : State := s.withRes { s.res with r0 := Config.freeRes s.freeCtr 0 }

def freeRes01 (s : State) : State :=
  s.withRes { s.res with r0 := Config.freeRes s.freeCtr 0, r1 := Config.freeRes s.freeCtr 1 }

def freeRes012 (s : State) : State :=
  s.withRes { s.res with
    r0 := Config.freeRes s.freeCtr 0, r1 := Config.freeRes s.freeCtr 1,
    r2 := Config.freeRes s.freeCtr 2 }

/-- Fault entry from a command's body: what the command writes becomes free values, taken at a fresh
number, and the fault is entered (60_exceptions.md R221, R225). -/
def bodyFault (freed : State → State) (r : Raise) (s : State) : State :=
  raiseFault r { freed s with freeCtr := s.freeCtr + 1 }

/-! ## Configuration validity -/

/-- `imgOK` (10_state.md R29). -/
def imgOK (s : State) : Bool := decide (1 ≤ s.cfg.imgW.toNat) && decide (1 ≤ s.cfg.imgH.toNat)

/-- The stripes `i .. i+n-1` follow each other from row `y` on, each of height at least MINBLOCK, and
end at IMG_H. -/
def stripesOK (s : State) : Nat → Nat → Nat → Bool
  | 0, _, y => decide (y = s.cfg.imgH.toNat)
  | n + 1, i, y =>
    decide ((stripeAt s i).y.toNat = y) && decide (Config.minBlock ≤ (stripeAt s i).h.toNat) &&
      stripesOK s n (i + 1) (y + (stripeAt s i).h.toNat)

/-- `cfgOK` (10_state.md R29). -/
def cfgOK (s : State) : Bool :=
  imgOK s && decide (1 ≤ s.cfg.nstripe.toNat) && stripesOK s s.cfg.nstripe.toNat 0 0

/-! ## The shape of a command -/

/-- A command (30_encoding.md R105, 60_exceptions.md R224), its code being known: refused without any
change while FAULT = 1 (R227); the configuration it needs; its operand checks; its body. A fault of
the checks changes nothing but STATUS and ERRINFO (R225). -/
def runCommand (needs : State → Bool) (operands : State → Option Raise)
    (body : State → Except Raise State) (freed : State → State) (s : State) :
    Host.Outcome State Fault Refusal :=
  if s.fault.flag then .next s
  else if needs s then
    match operands s with
    | some r => .next (raiseFault r s)
    | none =>
      match body s with
      | .ok s' => .next s'
      | .error r => .next (bodyFault freed r s)
  else .next (raiseFault ⟨.badConfig, 0, 0⟩ s)

/-- A command without needs. -/
def noNeeds (_ : State) : Bool := true

/-- A command without operand checks. -/
def noChecks (_ : State) : Option Raise := none

end Sys2Proof.Machine
end

