-- ==== Sys2Proof/Machine/Operands.lean ====
section
/-! DEFINITION. The operands of the commands: ARG[0..3] at the moment the command starts
(30_encoding.md R104), and each command's operand checks. An operand is the whole 64-bit value
(R105): nothing is truncated. -/

namespace Sys2Proof.Machine

def arg0 (s : State) : Nat := s.arg.r0.toNat
def arg1 (s : State) : Nat := s.arg.r1.toNat
def arg2 (s : State) : Nat := s.arg.r2.toNat
def arg3 (s : State) : Nat := s.arg.r3.toNat

/-- `raise UsageError.IllegalOperand(i, ARG[i])` (30_encoding.md R105). -/
def illegalOperand (i v : Nat) : Raise := ⟨.illegalOperand, i, v⟩

/-- The region ARG[0..3] = x, y, w, h (41_classifier.md R148, R149). -/
def argRegion (s : State) : Region := ⟨arg0 s, arg1 s, arg2 s, arg3 s⟩

/-- PUTBIT (40_bitio.md R122). -/
def checkPutbit (s : State) : Option Raise :=
  if arg0 s ≤ 1 then none else some (illegalOperand 0 (arg0 s))

/-- PUTBITS: the width is checked before the value (40_bitio.md R123; log 16). -/
def checkPutbits (s : State) : Option Raise :=
  if arg1 s ≤ 32 then
    if arg0 s < 2 ^ arg1 s then none else some (illegalOperand 0 (arg0 s))
  else some (illegalOperand 1 (arg1 s))

/-- GETBITS (40_bitio.md R127). -/
def checkGetbits (s : State) : Option Raise :=
  if arg0 s ≤ 32 then none else some (illegalOperand 0 (arg0 s))

/-- A side of a region: 1..65535. -/
def sideOK (n : Nat) : Bool := decide (1 ≤ n) && decide (n ≤ 65535)

/-- SPLITGEOM (41_classifier.md R147). -/
def checkSplitgeom (s : State) : Option Raise :=
  if sideOK (arg0 s) then
    if sideOK (arg1 s) then none else some (illegalOperand 1 (arg1 s))
  else some (illegalOperand 0 (arg0 s))

/-- CLASSIFY, in operand order (41_classifier.md R148). -/
def checkClassify (s : State) : Option Raise :=
  if arg0 s ≤ 65535 then
    if arg1 s ≤ 65535 then
      if sideOK (arg2 s) then
        if sideOK (arg3 s) then none else some (illegalOperand 3 (arg3 s))
      else some (illegalOperand 2 (arg2 s))
    else some (illegalOperand 1 (arg1 s))
  else some (illegalOperand 0 (arg0 s))

/-- AVGCOLOR: as CLASSIFY, then the region must have a pixel in bounds (41_classifier.md R149). -/
def checkAvgcolor (s : State) : Option Raise :=
  match checkClassify s with
  | some r => some r
  | none =>
    if arg0 s < s.cfg.imgW.toNat ∧ arg1 s < s.cfg.imgH.toNat then none
    else some (illegalOperand 0 (arg0 s))

/-- `ceil(n / 256)`: how many palettes n leaves need (42_palette.md R162, R165). -/
def groupsOf (n : Nat) : Nat := (n + (Config.group - 1)) / Config.group

/-- PAL_PUSH: the colour, then the palette state (42_palette.md R162). -/
def checkPalPush (s : State) : Option Raise :=
  if arg0 s < 2 ^ 24 then
    if s.pal.palettes.length = groupsOf s.pal.leafref.length then none
    else some ⟨.badConfig, 1, s.pal.palettes.length⟩
  else some (illegalOperand 0 (arg0 s))

end Sys2Proof.Machine
end

