-- ==== Sys2Proof/Machine/BitIO.lean ====
section
/-! DEFINITION. Unit BIO: the MSB-first bit writer and bit reader (40_bitio.md). -/

namespace Sys2Proof.Machine

/-! ## Writer -/

/-- WBUF has no room for another byte (40_bitio.md R130). -/
def wbufIsFull (cap : Option Nat) (wlen : Nat) : Bool :=
  match cap with
  | none => false
  | some c => decide (c ≤ wlen)

/-- Append a whole byte and start an empty one, or raise WbufFull (40_bitio.md R122, R124, R130). -/
def emitByte (cap : Option Nat) (b : Byte) (w : Writer) : Except Raise Writer :=
  if wbufIsFull cap w.wbuf.length then .error ⟨.wbufFull, w.wbuf.length, 0⟩
  else .ok ⟨w.wbuf ++ [b], 0, 0⟩

/-- `putbit(b)` (40_bitio.md R122). -/
def putbit (cap : Option Nat) (b : Bool) (w : Writer) : Except Raise Writer :=
  let acc := w.wacc ||| (BitVec.ofNat 8 b.toNat <<< (7 - w.wnb.toNat))
  if w.wnb = 7 then emitByte cap acc w
  else .ok { w with wacc := acc, wnb := w.wnb + 1 }

/-- `putbits(v, n)` (40_bitio.md R123): bits n-1 down to 0 of `v`. -/
def putbits (cap : Option Nat) (v : Nat) : Nat → Writer → Except Raise Writer
  | 0, w => .ok w
  | n + 1, w => do
    let w' ← putbit cap (v.testBit n) w
    putbits cap v n w'

/-- `flush()` (40_bitio.md R124). -/
def flush (cap : Option Nat) (w : Writer) : Except Raise Writer :=
  if w.wnb = 0 then .ok w else emitByte cap w.wacc w

/-- The empty writer (40_bitio.md R121). -/
def emptyWriter : Writer := ⟨[], 0, 0⟩

/-- Run a writer body on the state's writer. -/
def onWriter (f : Option Nat → Writer → Except Raise Writer) (s : State) : Except Raise State := do
  let w ← f s.wbufCap s.wr
  pure (s.withWr w)

/-- BW_INIT (40_bitio.md R121). -/
def execBwInit (s : State) : Host.Outcome State Fault Refusal :=
  runCommand noNeeds noChecks (fun s => .ok (s.withWr emptyWriter)) id s

/-- PUTBIT b (40_bitio.md R122). -/
def execPutbit (s : State) : Host.Outcome State Fault Refusal :=
  runCommand noNeeds checkPutbit
    (fun s => onWriter (fun cap => putbit cap (decide (arg0 s = 1))) s) freeWriter s

/-- PUTBITS v, n (40_bitio.md R123). -/
def execPutbits (s : State) : Host.Outcome State Fault Refusal :=
  runCommand noNeeds checkPutbits
    (fun s => onWriter (fun cap => putbits cap (arg0 s) (arg1 s)) s) freeWriter s

/-- BW_FLUSH (40_bitio.md R124). -/
def execBwFlush (s : State) : Host.Outcome State Fault Refusal :=
  runCommand noNeeds noChecks (onWriter flush) freeWriter s

/-! ## Reader -/

/-- Stream bit `k`: bit `7 - k % 8` of RBUF[k / 8] (20_memory.md R60, 10_state.md R41). -/
def streamBit (s : State) (k : Nat) : Bool := (rbyte s (k / 8)).getLsbD (7 - k % 8)

/-- `getbit()` (40_bitio.md R126); `none` is `Exhausted`. -/
def getbit (s : State) : Option (Bool × State) :=
  if 8 * s.rd.rlen ≤ s.rd.rpos then none
  else some (streamBit s s.rd.rpos, s.withRd { s.rd with rpos := s.rd.rpos + 1 })

/-- The loop of `getbits`: `n` bits onto the value `v`. -/
def getbitsLoop : Nat → Nat → State → Option (Nat × State)
  | 0, v, s => some (v, s)
  | n + 1, v, s =>
    match getbit s with
    | none => none
    | some (b, s') => getbitsLoop n (2 * v + b.toNat) s'

/-- `getbits(n)` (40_bitio.md R127); `none` is `Exhausted`, with nothing consumed. -/
def getbits (n : Nat) (s : State) : Option (Nat × State) :=
  if 8 * s.rd.rlen < s.rd.rpos + n then none else getbitsLoop n 0 s

/-- `br_init(len)` (40_bitio.md R125). -/
def brInit (len : Nat) (s : State) : State := s.withRd ⟨len, 0⟩

/-- BR_INIT len (40_bitio.md R125). -/
def execBrInit (s : State) : Host.Outcome State Fault Refusal :=
  runCommand noNeeds noChecks (fun s => .ok (brInit (arg0 s) s)) id s

/-- GETBIT (40_bitio.md R126). -/
def execGetbit (s : State) : Host.Outcome State Fault Refusal :=
  runCommand noNeeds noChecks
    (fun s =>
      match getbit s with
      | none => .error ⟨.streamExhausted, s.rd.rpos, 1⟩
      | some (b, s') => .ok (setRes0 s' b.toNat))
    (freeRes0 ∘ freePosition) s

/-- GETBITS n (40_bitio.md R127). -/
def execGetbits (s : State) : Host.Outcome State Fault Refusal :=
  runCommand noNeeds checkGetbits
    (fun s =>
      match getbits (arg0 s) s with
      | none => .error ⟨.streamExhausted, s.rd.rpos, arg0 s⟩
      | some (v, s') => .ok (setRes0 s' v))
    (freeRes0 ∘ freePosition) s

end Sys2Proof.Machine
end

