-- ==== Sys2Proof/Machine/Walk.lean ====
section
/-! DEFINITION. The split rule and the walk that ANALYZE, ENC_TREE and DEC_TREE share
(41_classifier.md R140, 43_encoder.md R172). -/

namespace Sys2Proof.Machine

/-- `splitGeom(w, h)` (41_classifier.md R140). -/
def splitGeom (w h : Nat) : Division :=
  if h ≤ w ∧ Config.minBlock ≤ w / 2 then .width (w / 2) (w - w / 2)
  else if h / 2 < Config.minBlock then .undivided
  else .height (h / 2) (h - h / 2)

/-- The two children of a region, first child first (41_classifier.md R140); `none` for a leaf. -/
def children (r : Region) : Division → Option (Region × Region)
  | .undivided => none
  | .width w1 w2 => some (⟨r.x, r.y, w1, r.h⟩, ⟨r.x + w1, r.y, w2, r.h⟩)
  | .height h1 h2 => some (⟨r.x, r.y, r.w, h1⟩, ⟨r.x, r.y + h1, r.w, h2⟩)

/-- What a visit answers (43_encoder.md R172): the state after it, and the two children if the region
is split (44_decoder.md R187: `Leaf` or `Split(first, second)`). -/
abbrev Visited := State × Option (Region × Region)

/-- `push(WSTK, second) ; push(WSTK, first)` after a split, nothing after a leaf (41_classifier.md
R150, 44_decoder.md R188). -/
def pushKids (v : Visited) : State :=
  match v.2 with
  | none => v.1
  | some (first, second) => v.1.withStack (first :: second :: v.1.wstk)

/-- The root region of stripe `i` (10_state.md R27). -/
def stripeRoot (s : State) (i : Nat) : Region :=
  ⟨0, (stripeAt s i).y.toNat, s.cfg.imgW.toNat, (stripeAt s i).h.toNat⟩

/-- Visits that empty a stack holding one region of this size: a tree of non-empty regions has at most
w*h leaves, hence fewer than 2*w*h nodes (41_classifier.md R151, R152; log 17). -/
def visitBound (r : Region) : Nat := 2 * (r.w * r.h)

/-- `while WSTK not empty: pop, visit`; at most `fuel` visits. -/
def walkLoop (visit : Region → State → Except Raise Visited) : Nat → State → Except Raise State
  | 0, s => .ok s
  | fuel + 1, s =>
    match s.wstk with
    | [] => .ok s
    | r :: rest => do
      let v ← visit r (s.withStack rest)
      walkLoop visit fuel (pushKids v)

/-- `for i in 0 .. NSTRIPE-1` from stripe `i` on, `n` stripes: the root is put on the stack and walked
(43_encoder.md R172). -/
def walkStripes (visit : Nat → Region → State → Except Raise Visited) :
    Nat → Nat → State → Except Raise State
  | 0, _, s => .ok s
  | n + 1, i, s => do
    let s' ← walkLoop (visit i) (visitBound (stripeRoot s i)) (s.withStack [stripeRoot s i])
    walkStripes visit n (i + 1) s'

/-- The walk over every stripe. -/
def walk (visit : Nat → Region → State → Except Raise Visited) (s : State) : Except Raise State :=
  walkStripes visit s.cfg.nstripe.toNat 0 s

end Sys2Proof.Machine
end

