-- ==== Sys2Proof/Machine/Classifier.lean ====
section
/-! DEFINITION. Unit CLS: the region classifier, the leaf colour, the analysis pass
(41_classifier.md). `luma` is the open parameter LUMA (00_scope.md R6): a meaning passes
`Config.luma`. -/

namespace Sys2Proof.Machine

/-- The in-bounds pixels of a region, row by row (00_scope.md R9). -/
def inBounds (s : State) (r : Region) : List (Nat × Nat) :=
  (List.range (min (r.y + r.h) s.cfg.imgH.toNat - r.y)).flatMap fun j =>
    (List.range (min (r.x + r.w) s.cfg.imgW.toNat - r.x)).map fun i => (r.x + i, r.y + j)

/-- The pixel lies on the region's own outline (41_classifier.md R142). -/
def onRing (r : Region) (p : Nat × Nat) : Bool :=
  decide (p.1 = r.x) || decide (p.1 + 1 = r.x + r.w) || decide (p.2 = r.y) ||
    decide (p.2 + 1 = r.y + r.h)

/-- Largest minus smallest of a list of lumas, 0 for none (41_classifier.md R141). -/
def spreadOf : List Nat → Nat
  | [] => 0
  | a :: rest => rest.foldl max a - rest.foldl min a

/-- `spread(A)` for a set of in-bounds pixels (41_classifier.md R141). -/
def spread (luma : Color → BitVec 16) (s : State) (ps : List (Nat × Nat)) : Nat :=
  spreadOf (ps.map fun p => (luma (pixel s p.1 p.2)).toNat)

/-- The region energy E (41_classifier.md R141). -/
def energy (luma : Color → BitVec 16) (s : State) (r : Region) : Nat :=
  spread luma s (inBounds s r)

/-- The border energy Eb (41_classifier.md R142). -/
def borderEnergy (luma : Color → BitVec 16) (s : State) (r : Region) : Nat :=
  spread luma s ((inBounds s r).filter (onRing r))

/-- The inner energy Ei (41_classifier.md R142). -/
def innerEnergy (luma : Color → BitVec 16) (s : State) (r : Region) : Nat :=
  spread luma s ((inBounds s r).filter fun p => !onRing r p)

/-- `edgeDom` (41_classifier.md R144). -/
def edgeDom (luma : Color → BitVec 16) (s : State) (r : Region) : Bool :=
  decide (0 < borderEnergy luma s r) && decide (0 < innerEnergy luma s r) &&
    decide (2 * innerEnergy luma s r ≤ borderEnergy luma s r) &&
    (decide (2 * Config.minBlock < r.w) || decide (2 * Config.minBlock < r.h))

/-- `classify(x, y, w, h)` (41_classifier.md R146): the decision (`undivided` is Leaf) and the deciding
step. -/
def classify (luma : Color → BitVec 16) (s : State) (r : Region) : Division × Nat :=
  if r.w ≤ Config.minBlock ∧ r.h ≤ Config.minBlock then (.undivided, 1)
  else if energy luma s r = 0 then (.undivided, 2)
  else if edgeDom luma s r = false ∧ energy luma s r ≤ s.cfg.maxgrad.toNat ∧
      r.w ≤ 4 * Config.minBlock ∧ r.h ≤ 4 * Config.minBlock then (.undivided, 4)
  else
    match splitGeom r.w r.h with
    | .undivided => (.undivided, 6)
    | .width w1 w2 => (.width w1 w2, 5)
    | .height h1 h2 => (.height h1 h2, 5)

/-- `avgColor(x, y, w, h)` (41_classifier.md R149): the exact mean of each channel, truncated. -/
def avgColor (s : State) (r : Region) : Color :=
  let cs := (inBounds s r).map fun p => pixel s p.1 p.2
  let mean (ch : Color → Byte) : Byte := BitVec.ofNat 8 ((cs.map fun c => (ch c).toNat).sum / cs.length)
  ⟨mean Color.r, mean Color.g, mean Color.b⟩

/-- RES[0] of SPLITGEOM and CLASSIFY: 0 none or leaf, 1 width, 2 height (41_classifier.md R147, R148). -/
def divisionKind : Division → Nat
  | .undivided => 0
  | .width _ _ => 1
  | .height _ _ => 2

/-- RES[1]: the first size. -/
def divisionFirst : Division → Nat
  | .undivided => 0
  | .width a _ => a
  | .height a _ => a

/-- RES[2]: the second size. -/
def divisionSecond : Division → Nat
  | .undivided => 0
  | .width _ b => b
  | .height _ b => b

/-- One visit of the analysis pass (41_classifier.md R150). -/
def analyzeVisit (luma : Color → BitVec 16) (_ : Nat) (r : Region) (s : State) :
    Except Raise Visited :=
  match children r (classify luma s r).1 with
  | none =>
    .ok (s.withAna ⟨s.ana.pattern ++ [true], s.ana.leafcolor ++ [avgColor s r]⟩, none)
  | some kids => .ok (s.withAna { s.ana with pattern := s.ana.pattern ++ [false] }, some kids)

/-- `analyze()` (41_classifier.md R150). -/
def analyze (luma : Color → BitVec 16) (s : State) : Except Raise State :=
  walk (analyzeVisit luma) (s.withAna ⟨[], []⟩)

/-- SPLITGEOM w, h (41_classifier.md R147). -/
def execSplitgeom (s : State) : Host.Outcome State Fault Refusal :=
  runCommand noNeeds checkSplitgeom
    (fun s =>
      let d := splitGeom (arg0 s) (arg1 s)
      .ok (setRes012 s (divisionKind d) (divisionFirst d) (divisionSecond d)))
    id s

/-- CLASSIFY x, y, w, h (41_classifier.md R148). -/
def execClassify (s : State) : Host.Outcome State Fault Refusal :=
  runCommand imgOK checkClassify
    (fun s =>
      let c := classify Config.luma s (argRegion s)
      .ok (setRes0123 s (divisionKind c.1) (divisionFirst c.1) (divisionSecond c.1) c.2))
    id s

/-- AVGCOLOR x, y, w, h (41_classifier.md R149). -/
def execAvgcolor (s : State) : Host.Outcome State Fault Refusal :=
  runCommand imgOK checkAvgcolor
    (fun s => .ok (setRes0 s (packColor (avgColor s (argRegion s))))) id s

/-- ANALYZE (41_classifier.md R150); its body raises nothing. -/
def execAnalyze (s : State) : Host.Outcome State Fault Refusal :=
  runCommand cfgOK noChecks
    (fun s => do
      let s' ← analyze Config.luma s
      pure (setRes01 s' s'.ana.leafcolor.length s'.ana.pattern.length))
    (freeRes01 ∘ freeWalk ∘ freeAnalysis) s

end Sys2Proof.Machine
end

