-- ==== Sys2Proof/Syntax.lean ====
section
/-! DEFINITION. The instructions: one constructor per row of spec/opcode_table.json. "Instruction"
means a command or a piece of the wire format (00_scope.md R2). -/

namespace Sys2Proof

/-- A token of the wire grammar as the decoder reads it (30_encoding.md R91, R92). -/
inductive Token where
  | leaf (idx : Byte)
  | internal
deriving DecidableEq, Repr

/-- The rows of the opcode table. A command carries no operand of its own: its operands are what
ARG holds when it starts (30_encoding.md R104). -/
inductive Instr where
  -- wire format (30_encoding.md R92, R97, R98, R100)
  | leaf (idx : Byte)
  | internal
  | palCount (p : Half)
  | palSize (s : Byte)
  | palEntry (r g b : Byte)
  | pad (n : Nat)
  | artHeader (magic : BitVec 32) (width height : Half) (quality : Byte)
  -- commands (30_encoding.md R104)
  | nop
  | bwInit
  | putbit
  | putbits
  | bwFlush
  | brInit
  | getbit
  | getbits
  | splitgeom
  | classify
  | avgcolor
  | analyze
  | palInit
  | palPush
  | palBuild
  | encPaltab
  | encTree
  | encode
  | decPaltab
  | decTree
  | decode
  | reset
deriving DecidableEq, Repr

end Sys2Proof
end

