-- ==== Sys2Proof/WellFormed.lean ====
section
/-! DEFINITION. Which instruction terms stand for something the encoding can hold. -/

namespace Sys2Proof

/-- The padding has 0 to 7 bits (30_encoding.md R98). Every other field's width is its type, and
every value of it is legal as an encoding (R97, R102); operand ranges are checked by the commands
when they run (R105). -/
def wellFormed : Instr → Bool
  | .pad n => decide (n ≤ 7)
  | .leaf _ | .internal | .palCount _ | .palSize _ | .palEntry _ _ _ | .artHeader _ _ _ _ => true
  | .nop | .bwInit | .putbit | .putbits | .bwFlush | .brInit | .getbit | .getbits => true
  | .splitgeom | .classify | .avgcolor | .analyze => true
  | .palInit | .palPush | .palBuild => true
  | .encPaltab | .encTree | .encode => true
  | .decPaltab | .decTree | .decode => true
  | .reset => true

end Sys2Proof
end

