-- ==== Sys2Proof/Decode.lean ====
section
/-! DEFINITION. Reading an instruction from bits and writing one as bits (30_encoding.md).
Bits are listed in stream order: the first bit of the list is the first of the stream, and a field's
first bit is its most significant (20_memory.md R60, R61). -/

namespace Sys2Proof

/-- The `n` low bits of `v`, most significant first (20_memory.md R61). -/
def natToBits : Nat → Nat → List Bool
  | 0, _ => []
  | n + 1, v => v.testBit n :: natToBits n v

/-- The number whose bits, most significant first, follow the bits of `acc`. -/
def bitsToNatFrom : Nat → List Bool → Nat
  | acc, [] => acc
  | acc, b :: bs => bitsToNatFrom (2 * acc + b.toNat) bs

/-- The number whose bits, most significant first, are the list (20_memory.md R61, 30_encoding.md R94). -/
def bitsToNat (bs : List Bool) : Nat := bitsToNatFrom 0 bs

/-- What the bits are read as. Neither the token stream nor a table field marks itself
(30_encoding.md R93): the reader knows which it is due to read. -/
inductive Port where
  | cmd
  | token
  | palCount
  | palSize
  | palEntry
  | pad (n : Nat)
  | header
deriving DecidableEq, Repr

/-- Why the bits are no instruction. -/
inductive Reject where
  /-- a command code that 30_encoding.md R107 reserves -/
  | reservedCommand (code : Byte)
  /-- fewer bits than the row has; the row's mnemonic -/
  | truncated (row : String)
  /-- more padding than a byte can need (30_encoding.md R98) -/
  | padTooLong (n : Nat)
deriving DecidableEq, Repr

/-- The command codes of 30_encoding.md R104; every other code is reserved (R107). -/
def decodeCommand (code : Byte) : Option Instr :=
  match code.toNat with
  | 0x00 => some .nop
  | 0x01 => some .bwInit
  | 0x02 => some .putbit
  | 0x03 => some .putbits
  | 0x04 => some .bwFlush
  | 0x05 => some .brInit
  | 0x06 => some .getbit
  | 0x07 => some .getbits
  | 0x10 => some .splitgeom
  | 0x11 => some .classify
  | 0x12 => some .avgcolor
  | 0x13 => some .analyze
  | 0x20 => some .palInit
  | 0x21 => some .palPush
  | 0x22 => some .palBuild
  | 0x30 => some .encPaltab
  | 0x31 => some .encTree
  | 0x32 => some .encode
  | 0x40 => some .decPaltab
  | 0x41 => some .decTree
  | 0x42 => some .decode
  | 0xFF => some .reset
  | _ => none

/-- A token from its structure bit and, for a leaf, its index (30_encoding.md R92, R93, R94). -/
def decodeToken (leafBit : Bool) (idx : Nat) : Token :=
  if leafBit then .leaf (BitVec.ofNat 8 idx) else .internal

/-- The instruction a token is. -/
def tokenInstr : Token → Instr
  | .leaf idx => .leaf idx
  | .internal => .internal

/-- The field PAL_COUNT (30_encoding.md R97). -/
def decodePalCount (v : Nat) : Instr := .palCount (BitVec.ofNat 16 v)

/-- The field PAL_SIZE (30_encoding.md R97). -/
def decodePalSize (v : Nat) : Instr := .palSize (BitVec.ofNat 8 v)

/-- The field PAL_ENTRY from its three channels, in stream order R, G, B (20_memory.md R62). -/
def decodePalEntry (r g b : Nat) : Instr :=
  .palEntry (BitVec.ofNat 8 r) (BitVec.ofNat 8 g) (BitVec.ofNat 8 b)

/-- The 72 bits of the artifact header (30_encoding.md R100). -/
def decodeHeader (magic width height quality : Nat) : Instr :=
  .artHeader (BitVec.ofNat 32 magic) (BitVec.ofNat 16 width) (BitVec.ofNat 16 height)
    (BitVec.ofNat 8 quality)

/-- The value of the first `n` bits and the bits after them. -/
def splitField (n : Nat) (bits : List Bool) : Option (Nat × List Bool) :=
  if bits.length < n then none else some (bitsToNat (bits.take n), bits.drop n)

/-- One instruction from the front of the bits, and the bits left over. -/
def decode (port : Port) (bits : List Bool) : Except Reject (Instr × List Bool) :=
  match port with
  | .cmd =>
    match splitField 8 bits with
    | none => .error (.truncated "CMD")
    | some (v, rest) =>
      match decodeCommand (BitVec.ofNat 8 v) with
      | none => .error (.reservedCommand (BitVec.ofNat 8 v))
      | some i => .ok (i, rest)
  | .token =>
    match bits with
    | [] => .error (.truncated "INTERNAL")
    | false :: rest => .ok (tokenInstr (decodeToken false 0), rest)
    | true :: more =>
      match splitField 8 more with
      | none => .error (.truncated "LEAF")
      | some (idx, rest) => .ok (tokenInstr (decodeToken true idx), rest)
  | .palCount =>
    match splitField 16 bits with
    | none => .error (.truncated "PAL_COUNT")
    | some (v, rest) => .ok (decodePalCount v, rest)
  | .palSize =>
    match splitField 8 bits with
    | none => .error (.truncated "PAL_SIZE")
    | some (v, rest) => .ok (decodePalSize v, rest)
  | .palEntry =>
    match splitField 8 bits with
    | none => .error (.truncated "PAL_ENTRY")
    | some (r, rest1) =>
      match splitField 8 rest1 with
      | none => .error (.truncated "PAL_ENTRY")
      | some (g, rest2) =>
        match splitField 8 rest2 with
        | none => .error (.truncated "PAL_ENTRY")
        | some (b, rest3) => .ok (decodePalEntry r g b, rest3)
  | .pad n =>
    if 7 < n then .error (.padTooLong n)
    else if bits.length < n then .error (.truncated "PAD")
    else .ok (.pad n, bits.drop n)
  | .header =>
    match splitField 32 bits with
    | none => .error (.truncated "ART_HEADER")
    | some (m, rest1) =>
      match splitField 16 rest1 with
      | none => .error (.truncated "ART_HEADER")
      | some (w, rest2) =>
        match splitField 16 rest2 with
        | none => .error (.truncated "ART_HEADER")
        | some (h, rest3) =>
          match splitField 8 rest3 with
          | none => .error (.truncated "ART_HEADER")
          | some (q, rest4) => .ok (decodeHeader m w h q, rest4)

/-- The code of a command (30_encoding.md R104); `none` for a row of the wire format. -/
def commandCode : Instr → Option Nat
  | .leaf _ | .internal | .palCount _ | .palSize _ | .palEntry _ _ _ => none
  | .pad _ | .artHeader _ _ _ _ => none
  | .nop => some 0x00
  | .bwInit => some 0x01
  | .putbit => some 0x02
  | .putbits => some 0x03
  | .bwFlush => some 0x04
  | .brInit => some 0x05
  | .getbit => some 0x06
  | .getbits => some 0x07
  | .splitgeom => some 0x10
  | .classify => some 0x11
  | .avgcolor => some 0x12
  | .analyze => some 0x13
  | .palInit => some 0x20
  | .palPush => some 0x21
  | .palBuild => some 0x22
  | .encPaltab => some 0x30
  | .encTree => some 0x31
  | .encode => some 0x32
  | .decPaltab => some 0x40
  | .decTree => some 0x41
  | .decode => some 0x42
  | .reset => some 0xFF

/-- The bits of an instruction in stream order (30_encoding.md R92, R97, R98, R100, R104). -/
def encode (i : Instr) : List Bool :=
  match i with
  | .leaf idx => true :: natToBits 8 idx.toNat
  | .internal => [false]
  | .palCount p => natToBits 16 p.toNat
  | .palSize s => natToBits 8 s.toNat
  | .palEntry r g b => natToBits 8 r.toNat ++ natToBits 8 g.toNat ++ natToBits 8 b.toNat
  | .pad n => natToBits n 0
  | .artHeader m w h q =>
    natToBits 32 m.toNat ++ natToBits 16 w.toNat ++ natToBits 16 h.toNat ++ natToBits 8 q.toNat
  | .nop | .bwInit | .putbit | .putbits | .bwFlush | .brInit | .getbit | .getbits
  | .splitgeom | .classify | .avgcolor | .analyze | .palInit | .palPush | .palBuild
  | .encPaltab | .encTree | .encode | .decPaltab | .decTree | .decode | .reset =>
    natToBits 8 ((commandCode i).getD 0)

/-- The context an instruction is read in. -/
def portOf : Instr → Port
  | .leaf _ | .internal => .token
  | .palCount _ => .palCount
  | .palSize _ => .palSize
  | .palEntry _ _ _ => .palEntry
  | .pad n => .pad n
  | .artHeader _ _ _ _ => .header
  | .nop | .bwInit | .putbit | .putbits | .bwFlush | .brInit | .getbit | .getbits
  | .splitgeom | .classify | .avgcolor | .analyze | .palInit | .palPush | .palBuild
  | .encPaltab | .encTree | .encode | .decPaltab | .decTree | .decode | .reset => .cmd

/-- `n` bytes of a table word, the first byte the least significant (the table's numbering). -/
def tableBytes : Nat → Nat → List Byte
  | 0, _ => []
  | n + 1, w => BitVec.ofNat 8 w :: tableBytes n (w / 256)

/-- The stream bits of bytes, each most significant bit first (20_memory.md R60). -/
def bytesToBits (bs : List Byte) : List Bool := bs.flatMap fun b => natToBits 8 b.toNat

/-- The context a table word of `nbits` bits is read in. The table gives the word's length and not
its context; rows of one length share it (log 13). -/
def tablePort : Nat → Option Port
  | 1 | 9 => some .token
  | 7 => some (.pad 7)
  | 8 => some .cmd
  | 16 => some .palCount
  | 24 => some .palEntry
  | 72 => some .header
  | _ => none

/-- The stream bits of a table word: whole bytes as they lie in the buffer, a row that is no whole
number of bytes as its own bits, first bit most significant. -/
def tableBits (nbits w : Nat) : List Bool :=
  if nbits % 8 = 0 then bytesToBits (tableBytes (nbits / 8) w) else natToBits nbits w

/-- The instruction the decoder reads from a word of the opcode table. -/
def decodeTableWord (nbits w : Nat) : Option Instr :=
  match tablePort nbits with
  | none => none
  | some port =>
    match decode port (tableBits nbits w) with
    | .error _ => none
    | .ok (i, _) => some i

end Sys2Proof
end

