-- ==== Sys2Proof/Machine/Decoder.lean ====
section
/-! DEFINITION. Unit DEC: the tree bitstream decoder (44_decoder.md). -/

namespace Sys2Proof.Machine

/-! ## The palette table -/

/-- `need(n)` while palette `p` is read, 65536 for the count (44_decoder.md R186). -/
def need (n p : Nat) (s : State) : Except Raise (Nat × State) :=
  match getbits n s with
  | none => .error ⟨.palTabTruncated, s.rd.rpos, p⟩
  | some r => .ok r

/-- Three channels of one palette entry (44_decoder.md R186). -/
def needColor (p : Nat) (s : State) : Except Raise (Color × State) := do
  let (r, s) ← need 8 p s
  let (g, s) ← need 8 p s
  let (b, s) ← need 8 p s
  pure (⟨BitVec.ofNat 8 r, BitVec.ofNat 8 g, BitVec.ofNat 8 b⟩, s)

/-- `n` entries of palette `p` onto those already read. -/
def needColors (p : Nat) : Nat → List Color → State → Except Raise (List Color × State)
  | 0, done, s => .ok (done, s)
  | n + 1, done, s => do
    let (c, s) ← needColor p s
    needColors p n (done ++ [c]) s

/-- A palette is complete: `NPAL <- p + 1` with its entries (44_decoder.md R186). -/
def addPalette (cs : List Color) (s : State) : State :=
  s.withPal { s.pal with palettes := s.pal.palettes ++ [cs] }

/-- The next `n` palettes (44_decoder.md R186). -/
def needPalettes : Nat → State → Except Raise State
  | 0, s => .ok s
  | n + 1, s => do
    let p := s.pal.palettes.length
    let (z, s) ← need 8 p s
    let (cs, s) ← needColors p z [] s
    needPalettes n (addPalette cs s)

/-- `NPAL <- 0`; LEAFREF is not the decoder's (44_decoder.md R186). -/
def clearPalettes (s : State) : State := s.withPal { s.pal with palettes := [] }

/-- `dec_paltab()` (44_decoder.md R186). -/
def decPaltab (s : State) : Except Raise State := do
  let (p, s) ← need 16 65536 s
  needPalettes p (clearPalettes s)

/-! ## The token stream -/

/-- Read one token: the structure bit, and for a leaf its index (44_decoder.md R187). -/
def fetchToken (s : State) : Except Raise (Token × State) :=
  match getbit s with
  | none => .error ⟨.streamExhausted, s.rd.rpos, s.dec.leaford⟩
  | some (b, s1) =>
    if b then
      match getbits 8 s1 with
      | none => .error ⟨.streamExhausted, s1.rd.rpos, s1.dec.leaford⟩
      | some (idx, s2) => .ok (decodeToken true idx, s2)
    else .ok (decodeToken false 0, s1)

/-- The `pal` field of a paint job (10_state.md R37): the palette index, where 16 bits hold it; the
spec states no value for a wider one, which only a PALETTE that PAL_BUILD left behind can have
(log 8). -/
def jobPal (p : Nat) : Half := if p < 65536 then BitVec.ofNat 16 p else Config.widePal p

/-- A LEAF token at region `r`: the two range checks, the paint job, the ordinal (44_decoder.md R187). -/
def decLeaf (idx : Byte) (r : Region) (s : State) : Except Raise Visited :=
  let p := s.dec.leaford / Config.group
  match s.pal.palettes[p]? with
  | none => .error ⟨.paletteRange, s.dec.leaford, p⟩
  | some cs =>
    if cs.length ≤ idx.toNat then .error ⟨.indexRange, s.dec.leaford, idx.toNat⟩
    else
      .ok (s.withDec ⟨s.dec.jobq ++ [⟨r.x, r.y, r.w, r.h, jobPal p, idx⟩], s.dec.leaford + 1⟩, none)

/-- An INTERNAL token at region `r`, its bit already consumed (44_decoder.md R187). -/
def decInternal (r : Region) (s : State) : Except Raise Visited :=
  match children r (splitGeom r.w r.h) with
  | none => .error ⟨.unsplittable, s.rd.rpos - 1, r.x * 65536 + r.y⟩
  | some kids => .ok (s, some kids)

/-- The effect of a token at region `r`. -/
def tokenEffect (t : Token) (r : Region) (s : State) : Except Raise Visited :=
  match t with
  | .leaf idx => decLeaf idx r s
  | .internal => decInternal r s

/-- `dec_node(x, y, w, h)` (44_decoder.md R187). -/
def decVisit (_ : Nat) (r : Region) (s : State) : Except Raise Visited := do
  let (t, s) ← fetchToken s
  tokenEffect t r s

/-- `dec_tree()` (44_decoder.md R188). -/
def decTree (s : State) : Except Raise State := walk decVisit (s.withDec ⟨[], 0⟩)

/-- What DEC_PALTAB writes. -/
def freeDecPaltab : State → State := freeRes0 ∘ freePosition ∘ freePaletteTable

/-- What DEC_TREE writes. -/
def freeDecTree : State → State := freeRes0 ∘ freePosition ∘ freeWalk ∘ freeJobs

/-- DEC_PALTAB (44_decoder.md R186). -/
def execDecPaltab (s : State) : Host.Outcome State Fault Refusal :=
  runCommand noNeeds noChecks
    (fun s => do
      let s' ← decPaltab s
      pure (setRes0 s' s'.pal.palettes.length))
    freeDecPaltab s

/-- DEC_TREE (44_decoder.md R188). -/
def execDecTree (s : State) : Host.Outcome State Fault Refusal :=
  runCommand cfgOK noChecks
    (fun s => do
      let s' ← decTree s
      pure (setRes0 s' s'.dec.jobq.length))
    freeDecTree s

/-- DECODE len (44_decoder.md R189). -/
def execDecode (s : State) : Host.Outcome State Fault Refusal :=
  runCommand cfgOK noChecks
    (fun s => do
      let s1 ← decPaltab (brInit (arg0 s) s)
      let s2 ← decTree s1
      pure (setRes01 s2 s2.dec.jobq.length s2.rd.rpos))
    (freeRes01 ∘ freeLength ∘ freePosition ∘ freePaletteTable ∘ freeWalk ∘ freeJobs) s

end Sys2Proof.Machine
end

