-- ==== Sys2Proof/Machine/Palette.lean ====
section
/-! DEFINITION. Unit PAL: the palette merger (42_palette.md). -/

namespace Sys2Proof.Machine

/-- `near(c, e)` (42_palette.md R160): within COLORTOL on every channel, inclusive. -/
def near (tol : Nat) (c e : Color) : Bool :=
  decide (absdiff c.r.toNat e.r.toNat ≤ tol) && decide (absdiff c.g.toNat e.g.toNat ≤ tol) &&
    decide (absdiff c.b.toNat e.b.toNat ≤ tol)

/-- First entry near `c`, scanned in insertion order from index `j` on (42_palette.md R162). -/
def findNear (tol : Nat) (c : Color) : Nat → List Color → Option Nat
  | _, [] => none
  | j, e :: rest => if near tol c e then some j else findNear tol c (j + 1) rest

/-- The palette state with a palette opened for group `g` if that is the next one. -/
def openGroup (g : Nat) (p : List (List Color)) : List (List Color) :=
  if g = p.length then p ++ [[]] else p

/-- The colours of palette `g`. -/
def paletteAt (p : List (List Color)) (g : Nat) : List Color := p[g]?.getD []

/-- What `pal_push` returns: the palette index, the in-palette index, 1 if an entry was appended, and
the new palette state. -/
structure Pushed where
  g : Nat
  j : Nat
  isNew : Nat
  pal : Palettes
deriving DecidableEq, Repr

/-- `pal_push(c)` (42_palette.md R162). -/
def palPush (tol : Nat) (c : Color) (p : Palettes) : Except Raise Pushed :=
  let k := p.leafref.length
  let g := k / Config.group
  let ps := openGroup g p.palettes
  let cur := paletteAt ps g
  match findNear tol c 0 cur with
  | some j => .ok ⟨g, j, 0, ⟨ps, p.leafref ++ [BitVec.ofNat 8 j]⟩⟩
  | none =>
    if cur.length = Config.group then .error ⟨.paletteFull, g, k⟩
    else
      .ok ⟨g, cur.length, 1,
        ⟨ps.set g (cur ++ [c]), p.leafref ++ [BitVec.ofNat 8 cur.length]⟩⟩

/-- `pal_push` for each colour in order. -/
def palPushAll (tol : Nat) : List Color → Palettes → Except Raise Palettes
  | [], p => .ok p
  | c :: rest, p => do
    let r ← palPush tol c p
    palPushAll tol rest r.pal

/-- `pal_init()` (42_palette.md R161). -/
def palInit (s : State) : State := s.withPal ⟨[], []⟩

/-- `pal_build()` (42_palette.md R163). -/
def palBuild (s : State) : Except Raise State := do
  let p ← palPushAll s.cfg.colortol.toNat s.ana.leafcolor (palInit s).pal
  pure (s.withPal p)

/-- PAL_INIT (42_palette.md R161). -/
def execPalInit (s : State) : Host.Outcome State Fault Refusal :=
  runCommand noNeeds noChecks (fun s => .ok (palInit s)) id s

/-- PAL_PUSH c (42_palette.md R162). -/
def execPalPush (s : State) : Host.Outcome State Fault Refusal :=
  runCommand noNeeds checkPalPush
    (fun s => do
      let r ← palPush s.cfg.colortol.toNat (unpackColor (arg0 s)) s.pal
      pure (setRes012 (s.withPal r.pal) r.g r.j r.isNew))
    (freeRes012 ∘ freePaletteTable ∘ freeReferences) s

/-- PAL_BUILD (42_palette.md R163). -/
def execPalBuild (s : State) : Host.Outcome State Fault Refusal :=
  runCommand noNeeds noChecks
    (fun s => do
      let s' ← palBuild s
      pure (setRes0 s' s'.pal.palettes.length))
    (freeRes0 ∘ freePaletteTable ∘ freeReferences) s

end Sys2Proof.Machine
end

