-- ==== Sys2Proof/Machine/Encoder.lean ====
section
/-! DEFINITION. Unit ENC: the tree bitstream encoder (43_encoder.md). -/

namespace Sys2Proof.Machine

/-- Write one palette entry as PAL_ENTRY: R, G, B (43_encoder.md R171). -/
def putColor (cap : Option Nat) (c : Color) (w : Writer) : Except Raise Writer := do
  let w ← putbits cap c.r.toNat 8 w
  let w ← putbits cap c.g.toNat 8 w
  putbits cap c.b.toNat 8 w

/-- Write the entries of one palette in order. -/
def putColors (cap : Option Nat) : List Color → Writer → Except Raise Writer
  | [], w => .ok w
  | c :: rest, w => do
    let w ← putColor cap c w
    putColors cap rest w

/-- Write the palettes from number `p` on: PAL_SIZE, then the entries (43_encoder.md R171). -/
def putPalettes (cap : Option Nat) : Nat → List (List Color) → Writer → Except Raise Writer
  | _, [], w => .ok w
  | p, cs :: rest, w =>
    if 255 < cs.length then .error ⟨.palSizeUnrepresentable, p, cs.length⟩
    else do
      let w ← putbits cap cs.length 8 w
      let w ← putColors cap cs w
      putPalettes cap (p + 1) rest w

/-- `enc_paltab()` on the writer (43_encoder.md R171). -/
def putPaltab (ps : List (List Color)) (cap : Option Nat) (w : Writer) : Except Raise Writer :=
  if 65535 < ps.length then .error ⟨.palCountOverflow, ps.length, 0⟩
  else do
    let w ← putbits cap ps.length 16 w
    putPalettes cap 0 ps w

/-- `enc_paltab()` (43_encoder.md R171). -/
def encPaltab (s : State) : Except Raise State := onWriter (putPaltab s.pal.palettes) s

/-- Write a LEAF token: `putbit(1) ; putbits(idx, 8)` (43_encoder.md R173). -/
def putLeaf (idx : Byte) (cap : Option Nat) (w : Writer) : Except Raise Writer := do
  let w ← putbit cap true w
  putbits cap idx.toNat 8 w

/-- Write an INTERNAL token: `putbit(0)` (43_encoder.md R173). -/
def putInternal (cap : Option Nat) (w : Writer) : Except Raise Writer := putbit cap false w

/-- A visit where PATTERN says leaf (43_encoder.md R173). -/
def encLeaf (i : Nat) (s : State) : Except Raise Visited :=
  match s.pal.leafref[s.enc.refcur]? with
  | none => .error ⟨.leafRefExhausted, s.enc.refcur, i⟩
  | some idx => do
    let s' ← onWriter (putLeaf idx) (s.withEnc { s.enc with refcur := s.enc.refcur + 1 })
    pure (s', none)

/-- A visit where PATTERN says internal; PATCUR has passed the entry (43_encoder.md R173). -/
def encInternal (r : Region) (s : State) : Except Raise Visited :=
  match children r (splitGeom r.w r.h) with
  | none => .error ⟨.patternGeometry, s.enc.patcur - 1, r.x * 65536 + r.y⟩
  | some kids => do
    let s' ← onWriter putInternal s
    pure (s', some kids)

/-- One visit of the emission pass (43_encoder.md R173). -/
def encVisit (i : Nat) (r : Region) (s : State) : Except Raise Visited :=
  match s.ana.pattern[s.enc.patcur]? with
  | none => .error ⟨.patternExhausted, s.enc.patcur, i⟩
  | some isLeaf =>
    let s' := s.withEnc { s.enc with patcur := s.enc.patcur + 1 }
    if isLeaf then encLeaf i s' else encInternal r s'

/-- `enc_tree()` (43_encoder.md R173). -/
def encTree (s : State) : Except Raise State := do
  let s' ← walk encVisit (s.withEnc ⟨0, 0⟩)
  if s'.enc.patcur ≠ s'.ana.pattern.length ∨ s'.enc.refcur ≠ s'.pal.leafref.length then
    .error ⟨.leftover, s'.ana.pattern.length - s'.enc.patcur,
      s'.pal.leafref.length - s'.enc.refcur⟩
  else pure s'

/-- The body of ENCODE before its result register (43_encoder.md R174). -/
def encodeBody (luma : Color → BitVec 16) (s : State) : Except Raise State := do
  let s ← analyze luma s
  let s ← palBuild s
  let s ← encPaltab (s.withWr emptyWriter)
  let s ← encTree s
  onWriter flush s

/-- ENC_PALTAB (43_encoder.md R171). -/
def execEncPaltab (s : State) : Host.Outcome State Fault Refusal :=
  runCommand noNeeds noChecks encPaltab freeWriter s

/-- ENC_TREE (43_encoder.md R173). -/
def execEncTree (s : State) : Host.Outcome State Fault Refusal :=
  runCommand cfgOK noChecks encTree (freeWalk ∘ freeCursors ∘ freeWriter) s

/-- ENCODE (43_encoder.md R174). -/
def execEncode (s : State) : Host.Outcome State Fault Refusal :=
  runCommand cfgOK noChecks
    (fun s => do
      let s' ← encodeBody Config.luma s
      pure (setRes0 s' s'.wr.wbuf.length))
    (freeRes0 ∘ freeWalk ∘ freeCursors ∘ freeWriter ∘ freePaletteTable ∘ freeReferences ∘
      freeAnalysis) s

end Sys2Proof.Machine
end

