-- ==== Sys2Proof/Machine/System.lean ====
section
/-! DEFINITION. System commands (45_system.md). -/

namespace Sys2Proof.Machine

/-- NOP (45_system.md R200). -/
def execNop (s : State) : Host.Outcome State Fault Refusal :=
  runCommand noNeeds noChecks .ok id s

/-- The body of RESET (45_system.md R201): the fault is left, results, counters and block-written
buffers are emptied; ARG, the configuration and the host-loaded buffers stay. -/
def softReset (s : State) : State :=
  { clearFault s with
    res := ⟨0, 0, 0, 0⟩
    wr := ⟨[], 0, 0⟩
    rd := ⟨0, 0⟩
    ana := ⟨[], []⟩
    pal := ⟨[], []⟩
    enc := ⟨0, 0⟩
    dec := ⟨[], 0⟩
    wstk := [] }

/-- RESET: the one command accepted while FAULT = 1 (45_system.md R201, 60_exceptions.md R227). -/
def execReset (s : State) : Host.Outcome State Fault Refusal := .next (softReset s)

/-- Power-on reset (70_reset_and_hazards.md R240): the reset state of the same implementation, with
new unspecified contents; what the host is still going to do is its own. -/
def powerOn (s : State) : State :=
  { State.reset with
    wbufCap := s.wbufCap
    hostq := s.hostq
    freeCtr := s.freeCtr
    era := s.era + 1 }

end Sys2Proof.Machine
end

