-- ==== Sys2Proof/Machine/Wire.lean ====
section
/-! DEFINITION. The rows of the wire format as instructions. LEAF and INTERNAL are the decoder's visit
of one node (44_decoder.md R187); PAL_COUNT, PAL_SIZE, PAL_ENTRY are the parts of its table parse
(R186); `State.due` says which is due (log 10). A field that is not due is a bit pattern that
nothing reads (R192) and changes nothing; nor does any while FAULT = 1 (60_exceptions.md R227). -/

namespace Sys2Proof.Machine

/-- What is due when `left` palettes are still to come. -/
def dueSize (left : Nat) : Due := if left = 0 then .none else .size left

/-- A palette is complete and `left` palettes are still to come. -/
def closePalette (cs : List Color) (left : Nat) (s : State) : State :=
  (addPalette cs s).withDue (dueSize left)

/-- The outcome of a token's effect; a fault is the walk's, so what DEC_TREE writes is freed. -/
def tokenOutcome (t : Token) (s : State) : Host.Outcome State Fault Refusal :=
  if s.fault.flag then .next s
  else
    match s.due, s.wstk with
    | .node _, r :: rest =>
      match tokenEffect t r (s.withStack rest) with
      | .ok v => .next (pushKids v)
      | .error e => .next (bodyFault freeDecTree e s)
    | _, _ => .next s

/-- LEAF (30_encoding.md R92, 44_decoder.md R187). -/
def execLeaf (idx : Byte) (s : State) : Host.Outcome State Fault Refusal :=
  tokenOutcome (.leaf idx) s

/-- INTERNAL (30_encoding.md R92, 44_decoder.md R187). -/
def execInternal (s : State) : Host.Outcome State Fault Refusal := tokenOutcome .internal s

/-- PAL_COUNT (30_encoding.md R97, 44_decoder.md R186): no palette yet, `p` to come. -/
def execPalCount (p : Half) (s : State) : Host.Outcome State Fault Refusal :=
  if s.fault.flag then .next s
  else
    match s.due with
    | .count => .next ((clearPalettes s).withDue (dueSize p.toNat))
    | _ => .next s

/-- PAL_SIZE (30_encoding.md R97, 44_decoder.md R186): a palette of `n` entries begins; one of no
entries is complete at once. -/
def execPalSize (n : Byte) (s : State) : Host.Outcome State Fault Refusal :=
  if s.fault.flag then .next s
  else
    match s.due with
    | .size left =>
      if n.toNat = 0 then .next (closePalette [] (left - 1) s)
      else .next (s.withDue (.entry (left - 1) n.toNat []))
    | _ => .next s

/-- PAL_ENTRY (30_encoding.md R97, 44_decoder.md R186). -/
def execPalEntry (r g b : Byte) (s : State) : Host.Outcome State Fault Refusal :=
  if s.fault.flag then .next s
  else
    match s.due with
    | .entry left ents done =>
      if ents ≤ 1 then .next (closePalette (done ++ [⟨r, g, b⟩]) left s)
      else .next (s.withDue (.entry left (ents - 1) (done ++ [⟨r, g, b⟩])))
    | _ => .next s

/-- PAD (30_encoding.md R98): ordinary bits that no token claims and the decoder does not read
(20_memory.md R64, 44_decoder.md R192; log 11). -/
def execPad (_ : Nat) (s : State) : Host.Outcome State Fault Refusal := .next s

/-- ART_HEADER (30_encoding.md R100, 60_exceptions.md R217, 70_reset_and_hazards.md R247): the host
checks the tag; a wrong tag is its own error and leaves the block untouched, the right one lets it
load IMG_W and IMG_H. The quality byte is for the host's excluded smoother (log 12). -/
def execArtHeader (magic : BitVec 32) (width height : Half) (_ : Byte) (s : State) :
    Host.Outcome State Fault Refusal :=
  if magic = Config.magic then .next { s with cfg := { s.cfg with imgW := width, imgH := height } }
  else .next s

end Sys2Proof.Machine
end

