-- ==== Sys2Proof/Machine/Dispatch.lean ====
section
/-! DEFINITION. One arm per instruction. -/

namespace Sys2Proof.Machine

def exec (i : Instr) (s : State) : Host.Outcome State Fault Refusal :=
  match i with
  | .leaf idx => Sys2Proof.Machine.execLeaf idx s
  | .internal => Sys2Proof.Machine.execInternal s
  | .palCount p => Sys2Proof.Machine.execPalCount p s
  | .palSize n => Sys2Proof.Machine.execPalSize n s
  | .palEntry r g b => Sys2Proof.Machine.execPalEntry r g b s
  | .pad n => Sys2Proof.Machine.execPad n s
  | .artHeader magic width height quality => Sys2Proof.Machine.execArtHeader magic width height quality s
  | .nop => Sys2Proof.Machine.execNop s
  | .bwInit => Sys2Proof.Machine.execBwInit s
  | .putbit => Sys2Proof.Machine.execPutbit s
  | .putbits => Sys2Proof.Machine.execPutbits s
  | .bwFlush => Sys2Proof.Machine.execBwFlush s
  | .brInit => Sys2Proof.Machine.execBrInit s
  | .getbit => Sys2Proof.Machine.execGetbit s
  | .getbits => Sys2Proof.Machine.execGetbits s
  | .splitgeom => Sys2Proof.Machine.execSplitgeom s
  | .classify => Sys2Proof.Machine.execClassify s
  | .avgcolor => Sys2Proof.Machine.execAvgcolor s
  | .analyze => Sys2Proof.Machine.execAnalyze s
  | .palInit => Sys2Proof.Machine.execPalInit s
  | .palPush => Sys2Proof.Machine.execPalPush s
  | .palBuild => Sys2Proof.Machine.execPalBuild s
  | .encPaltab => Sys2Proof.Machine.execEncPaltab s
  | .encTree => Sys2Proof.Machine.execEncTree s
  | .encode => Sys2Proof.Machine.execEncode s
  | .decPaltab => Sys2Proof.Machine.execDecPaltab s
  | .decTree => Sys2Proof.Machine.execDecTree s
  | .decode => Sys2Proof.Machine.execDecode s
  | .reset => Sys2Proof.Machine.execReset s

end Sys2Proof.Machine
end

