-- ==== Sys2Proof/Machine/Flags.lean ====
section
/-! DEFINITION. The STATUS register (10_state.md R22). -/

namespace Sys2Proof.Machine

/-- STATUS.WPART: the writer holds a partial byte. -/
def wpart (s : State) : Bool := decide (s.wr.wnb ≠ 0)

/-- STATUS.REOF: no bit is left to read. -/
def reof (s : State) : Bool := decide (8 * s.rd.rlen ≤ s.rd.rpos)

/-- STATUS: FAULT in bit 0, WPART in bit 1, REOF in bit 2, bits 7:3 zero, ERR in bits 15:8. -/
def statusWord (s : State) : Half :=
  BitVec.ofNat 16
    (s.fault.err.toNat * 256 + (reof s).toNat * 4 + (wpart s).toNat * 2 + s.fault.flag.toNat)

end Sys2Proof.Machine
end

