-- ==== Sys2Proof/Machine/HostPort.lean ====
section
/-! DEFINITION. The host's access to registers and buffers (10_state.md R38, R43; 45_system.md R202,
R203). -/

namespace Sys2Proof.Machine

/-! ## Reads: they have no side effect (20_memory.md R69, 45_system.md R202) -/

/-- What the host reads at a register number (10_state.md R43); CMD and unassigned numbers read 0. -/
def readReg (s : State) (num : Byte) : Word :=
  match num.toNat with
  | 0x01 => (statusWord s).setWidth 64
  | 0x02 => s.fault.info0
  | 0x03 => s.fault.info1
  | 0x08 => s.arg.r0
  | 0x09 => s.arg.r1
  | 0x0A => s.arg.r2
  | 0x0B => s.arg.r3
  | 0x0C => s.res.r0
  | 0x0D => s.res.r1
  | 0x0E => s.res.r2
  | 0x0F => s.res.r3
  | 0x10 => s.cfg.imgW.setWidth 64
  | 0x11 => s.cfg.imgH.setWidth 64
  | 0x12 => BitVec.ofNat 64 Config.minBlock
  | 0x13 => s.cfg.maxgrad.setWidth 64
  | 0x14 => s.cfg.colortol.setWidth 64
  | 0x15 => s.cfg.nstripe.setWidth 64
  | 0x20 => BitVec.ofNat 64 s.wr.wbuf.length
  | 0x21 => s.wr.wnb.setWidth 64
  | 0x22 => s.wr.wacc.setWidth 64
  | 0x23 => BitVec.ofNat 64 s.rd.rlen
  | 0x24 => BitVec.ofNat 64 s.rd.rpos
  | 0x28 => BitVec.ofNat 64 s.ana.pattern.length
  | 0x29 => BitVec.ofNat 64 s.ana.leafcolor.length
  | 0x2A => BitVec.ofNat 64 s.pal.leafref.length
  | 0x2B => BitVec.ofNat 64 s.pal.palettes.length
  | 0x2C => BitVec.ofNat 64 s.dec.jobq.length
  | 0x2D => BitVec.ofNat 64 s.dec.leaford
  | 0x2E => BitVec.ofNat 64 s.enc.patcur
  | 0x2F => BitVec.ofNat 64 s.enc.refcur
  | _ => 0

/-! Buffer reads (10_state.md R38). `none`: at or above the length, where no value is specified. -/

def readRaster (s : State) (a : Nat) : Nat :=
  packColor ((Memory.read s.raster a).getD (Config.unwrittenPixel s.era a))
def readStripe (s : State) (i : Nat) : Stripe := stripeAt s i
def readRbuf (s : State) (a : Nat) : Byte := rbyte s a
def readWbuf (s : State) (i : Nat) : Option Byte := s.wr.wbuf[i]?
def readPattern (s : State) (i : Nat) : Option Bool := s.ana.pattern[i]?
def readLeafcolor (s : State) (i : Nat) : Option Nat := (s.ana.leafcolor[i]?).map packColor
def readPalsize (s : State) (p : Nat) : Option Nat := (s.pal.palettes[p]?).map List.length
def readPalette (s : State) (p j : Nat) : Option Nat :=
  ((s.pal.palettes[p]?).bind fun cs => cs[j]?).map packColor
def readLeafref (s : State) (k : Nat) : Option Byte := s.pal.leafref[k]?
def readJobq (s : State) (k : Nat) : Option Job := s.dec.jobq[k]?

/-! ## Writes -/

/-- A host write to a register (10_state.md R43, R45): CMD starts a command (R28); ARG and the
configuration registers take the value, a register narrower than the port its low bits (log 14); a
read-only or unassigned number ignores it. -/
def writeReg (num : Byte) (v : Word) (s : State) : State :=
  match num.toNat with
  | 0x00 => { s with cmd := some (v.setWidth 8) }
  | 0x08 => { s with arg := { s.arg with r0 := v } }
  | 0x09 => { s with arg := { s.arg with r1 := v } }
  | 0x0A => { s with arg := { s.arg with r2 := v } }
  | 0x0B => { s with arg := { s.arg with r3 := v } }
  | 0x10 => { s with cfg := { s.cfg with imgW := v.setWidth 16 } }
  | 0x11 => { s with cfg := { s.cfg with imgH := v.setWidth 16 } }
  | 0x13 => { s with cfg := { s.cfg with maxgrad := v.setWidth 16 } }
  | 0x14 => { s with cfg := { s.cfg with colortol := v.setWidth 16 } }
  | 0x15 => { s with cfg := { s.cfg with nstripe := v.setWidth 16 } }
  | _ => s

/-- One host action other than reading a header. A write at or above a length is of an entry whose
value is unspecified and no rule reads (10_state.md section 6), so it changes nothing (log 9). -/
def hostAct (op : HostOp) (s : State) : Except Fault State :=
  match op with
  | .writeReg num v => .ok (writeReg num v s)
  | .writeRaster a c =>
    if a < Config.rasterCapacity then .ok { s with raster := Memory.write s.raster a c }
    else .error (.noSuchEntry .raster a)
  | .writeStripe i v =>
    if i < Config.stripeCapacity then .ok { s with stripe := Memory.write s.stripe i v }
    else .error (.noSuchEntry .stripe i)
  | .writeRbuf a v =>
    if a < Config.rbufCapacity then .ok { s with rbuf := Memory.write s.rbuf a v }
    else .error (.noSuchEntry .rbuf a)
  | .writePattern i v => .ok (s.withAna { s.ana with pattern := s.ana.pattern.set i v })
  | .writeLeafcolor i c => .ok (s.withAna { s.ana with leafcolor := s.ana.leafcolor.set i c })
  | .readHeader _ => .ok s
  | .powerOn => .ok (powerOn s)

end Sys2Proof.Machine
end

