-- ==== Sys2Proof/Machine/Fetch.lean ====
section
/-! DEFINITION. What the next step is. The block has no program counter (10_state.md R21): it runs the
command pending in CMD; failing that, it takes the next wire field of a parse in progress (log 10);
failing that, the host acts (20_memory.md R71); with nothing left it waits (70_reset_and_hazards.md
R240). -/

namespace Sys2Proof.Machine

/-- What a step has to do. -/
inductive Fetched where
  /-- run this instruction from this state -/
  | run (i : Instr) (s : State)
  /-- the step is this state already -/
  | done (s : State)
  /-- the step stops -/
  | stop (f : Fault)
deriving DecidableEq, Repr

/-- A code the table does not list (30_encoding.md R105, R107): IllegalCommand(code, 0), or nothing
while FAULT = 1 (60_exceptions.md R227). -/
def unknownCommand (code : Byte) (s : State) : State :=
  if s.fault.flag then s else raiseFault ⟨.illegalCommand, code.toNat, 0⟩ s

/-- The command pending in CMD. -/
def fetchCommand (code : Byte) (s : State) : Fetched :=
  match decodeCommand code with
  | none => .done (unknownCommand code s)
  | some i => .run i s

/-- The instruction read by a field reader, or the reader's fault. -/
def fetched (freed : State → State) (s : State) : Except Raise (Instr × State) → Fetched
  | .ok (i, s') => .run i s'
  | .error r => .done (bodyFault freed r s)

/-- The next field of the palette table or token stream (44_decoder.md R186, R187, R188). -/
def fetchField (s : State) : Fetched :=
  match s.due with
  | .none => .done s
  | .count =>
    fetched freeDecPaltab s (do
      let (v, s') ← need 16 65536 s
      pure (decodePalCount v, s'))
  | .size _ =>
    fetched freeDecPaltab s (do
      let (v, s') ← need 8 s.pal.palettes.length s
      pure (decodePalSize v, s'))
  | .entry _ _ _ =>
    fetched freeDecPaltab s (do
      let (c, s') ← needColor s.pal.palettes.length s
      pure (decodePalEntry c.r.toNat c.g.toNat c.b.toNat, s'))
  | .node i =>
    match s.wstk with
    | [] =>
      if i + 1 < s.cfg.nstripe.toNat then
        .done ((s.withStack [stripeRoot s (i + 1)]).withDue (.node (i + 1)))
      else .done (s.withDue .none)
    | _ :: _ =>
      fetched freeDecTree s (do
        let (t, s') ← fetchToken s
        pure (tokenInstr t, s'))

/-- A host action. -/
def fetchHost (op : HostOp) (s : State) : Fetched :=
  match op with
  | .readHeader bytes =>
    match decode .header (bytesToBits bytes) with
    | .ok (i, _) => .run i s
    | .error _ => .done s
  | .writeReg .. | .writeRaster .. | .writeStripe .. | .writeRbuf .. | .writePattern ..
  | .writeLeafcolor .. | .powerOn =>
    match hostAct op s with
    | .ok s' => .done s'
    | .error f => .stop f

/-- What the next step has to do. -/
def fetch (s : State) : Fetched :=
  match s.cmd with
  | some code => fetchCommand code { s with cmd := none }
  | none =>
    match s.due with
    | .none =>
      match s.hostq with
      | [] => .done s
      | op :: rest => fetchHost op { s with hostq := rest }
    | .count | .size _ | .entry _ _ _ | .node _ => fetchField s

/-! ## Placing a table word where the next step fetches -/

/-- RBUF with these bytes from entry `a` on. -/
def loadRbuf : Nat → List Byte → Memory Byte → Memory Byte
  | _, [], m => m
  | a, b :: rest, m => loadRbuf (a + 1) rest (Memory.write m a b)

/-- The bytes a table word occupies, stream bit 0 first; bits past the word are 0. -/
def wordBytes (nbits w : Nat) : List Byte :=
  if nbits % 8 = 0 then tableBytes (nbits / 8) w
  else (tableBytes (nbits / 8 + 1) (w * 2 ^ (8 * (nbits / 8 + 1) - nbits))).reverse

/-- The stream begins with these bytes and the field `d` is due. -/
def placeField (bytes : List Byte) (d : Due) (s : State) : State :=
  { s with
    cmd := none
    due := d
    rbuf := loadRbuf 0 bytes s.rbuf
    rd := ⟨bytes.length, 0⟩ }

/-- `s` with a table word where the next step fetches it (log 13): a command in CMD, a field of the
payload at the front of RBUF with that field due (a token with a region of two pixels to visit, if
no region waits), a header as the host's next action. PAD is read by nothing. -/
def placeWord (s : State) (nbits w : Nat) : State :=
  match tablePort nbits with
  | some .cmd => { s with cmd := some (BitVec.ofNat 8 w) }
  | some .token =>
    { placeField (wordBytes nbits w) (.node 0) s with
      wstk := if s.wstk = [] then [⟨0, 0, 2, 1⟩] else s.wstk }
  | some .palCount => placeField (wordBytes nbits w) .count s
  | some .palSize => placeField (wordBytes nbits w) (.size 1) s
  | some .palEntry => placeField (wordBytes nbits w) (.entry 0 1 []) s
  | some .header =>
    { s with cmd := none, due := .none, hostq := .readHeader (wordBytes nbits w) :: s.hostq }
  | some (.pad _) | none => { s with cmd := none, due := .none }

end Sys2Proof.Machine
end

