-- ==== Sys2Proof/Safety.lean ====
section
/-! DEFINITION. The words statements about the machine are written in: a running machine, the
invariant of every step, the bits written and the bits still to read, the trees of the wire grammar,
the recursion the analysis pass follows. -/

namespace Sys2Proof.Machine

/-- No fault is pending (10_state.md R22): commands run. -/
abbrev Running (s : State) : Prop := s.fault.flag = false

/-! ## The bit stream -/

/-- Bits `7-WNB .. 0` of WACC are 0 (40_bitio.md R129). -/
def writerOK (w : Writer) : Bool := decide (w.wacc.toNat % 2 ^ (8 - w.wnb.toNat) = 0)

/-- The bits written since the last BW_INIT: the bytes of WBUF, then the WNB bits of WACC
(40_bitio.md R129). -/
def writerBits (w : Writer) : List Bool :=
  bytesToBits w.wbuf ++ (natToBits 8 w.wacc.toNat).take w.wnb.toNat

/-- WBUF has room for the bytes that `n` more bits complete (40_bitio.md R130). -/
def roomFor (s : State) (n : Nat) : Bool :=
  match s.wbufCap with
  | none => true
  | some c => decide (s.wr.wbuf.length + (s.wr.wnb.toNat + n) / 8 ≤ c)

/-- The bits from RPOS to the end of the stream (10_state.md R41). -/
def unreadBits (s : State) : List Bool :=
  (List.range (8 * s.rd.rlen - s.rd.rpos)).map fun k => streamBit s (s.rd.rpos + k)

/-- The state with the reader `n` bits further on (40_bitio.md R126, R127). -/
def State.advance (s : State) (n : Nat) : State := s.withRd { s.rd with rpos := s.rd.rpos + n }

/-- `putbits` for each field `(value, width)` in order (40_bitio.md R128). -/
def putFields (cap : Option Nat) : List (Nat × Nat) → Writer → Except Raise Writer
  | [], w => .ok w
  | (v, n) :: rest, w => do
    let w' ← putbits cap v n w
    putFields cap rest w'

/-- `getbits` for each width in order; the values and the state after them (40_bitio.md R128). -/
def getFields : List Nat → State → Option (List Nat × State)
  | [], s => some ([], s)
  | n :: rest, s =>
    match getbits n s with
    | none => none
    | some (v, s1) =>
      match getFields rest s1 with
      | none => none
      | some (vs, s2) => some (v :: vs, s2)

/-- The bits of fields `(value, width)` (20_memory.md R61). -/
def fieldBits (fs : List (Nat × Nat)) : List Bool := fs.flatMap fun f => natToBits f.2 f.1

/-- RBUF begins with these bytes, and they are the stream, unread (the copy of 40_bitio.md R128). -/
def loaded (bytes : List Byte) (s : State) : State :=
  { s with rbuf := loadRbuf 0 bytes s.rbuf, rd := ⟨bytes.length, 0⟩ }

/-- The bits of palettes, without the count (30_encoding.md R97). -/
def palettesWire (ps : List (List Color)) : List Bool :=
  ps.flatMap fun cs =>
    encode (.palSize (BitVec.ofNat 8 cs.length)) ++
      cs.flatMap fun c => encode (.palEntry c.r c.g c.b)

/-- The bits of a palette table (30_encoding.md R96, R97). -/
def tableWire (ps : List (List Color)) : List Bool :=
  encode (.palCount (BitVec.ofNat 16 ps.length)) ++ palettesWire ps

/-- The palettes have an encoding (30_encoding.md R97). -/
def tableFits (ps : List (List Color)) : Bool :=
  decide (ps.length ≤ 65535) && ps.all fun cs => decide (cs.length ≤ 255)

/-- A stream whose next bits, from position `pos` on, are `bits` ends inside the palette table, at the
first field that does not fit entirely: the information of PalTabTruncated (44_decoder.md R186,
60_exceptions.md R211, R212). -/
inductive TableCut (pos : Nat) (bits : List Bool) : Nat → Nat → Prop where
  /-- inside the count -/
  | count (h : bits.length < 16) : TableCut pos bits pos 65536
  /-- inside the palette after the complete palettes `ps`: in its size, or in the channels that its
  size announces; the fields after the count are bytes -/
  | palette {n : Half} {ps : List (List Color)} {rest : List Bool}
      (hbits : bits = encode (.palCount n) ++ palettesWire ps ++ rest)
      (hsize : ∀ cs ∈ ps, cs.length ≤ 255) (hn : ps.length < n.toNat)
      (h : rest.length < 8 + 24 * bitsToNat (rest.take 8)) :
      TableCut pos bits (pos + 8 * (bits.length / 8)) ps.length

/-! ## Trees of the wire grammar (30_encoding.md R91) -/

/-- `node := leaf-bit (1) leaf-body | internal-bit (0) node node`. -/
inductive WireTree where
  | leaf (idx : Byte)
  | node (first second : WireTree)
deriving DecidableEq, Repr

/-- Every internal node stands at a region that `splitGeom` divides. -/
def WireTree.fits : WireTree → Region → Bool
  | .leaf _, _ => true
  | .node a b, r =>
    match children r (splitGeom r.w r.h) with
    | none => false
    | some (ra, rb) => a.fits ra && b.fits rb

/-- The tokens in pre-order, as bits (30_encoding.md R92, R95). -/
def WireTree.wire : WireTree → List Bool
  | .leaf idx => encode (.leaf idx)
  | .node a b => encode .internal ++ (a.wire ++ b.wire)

/-- The pattern: 1 for a leaf, 0 for an internal node, in pre-order (10_state.md R33). -/
def WireTree.pattern : WireTree → List Bool
  | .leaf _ => [true]
  | .node a b => false :: (a.pattern ++ b.pattern)

/-- The leaves' indices in pre-order. -/
def WireTree.refs : WireTree → List Byte
  | .leaf idx => [idx]
  | .node a b => a.refs ++ b.refs

/-- The leaves' regions in pre-order. -/
def WireTree.regions : WireTree → Region → List Region
  | .leaf _, r => [r]
  | .node a b, r =>
    match children r (splitGeom r.w r.h) with
    | none => []
    | some (ra, rb) => a.regions ra ++ b.regions rb

/-- Splits on the longest path from the root to a leaf. -/
def WireTree.depth : WireTree → Nat
  | .leaf _ => 0
  | .node a b => max a.depth b.depth + 1

/-- One tree per stripe, from stripe `i` on, each fitting its stripe's region. -/
def forestFits (s : State) : Nat → List WireTree → Bool
  | i, [] => decide (i = s.cfg.nstripe.toNat)
  | i, t :: ts => t.fits (stripeRoot s i) && forestFits s (i + 1) ts

/-- The token stream of the stripes' trees, nothing between them (20_memory.md R63). -/
def forestWire (ts : List WireTree) : List Bool := ts.flatMap WireTree.wire

/-- PATTERN for the stripes' trees. -/
def forestPattern (ts : List WireTree) : List Bool := ts.flatMap WireTree.pattern

/-- LEAFREF for the stripes' trees. -/
def forestRefs (ts : List WireTree) : List Byte := ts.flatMap WireTree.refs

/-- The leaf regions of the stripes' trees, from stripe `i` on. -/
def forestRegions (s : State) : Nat → List WireTree → List Region
  | _, [] => []
  | i, t :: ts => t.regions (stripeRoot s i) ++ forestRegions s (i + 1) ts

/-- The paint jobs of leaves numbered from `k` on: palette `k / 256` (30_encoding.md R94). -/
def jobsFrom : Nat → List Region → List Byte → List Job
  | k, r :: rs, idx :: refs =>
    ⟨r.x, r.y, r.w, r.h, jobPal (k / Config.group), idx⟩ :: jobsFrom (k + 1) rs refs
  | _, _, _ => []

/-- Every reference, from leaf number `k` on, names an entry of its group's palette. -/
def refsInRange (ps : List (List Color)) : Nat → List Byte → Bool
  | _, [] => true
  | k, idx :: refs =>
    decide (idx.toNat < (paletteAt ps (k / Config.group)).length) && refsInRange ps (k + 1) refs

/-! ## A walk that has come to a node (43_encoder.md R172) -/

/-- What lies before a node of a tree, in pre-order: nothing, if it is the root; else the internal node
above it, and what lies before it in the first child, or the whole first child and what lies before
it in the second. -/
inductive Before where
  | here
  | first (p : Before)
  | second (a : WireTree) (p : Before)
deriving DecidableEq, Repr

/-- The tokens before the node. -/
def Before.wire : Before → List Bool
  | .here => []
  | .first p => encode .internal ++ p.wire
  | .second a p => encode .internal ++ (a.wire ++ p.wire)

/-- The pattern entries before the node. -/
def Before.pattern : Before → List Bool
  | .here => []
  | .first p => false :: p.pattern
  | .second a p => false :: (a.pattern ++ p.pattern)

/-- The indices of the leaves before the node. -/
def Before.refs : Before → List Byte
  | .here => []
  | .first p => p.refs
  | .second a p => a.refs ++ p.refs

/-- The node's region in a tree on `r`; `none` where some node before it has no such children. -/
def Before.region : Before → Region → Option Region
  | .here, r => some r
  | .first p, r =>
    match children r (splitGeom r.w r.h) with
    | none => none
    | some (ra, _) => p.region ra
  | .second a p, r =>
    match children r (splitGeom r.w r.h) with
    | none => none
    | some (ra, rb) => if a.fits ra then p.region rb else none

/-- Each tree fits the region of its stripe, from stripe `i` on. -/
def treesFit (s : State) : Nat → List WireTree → Bool
  | _, [] => true
  | i, t :: ts => t.fits (stripeRoot s i) && treesFit s (i + 1) ts

/-- The walk over the stripes has come to a node at region `r`: behind it lie the trees `ts` of whole
stripes and `p` of stripe `ts.length`. -/
def NodeDue (s : State) (ts : List WireTree) (p : Before) (r : Region) : Prop :=
  ts.length < s.cfg.nstripe.toNat ∧ treesFit s 0 ts = true ∧
    p.region (stripeRoot s ts.length) = some r

/-- What `dec_node` raises at a node at region `r` where the next bits, from position `pos` on, are
`bits` and LEAFORD is `n` (44_decoder.md R187; the order is that of 60_exceptions.md R224). -/
inductive TokenError (ps : List (List Color)) (pos n : Nat) (r : Region) :
    List Bool → Byte → Nat → Nat → Prop where
  /-- StreamExhausted at the structure bit -/
  | noBit : TokenError ps pos n r [] 0x12 pos n
  /-- StreamExhausted at the index -/
  | noIndex {rest : List Bool} (h : rest.length < 8) :
      TokenError ps pos n r (true :: rest) 0x12 (pos + 1) n
  /-- PaletteRange -/
  | palette {idx : Byte} {rest : List Bool} (h : ps.length ≤ n / 256) :
      TokenError ps pos n r (encode (.leaf idx) ++ rest) 0x13 n (n / 256)
  /-- IndexRange -/
  | index {idx : Byte} {rest : List Bool} {cs : List Color} (hp : ps[n / 256]? = some cs)
      (h : cs.length ≤ idx.toNat) :
      TokenError ps pos n r (encode (.leaf idx) ++ rest) 0x14 n idx.toNat
  /-- Unsplittable -/
  | split {rest : List Bool} (h : splitGeom r.w r.h = .undivided) :
      TokenError ps pos n r (encode .internal ++ rest) 0x15 pos (r.x * 65536 + r.y)

/-- The parsing pass from state `s` comes to a node whose token it cannot take: the code and the
information of the fault (44_decoder.md R187, R188). -/
def ParseFails (s : State) (code : Byte) (info0 info1 : Nat) : Prop :=
  ∃ ts p r rest, NodeDue s ts p r ∧ unreadBits s = forestWire ts ++ p.wire ++ rest ∧
    refsInRange s.pal.palettes 0 (forestRefs ts ++ p.refs) = true ∧
    TokenError s.pal.palettes (s.rd.rpos + (forestWire ts ++ p.wire).length)
      (forestRefs ts ++ p.refs).length r rest code info0 info1

/-- What `enc_node` raises at a node at region `r` of stripe `i`, with `k` pattern entries and `m`
references consumed and these still to come (43_encoder.md R173). -/
inductive EmitError (i k m : Nat) (r : Region) : List Bool → List Byte → Byte → Nat → Nat → Prop where
  /-- PatternExhausted -/
  | noPattern {refs : List Byte} : EmitError i k m r [] refs 0x32 k i
  /-- LeafRefExhausted -/
  | noRef {pat : List Bool} : EmitError i k m r (true :: pat) [] 0x33 m i
  /-- PatternGeometry -/
  | geometry {pat : List Bool} {refs : List Byte} (h : splitGeom r.w r.h = .undivided) :
      EmitError i k m r (false :: pat) refs 0x31 k (r.x * 65536 + r.y)

/-- The emission pass from state `s`, once it has written `bits`, disagrees with PATTERN or LEAFREF: at
a node, or after the last one (43_encoder.md R173, 60_exceptions.md R222). -/
inductive EmitFails (s : State) : List Bool → Byte → Nat → Nat → Prop where
  | node {ts : List WireTree} {p : Before} {r : Region} {pat : List Bool} {refs : List Byte}
      {code : Byte} {info0 info1 : Nat} (hdue : NodeDue s ts p r)
      (hpat : s.ana.pattern = forestPattern ts ++ p.pattern ++ pat)
      (hrefs : s.pal.leafref = forestRefs ts ++ p.refs ++ refs)
      (h : EmitError ts.length (forestPattern ts ++ p.pattern).length
        (forestRefs ts ++ p.refs).length r pat refs code info0 info1) :
      EmitFails s (forestWire ts ++ p.wire) code info0 info1
  /-- Leftover -/
  | leftover {ts : List WireTree} {pat : List Bool} {refs : List Byte}
      (hfit : forestFits s 0 ts = true) (hpat : s.ana.pattern = forestPattern ts ++ pat)
      (hrefs : s.pal.leafref = forestRefs ts ++ refs) (h : pat ≠ [] ∨ refs ≠ []) :
      EmitFails s (forestWire ts) 0x34 pat.length refs.length

/-! ## The analysis pass as a recursion (41_classifier.md R150, 43_encoder.md R172) -/

/-- The pattern and leaf colours the recursion "visit node; if internal: first child, second child"
gives for a region. -/
inductive Analyzed (s : State) : Region → List Bool → List Color → Prop where
  | leaf {r : Region} (h : children r (classify Config.luma s r).1 = none) :
      Analyzed s r [true] [avgColor s r]
  | node {r ra rb : Region} {pa pb : List Bool} {ca cb : List Color}
      (h : children r (classify Config.luma s r).1 = some (ra, rb))
      (ha : Analyzed s ra pa ca) (hb : Analyzed s rb pb cb) :
      Analyzed s r (false :: (pa ++ pb)) (ca ++ cb)

/-- The same for the stripes from number `i` on, `n` of them, concatenated in order. -/
inductive AnalyzedStripes (s : State) : Nat → Nat → List Bool → List Color → Prop where
  | nil {i : Nat} : AnalyzedStripes s 0 i [] []
  | cons {n i : Nat} {p ps : List Bool} {c cs : List Color}
      (h : Analyzed s (stripeRoot s i) p c) (hs : AnalyzedStripes s n (i + 1) ps cs) :
      AnalyzedStripes s (n + 1) i (p ++ ps) (c ++ cs)

/-! ## Faults and frames -/

/-- What belongs to the host reads in `t` as it does in `s`: CMD, ARG, the configuration, every pixel,
stripe entry and stream byte, and the capacity of WBUF (10_state.md R45). -/
def HostSideKept (s t : State) : Prop :=
  t.cmd = s.cmd ∧ t.arg = s.arg ∧ t.cfg = s.cfg ∧ t.wbufCap = s.wbufCap ∧ t.hostq = s.hostq ∧
    (∀ x y, pixel t x y = pixel s x y) ∧ (∀ i, stripeAt t i = stripeAt s i) ∧
    (∀ a, rbyte t a = rbyte s a)

/-- The parts of the state that a command's rule can list as written (10_state.md R38). -/
inductive Part where
  | res0
  | res1
  | res2
  | writer
  | rlen
  | rpos
  | analysis
  | palettes
  | leafref
  | cursors
  | jobs
  | stack
deriving DecidableEq, Repr

/-- The part is in `t` as it is in `s`. -/
def Part.same (s t : State) : Part → Prop
  | .res0 => t.res.r0 = s.res.r0
  | .res1 => t.res.r1 = s.res.r1
  | .res2 => t.res.r2 = s.res.r2
  | .writer => t.wr = s.wr
  | .rlen => t.rd.rlen = s.rd.rlen
  | .rpos => t.rd.rpos = s.rd.rpos
  | .analysis => t.ana = s.ana
  | .palettes => t.pal.palettes = s.pal.palettes
  | .leafref => t.pal.leafref = s.pal.leafref
  | .cursors => t.enc = s.enc
  | .jobs => t.dec = s.dec
  | .stack => t.wstk = s.wstk

/-- What the rule of an instruction lists as written (10_state.md R38, the instruction's own rule;
log 19), for the instructions whose body could raise a fault; the others list none here. -/
def writesOf : Instr → List Part
  | .putbit | .putbits | .bwFlush | .encPaltab => [.writer]
  | .getbit | .getbits => [.res0, .rpos]
  | .analyze => [.res0, .res1, .analysis, .stack]
  | .palBuild => [.res0, .palettes, .leafref]
  | .palPush => [.res0, .res1, .res2, .palettes, .leafref]
  | .encTree => [.writer, .cursors, .stack]
  | .encode => [.res0, .analysis, .palettes, .leafref, .writer, .cursors, .stack]
  | .decPaltab => [.res0, .rpos, .palettes]
  | .decTree | .leaf _ | .internal => [.res0, .rpos, .jobs, .stack]
  | .decode => [.res0, .res1, .rlen, .rpos, .palettes, .jobs, .stack]
  | .nop | .bwInit | .brInit | .splitgeom | .classify | .avgcolor | .palInit | .reset
  | .palCount _ | .palSize _ | .palEntry _ _ _ | .pad _ | .artHeader _ _ _ _ => []

/-- The body of the instruction faults: it answers a next state whose fault registers hold this fault
(60_exceptions.md R221). Of the rest of the state only what the instruction's rule lists as written
is unspecified (R225): RES[3], what belongs to the host, the host's buffers entry by entry, and every
part not listed are as they were, and no field is due (log 10). -/
def Faults (i : Instr) (s : State) (code : Byte) (info0 info1 : Nat) : Prop :=
  ∃ t, exec i s = .next t ∧
    t.fault = ⟨true, code, BitVec.ofNat 64 info0, BitVec.ofNat 64 info1⟩ ∧ t.due = .none ∧
    HostSideKept s t ∧ t.res.r3 = s.res.r3 ∧ ∀ p, p ∉ writesOf i → p.same s t

/-- The block's own state is in `t` as it is in `s` (10_state.md R45): STATUS and ERRINFO, RES, the
writer, the reader, the palettes and references, the cursors, the jobs, the lengths NPAT and NLEAF. -/
def BlockSideKept (s t : State) : Prop :=
  t.fault = s.fault ∧ t.res = s.res ∧ t.wr = s.wr ∧ t.rd = s.rd ∧ t.pal = s.pal ∧ t.enc = s.enc ∧
    t.dec = s.dec ∧ t.wstk = s.wstk ∧ t.ana.pattern.length = s.ana.pattern.length ∧
    t.ana.leafcolor.length = s.ana.leafcolor.length

/-- The pixel lies in the region (00_scope.md R9). -/
def covers (r : Region) (px py : Nat) : Bool :=
  decide (r.x ≤ px) && decide (px < r.x + r.w) && decide (r.y ≤ py) && decide (py < r.y + r.h)

/-- What the next field of a parse in progress is read as (log 10); a token only where a region waits. -/
def duePort (s : State) : Option Port :=
  match s.due, s.wstk with
  | .count, _ => some .palCount
  | .size _, _ => some .palSize
  | .entry _ _ _, _ => some .palEntry
  | .node _, _ :: _ => some .token
  | .node _, [] => none
  | .none, _ => none

/-- `s` with other contents of all that the decoder does not read (44_decoder.md R191). -/
def repaint (raster : Memory Color) (maxgrad colortol : Half) (ana : Analysis) (leafref : List Byte)
    (s : State) : State :=
  { s with
    raster := raster
    cfg := { s.cfg with maxgrad := maxgrad, colortol := colortol }
    ana := ana
    pal := { s.pal with leafref := leafref } }

/-- `s` with other contents of all that the emission pass does not read (43_encoder.md R173). -/
def retouch (raster : Memory Color) (maxgrad colortol : Half) (leafcolor : List Color)
    (palettes : List (List Color)) (s : State) : State :=
  { s with
    raster := raster
    cfg := { s.cfg with maxgrad := maxgrad, colortol := colortol }
    ana := { s.ana with leafcolor := leafcolor }
    pal := { s.pal with palettes := palettes } }

/-- `n` steps by `step`, stopping at a stop. -/
def steps : Nat → State → Host.Outcome State Fault Refusal
  | 0, s => .next s
  | n + 1, s =>
    match step s with
    | .next t => steps n t
    | .fault f => .fault f
    | .refused r => .refused r

/-! ## The invariant -/

/-- What every step keeps at command boundaries: the sparse memories are in canonical form; no field
is due; a clear FAULT has no code and no information (10_state.md R22); and while no fault is pending
the writer's unused bits are 0 (R40) and WBUF is within its capacity (40_bitio.md R130), the reader
is inside its stream (R41), the walk stack is empty (R39), LEAFORD is NJOB (R37) and no palette has
more than 256 entries (R35). -/
def Inv (s : State) : Prop :=
  Memory.wf s.raster = true ∧ Memory.wf s.stripe = true ∧ Memory.wf s.rbuf = true ∧
  s.due = .none ∧
  (s.fault.flag = false →
    s.fault.err = 0 ∧ s.fault.info0 = 0 ∧ s.fault.info1 = 0 ∧
    writerOK s.wr = true ∧
    (∀ c, s.wbufCap = some c → s.wr.wbuf.length ≤ c) ∧
    s.rd.rpos ≤ 8 * s.rd.rlen ∧
    s.wstk = [] ∧
    s.dec.leaford = s.dec.jobq.length ∧
    ∀ cs ∈ s.pal.palettes, cs.length ≤ Config.group)

end Sys2Proof.Machine
end

