-- ==== Sys2Proof/Certificates/Slice0/Obligations.lean ====
section
/-! DEFINITION. The statements for the provers, in the order of the spec's files. A result of an
instruction is stated as an equation `exec i s = .next t` whose `t` is `s` with the named parts
replaced: everything not named is unchanged. `Faults` states the fault's registers and that everything
the instruction's rule does not list as written is as it was: what it does list is then unspecified
(60_exceptions.md R225, log 19). -/

open Sys2Proof Sys2Proof.Machine

/-! ## Encodings -/

/-- 30_encoding.md R92, R97, R98, R100, R104: decoding what was encoded, in the context it is read in
and with any bits after it, gives every well-formed instruction back and leaves those bits. -/
def Obligations.DecodeOfEncode : Prop :=
  ∀ (i : Instr) (rest : List Bool), wellFormed i = true →
    decode (portOf i) (encode i ++ rest) = .ok (i, rest)

/-- 30_encoding.md R92, R97, R98, R100, R104: bits that decode are the encoding of what they decode to,
in the context they were read in; of padding only the number of bits counts (20_memory.md R64). -/
def Obligations.EncodeOfDecode : Prop :=
  ∀ (port : Port) (bits : List Bool) (i : Instr) (rest : List Bool),
    decode port bits = .ok (i, rest) →
      wellFormed i = true ∧ portOf i = port ∧
      ((∀ n, port ≠ .pad n) → encode i ++ rest = bits) ∧
      (∀ n, port = .pad n → i = .pad n ∧ rest = bits.drop n)

/-- Words written out from 30_encoding.md R92, R97, R98, R100 and the code table of R104. -/
def Obligations.DecodeWords : Prop :=
  decode .token [true, false, false, false, false, false, true, false, true] = .ok (.leaf 5, []) ∧
  decode .token [false, true] = .ok (.internal, [true]) ∧
  decode .palCount [false, false, false, false, false, false, false, true,
    false, false, false, false, false, false, true, false] = .ok (.palCount 258, []) ∧
  decode .palSize [true, true, true, true, true, true, true, true] = .ok (.palSize 255, []) ∧
  decode .palEntry (bytesToBits [0xC8, 0x64, 0x32]) = .ok (.palEntry 200 100 50, []) ∧
  decode (.pad 2) [false, false] = .ok (.pad 2, []) ∧
  decode .header (bytesToBits [1, 2, 3, 4, 0, 4, 1, 0, 50]) =
    .ok (.artHeader 0x01020304 4 256 50, []) ∧
  decodeCommand 0x00 = some .nop ∧ decodeCommand 0x01 = some .bwInit ∧
  decodeCommand 0x02 = some .putbit ∧ decodeCommand 0x03 = some .putbits ∧
  decodeCommand 0x04 = some .bwFlush ∧ decodeCommand 0x05 = some .brInit ∧
  decodeCommand 0x06 = some .getbit ∧ decodeCommand 0x07 = some .getbits ∧
  decodeCommand 0x10 = some .splitgeom ∧ decodeCommand 0x11 = some .classify ∧
  decodeCommand 0x12 = some .avgcolor ∧ decodeCommand 0x13 = some .analyze ∧
  decodeCommand 0x20 = some .palInit ∧ decodeCommand 0x21 = some .palPush ∧
  decodeCommand 0x22 = some .palBuild ∧ decodeCommand 0x30 = some .encPaltab ∧
  decodeCommand 0x31 = some .encTree ∧ decodeCommand 0x32 = some .encode ∧
  decodeCommand 0x40 = some .decPaltab ∧ decodeCommand 0x41 = some .decTree ∧
  decodeCommand 0x42 = some .decode ∧ decodeCommand 0xFF = some .reset

/-- 30_encoding.md R107: exactly these codes are reserved, and each raises IllegalCommand(code, 0). -/
def Obligations.ReservedCodes : Prop :=
  (∀ code : Byte, decodeCommand code = none ↔
    (0x08 ≤ code.toNat ∧ code.toNat ≤ 0x0F) ∨ (0x14 ≤ code.toNat ∧ code.toNat ≤ 0x1F) ∨
    (0x23 ≤ code.toNat ∧ code.toNat ≤ 0x2F) ∨ (0x33 ≤ code.toNat ∧ code.toNat ≤ 0x3F) ∨
    (0x43 ≤ code.toNat ∧ code.toNat ≤ 0xFE)) ∧
  (∀ (s : State) (code : Byte), s.cmd = some code → Running s → decodeCommand code = none →
    step s = .next (raiseFault ⟨.illegalCommand, code.toNat, 0⟩ { s with cmd := none }))

/-! ## Steps -/

/-- The step runs the decoded instruction: of the code pending in CMD, of the field a parse in progress
reads next (the reader then stands after it; log 10), and of an artifact header the host reads
(log 12). -/
def Obligations.StepRunsInstruction : Prop :=
  (∀ (s : State) (code : Byte) (i : Instr), s.cmd = some code → decodeCommand code = some i →
    step s = exec i { s with cmd := none }) ∧
  (∀ (s : State) (port : Port) (i : Instr) (rest : List Bool), s.cmd = none →
    s.rd.rpos ≤ 8 * s.rd.rlen → duePort s = some port →
    decode port (unreadBits s) = .ok (i, rest) →
    step s = exec i (s.advance ((unreadBits s).length - rest.length))) ∧
  (∀ (s : State) (bytes : List Byte) (q : List HostOp) (i : Instr) (rest : List Bool),
    s.cmd = none → s.due = .none → s.hostq = .readHeader bytes :: q →
    decode .header (bytesToBits bytes) = .ok (i, rest) →
    step s = exec i { s with hostq := q })

/-- 10_state.md R28: CMD reads as 0, a code written to it starts the command, and no command is pending
after reset. The model's choices in the second clause: the write is the host's next action (log 6);
write and command are two steps with nothing between them (log 7); and of a value wider than CMD's 8
bits, of which the rules say nothing, the low 8 are the code (log 14). -/
def Obligations.CmdWriteStartsCommand : Prop :=
  (∀ s : State, readReg s 0x00 = 0) ∧
  (∀ (s : State) (v : Word) (q : List HostOp) (i : Instr), s.cmd = none → s.due = .none →
    s.hostq = .writeReg 0x00 v :: q → decodeCommand (v.setWidth 8) = some i →
    steps 2 s = exec i { s with hostq := q }) ∧
  State.reset.cmd = none

/-- The model's way of holding the host's actions (log 6; 20_memory.md R71, 70_reset_and_hazards.md
R240): between commands the next host action is done; with none left the block waits; the step stops
only where the host writes an entry that its address space does not have (log 15). -/
def Obligations.StepHostActions : Prop :=
  (∀ (s : State) (op : HostOp) (q : List HostOp) (t : State), s.cmd = none → s.due = .none →
    s.hostq = op :: q → (∀ bytes, op ≠ .readHeader bytes) →
    hostAct op { s with hostq := q } = .ok t → step s = .next t) ∧
  (∀ s : State, s.cmd = none → s.due = .none → s.hostq = [] → step s = .next s) ∧
  (∀ (s : State) (f : Fault), step s = .fault f ↔
    s.cmd = none ∧ s.due = .none ∧ ∃ op q, s.hostq = op :: q ∧
      ((∃ a c, op = .writeRaster a c ∧ 65535 * 65535 ≤ a ∧ f = .noSuchEntry .raster a) ∨
       (∃ a v, op = .writeStripe a v ∧ 65535 ≤ a ∧ f = .noSuchEntry .stripe a) ∨
       (∃ a v, op = .writeRbuf a v ∧ 2 ^ 64 ≤ a ∧ f = .noSuchEntry .rbuf a))) ∧
  (∀ (s : State) (r : Refusal), step s ≠ .refused r)

/-- 10_state.md R43: what a write does at each register number, what each number reads, and that
write-only and unassigned numbers read 0. That a register narrower than the port takes the low bits of
the value is the model's choice (log 14). -/
def Obligations.RegisterMap : Prop :=
  (∀ (s : State) (v : Word),
    writeReg 0x00 v s = { s with cmd := some (v.setWidth 8) } ∧
    writeReg 0x08 v s = { s with arg := { s.arg with r0 := v } } ∧
    writeReg 0x09 v s = { s with arg := { s.arg with r1 := v } } ∧
    writeReg 0x0A v s = { s with arg := { s.arg with r2 := v } } ∧
    writeReg 0x0B v s = { s with arg := { s.arg with r3 := v } } ∧
    writeReg 0x10 v s = { s with cfg := { s.cfg with imgW := v.setWidth 16 } } ∧
    writeReg 0x11 v s = { s with cfg := { s.cfg with imgH := v.setWidth 16 } } ∧
    writeReg 0x13 v s = { s with cfg := { s.cfg with maxgrad := v.setWidth 16 } } ∧
    writeReg 0x14 v s = { s with cfg := { s.cfg with colortol := v.setWidth 16 } } ∧
    writeReg 0x15 v s = { s with cfg := { s.cfg with nstripe := v.setWidth 16 } }) ∧
  (∀ (s : State) (v : Word) (num : Byte),
    ¬ (num.toNat = 0x00 ∨ (0x08 ≤ num.toNat ∧ num.toNat ≤ 0x0B) ∨ num.toNat = 0x10 ∨
      num.toNat = 0x11 ∨ (0x13 ≤ num.toNat ∧ num.toNat ≤ 0x15)) →
    writeReg num v s = s) ∧
  (∀ s : State, readReg s 0x08 = s.arg.r0 ∧ readReg s 0x09 = s.arg.r1 ∧
    readReg s 0x0A = s.arg.r2 ∧ readReg s 0x0B = s.arg.r3 ∧
    (readReg s 0x10).toNat = s.cfg.imgW.toNat ∧ (readReg s 0x11).toNat = s.cfg.imgH.toNat ∧
    (readReg s 0x13).toNat = s.cfg.maxgrad.toNat ∧
    (readReg s 0x14).toNat = s.cfg.colortol.toNat ∧
    (readReg s 0x15).toNat = s.cfg.nstripe.toNat) ∧
  (∀ s : State, readReg s 0x02 = s.fault.info0 ∧ readReg s 0x03 = s.fault.info1 ∧
    readReg s 0x0C = s.res.r0 ∧ readReg s 0x0D = s.res.r1 ∧ readReg s 0x0E = s.res.r2 ∧
    readReg s 0x0F = s.res.r3 ∧ readReg s 0x12 = 1 ∧
    readReg s 0x20 = BitVec.ofNat 64 s.wr.wbuf.length ∧ (readReg s 0x21).toNat = s.wr.wnb.toNat ∧
    (readReg s 0x22).toNat = s.wr.wacc.toNat ∧ readReg s 0x23 = BitVec.ofNat 64 s.rd.rlen ∧
    readReg s 0x24 = BitVec.ofNat 64 s.rd.rpos ∧
    readReg s 0x28 = BitVec.ofNat 64 s.ana.pattern.length ∧
    readReg s 0x29 = BitVec.ofNat 64 s.ana.leafcolor.length ∧
    readReg s 0x2A = BitVec.ofNat 64 s.pal.leafref.length ∧
    readReg s 0x2B = BitVec.ofNat 64 s.pal.palettes.length ∧
    readReg s 0x2C = BitVec.ofNat 64 s.dec.jobq.length ∧
    readReg s 0x2D = BitVec.ofNat 64 s.dec.leaford ∧
    readReg s 0x2E = BitVec.ofNat 64 s.enc.patcur ∧ readReg s 0x2F = BitVec.ofNat 64 s.enc.refcur) ∧
  (∀ (s : State) (num : Byte),
    num.toNat = 0x00 ∨ (0x04 ≤ num.toNat ∧ num.toNat ≤ 0x07) ∨
      (0x16 ≤ num.toNat ∧ num.toNat ≤ 0x1F) ∨ (0x25 ≤ num.toNat ∧ num.toNat ≤ 0x27) ∨
      0x30 ≤ num.toNat →
    readReg s num = 0) ∧
  (∀ (s : State) (v : Word),
    readReg (writeReg 0x08 v s) 0x08 = v ∧ readReg (writeReg 0x09 v s) 0x09 = v ∧
    readReg (writeReg 0x0A v s) 0x0A = v ∧ readReg (writeReg 0x0B v s) 0x0B = v) ∧
  (∀ (s : State) (v : Word) (num : Byte),
    num = 0x10 ∨ num = 0x11 ∨ num = 0x13 ∨ num = 0x14 ∨ num = 0x15 →
    (readReg (writeReg num v s) num).toNat = v.toNat % 65536) ∧
  (∀ (s : State) (v : Word) (num other : Byte), num ≠ 0x00 → other ≠ num →
    readReg (writeReg num v s) other = readReg s other)

/-- 10_state.md R22: the fields of STATUS, in every state. -/
def Obligations.StatusRegister : Prop :=
  ∀ s : State,
    (statusWord s).getLsbD 0 = s.fault.flag ∧
    ((statusWord s).getLsbD 1 = true ↔ s.wr.wnb ≠ 0) ∧
    ((statusWord s).getLsbD 2 = true ↔ 8 * s.rd.rlen ≤ s.rd.rpos) ∧
    (∀ k, 3 ≤ k → k ≤ 7 → (statusWord s).getLsbD k = false) ∧
    (statusWord s).toNat / 256 = s.fault.err.toNat ∧
    readReg s 0x01 = (statusWord s).setWidth 64

/-- 70_reset_and_hazards.md R240: after power-on every register reads 0 but MINBLOCK = 1 and
STATUS = 0x0004, every length is 0, the configuration is invalid, no fault is pending, nothing is
written to the host's buffers, and the block waits. The first is the reset state, the second a
power-on later (log 3: the model counts them, and leaves the host's coming actions alone). -/
def Obligations.PowerOnReset : Prop :=
  (∀ num : Byte, readReg State.reset num =
    if num = 0x12 then 1 else if num = 0x01 then 0x0004 else 0) ∧
  cfgOK State.reset = false ∧ State.reset.wstk = [] ∧ State.reset.cmd = none ∧
  State.reset.raster = [] ∧ State.reset.stripe = [] ∧ State.reset.rbuf = [] ∧
  step State.reset = .next State.reset ∧
  (∀ (s : State) (num : Byte), readReg (powerOn s) num = readReg State.reset num) ∧
  (∀ s : State, cfgOK (powerOn s) = false ∧ (powerOn s).wstk = [] ∧ (powerOn s).cmd = none ∧
    (powerOn s).raster = [] ∧ (powerOn s).stripe = [] ∧ (powerOn s).rbuf = [])

/-- The invariant of `StepKeepsInv` holds at reset. -/
def Obligations.ResetInv : Prop := Inv State.reset

/-- 10_state.md R22, R35, R37, R39, R41; 40_bitio.md R129, R130: every step keeps the invariant, from
every state that has it. -/
def Obligations.StepKeepsInv : Prop :=
  ∀ s t : State, Inv s → step s = .next t → Inv t

/-- 10_state.md R45: no command and no payload field writes a configuration register, ARG, RASTER,
STRIPE or RBUF; no host action other than a power-on writes what is the block's, PATTERN and LEAFCOLOR
being written by both below their lengths. -/
def Obligations.BlockAndHostOwnership : Prop :=
  (∀ (i : Instr) (s t : State), portOf i ≠ .header → exec i s = .next t → HostSideKept s t) ∧
  (∀ (op : HostOp) (s t : State), op ≠ .powerOn → hostAct op s = .ok t → BlockSideKept s t)

/-- 10_state.md R30, R32, R33, R34, R38; 20_memory.md R67, R71; 45_system.md R203: what the host writes
to a buffer reads back, whatever IMG_W is, and every other entry reads as before; a pixel is the entry
`y*IMG_W + x` of RASTER; what the host reads of the block's buffers, below their lengths, and that
above them there is nothing to read (log 9). -/
def Obligations.HostWriteReadsBack : Prop :=
  (∀ (s t : State) (a : Nat) (c : Color), hostAct (.writeRaster a c) s = .ok t →
    readRaster t a = c.r.toNat * 65536 + c.g.toNat * 256 + c.b.toNat ∧
    ∀ b, b ≠ a → readRaster t b = readRaster s b) ∧
  (∀ (s : State) (x y : Nat), readRaster s (y * s.cfg.imgW.toNat + x) =
    (pixel s x y).r.toNat * 65536 + (pixel s x y).g.toNat * 256 + (pixel s x y).b.toNat) ∧
  (∀ (s t : State) (x y : Nat) (c : Color), x < s.cfg.imgW.toNat →
    hostAct (.writeRaster (y * s.cfg.imgW.toNat + x) c) s = .ok t →
    pixel t x y = c ∧ ∀ px py, px < s.cfg.imgW.toNat → (px, py) ≠ (x, y) →
      pixel t px py = pixel s px py) ∧
  (∀ (s t : State) (i : Nat) (v : Stripe), hostAct (.writeStripe i v) s = .ok t →
    readStripe t i = v ∧ ∀ j, j ≠ i → readStripe t j = readStripe s j) ∧
  (∀ (s t : State) (a : Nat) (v : Byte), hostAct (.writeRbuf a v) s = .ok t →
    readRbuf t a = v ∧ ∀ b, b ≠ a → readRbuf t b = readRbuf s b) ∧
  (∀ (s : State) (k : Nat), readStripe s k = stripeAt s k ∧ readRbuf s k = rbyte s k) ∧
  (∀ (s t : State) (i : Nat) (v : Bool), i < s.ana.pattern.length →
    hostAct (.writePattern i v) s = .ok t →
    readPattern t i = some v ∧ ∀ j, j ≠ i → readPattern t j = readPattern s j) ∧
  (∀ (s t : State) (i : Nat) (c : Color), i < s.ana.leafcolor.length →
    hostAct (.writeLeafcolor i c) s = .ok t →
    readLeafcolor t i = some (c.r.toNat * 65536 + c.g.toNat * 256 + c.b.toNat) ∧
    ∀ j, j ≠ i → readLeafcolor t j = readLeafcolor s j) ∧
  (∀ (s : State) (k : Nat), readWbuf s k = s.wr.wbuf[k]? ∧ readPattern s k = s.ana.pattern[k]? ∧
    readLeafref s k = s.pal.leafref[k]? ∧ readJobq s k = s.dec.jobq[k]?) ∧
  (∀ (s : State) (k : Nat) (c : Color), s.ana.leafcolor[k]? = some c →
    readLeafcolor s k = some (c.r.toNat * 65536 + c.g.toNat * 256 + c.b.toNat)) ∧
  (∀ (s : State) (k : Nat), s.ana.leafcolor.length ≤ k → readLeafcolor s k = none) ∧
  (∀ (s : State) (p : Nat) (cs : List Color), s.pal.palettes[p]? = some cs →
    readPalsize s p = some cs.length ∧
    (∀ j c, cs[j]? = some c →
      readPalette s p j = some (c.r.toNat * 65536 + c.g.toNat * 256 + c.b.toNat)) ∧
    ∀ j, cs.length ≤ j → readPalette s p j = none) ∧
  (∀ (s : State) (p : Nat), s.pal.palettes.length ≤ p →
    readPalsize s p = none ∧ ∀ j, readPalette s p j = none)

/-- 10_state.md R29: what `imgOK` and `cfgOK` say, the bound on NSTRIPE that follows, and that the
commands that need them raise BadConfig(0, 0) whatever their operands (30_encoding.md R105). -/
def Obligations.ConfigValidity : Prop :=
  (∀ s : State, imgOK s = true ↔ 1 ≤ s.cfg.imgW.toNat ∧ 1 ≤ s.cfg.imgH.toNat) ∧
  (∀ s : State, cfgOK s = true ↔
    1 ≤ s.cfg.imgW.toNat ∧ 1 ≤ s.cfg.imgH.toNat ∧ 1 ≤ s.cfg.nstripe.toNat ∧
    (stripeAt s 0).y.toNat = 0 ∧
    (∀ i, i < s.cfg.nstripe.toNat → 1 ≤ (stripeAt s i).h.toNat) ∧
    (∀ i, i + 1 < s.cfg.nstripe.toNat →
      (stripeAt s (i + 1)).y.toNat = (stripeAt s i).y.toNat + (stripeAt s i).h.toNat) ∧
    (stripeAt s (s.cfg.nstripe.toNat - 1)).y.toNat +
      (stripeAt s (s.cfg.nstripe.toNat - 1)).h.toNat = s.cfg.imgH.toNat) ∧
  (∀ s : State, cfgOK s = true → s.cfg.nstripe.toNat ≤ s.cfg.imgH.toNat) ∧
  (∀ (s : State) (i : Instr), Running s → i = .classify ∨ i = .avgcolor → imgOK s = false →
    exec i s = .next (raiseFault ⟨.badConfig, 0, 0⟩ s)) ∧
  (∀ (s : State) (i : Instr), Running s →
    i = .analyze ∨ i = .encTree ∨ i = .encode ∨ i = .decTree ∨ i = .decode → cfgOK s = false →
    exec i s = .next (raiseFault ⟨.badConfig, 0, 0⟩ s))

/-! ## Faults -/

/-- 60_exceptions.md R221, R211: taking a fault sets FAULT, ERR and the two information registers, ends
the parse in progress, and does nothing else; the host reads them back; the codes of the table. -/
def Obligations.FaultEntry : Prop :=
  (∀ (r : Raise) (s : State), raiseFault r s =
    { s with
      fault := ⟨true, causeCode r.cause, BitVec.ofNat 64 r.info0, BitVec.ofNat 64 r.info1⟩
      due := .none }) ∧
  (∀ (r : Raise) (s : State),
    (readReg (raiseFault r s) 0x01).getLsbD 0 = true ∧
    (readReg (raiseFault r s) 0x01).toNat / 256 = (causeCode r.cause).toNat ∧
    readReg (raiseFault r s) 0x02 = BitVec.ofNat 64 r.info0 ∧
    readReg (raiseFault r s) 0x03 = BitVec.ofNat 64 r.info1) ∧
  causeCode .palTabTruncated = 0x11 ∧ causeCode .streamExhausted = 0x12 ∧
  causeCode .paletteRange = 0x13 ∧ causeCode .indexRange = 0x14 ∧ causeCode .unsplittable = 0x15 ∧
  causeCode .paletteFull = 0x21 ∧ causeCode .palSizeUnrepresentable = 0x22 ∧
  causeCode .palCountOverflow = 0x23 ∧ causeCode .wbufFull = 0x24 ∧
  causeCode .patternGeometry = 0x31 ∧ causeCode .patternExhausted = 0x32 ∧
  causeCode .leafRefExhausted = 0x33 ∧ causeCode .leftover = 0x34 ∧
  causeCode .illegalCommand = 0x41 ∧ causeCode .illegalOperand = 0x42 ∧ causeCode .badConfig = 0x43

/-- 60_exceptions.md R227: while FAULT = 1 a code other than 0xFF changes nothing; the code is no
longer pending. -/
def Obligations.RefusedWhileFaulted : Prop :=
  ∀ (s : State) (code : Byte), s.cmd = some code → s.fault.flag = true → code ≠ 0xFF →
    step s = .next { s with cmd := none }

/-- 60_exceptions.md R226: a step changes the fault registers of a faulted state only where it is the
RESET command or a power-on, and then it clears them. -/
def Obligations.FaultLeftOnlyByReset : Prop :=
  ∀ s t : State, Inv s → s.fault.flag = true → step s = .next t → t.fault ≠ s.fault →
    (s.cmd = some 0xFF ∨ (s.cmd = none ∧ ∃ q, s.hostq = .powerOn :: q)) ∧
      t.fault = ⟨false, 0, 0, 0⟩

/-! ## System commands -/

/-- 45_system.md R200: NOP leaves every register and buffer as it was, faulted or not. -/
def Obligations.NopDoesNothing : Prop :=
  decodeCommand 0x00 = some .nop ∧ ∀ s : State, exec .nop s = .next s

/-- 45_system.md R201: what RESET clears, from every state; everything not named is kept, among it ARG,
the configuration and the host-loaded buffers; STATUS reads 0x0004. -/
def Obligations.SoftReset : Prop :=
  decodeCommand 0xFF = some .reset ∧
  ∀ s : State, ∃ t, exec .reset s = .next t ∧
    t = { s with
      fault := ⟨false, 0, 0, 0⟩, res := ⟨0, 0, 0, 0⟩, wr := ⟨[], 0, 0⟩, rd := ⟨0, 0⟩,
      ana := ⟨[], []⟩, pal := ⟨[], []⟩, enc := ⟨0, 0⟩, dec := ⟨[], 0⟩, wstk := [] } ∧
    statusWord t = 0x0004

/-! ## Bit writer -/

/-- 40_bitio.md R121: BW_INIT empties the writer; WPART becomes 0. -/
def Obligations.BwInit : Prop :=
  decodeCommand 0x01 = some .bwInit ∧
  ∀ s : State, Running s →
    exec .bwInit s = .next (s.withWr ⟨[], 0, 0⟩) ∧ wpart (s.withWr ⟨[], 0, 0⟩) = false

/-- 40_bitio.md R122: PUTBIT, case by case: an operand above 1; a bit that completes no byte; a bit that
completes a byte with room for it; without room.
Which parts a fault leaves as they were is the model's reading of R225 (`Faults`, log 19). -/
def Obligations.Putbit : Prop :=
  decodeCommand 0x02 = some .putbit ∧
  ∀ s : State, Running s →
    (1 < arg0 s → exec .putbit s = .next (raiseFault ⟨.illegalOperand, 0, arg0 s⟩ s)) ∧
    (arg0 s ≤ 1 → s.wr.wnb ≠ 7 →
      exec .putbit s = .next (s.withWr
        { s.wr with
          wacc := s.wr.wacc ||| (BitVec.ofNat 8 (arg0 s) <<< (7 - s.wr.wnb.toNat))
          wnb := s.wr.wnb + 1 })) ∧
    (arg0 s ≤ 1 → s.wr.wnb = 7 → (∀ c, s.wbufCap = some c → s.wr.wbuf.length < c) →
      exec .putbit s = .next (s.withWr
        ⟨s.wr.wbuf ++ [s.wr.wacc ||| BitVec.ofNat 8 (arg0 s)], 0, 0⟩)) ∧
    (∀ c, arg0 s ≤ 1 → s.wr.wnb = 7 → s.wbufCap = some c → c ≤ s.wr.wbuf.length →
      Faults .putbit s 0x24 s.wr.wbuf.length 0)

/-- 40_bitio.md R123: PUTBITS v, n: the operand checks, the width first; the value's `n` bits follow the
bits already written, most significant first; without room for a byte they complete, WbufFull.
Which parts a fault leaves as they were is the model's reading of R225 (`Faults`, log 19). -/
def Obligations.Putbits : Prop :=
  decodeCommand 0x03 = some .putbits ∧
  ∀ s : State, Running s → writerOK s.wr = true →
    (32 < arg1 s → exec .putbits s = .next (raiseFault ⟨.illegalOperand, 1, arg1 s⟩ s)) ∧
    (arg1 s ≤ 32 → 2 ^ arg1 s ≤ arg0 s →
      exec .putbits s = .next (raiseFault ⟨.illegalOperand, 0, arg0 s⟩ s)) ∧
    (arg1 s ≤ 32 → arg0 s < 2 ^ arg1 s → roomFor s (arg1 s) = true →
      ∃ w, exec .putbits s = .next (s.withWr w) ∧ writerOK w = true ∧
        writerBits w = writerBits s.wr ++ natToBits (arg1 s) (arg0 s)) ∧
    (∀ c, arg1 s ≤ 32 → arg0 s < 2 ^ arg1 s → s.wbufCap = some c → s.wr.wbuf.length ≤ c →
      roomFor s (arg1 s) = false → Faults .putbits s 0x24 c 0)

/-- 40_bitio.md R124, 20_memory.md R64: BW_FLUSH appends the partial byte, which is the bits not yet in
WBUF and zeros up to the byte's end; at a byte boundary it does nothing.
Which parts a fault leaves as they were is the model's reading of R225 (`Faults`, log 19). -/
def Obligations.BwFlush : Prop :=
  decodeCommand 0x04 = some .bwFlush ∧
  ∀ s : State, Running s → writerOK s.wr = true →
    (s.wr.wnb = 0 → exec .bwFlush s = .next s) ∧
    (s.wr.wnb ≠ 0 → (∀ c, s.wbufCap = some c → s.wr.wbuf.length < c) →
      exec .bwFlush s = .next (s.withWr ⟨s.wr.wbuf ++ [s.wr.wacc], 0, 0⟩) ∧
      bytesToBits (s.wr.wbuf ++ [s.wr.wacc]) =
        writerBits s.wr ++ List.replicate (8 - s.wr.wnb.toNat) false) ∧
    (∀ c, s.wr.wnb ≠ 0 → s.wbufCap = some c → c ≤ s.wr.wbuf.length →
      Faults .bwFlush s 0x24 s.wr.wbuf.length 0)

/-- 40_bitio.md R131: no instruction but BW_INIT, ENCODE (which begins with it) and RESET changes a byte
already in WBUF, unless it faults (then WBUF is unspecified, 60_exceptions.md R225). -/
def Obligations.WbufAppendOnly : Prop :=
  ∀ (i : Instr) (s t : State), i ≠ .bwInit → i ≠ .encode → i ≠ .reset → exec i s = .next t →
    Running t → s.wr.wbuf <+: t.wr.wbuf

/-- 40_bitio.md R128: fields written from the empty writer and flushed, copied to RBUF and read back
with the same widths, give the same values and leave 0 to 7 bits, all 0. -/
def Obligations.FieldsRoundTrip : Prop :=
  ∀ (cap : Option Nat) (fs : List (Nat × Nat)) (w1 w2 : Writer) (s : State),
    (∀ f ∈ fs, f.1 < 2 ^ f.2) → putFields cap fs emptyWriter = .ok w1 → flush cap w1 = .ok w2 →
    ∃ t, getFields (fs.map Prod.snd) (loaded w2.wbuf s) = some (fs.map Prod.fst, t) ∧
      t.rd.rpos = (fs.map Prod.snd).sum ∧
      (unreadBits t).length = 8 * t.rd.rlen - t.rd.rpos ∧
      (unreadBits t).length ≤ 7 ∧ ∀ b ∈ unreadBits t, b = false

/-! ## Bit reader -/

/-- 40_bitio.md R125: BR_INIT starts a stream of ARG[0] bytes; REOF becomes (len = 0). -/
def Obligations.BrInit : Prop :=
  decodeCommand 0x05 = some .brInit ∧
  ∀ s : State, Running s →
    exec .brInit s = .next (s.withRd ⟨arg0 s, 0⟩) ∧
      (reof (s.withRd ⟨arg0 s, 0⟩) = true ↔ arg0 s = 0)

/-- 40_bitio.md R126: GETBIT consumes bit `7 - RPOS % 8` of RBUF[RPOS / 8], or faults at the end.
Which parts a fault leaves as they were is the model's reading of R225 (`Faults`, log 19). -/
def Obligations.Getbit : Prop :=
  decodeCommand 0x06 = some .getbit ∧
  ∀ s : State, Running s →
    (s.rd.rpos < 8 * s.rd.rlen →
      exec .getbit s = .next (setRes0 (s.withRd { s.rd with rpos := s.rd.rpos + 1 })
        ((rbyte s (s.rd.rpos / 8)).getLsbD (7 - s.rd.rpos % 8)).toNat)) ∧
    (8 * s.rd.rlen ≤ s.rd.rpos → Faults .getbit s 0x12 s.rd.rpos 1)

/-- 40_bitio.md R127: GETBITS n: the operand check; the next `n` bits as a number, the first the most
significant; with fewer left, a fault whose information shows that none was consumed.
Which parts a fault leaves as they were is the model's reading of R225 (`Faults`, log 19). -/
def Obligations.Getbits : Prop :=
  decodeCommand 0x07 = some .getbits ∧
  ∀ s : State, Running s →
    (32 < arg0 s → exec .getbits s = .next (raiseFault ⟨.illegalOperand, 0, arg0 s⟩ s)) ∧
    (arg0 s ≤ 32 → s.rd.rpos + arg0 s ≤ 8 * s.rd.rlen →
      exec .getbits s = .next (setRes0 (s.advance (arg0 s))
        (bitsToNat ((unreadBits s).take (arg0 s))))) ∧
    (arg0 s ≤ 32 → 8 * s.rd.rlen < s.rd.rpos + arg0 s → Faults .getbits s 0x12 s.rd.rpos (arg0 s))

/-! ## Classifier -/

/-- 41_classifier.md R140: the split rule: where it divides and how, the children's places and sizes. -/
def Obligations.SplitRule : Prop :=
  ∀ w h : Nat, 1 ≤ w → 1 ≤ h →
    (splitGeom w h = .undivided ↔ w = 1 ∧ h = 1) ∧
    (h ≤ w → 2 ≤ w → splitGeom w h = .width (w / 2) (w - w / 2)) ∧
    (w < h → splitGeom w h = .height (h / 2) (h - h / 2)) ∧
    (∀ a b, splitGeom w h = .width a b →
      1 ≤ a ∧ a ≤ b ∧ b - a ≤ 1 ∧ a + b = w ∧
      ∀ x y, children ⟨x, y, w, h⟩ (splitGeom w h) = some (⟨x, y, a, h⟩, ⟨x + a, y, b, h⟩)) ∧
    (∀ a b, splitGeom w h = .height a b →
      1 ≤ a ∧ a ≤ b ∧ b - a ≤ 1 ∧ a + b = h ∧
      ∀ x y, children ⟨x, y, w, h⟩ (splitGeom w h) = some (⟨x, y, w, a⟩, ⟨x, y + a, w, b⟩))

/-- 41_classifier.md R147: SPLITGEOM w, h: the operand checks in order, the three results. -/
def Obligations.SplitgeomCommand : Prop :=
  decodeCommand 0x10 = some .splitgeom ∧
  ∀ s : State, Running s →
    (¬ (1 ≤ arg0 s ∧ arg0 s ≤ 65535) →
      exec .splitgeom s = .next (raiseFault ⟨.illegalOperand, 0, arg0 s⟩ s)) ∧
    (1 ≤ arg0 s ∧ arg0 s ≤ 65535 → ¬ (1 ≤ arg1 s ∧ arg1 s ≤ 65535) →
      exec .splitgeom s = .next (raiseFault ⟨.illegalOperand, 1, arg1 s⟩ s)) ∧
    (1 ≤ arg0 s ∧ arg0 s ≤ 65535 → 1 ≤ arg1 s ∧ arg1 s ≤ 65535 →
      (splitGeom (arg0 s) (arg1 s) = .undivided → exec .splitgeom s = .next (setRes012 s 0 0 0)) ∧
      (∀ a b, splitGeom (arg0 s) (arg1 s) = .width a b →
        exec .splitgeom s = .next (setRes012 s 1 a b)) ∧
      (∀ a b, splitGeom (arg0 s) (arg1 s) = .height a b →
        exec .splitgeom s = .next (setRes012 s 2 a b)))

/-- 00_scope.md R9: `inBounds` lists each in-bounds pixel of the region once, and no other. -/
def Obligations.InBoundsPixels : Prop :=
  ∀ (s : State) (r : Region), (inBounds s r).Nodup ∧
    ∀ p : Nat × Nat, p ∈ inBounds s r ↔
      covers r p.1 p.2 = true ∧ p.1 < s.cfg.imgW.toNat ∧ p.2 < s.cfg.imgH.toNat

/-- 41_classifier.md R141, R142: the spread of a set of pixels is the largest luma minus the smallest, 0
for none; it is 0 where all have one colour and grows with the set. The region's energy is the spread
of its in-bounds pixels, the border energy that of those in the outermost ring of its rectangle, the
inner energy that of the others, of which there are none where a side is at most 2. For every luma. -/
def Obligations.SpreadLaws : Prop :=
  ∀ (luma : Color → BitVec 16) (s : State),
    spread luma s [] = 0 ∧
    (∀ ps : List (Nat × Nat), ps ≠ [] → ∃ p ∈ ps, ∃ q ∈ ps,
      spread luma s ps = (luma (pixel s p.1 p.2)).toNat - (luma (pixel s q.1 q.2)).toNat ∧
      ∀ x ∈ ps, (luma (pixel s q.1 q.2)).toNat ≤ (luma (pixel s x.1 x.2)).toNat ∧
        (luma (pixel s x.1 x.2)).toNat ≤ (luma (pixel s p.1 p.2)).toNat) ∧
    (∀ (ps : List (Nat × Nat)) (c : Color), (∀ p ∈ ps, pixel s p.1 p.2 = c) →
      spread luma s ps = 0) ∧
    (∀ ps qs : List (Nat × Nat), ps ≠ [] → ps ⊆ qs → spread luma s ps ≤ spread luma s qs) ∧
    (∀ r : Region, energy luma s r = spread luma s (inBounds s r)) ∧
    (∀ r : Region, ∃ ring inner : List (Nat × Nat),
      (∀ px py, (px, py) ∈ ring ↔ (px, py) ∈ inBounds s r ∧
        (px = r.x ∨ px = r.x + r.w - 1 ∨ py = r.y ∨ py = r.y + r.h - 1)) ∧
      (∀ px py, (px, py) ∈ inner ↔ (px, py) ∈ inBounds s r ∧
        ¬ (px = r.x ∨ px = r.x + r.w - 1 ∨ py = r.y ∨ py = r.y + r.h - 1)) ∧
      borderEnergy luma s r = spread luma s ring ∧ innerEnergy luma s r = spread luma s inner) ∧
    (∀ r : Region, r.w ≤ 2 ∨ r.h ≤ 2 → innerEnergy luma s r = 0) ∧
    (∀ r : Region, r.w = 3 → r.h = 3 → innerEnergy luma s r = 0)

/-- 41_classifier.md R143, R145, R146: the decision, case by case, for every luma: step 1, step 2, step
4, else a split as `splitGeom` gives it; step 6 never decides, and a region with a side above 4 is a
leaf exactly when it is flat. -/
def Obligations.ClassifyDecision : Prop :=
  ∀ (luma : Color → BitVec 16) (s : State) (r : Region), 1 ≤ r.w → 1 ≤ r.h →
    (r.w = 1 ∧ r.h = 1 → classify luma s r = (.undivided, 1)) ∧
    (¬ (r.w = 1 ∧ r.h = 1) → energy luma s r = 0 → classify luma s r = (.undivided, 2)) ∧
    (¬ (r.w = 1 ∧ r.h = 1) → energy luma s r ≠ 0 → edgeDom luma s r = false →
      energy luma s r ≤ s.cfg.maxgrad.toNat → r.w ≤ 4 → r.h ≤ 4 →
      classify luma s r = (.undivided, 4)) ∧
    (¬ (r.w = 1 ∧ r.h = 1) → energy luma s r ≠ 0 →
      edgeDom luma s r = true ∨ s.cfg.maxgrad.toNat < energy luma s r ∨ 4 < r.w ∨ 4 < r.h →
      classify luma s r = (splitGeom r.w r.h, 5) ∧ splitGeom r.w r.h ≠ .undivided) ∧
    (classify luma s r).2 ≠ 6 ∧
    (4 < r.w ∨ 4 < r.h → ((classify luma s r).1 = .undivided ↔ energy luma s r = 0)) ∧
    (edgeDom luma s r = true ↔ 0 < borderEnergy luma s r ∧ 0 < innerEnergy luma s r ∧
      2 * innerEnergy luma s r ≤ borderEnergy luma s r ∧ (2 < r.w ∨ 2 < r.h))

/-- 41_classifier.md R148: CLASSIFY x, y, w, h: the need of imgOK; the operand checks in operand order;
the decision and its step; a region without a pixel in bounds is flat, unless it is one pixel. -/
def Obligations.ClassifyCommand : Prop :=
  decodeCommand 0x11 = some .classify ∧
  ∀ s : State, Running s →
    (imgOK s = false → exec .classify s = .next (raiseFault ⟨.badConfig, 0, 0⟩ s)) ∧
    (imgOK s = true →
      (65535 < arg0 s → exec .classify s = .next (raiseFault ⟨.illegalOperand, 0, arg0 s⟩ s)) ∧
      (arg0 s ≤ 65535 → 65535 < arg1 s →
        exec .classify s = .next (raiseFault ⟨.illegalOperand, 1, arg1 s⟩ s)) ∧
      (arg0 s ≤ 65535 → arg1 s ≤ 65535 → ¬ (1 ≤ arg2 s ∧ arg2 s ≤ 65535) →
        exec .classify s = .next (raiseFault ⟨.illegalOperand, 2, arg2 s⟩ s)) ∧
      (arg0 s ≤ 65535 → arg1 s ≤ 65535 → 1 ≤ arg2 s ∧ arg2 s ≤ 65535 →
        ¬ (1 ≤ arg3 s ∧ arg3 s ≤ 65535) →
        exec .classify s = .next (raiseFault ⟨.illegalOperand, 3, arg3 s⟩ s)) ∧
      (arg0 s ≤ 65535 → arg1 s ≤ 65535 → 1 ≤ arg2 s ∧ arg2 s ≤ 65535 →
        1 ≤ arg3 s ∧ arg3 s ≤ 65535 →
        exec .classify s = .next
          (match classify Config.luma s (argRegion s) with
          | (.undivided, n) => setRes0123 s 0 0 0 n
          | (.width a b, n) => setRes0123 s 1 a b n
          | (.height a b, n) => setRes0123 s 2 a b n) ∧
        (arg2 s = 1 ∧ arg3 s = 1 → exec .classify s = .next (setRes0123 s 0 0 0 1)) ∧
        (s.cfg.imgW.toNat ≤ arg0 s ∨ s.cfg.imgH.toNat ≤ arg1 s → ¬ (arg2 s = 1 ∧ arg3 s = 1) →
          exec .classify s = .next (setRes0123 s 0 0 0 2))))

/-- 41_classifier.md R149: AVGCOLOR x, y, w, h: the need of imgOK; the operand checks as CLASSIFY's, then
that the region has a pixel in bounds; the truncated mean of each channel over those pixels, packed.
The first clause says it of the colour that ANALYZE gives a leaf. -/
def Obligations.AvgcolorCommand : Prop :=
  decodeCommand 0x12 = some .avgcolor ∧
  (∀ (s : State) (r : Region) (cs : List Color),
    cs = (inBounds s r).map (fun p => pixel s p.1 p.2) →
    (avgColor s r).r.toNat = (cs.map fun c => c.r.toNat).sum / cs.length ∧
    (avgColor s r).g.toNat = (cs.map fun c => c.g.toNat).sum / cs.length ∧
    (avgColor s r).b.toNat = (cs.map fun c => c.b.toNat).sum / cs.length) ∧
  ∀ s : State, Running s →
    (imgOK s = false → exec .avgcolor s = .next (raiseFault ⟨.badConfig, 0, 0⟩ s)) ∧
    (imgOK s = true →
      (∀ r, checkClassify s = some r → exec .avgcolor s = .next (raiseFault r s)) ∧
      (checkClassify s = none → s.cfg.imgW.toNat ≤ arg0 s ∨ s.cfg.imgH.toNat ≤ arg1 s →
        exec .avgcolor s = .next (raiseFault ⟨.illegalOperand, 0, arg0 s⟩ s)) ∧
      (checkClassify s = none → arg0 s < s.cfg.imgW.toNat → arg1 s < s.cfg.imgH.toNat →
        ∀ cs : List Color, cs = (inBounds s (argRegion s)).map (fun p => pixel s p.1 p.2) →
          cs ≠ [] ∧ (cs.map fun c => c.r.toNat).sum / cs.length ≤ 255 ∧
          (cs.map fun c => c.g.toNat).sum / cs.length ≤ 255 ∧
          (cs.map fun c => c.b.toNat).sum / cs.length ≤ 255 ∧
          exec .avgcolor s = .next (setRes0 s
            ((cs.map fun c => c.r.toNat).sum / cs.length * 65536 +
              (cs.map fun c => c.g.toNat).sum / cs.length * 256 +
              (cs.map fun c => c.b.toNat).sum / cs.length))))

/-- 41_classifier.md R150, 43_encoder.md R172: ANALYZE gives the pattern and leaf colours of the
recursion over the stripes, their counts as results, and NPAT = 2*NLEAF - NSTRIPE; it never faults. -/
def Obligations.AnalyzeCommand : Prop :=
  ∀ s : State, Running s → cfgOK s = true →
    ∃ p c, AnalyzedStripes s s.cfg.nstripe.toNat 0 p c ∧
      exec .analyze s =
        .next (setRes01 ((s.withAna ⟨p, c⟩).withStack []) c.length p.length) ∧
      p.length + s.cfg.nstripe.toNat = 2 * c.length ∧ s.cfg.nstripe.toNat ≤ c.length

/-! ## Palettes -/

/-- 42_palette.md R160: the merging test on every channel, inclusive; equality at tolerance 0;
reflexive, symmetric, not transitive, by the rule's own three colours. -/
def Obligations.NearTest : Prop :=
  (∀ (tol : Nat) (c e : Color), near tol c e = true ↔
    (c.r.toNat ≤ e.r.toNat + tol ∧ e.r.toNat ≤ c.r.toNat + tol) ∧
    (c.g.toNat ≤ e.g.toNat + tol ∧ e.g.toNat ≤ c.g.toNat + tol) ∧
    (c.b.toNat ≤ e.b.toNat + tol ∧ e.b.toNat ≤ c.b.toNat + tol)) ∧
  (∀ (tol : Nat) (c : Color), near tol c c = true) ∧
  (∀ (tol : Nat) (c e : Color), near tol c e = near tol e c) ∧
  (∀ c e : Color, near 0 c e = true ↔ c = e) ∧
  near 10 ⟨0, 0, 0⟩ ⟨10, 10, 10⟩ = true ∧ near 10 ⟨10, 10, 10⟩ ⟨20, 20, 20⟩ = true ∧
  near 10 ⟨0, 0, 0⟩ ⟨20, 20, 20⟩ = false

/-- 42_palette.md R161: PAL_INIT forgets all palettes and references. -/
def Obligations.PalInit : Prop :=
  decodeCommand 0x20 = some .palInit ∧
  ∀ s : State, Running s → exec .palInit s = .next (s.withPal ⟨[], []⟩)

/-- 42_palette.md R162: PAL_PUSH c: the operand check, then the palette state; the operand is a colour's
24 bits, R in 23:16, G in 15:8, B in 7:0; an empty palette is opened for a new group; the first near
entry is reused; else an entry is appended; a palette of 256 entries without a near one is full.
Which parts a fault leaves as they were is the model's reading of R225 (`Faults`, log 19). -/
def Obligations.PalPush : Prop :=
  decodeCommand 0x21 = some .palPush ∧
  ∀ (s : State) (k g : Nat) (ps : List (List Color)), Running s →
    k = s.pal.leafref.length → g = k / 256 →
    ps = (if g = s.pal.palettes.length then s.pal.palettes ++ [[]] else s.pal.palettes) →
    (2 ^ 24 ≤ arg0 s → exec .palPush s = .next (raiseFault ⟨.illegalOperand, 0, arg0 s⟩ s)) ∧
    (arg0 s < 2 ^ 24 → s.pal.palettes.length ≠ (k + 255) / 256 →
      exec .palPush s = .next (raiseFault ⟨.badConfig, 1, s.pal.palettes.length⟩ s)) ∧
    (arg0 s < 2 ^ 24 →
      ∃ c : Color, arg0 s = c.r.toNat * 65536 + c.g.toNat * 256 + c.b.toNat) ∧
    (s.pal.palettes.length = (k + 255) / 256 → ∃ cur, ps[g]? = some cur) ∧
    ∀ (c : Color) (cur : List Color),
      arg0 s = c.r.toNat * 65536 + c.g.toNat * 256 + c.b.toNat →
      s.pal.palettes.length = (k + 255) / 256 → ps[g]? = some cur →
      (∀ j e, cur[j]? = some e → near s.cfg.colortol.toNat c e = true →
        (∀ m e', m < j → cur[m]? = some e' → near s.cfg.colortol.toNat c e' = false) →
        exec .palPush s = .next (setRes012
          (s.withPal ⟨ps, s.pal.leafref ++ [BitVec.ofNat 8 j]⟩) g j 0)) ∧
      ((∀ e ∈ cur, near s.cfg.colortol.toNat c e = false) → cur.length ≠ 256 →
        exec .palPush s = .next (setRes012
          (s.withPal ⟨ps.set g (cur ++ [c]), s.pal.leafref ++ [BitVec.ofNat 8 cur.length]⟩)
          g cur.length 1)) ∧
      ((∀ e ∈ cur, near s.cfg.colortol.toNat c e = false) → cur.length = 256 →
        Faults .palPush s 0x21 g k)

/-- 42_palette.md R163, R164, R165: PAL_BUILD never faults: it is PAL_INIT and a push for each leaf
colour in order; a palette per 256 leaves, each of 1 to 256 entries; every reference names an entry of
its group's palette that is near the leaf's colour. -/
def Obligations.PalBuild : Prop :=
  ∀ s : State, Running s →
    ∃ p, palPushAll s.cfg.colortol.toNat s.ana.leafcolor ⟨[], []⟩ = .ok p ∧
      exec .palBuild s = .next (setRes0 (s.withPal p) p.palettes.length) ∧
      p.leafref.length = s.ana.leafcolor.length ∧
      p.palettes.length = (s.ana.leafcolor.length + 255) / 256 ∧
      (∀ k c, s.ana.leafcolor[k]? = some c → ∃ idx e, p.leafref[k]? = some idx ∧
        (paletteAt p.palettes (k / 256))[idx.toNat]? = some e ∧
        near s.cfg.colortol.toNat c e = true) ∧
      (∀ cs ∈ p.palettes, 1 ≤ cs.length ∧ cs.length ≤ 256)

/-! ## Encoder -/

/-- 43_encoder.md R171: ENC_PALTAB: the table follows the bits already written; the count that does not
fit; the first palette whose size does not fit, once what is before it is written; WBUF full.
Which parts a fault leaves as they were is the model's reading of R225 (`Faults`, log 19). -/
def Obligations.EncPaltab : Prop :=
  ∀ s : State, Running s → writerOK s.wr = true →
    (tableFits s.pal.palettes = true → roomFor s (tableWire s.pal.palettes).length = true →
      ∃ w, exec .encPaltab s = .next (s.withWr w) ∧ writerOK w = true ∧
        writerBits w = writerBits s.wr ++ tableWire s.pal.palettes) ∧
    (65535 < s.pal.palettes.length → Faults .encPaltab s 0x23 s.pal.palettes.length 0) ∧
    (∀ p cs, s.pal.palettes.length ≤ 65535 → s.pal.palettes[p]? = some cs → 255 < cs.length →
      (∀ q ds, q < p → s.pal.palettes[q]? = some ds → ds.length ≤ 255) →
      (roomFor s (16 + (palettesWire (s.pal.palettes.take p)).length) = true →
        Faults .encPaltab s 0x22 p cs.length) ∧
      (∀ c, s.wbufCap = some c → s.wr.wbuf.length ≤ c →
        roomFor s (16 + (palettesWire (s.pal.palettes.take p)).length) = false →
        Faults .encPaltab s 0x24 c 0)) ∧
    (∀ c, tableFits s.pal.palettes = true → s.wbufCap = some c → s.wr.wbuf.length ≤ c →
      roomFor s (tableWire s.pal.palettes).length = false → Faults .encPaltab s 0x24 c 0)

/-- 43_encoder.md R173: ENC_TREE where PATTERN and LEAFREF describe one tree per stripe: the trees'
tokens follow the bits already written, the cursors end at the lengths, nothing else changes.
Which parts a fault leaves as they were is the model's reading of R225 (`Faults`, log 19). -/
def Obligations.EncTree : Prop :=
  ∀ (s : State) (ts : List WireTree), Running s → cfgOK s = true → writerOK s.wr = true →
    forestFits s 0 ts = true → s.ana.pattern = forestPattern ts → s.pal.leafref = forestRefs ts →
    (roomFor s (forestWire ts).length = true →
      ∃ w, exec .encTree s = .next { s with
          wr := w, enc := ⟨s.ana.pattern.length, s.pal.leafref.length⟩, wstk := [] } ∧
        writerOK w = true ∧ writerBits w = writerBits s.wr ++ forestWire ts) ∧
    (∀ c, s.wbufCap = some c → s.wr.wbuf.length ≤ c → roomFor s (forestWire ts).length = false →
      Faults .encTree s 0x24 c 0)

/-- 43_encoder.md R173, 60_exceptions.md R222: ENC_TREE has trees to write, or it comes to a node, or to
the end, where PATTERN or LEAFREF disagrees (`EmitFails`): it then raises that
InternalConsistencyError, if there is room for what it writes before; the four causes at the first
node of the first stripe and at the end.
Which parts a fault leaves as they were is the model's reading of R225 (`Faults`, log 19). -/
def Obligations.EncTreeFaults : Prop :=
  ∀ s : State, Running s → cfgOK s = true → writerOK s.wr = true →
    (∀ bits code info0 info1, EmitFails s bits code info0 info1 →
      (code = 0x31 ∨ code = 0x32 ∨ code = 0x33 ∨ code = 0x34) ∧
      (roomFor s bits.length = true → Faults .encTree s code info0 info1) ∧
      (∀ c, s.wbufCap = some c → s.wr.wbuf.length ≤ c → roomFor s bits.length = false →
        Faults .encTree s 0x24 c 0)) ∧
    ((∃ ts, forestFits s 0 ts = true ∧ s.ana.pattern = forestPattern ts ∧
        s.pal.leafref = forestRefs ts) ∨
      ∃ bits code info0 info1, EmitFails s bits code info0 info1) ∧
    (s.ana.pattern = [] → Faults .encTree s 0x32 0 0) ∧
    (∀ p, s.ana.pattern = true :: p → s.pal.leafref = [] → Faults .encTree s 0x33 0 0) ∧
    (∀ p, s.ana.pattern = false :: p → s.cfg.imgW = 1 → (stripeAt s 0).h = 1 →
      Faults .encTree s 0x31 0 0) ∧
    (∀ ts p refs, forestFits s 0 ts = true → s.ana.pattern = forestPattern ts ++ p →
      s.pal.leafref = forestRefs ts ++ refs → p ≠ [] ∨ refs ≠ [] →
      roomFor s (forestWire ts).length = true → Faults .encTree s 0x34 p.length refs.length)

/-- 43_encoder.md R173, 70_reset_and_hazards.md R246: ENC_TREE reads none of RASTER, LEAFCOLOR, PALETTE,
MAXGRAD, COLORTOL: with other contents there it ends in the same fault, or, without one, in a state
that differs only in them. -/
def Obligations.EncTreeReadsNoPixels : Prop :=
  ∀ (raster : Memory Color) (maxgrad colortol : Half) (leafcolor : List Color)
    (palettes : List (List Color)) (s t : State), exec .encTree s = .next t →
    ∃ u, exec .encTree (retouch raster maxgrad colortol leafcolor palettes s) = .next u ∧
      u.fault = t.fault ∧ (Running t → u = retouch raster maxgrad colortol leafcolor palettes t)

/-- 43_encoder.md R174, 30_encoding.md R96, R98, R99: ENCODE with WBUF unbounded: the analysis, the
palettes, then the payload as whole bytes: table, tokens, zeros to the byte's end; or the first palette
the table cannot carry.
Which parts a fault leaves as they were is the model's reading of R225 (`Faults`, log 19). -/
def Obligations.EncodeCommand : Prop :=
  ∀ s : State, Running s → cfgOK s = true → s.wbufCap = none →
    ∃ p c pal, AnalyzedStripes s s.cfg.nstripe.toNat 0 p c ∧
      palPushAll s.cfg.colortol.toNat c ⟨[], []⟩ = .ok pal ∧
      if tableFits pal.palettes = true then
        ∃ ts bytes, forestFits s 0 ts = true ∧ forestPattern ts = p ∧ forestRefs ts = pal.leafref ∧
          bytesToBits bytes = tableWire pal.palettes ++ forestWire ts ++
            List.replicate ((8 - (forestWire ts).length % 8) % 8) false ∧
          exec .encode s = .next (setRes0 { s with
            ana := ⟨p, c⟩, pal := pal, wr := ⟨bytes, 0, 0⟩,
            enc := ⟨p.length, pal.leafref.length⟩, wstk := [] } bytes.length)
      else if 65535 < pal.palettes.length then Faults .encode s 0x23 pal.palettes.length 0
      else ∃ q cs, pal.palettes[q]? = some cs ∧ cs.length = 256 ∧
        (∀ m ds, m < q → pal.palettes[m]? = some ds → ds.length ≤ 255) ∧
        Faults .encode s 0x22 q 256

/-- 43_encoder.md R174, 60_exceptions.md R218, R219, R220, R222: whatever the capacity, ENCODE ends
without fault; or WBUF is full; or it built more than 65535 palettes; or the first palette of 256
entries is one it cannot write: never PaletteFull, never an InternalConsistencyError.
Which parts a fault leaves as they were is the model's reading of R225 (`Faults`, log 19). -/
def Obligations.EncodeNeverInconsistent : Prop :=
  ∀ s t : State, Running s → cfgOK s = true → exec .encode s = .next t →
    t.fault = s.fault ∨
    (∃ c, s.wbufCap = some c ∧ Faults .encode s 0x24 c 0) ∨
    ∃ p c pal, AnalyzedStripes s s.cfg.nstripe.toNat 0 p c ∧
      palPushAll s.cfg.colortol.toNat c ⟨[], []⟩ = .ok pal ∧
      ((65535 < pal.palettes.length ∧ Faults .encode s 0x23 pal.palettes.length 0) ∨
        ∃ q cs, pal.palettes.length ≤ 65535 ∧ pal.palettes[q]? = some cs ∧ cs.length = 256 ∧
          (∀ m ds, m < q → pal.palettes[m]? = some ds → ds.length ≤ 255) ∧
          Faults .encode s 0x22 q 256)

/-- 70_reset_and_hazards.md R243: where ENCODE ends without fault, ANALYZE, PAL_BUILD, BW_INIT,
ENC_PALTAB, ENC_TREE, BW_FLUSH in that order end without fault in the same state but for RES. -/
def Obligations.EncodeIsTheSequence : Prop :=
  ∀ s t : State, Running s → exec .encode s = .next t → Running t →
    ∃ s1 s2 s3 s4 s5 s6, exec .analyze s = .next s1 ∧ exec .palBuild s1 = .next s2 ∧
      exec .bwInit s2 = .next s3 ∧ exec .encPaltab s3 = .next s4 ∧ exec .encTree s4 = .next s5 ∧
      exec .bwFlush s5 = .next s6 ∧ t.withRes s6.res = s6

/-! ## Decoder -/

/-- 44_decoder.md R186, 60_exceptions.md R212: DEC_PALTAB reads the table that lies next in the stream,
whole, and advances by its bits; a stream that ends inside the table (`TableCut`) is PalTabTruncated,
with RPOS at the first field that does not fit and the number of its palette; there is no other
stream.
Which parts a fault leaves as they were is the model's reading of R225 (`Faults`, log 19). -/
def Obligations.DecPaltab : Prop :=
  ∀ s : State, Running s →
    (∀ ps rest, tableFits ps = true → unreadBits s = tableWire ps ++ rest →
      exec .decPaltab s = .next (setRes0
        ((s.withPal { s.pal with palettes := ps }).advance (tableWire ps).length) ps.length) ∧
      (tableWire ps).length = 16 + (ps.map fun cs => 8 + 24 * cs.length).sum) ∧
    (∀ info0 info1, TableCut s.rd.rpos (unreadBits s) info0 info1 →
      Faults .decPaltab s 0x11 info0 info1) ∧
    ((∃ ps rest, tableFits ps = true ∧ unreadBits s = tableWire ps ++ rest) ∨
      ∃ info0 info1, TableCut s.rd.rpos (unreadBits s) info0 info1) ∧
    ((unreadBits s).length < 16 → Faults .decPaltab s 0x11 s.rd.rpos 65536)

/-- 44_decoder.md R188: DEC_TREE over a stream that goes on with the tokens of one tree per stripe,
every reference in range: the leaves' paint jobs in order, RPOS after the tokens, whatever follows
them (R192). A palette index that fits the 16 bits of a job's `pal` is what it holds (10_state.md R37,
log 8). -/
def Obligations.DecTree : Prop :=
  (∀ p, p < 65536 → (jobPal p).toNat = p) ∧
  ∀ (s : State) (ts : List WireTree) (rest : List Bool), Running s → cfgOK s = true →
    forestFits s 0 ts = true → unreadBits s = forestWire ts ++ rest →
    refsInRange s.pal.palettes 0 (forestRefs ts) = true →
    exec .decTree s = .next (setRes0 { s with
      dec := ⟨jobsFrom 0 (forestRegions s 0 ts) (forestRefs ts), (forestRefs ts).length⟩
      rd := { s.rd with rpos := s.rd.rpos + (forestWire ts).length }
      wstk := [] } (forestRefs ts).length) ∧
    (jobsFrom 0 (forestRegions s 0 ts) (forestRefs ts)).length = (forestRefs ts).length

/-- 44_decoder.md R187, R188, 30_encoding.md R102, 60_exceptions.md R213 to R216: DEC_TREE over a stream
in which it comes to a node whose token it cannot take (`ParseFails`) raises that format error, with
RPOS, LEAFORD, the palette index, the local index or the region as the table of R211 says; and every
stream that does not go on with trees as in `DecTree` is such a one.
Which parts a fault leaves as they were is the model's reading of R225 (`Faults`, log 19). -/
def Obligations.DecTreeFaults : Prop :=
  ∀ s : State, Running s → cfgOK s = true →
    (∀ code info0 info1, ParseFails s code info0 info1 →
      (code = 0x12 ∨ code = 0x13 ∨ code = 0x14 ∨ code = 0x15) ∧
      Faults .decTree s code info0 info1) ∧
    ((∃ ts rest, forestFits s 0 ts = true ∧ unreadBits s = forestWire ts ++ rest ∧
        refsInRange s.pal.palettes 0 (forestRefs ts) = true) ∨
      ∃ code info0 info1, ParseFails s code info0 info1)

/-- 44_decoder.md R189, 70_reset_and_hazards.md R244: DECODE len reads a payload from the front of RBUF
and is BR_INIT, DEC_PALTAB, DEC_TREE but for RES; its five faults, those of DEC_PALTAB from position 0
and those of DEC_TREE after the table; every payload is one of these three.
Which parts a fault leaves as they were is the model's reading of R225 (`Faults`, log 19). -/
def Obligations.DecodeCommand : Prop :=
  (∀ (s : State) (ps : List (List Color)) (ts : List WireTree) (rest : List Bool), Running s →
    cfgOK s = true → tableFits ps = true → forestFits s 0 ts = true →
    unreadBits (s.withRd ⟨arg0 s, 0⟩) = tableWire ps ++ forestWire ts ++ rest →
    refsInRange ps 0 (forestRefs ts) = true →
    exec .decode s = .next (setRes01 { s with
      pal := { s.pal with palettes := ps }
      dec := ⟨jobsFrom 0 (forestRegions s 0 ts) (forestRefs ts), (forestRefs ts).length⟩
      rd := ⟨arg0 s, (tableWire ps).length + (forestWire ts).length⟩
      wstk := [] } (forestRefs ts).length ((tableWire ps).length + (forestWire ts).length))) ∧
  (∀ s t : State, Running s → exec .decode s = .next t → Running t →
    ∃ s1 s2 s3, exec .brInit s = .next s1 ∧ exec .decPaltab s1 = .next s2 ∧
      exec .decTree s2 = .next s3 ∧ t.withRes s3.res = s3) ∧
  ∀ s : State, Running s → cfgOK s = true →
    (∀ info0 info1, TableCut 0 (unreadBits (s.withRd ⟨arg0 s, 0⟩)) info0 info1 →
      Faults .decode s 0x11 info0 info1) ∧
    (∀ ps rest code info0 info1, tableFits ps = true →
      unreadBits (s.withRd ⟨arg0 s, 0⟩) = tableWire ps ++ rest →
      ParseFails { s with
        pal := { s.pal with palettes := ps }
        rd := ⟨arg0 s, (tableWire ps).length⟩ } code info0 info1 →
      (code = 0x12 ∨ code = 0x13 ∨ code = 0x14 ∨ code = 0x15) ∧
      Faults .decode s code info0 info1) ∧
    ((∃ ps ts rest, tableFits ps = true ∧ forestFits s 0 ts = true ∧
        unreadBits (s.withRd ⟨arg0 s, 0⟩) = tableWire ps ++ forestWire ts ++ rest ∧
        refsInRange ps 0 (forestRefs ts) = true) ∨
      (∃ info0 info1, TableCut 0 (unreadBits (s.withRd ⟨arg0 s, 0⟩)) info0 info1) ∨
      ∃ ps rest code info0 info1, tableFits ps = true ∧
        unreadBits (s.withRd ⟨arg0 s, 0⟩) = tableWire ps ++ rest ∧
        ParseFails { s with
          pal := { s.pal with palettes := ps }
          rd := ⟨arg0 s, (tableWire ps).length⟩ } code info0 info1)

/-- 44_decoder.md R190: an ENCODE that ends without fault, its bytes copied to RBUF, and a DECODE of
their number end without fault: the palettes are as ENCODE left them, job `k` paints the `k`-th leaf
region of the analysis and names (k / 256, LEAFREF[k]), 0 to 7 bits are left, all 0. -/
def Obligations.EncodeDecodeRoundTrip : Prop :=
  ∀ s t u : State, Running s → exec .encode s = .next t → Running t →
    u = { loaded t.wr.wbuf t with arg := { t.arg with r0 := BitVec.ofNat 64 t.wr.wbuf.length } } →
    t.wr.wbuf.length < 2 ^ 64 →
    ∃ v ts, exec .decode u = .next v ∧ Running v ∧ v.pal = t.pal ∧
      forestFits s 0 ts = true ∧ forestPattern ts = t.ana.pattern ∧
      forestRefs ts = t.pal.leafref ∧
      t.ana.leafcolor = (forestRegions s 0 ts).map (avgColor s) ∧
      v.dec.jobq = jobsFrom 0 (forestRegions s 0 ts) t.pal.leafref ∧
      v.dec.jobq.length = t.ana.leafcolor.length ∧
      (∀ k j, v.dec.jobq[k]? = some j → j.pal.toNat = k / 256 ∧ t.pal.leafref[k]? = some j.idx) ∧
      (unreadBits v).length ≤ 7 ∧ ∀ b ∈ unreadBits v, b = false

/-- 44_decoder.md R191: DEC_PALTAB, DEC_TREE and DECODE read none of RASTER, MAXGRAD, COLORTOL, PATTERN,
LEAFCOLOR, LEAFREF: with other contents there they end in the same fault, or, without one, in a state
that differs only in them. -/
def Obligations.DecoderReadsNoPixels : Prop :=
  ∀ (i : Instr) (raster : Memory Color) (maxgrad colortol : Half) (ana : Analysis)
    (leafref : List Byte) (s t : State), i = .decPaltab ∨ i = .decTree ∨ i = .decode →
    exec i s = .next t →
    ∃ u, exec i (repaint raster maxgrad colortol ana leafref s) = .next u ∧
      u.fault = t.fault ∧ (Running t → u = repaint raster maxgrad colortol ana leafref t)

/-! ## Trees -/

/-- 41_classifier.md R150, R151, R152, 43_encoder.md R175, the spec's inferences there: a tree on a
region of 16-bit sides has depth at most 32 and at most a leaf per pixel; the stripes' tokens have one
bit per pattern entry and eight more per leaf, `10*NLEAF - NSTRIPE` in all, and at least `9*NSTRIPE`. -/
def Obligations.TreeSizes : Prop :=
  (∀ (t : WireTree) (r : Region), t.fits r = true → 1 ≤ r.w → r.w ≤ 65535 → 1 ≤ r.h → r.h ≤ 65535 →
    t.depth ≤ 32 ∧ t.refs.length ≤ r.w * r.h) ∧
  (∀ (s : State) (ts : List WireTree), cfgOK s = true → forestFits s 0 ts = true →
    (forestWire ts).length = (forestPattern ts).length + 8 * (forestRefs ts).length ∧
    (forestPattern ts).length + s.cfg.nstripe.toNat = 2 * (forestRefs ts).length ∧
    (forestWire ts).length + s.cfg.nstripe.toNat = 10 * (forestRefs ts).length ∧
    9 * s.cfg.nstripe.toNat ≤ (forestWire ts).length ∧
    (forestRefs ts).length ≤ s.cfg.imgW.toNat * s.cfg.imgH.toNat)

/-- 41_classifier.md R152: under a valid configuration the leaf regions of the stripes' trees tile the
raster: each is non-empty and in bounds, and every pixel lies in exactly one. -/
def Obligations.LeavesTileRaster : Prop :=
  ∀ (s : State) (ts : List WireTree), cfgOK s = true → forestFits s 0 ts = true →
    (∀ r ∈ forestRegions s 0 ts, 1 ≤ r.w ∧ 1 ≤ r.h ∧ r.x + r.w ≤ s.cfg.imgW.toNat ∧
      r.y + r.h ≤ s.cfg.imgH.toNat) ∧
    ∀ px py, px < s.cfg.imgW.toNat → py < s.cfg.imgH.toNat →
      ((forestRegions s 0 ts).filter fun r => covers r px py).length = 1

/-! ## The rows of the wire format -/

/-- 44_decoder.md R187, 60_exceptions.md R214 to R216: a LEAF token at the region that waits on top of
the walk stack, its two range checks in order; an INTERNAL token, which puts the two children on the
stack; a token that is not due changes nothing (log 10). `jobPal` is the index where 16 bits hold it
(`DecTree`; log 8).
Which parts a fault leaves as they were is the model's reading of R225 (`Faults`, log 19). -/
def Obligations.WireTokens : Prop :=
  (∀ (s : State) (i : Nat) (r : Region) (rest : List Region) (idx : Byte), Running s →
    s.due = .node i → s.wstk = r :: rest →
    (s.pal.palettes.length ≤ s.dec.leaford / 256 →
      Faults (.leaf idx) s 0x13 s.dec.leaford (s.dec.leaford / 256)) ∧
    (∀ cs, s.pal.palettes[s.dec.leaford / 256]? = some cs → cs.length ≤ idx.toNat →
      Faults (.leaf idx) s 0x14 s.dec.leaford idx.toNat) ∧
    (∀ cs, s.pal.palettes[s.dec.leaford / 256]? = some cs → idx.toNat < cs.length →
      exec (.leaf idx) s = .next { s with
        dec := ⟨s.dec.jobq ++ [⟨r.x, r.y, r.w, r.h, jobPal (s.dec.leaford / 256), idx⟩], s.dec.leaford + 1⟩
        wstk := rest }) ∧
    (∀ a b, children r (splitGeom r.w r.h) = some (a, b) →
      exec .internal s = .next { s with wstk := a :: b :: rest }) ∧
    (splitGeom r.w r.h = .undivided →
      Faults .internal s 0x15 (s.rd.rpos - 1) (r.x * 65536 + r.y))) ∧
  (∀ (s : State) (idx : Byte), (∀ i, s.due ≠ .node i) →
    exec (.leaf idx) s = .next s ∧ exec .internal s = .next s)

/-- 44_decoder.md R186, 30_encoding.md R97, R98, R100: PAL_COUNT, PAL_SIZE and PAL_ENTRY where they are
due; PAD, which nothing reads; ART_HEADER, which loads IMG_W and IMG_H if the tag is MAGIC and else
leaves the block untouched (60_exceptions.md R217). That a field which is not due changes nothing, and
that the header is one host action, are the model's (log 10, log 12). -/
def Obligations.WireFields : Prop :=
  (∀ (s : State) (p : Half), Running s → s.due = .count →
    exec (.palCount p) s = .next { s with
      pal := { s.pal with palettes := [] }
      due := if p = 0 then .none else .size p.toNat }) ∧
  (∀ (s : State) (left : Nat) (n : Byte), Running s → s.due = .size left →
    (n ≠ 0 → exec (.palSize n) s = .next { s with due := .entry (left - 1) n.toNat [] }) ∧
    (n = 0 → exec (.palSize n) s = .next { s with
      pal := { s.pal with palettes := s.pal.palettes ++ [[]] }
      due := if left - 1 = 0 then .none else .size (left - 1) })) ∧
  (∀ (s : State) (left ents : Nat) (done : List Color) (r g b : Byte), Running s →
    s.due = .entry left ents done →
    (1 < ents → exec (.palEntry r g b) s =
      .next { s with due := .entry left (ents - 1) (done ++ [⟨r, g, b⟩]) }) ∧
    (ents ≤ 1 → exec (.palEntry r g b) s = .next { s with
      pal := { s.pal with palettes := s.pal.palettes ++ [done ++ [⟨r, g, b⟩]] }
      due := if left = 0 then .none else .size left })) ∧
  (∀ (s : State) (p : Half) (n r g b : Byte), s.due = .none →
    exec (.palCount p) s = .next s ∧ exec (.palSize n) s = .next s ∧
    exec (.palEntry r g b) s = .next s) ∧
  (∀ (s : State) (n : Nat), exec (.pad n) s = .next s) ∧
  (∀ (s : State) (magic : BitVec 32) (w h : Half) (q : Byte),
    (magic = Config.magic → exec (.artHeader magic w h q) s =
      .next { s with cfg := { s.cfg with imgW := w, imgH := h } }) ∧
    (magic ≠ Config.magic → exec (.artHeader magic w h q) s = .next s))

/-- 44_decoder.md R186, log 10: reading the table field by field, one step each, ends where DEC_PALTAB
ends but for RES. -/
def Obligations.FieldStepsAreDecPaltab : Prop :=
  ∀ (s : State) (ps : List (List Color)) (rest : List Bool), Running s → s.cmd = none →
    tableFits ps = true → unreadBits s = tableWire ps ++ rest →
    steps (1 + (ps.map fun cs => 1 + cs.length).sum) (s.withDue .count) =
      .next (((s.withPal { s.pal with palettes := ps }).advance (tableWire ps).length).withDue .none)

/-- 44_decoder.md R187, R188, log 10: reading the tokens one step each, from the first stripe's root, and
one step to go on to each next stripe, ends where DEC_TREE ends but for RES. -/
def Obligations.TokenStepsAreDecTree : Prop :=
  ∀ (s : State) (ts : List WireTree) (rest : List Bool), Running s → s.cmd = none → cfgOK s = true →
    forestFits s 0 ts = true → unreadBits s = forestWire ts ++ rest →
    refsInRange s.pal.palettes 0 (forestRefs ts) = true →
    steps ((forestPattern ts).length + ts.length)
      { s with dec := ⟨[], 0⟩, due := .node 0, wstk := [stripeRoot s 0] } =
    .next { s with
      dec := ⟨jobsFrom 0 (forestRegions s 0 ts) (forestRefs ts), (forestRefs ts).length⟩
      rd := { s.rd with rpos := s.rd.rpos + (forestWire ts).length }
      due := .none
      wstk := [] }
end

