-- ==== Sys2Proof/Laws/State.lean ====
section
/-! SUPPORT. One lemma per field per update of the state, true by rfl, so that no proof unfolds an
update. -/

namespace Sys2Proof.Machine

section withWr
variable (s : State) (w : Writer)
@[simp] theorem withWr_cmd : (s.withWr w).cmd = s.cmd := rfl
@[simp] theorem withWr_arg : (s.withWr w).arg = s.arg := rfl
@[simp] theorem withWr_res : (s.withWr w).res = s.res := rfl
@[simp] theorem withWr_fault : (s.withWr w).fault = s.fault := rfl
@[simp] theorem withWr_cfg : (s.withWr w).cfg = s.cfg := rfl
@[simp] theorem withWr_wbufCap : (s.withWr w).wbufCap = s.wbufCap := rfl
@[simp] theorem withWr_raster : (s.withWr w).raster = s.raster := rfl
@[simp] theorem withWr_stripe : (s.withWr w).stripe = s.stripe := rfl
@[simp] theorem withWr_rbuf : (s.withWr w).rbuf = s.rbuf := rfl
@[simp] theorem withWr_wr : (s.withWr w).wr = w := rfl
@[simp] theorem withWr_rd : (s.withWr w).rd = s.rd := rfl
@[simp] theorem withWr_ana : (s.withWr w).ana = s.ana := rfl
@[simp] theorem withWr_pal : (s.withWr w).pal = s.pal := rfl
@[simp] theorem withWr_enc : (s.withWr w).enc = s.enc := rfl
@[simp] theorem withWr_dec : (s.withWr w).dec = s.dec := rfl
@[simp] theorem withWr_wstk : (s.withWr w).wstk = s.wstk := rfl
@[simp] theorem withWr_due : (s.withWr w).due = s.due := rfl
@[simp] theorem withWr_hostq : (s.withWr w).hostq = s.hostq := rfl
@[simp] theorem withWr_freeCtr : (s.withWr w).freeCtr = s.freeCtr := rfl
@[simp] theorem withWr_era : (s.withWr w).era = s.era := rfl
end withWr

section withRd
variable (s : State) (r : Reader)
@[simp] theorem withRd_cmd : (s.withRd r).cmd = s.cmd := rfl
@[simp] theorem withRd_arg : (s.withRd r).arg = s.arg := rfl
@[simp] theorem withRd_res : (s.withRd r).res = s.res := rfl
@[simp] theorem withRd_fault : (s.withRd r).fault = s.fault := rfl
@[simp] theorem withRd_cfg : (s.withRd r).cfg = s.cfg := rfl
@[simp] theorem withRd_wbufCap : (s.withRd r).wbufCap = s.wbufCap := rfl
@[simp] theorem withRd_raster : (s.withRd r).raster = s.raster := rfl
@[simp] theorem withRd_stripe : (s.withRd r).stripe = s.stripe := rfl
@[simp] theorem withRd_rbuf : (s.withRd r).rbuf = s.rbuf := rfl
@[simp] theorem withRd_wr : (s.withRd r).wr = s.wr := rfl
@[simp] theorem withRd_rd : (s.withRd r).rd = r := rfl
@[simp] theorem withRd_ana : (s.withRd r).ana = s.ana := rfl
@[simp] theorem withRd_pal : (s.withRd r).pal = s.pal := rfl
@[simp] theorem withRd_enc : (s.withRd r).enc = s.enc := rfl
@[simp] theorem withRd_dec : (s.withRd r).dec = s.dec := rfl
@[simp] theorem withRd_wstk : (s.withRd r).wstk = s.wstk := rfl
@[simp] theorem withRd_due : (s.withRd r).due = s.due := rfl
@[simp] theorem withRd_hostq : (s.withRd r).hostq = s.hostq := rfl
@[simp] theorem withRd_freeCtr : (s.withRd r).freeCtr = s.freeCtr := rfl
@[simp] theorem withRd_era : (s.withRd r).era = s.era := rfl
end withRd

section withAna
variable (s : State) (a : Analysis)
@[simp] theorem withAna_cmd : (s.withAna a).cmd = s.cmd := rfl
@[simp] theorem withAna_arg : (s.withAna a).arg = s.arg := rfl
@[simp] theorem withAna_res : (s.withAna a).res = s.res := rfl
@[simp] theorem withAna_fault : (s.withAna a).fault = s.fault := rfl
@[simp] theorem withAna_cfg : (s.withAna a).cfg = s.cfg := rfl
@[simp] theorem withAna_wbufCap : (s.withAna a).wbufCap = s.wbufCap := rfl
@[simp] theorem withAna_raster : (s.withAna a).raster = s.raster := rfl
@[simp] theorem withAna_stripe : (s.withAna a).stripe = s.stripe := rfl
@[simp] theorem withAna_rbuf : (s.withAna a).rbuf = s.rbuf := rfl
@[simp] theorem withAna_wr : (s.withAna a).wr = s.wr := rfl
@[simp] theorem withAna_rd : (s.withAna a).rd = s.rd := rfl
@[simp] theorem withAna_ana : (s.withAna a).ana = a := rfl
@[simp] theorem withAna_pal : (s.withAna a).pal = s.pal := rfl
@[simp] theorem withAna_enc : (s.withAna a).enc = s.enc := rfl
@[simp] theorem withAna_dec : (s.withAna a).dec = s.dec := rfl
@[simp] theorem withAna_wstk : (s.withAna a).wstk = s.wstk := rfl
@[simp] theorem withAna_due : (s.withAna a).due = s.due := rfl
@[simp] theorem withAna_hostq : (s.withAna a).hostq = s.hostq := rfl
@[simp] theorem withAna_freeCtr : (s.withAna a).freeCtr = s.freeCtr := rfl
@[simp] theorem withAna_era : (s.withAna a).era = s.era := rfl
end withAna

section withPal
variable (s : State) (p : Palettes)
@[simp] theorem withPal_cmd : (s.withPal p).cmd = s.cmd := rfl
@[simp] theorem withPal_arg : (s.withPal p).arg = s.arg := rfl
@[simp] theorem withPal_res : (s.withPal p).res = s.res := rfl
@[simp] theorem withPal_fault : (s.withPal p).fault = s.fault := rfl
@[simp] theorem withPal_cfg : (s.withPal p).cfg = s.cfg := rfl
@[simp] theorem withPal_wbufCap : (s.withPal p).wbufCap = s.wbufCap := rfl
@[simp] theorem withPal_raster : (s.withPal p).raster = s.raster := rfl
@[simp] theorem withPal_stripe : (s.withPal p).stripe = s.stripe := rfl
@[simp] theorem withPal_rbuf : (s.withPal p).rbuf = s.rbuf := rfl
@[simp] theorem withPal_wr : (s.withPal p).wr = s.wr := rfl
@[simp] theorem withPal_rd : (s.withPal p).rd = s.rd := rfl
@[simp] theorem withPal_ana : (s.withPal p).ana = s.ana := rfl
@[simp] theorem withPal_pal : (s.withPal p).pal = p := rfl
@[simp] theorem withPal_enc : (s.withPal p).enc = s.enc := rfl
@[simp] theorem withPal_dec : (s.withPal p).dec = s.dec := rfl
@[simp] theorem withPal_wstk : (s.withPal p).wstk = s.wstk := rfl
@[simp] theorem withPal_due : (s.withPal p).due = s.due := rfl
@[simp] theorem withPal_hostq : (s.withPal p).hostq = s.hostq := rfl
@[simp] theorem withPal_freeCtr : (s.withPal p).freeCtr = s.freeCtr := rfl
@[simp] theorem withPal_era : (s.withPal p).era = s.era := rfl
end withPal

section withEnc
variable (s : State) (c : Cursors)
@[simp] theorem withEnc_cmd : (s.withEnc c).cmd = s.cmd := rfl
@[simp] theorem withEnc_arg : (s.withEnc c).arg = s.arg := rfl
@[simp] theorem withEnc_res : (s.withEnc c).res = s.res := rfl
@[simp] theorem withEnc_fault : (s.withEnc c).fault = s.fault := rfl
@[simp] theorem withEnc_cfg : (s.withEnc c).cfg = s.cfg := rfl
@[simp] theorem withEnc_wbufCap : (s.withEnc c).wbufCap = s.wbufCap := rfl
@[simp] theorem withEnc_raster : (s.withEnc c).raster = s.raster := rfl
@[simp] theorem withEnc_stripe : (s.withEnc c).stripe = s.stripe := rfl
@[simp] theorem withEnc_rbuf : (s.withEnc c).rbuf = s.rbuf := rfl
@[simp] theorem withEnc_wr : (s.withEnc c).wr = s.wr := rfl
@[simp] theorem withEnc_rd : (s.withEnc c).rd = s.rd := rfl
@[simp] theorem withEnc_ana : (s.withEnc c).ana = s.ana := rfl
@[simp] theorem withEnc_pal : (s.withEnc c).pal = s.pal := rfl
@[simp] theorem withEnc_enc : (s.withEnc c).enc = c := rfl
@[simp] theorem withEnc_dec : (s.withEnc c).dec = s.dec := rfl
@[simp] theorem withEnc_wstk : (s.withEnc c).wstk = s.wstk := rfl
@[simp] theorem withEnc_due : (s.withEnc c).due = s.due := rfl
@[simp] theorem withEnc_hostq : (s.withEnc c).hostq = s.hostq := rfl
@[simp] theorem withEnc_freeCtr : (s.withEnc c).freeCtr = s.freeCtr := rfl
@[simp] theorem withEnc_era : (s.withEnc c).era = s.era := rfl
end withEnc

section withDec
variable (s : State) (d : Jobs)
@[simp] theorem withDec_cmd : (s.withDec d).cmd = s.cmd := rfl
@[simp] theorem withDec_arg : (s.withDec d).arg = s.arg := rfl
@[simp] theorem withDec_res : (s.withDec d).res = s.res := rfl
@[simp] theorem withDec_fault : (s.withDec d).fault = s.fault := rfl
@[simp] theorem withDec_cfg : (s.withDec d).cfg = s.cfg := rfl
@[simp] theorem withDec_wbufCap : (s.withDec d).wbufCap = s.wbufCap := rfl
@[simp] theorem withDec_raster : (s.withDec d).raster = s.raster := rfl
@[simp] theorem withDec_stripe : (s.withDec d).stripe = s.stripe := rfl
@[simp] theorem withDec_rbuf : (s.withDec d).rbuf = s.rbuf := rfl
@[simp] theorem withDec_wr : (s.withDec d).wr = s.wr := rfl
@[simp] theorem withDec_rd : (s.withDec d).rd = s.rd := rfl
@[simp] theorem withDec_ana : (s.withDec d).ana = s.ana := rfl
@[simp] theorem withDec_pal : (s.withDec d).pal = s.pal := rfl
@[simp] theorem withDec_enc : (s.withDec d).enc = s.enc := rfl
@[simp] theorem withDec_dec : (s.withDec d).dec = d := rfl
@[simp] theorem withDec_wstk : (s.withDec d).wstk = s.wstk := rfl
@[simp] theorem withDec_due : (s.withDec d).due = s.due := rfl
@[simp] theorem withDec_hostq : (s.withDec d).hostq = s.hostq := rfl
@[simp] theorem withDec_freeCtr : (s.withDec d).freeCtr = s.freeCtr := rfl
@[simp] theorem withDec_era : (s.withDec d).era = s.era := rfl
end withDec

section withStack
variable (s : State) (k : List Region)
@[simp] theorem withStack_cmd : (s.withStack k).cmd = s.cmd := rfl
@[simp] theorem withStack_arg : (s.withStack k).arg = s.arg := rfl
@[simp] theorem withStack_res : (s.withStack k).res = s.res := rfl
@[simp] theorem withStack_fault : (s.withStack k).fault = s.fault := rfl
@[simp] theorem withStack_cfg : (s.withStack k).cfg = s.cfg := rfl
@[simp] theorem withStack_wbufCap : (s.withStack k).wbufCap = s.wbufCap := rfl
@[simp] theorem withStack_raster : (s.withStack k).raster = s.raster := rfl
@[simp] theorem withStack_stripe : (s.withStack k).stripe = s.stripe := rfl
@[simp] theorem withStack_rbuf : (s.withStack k).rbuf = s.rbuf := rfl
@[simp] theorem withStack_wr : (s.withStack k).wr = s.wr := rfl
@[simp] theorem withStack_rd : (s.withStack k).rd = s.rd := rfl
@[simp] theorem withStack_ana : (s.withStack k).ana = s.ana := rfl
@[simp] theorem withStack_pal : (s.withStack k).pal = s.pal := rfl
@[simp] theorem withStack_enc : (s.withStack k).enc = s.enc := rfl
@[simp] theorem withStack_dec : (s.withStack k).dec = s.dec := rfl
@[simp] theorem withStack_wstk : (s.withStack k).wstk = k := rfl
@[simp] theorem withStack_due : (s.withStack k).due = s.due := rfl
@[simp] theorem withStack_hostq : (s.withStack k).hostq = s.hostq := rfl
@[simp] theorem withStack_freeCtr : (s.withStack k).freeCtr = s.freeCtr := rfl
@[simp] theorem withStack_era : (s.withStack k).era = s.era := rfl
end withStack

section withDue
variable (s : State) (d : Due)
@[simp] theorem withDue_cmd : (s.withDue d).cmd = s.cmd := rfl
@[simp] theorem withDue_arg : (s.withDue d).arg = s.arg := rfl
@[simp] theorem withDue_res : (s.withDue d).res = s.res := rfl
@[simp] theorem withDue_fault : (s.withDue d).fault = s.fault := rfl
@[simp] theorem withDue_cfg : (s.withDue d).cfg = s.cfg := rfl
@[simp] theorem withDue_wbufCap : (s.withDue d).wbufCap = s.wbufCap := rfl
@[simp] theorem withDue_raster : (s.withDue d).raster = s.raster := rfl
@[simp] theorem withDue_stripe : (s.withDue d).stripe = s.stripe := rfl
@[simp] theorem withDue_rbuf : (s.withDue d).rbuf = s.rbuf := rfl
@[simp] theorem withDue_wr : (s.withDue d).wr = s.wr := rfl
@[simp] theorem withDue_rd : (s.withDue d).rd = s.rd := rfl
@[simp] theorem withDue_ana : (s.withDue d).ana = s.ana := rfl
@[simp] theorem withDue_pal : (s.withDue d).pal = s.pal := rfl
@[simp] theorem withDue_enc : (s.withDue d).enc = s.enc := rfl
@[simp] theorem withDue_dec : (s.withDue d).dec = s.dec := rfl
@[simp] theorem withDue_wstk : (s.withDue d).wstk = s.wstk := rfl
@[simp] theorem withDue_due : (s.withDue d).due = d := rfl
@[simp] theorem withDue_hostq : (s.withDue d).hostq = s.hostq := rfl
@[simp] theorem withDue_freeCtr : (s.withDue d).freeCtr = s.freeCtr := rfl
@[simp] theorem withDue_era : (s.withDue d).era = s.era := rfl
end withDue

section withRes
variable (s : State) (q : Quad)
@[simp] theorem withRes_cmd : (s.withRes q).cmd = s.cmd := rfl
@[simp] theorem withRes_arg : (s.withRes q).arg = s.arg := rfl
@[simp] theorem withRes_res : (s.withRes q).res = q := rfl
@[simp] theorem withRes_fault : (s.withRes q).fault = s.fault := rfl
@[simp] theorem withRes_cfg : (s.withRes q).cfg = s.cfg := rfl
@[simp] theorem withRes_wbufCap : (s.withRes q).wbufCap = s.wbufCap := rfl
@[simp] theorem withRes_raster : (s.withRes q).raster = s.raster := rfl
@[simp] theorem withRes_stripe : (s.withRes q).stripe = s.stripe := rfl
@[simp] theorem withRes_rbuf : (s.withRes q).rbuf = s.rbuf := rfl
@[simp] theorem withRes_wr : (s.withRes q).wr = s.wr := rfl
@[simp] theorem withRes_rd : (s.withRes q).rd = s.rd := rfl
@[simp] theorem withRes_ana : (s.withRes q).ana = s.ana := rfl
@[simp] theorem withRes_pal : (s.withRes q).pal = s.pal := rfl
@[simp] theorem withRes_enc : (s.withRes q).enc = s.enc := rfl
@[simp] theorem withRes_dec : (s.withRes q).dec = s.dec := rfl
@[simp] theorem withRes_wstk : (s.withRes q).wstk = s.wstk := rfl
@[simp] theorem withRes_due : (s.withRes q).due = s.due := rfl
@[simp] theorem withRes_hostq : (s.withRes q).hostq = s.hostq := rfl
@[simp] theorem withRes_freeCtr : (s.withRes q).freeCtr = s.freeCtr := rfl
@[simp] theorem withRes_era : (s.withRes q).era = s.era := rfl
end withRes

section withFault
variable (s : State) (f : FaultRegs)
@[simp] theorem withFault_cmd : (s.withFault f).cmd = s.cmd := rfl
@[simp] theorem withFault_arg : (s.withFault f).arg = s.arg := rfl
@[simp] theorem withFault_res : (s.withFault f).res = s.res := rfl
@[simp] theorem withFault_fault : (s.withFault f).fault = f := rfl
@[simp] theorem withFault_cfg : (s.withFault f).cfg = s.cfg := rfl
@[simp] theorem withFault_wbufCap : (s.withFault f).wbufCap = s.wbufCap := rfl
@[simp] theorem withFault_raster : (s.withFault f).raster = s.raster := rfl
@[simp] theorem withFault_stripe : (s.withFault f).stripe = s.stripe := rfl
@[simp] theorem withFault_rbuf : (s.withFault f).rbuf = s.rbuf := rfl
@[simp] theorem withFault_wr : (s.withFault f).wr = s.wr := rfl
@[simp] theorem withFault_rd : (s.withFault f).rd = s.rd := rfl
@[simp] theorem withFault_ana : (s.withFault f).ana = s.ana := rfl
@[simp] theorem withFault_pal : (s.withFault f).pal = s.pal := rfl
@[simp] theorem withFault_enc : (s.withFault f).enc = s.enc := rfl
@[simp] theorem withFault_dec : (s.withFault f).dec = s.dec := rfl
@[simp] theorem withFault_wstk : (s.withFault f).wstk = s.wstk := rfl
@[simp] theorem withFault_due : (s.withFault f).due = s.due := rfl
@[simp] theorem withFault_hostq : (s.withFault f).hostq = s.hostq := rfl
@[simp] theorem withFault_freeCtr : (s.withFault f).freeCtr = s.freeCtr := rfl
@[simp] theorem withFault_era : (s.withFault f).era = s.era := rfl
end withFault

@[simp] theorem withWr_withWr (s : State) (a b : Writer) : (s.withWr a).withWr b = s.withWr b := rfl
@[simp] theorem withWr_self (s : State) : s.withWr s.wr = s := rfl
@[simp] theorem withRd_withRd (s : State) (a b : Reader) : (s.withRd a).withRd b = s.withRd b := rfl
@[simp] theorem withRd_self (s : State) : s.withRd s.rd = s := rfl
@[simp] theorem withAna_withAna (s : State) (a b : Analysis) : (s.withAna a).withAna b = s.withAna b := rfl
@[simp] theorem withAna_self (s : State) : s.withAna s.ana = s := rfl
@[simp] theorem withPal_withPal (s : State) (a b : Palettes) : (s.withPal a).withPal b = s.withPal b := rfl
@[simp] theorem withPal_self (s : State) : s.withPal s.pal = s := rfl
@[simp] theorem withEnc_withEnc (s : State) (a b : Cursors) : (s.withEnc a).withEnc b = s.withEnc b := rfl
@[simp] theorem withEnc_self (s : State) : s.withEnc s.enc = s := rfl
@[simp] theorem withDec_withDec (s : State) (a b : Jobs) : (s.withDec a).withDec b = s.withDec b := rfl
@[simp] theorem withDec_self (s : State) : s.withDec s.dec = s := rfl
@[simp] theorem withStack_withStack (s : State) (a b : List Region) : (s.withStack a).withStack b = s.withStack b := rfl
@[simp] theorem withStack_self (s : State) : s.withStack s.wstk = s := rfl
@[simp] theorem withDue_withDue (s : State) (a b : Due) : (s.withDue a).withDue b = s.withDue b := rfl
@[simp] theorem withDue_self (s : State) : s.withDue s.due = s := rfl
@[simp] theorem withRes_withRes (s : State) (a b : Quad) : (s.withRes a).withRes b = s.withRes b := rfl
@[simp] theorem withRes_self (s : State) : s.withRes s.res = s := rfl
@[simp] theorem withFault_withFault (s : State) (a b : FaultRegs) : (s.withFault a).withFault b = s.withFault b := rfl
@[simp] theorem withFault_self (s : State) : s.withFault s.fault = s := rfl

section setRes0
variable (s : State) (a : Nat)
@[simp] theorem setRes0_cmd : (setRes0 s a).cmd = s.cmd := rfl
@[simp] theorem setRes0_arg : (setRes0 s a).arg = s.arg := rfl
@[simp] theorem setRes0_fault : (setRes0 s a).fault = s.fault := rfl
@[simp] theorem setRes0_cfg : (setRes0 s a).cfg = s.cfg := rfl
@[simp] theorem setRes0_wbufCap : (setRes0 s a).wbufCap = s.wbufCap := rfl
@[simp] theorem setRes0_raster : (setRes0 s a).raster = s.raster := rfl
@[simp] theorem setRes0_stripe : (setRes0 s a).stripe = s.stripe := rfl
@[simp] theorem setRes0_rbuf : (setRes0 s a).rbuf = s.rbuf := rfl
@[simp] theorem setRes0_wr : (setRes0 s a).wr = s.wr := rfl
@[simp] theorem setRes0_rd : (setRes0 s a).rd = s.rd := rfl
@[simp] theorem setRes0_ana : (setRes0 s a).ana = s.ana := rfl
@[simp] theorem setRes0_pal : (setRes0 s a).pal = s.pal := rfl
@[simp] theorem setRes0_enc : (setRes0 s a).enc = s.enc := rfl
@[simp] theorem setRes0_dec : (setRes0 s a).dec = s.dec := rfl
@[simp] theorem setRes0_wstk : (setRes0 s a).wstk = s.wstk := rfl
@[simp] theorem setRes0_due : (setRes0 s a).due = s.due := rfl
@[simp] theorem setRes0_hostq : (setRes0 s a).hostq = s.hostq := rfl
@[simp] theorem setRes0_freeCtr : (setRes0 s a).freeCtr = s.freeCtr := rfl
@[simp] theorem setRes0_era : (setRes0 s a).era = s.era := rfl
@[simp] theorem setRes0_r0 : (setRes0 s a).res.r0 = BitVec.ofNat 64 a := rfl
@[simp] theorem setRes0_r1 : (setRes0 s a).res.r1 = s.res.r1 := rfl
@[simp] theorem setRes0_r2 : (setRes0 s a).res.r2 = s.res.r2 := rfl
@[simp] theorem setRes0_r3 : (setRes0 s a).res.r3 = s.res.r3 := rfl
end setRes0

section setRes01
variable (s : State) (a b : Nat)
@[simp] theorem setRes01_cmd : (setRes01 s a b).cmd = s.cmd := rfl
@[simp] theorem setRes01_arg : (setRes01 s a b).arg = s.arg := rfl
@[simp] theorem setRes01_fault : (setRes01 s a b).fault = s.fault := rfl
@[simp] theorem setRes01_cfg : (setRes01 s a b).cfg = s.cfg := rfl
@[simp] theorem setRes01_wbufCap : (setRes01 s a b).wbufCap = s.wbufCap := rfl
@[simp] theorem setRes01_raster : (setRes01 s a b).raster = s.raster := rfl
@[simp] theorem setRes01_stripe : (setRes01 s a b).stripe = s.stripe := rfl
@[simp] theorem setRes01_rbuf : (setRes01 s a b).rbuf = s.rbuf := rfl
@[simp] theorem setRes01_wr : (setRes01 s a b).wr = s.wr := rfl
@[simp] theorem setRes01_rd : (setRes01 s a b).rd = s.rd := rfl
@[simp] theorem setRes01_ana : (setRes01 s a b).ana = s.ana := rfl
@[simp] theorem setRes01_pal : (setRes01 s a b).pal = s.pal := rfl
@[simp] theorem setRes01_enc : (setRes01 s a b).enc = s.enc := rfl
@[simp] theorem setRes01_dec : (setRes01 s a b).dec = s.dec := rfl
@[simp] theorem setRes01_wstk : (setRes01 s a b).wstk = s.wstk := rfl
@[simp] theorem setRes01_due : (setRes01 s a b).due = s.due := rfl
@[simp] theorem setRes01_hostq : (setRes01 s a b).hostq = s.hostq := rfl
@[simp] theorem setRes01_freeCtr : (setRes01 s a b).freeCtr = s.freeCtr := rfl
@[simp] theorem setRes01_era : (setRes01 s a b).era = s.era := rfl
@[simp] theorem setRes01_r0 : (setRes01 s a b).res.r0 = BitVec.ofNat 64 a := rfl
@[simp] theorem setRes01_r1 : (setRes01 s a b).res.r1 = BitVec.ofNat 64 b := rfl
@[simp] theorem setRes01_r2 : (setRes01 s a b).res.r2 = s.res.r2 := rfl
@[simp] theorem setRes01_r3 : (setRes01 s a b).res.r3 = s.res.r3 := rfl
end setRes01

section setRes012
variable (s : State) (a b c : Nat)
@[simp] theorem setRes012_cmd : (setRes012 s a b c).cmd = s.cmd := rfl
@[simp] theorem setRes012_arg : (setRes012 s a b c).arg = s.arg := rfl
@[simp] theorem setRes012_fault : (setRes012 s a b c).fault = s.fault := rfl
@[simp] theorem setRes012_cfg : (setRes012 s a b c).cfg = s.cfg := rfl
@[simp] theorem setRes012_wbufCap : (setRes012 s a b c).wbufCap = s.wbufCap := rfl
@[simp] theorem setRes012_raster : (setRes012 s a b c).raster = s.raster := rfl
@[simp] theorem setRes012_stripe : (setRes012 s a b c).stripe = s.stripe := rfl
@[simp] theorem setRes012_rbuf : (setRes012 s a b c).rbuf = s.rbuf := rfl
@[simp] theorem setRes012_wr : (setRes012 s a b c).wr = s.wr := rfl
@[simp] theorem setRes012_rd : (setRes012 s a b c).rd = s.rd := rfl
@[simp] theorem setRes012_ana : (setRes012 s a b c).ana = s.ana := rfl
@[simp] theorem setRes012_pal : (setRes012 s a b c).pal = s.pal := rfl
@[simp] theorem setRes012_enc : (setRes012 s a b c).enc = s.enc := rfl
@[simp] theorem setRes012_dec : (setRes012 s a b c).dec = s.dec := rfl
@[simp] theorem setRes012_wstk : (setRes012 s a b c).wstk = s.wstk := rfl
@[simp] theorem setRes012_due : (setRes012 s a b c).due = s.due := rfl
@[simp] theorem setRes012_hostq : (setRes012 s a b c).hostq = s.hostq := rfl
@[simp] theorem setRes012_freeCtr : (setRes012 s a b c).freeCtr = s.freeCtr := rfl
@[simp] theorem setRes012_era : (setRes012 s a b c).era = s.era := rfl
@[simp] theorem setRes012_r0 : (setRes012 s a b c).res.r0 = BitVec.ofNat 64 a := rfl
@[simp] theorem setRes012_r1 : (setRes012 s a b c).res.r1 = BitVec.ofNat 64 b := rfl
@[simp] theorem setRes012_r2 : (setRes012 s a b c).res.r2 = BitVec.ofNat 64 c := rfl
@[simp] theorem setRes012_r3 : (setRes012 s a b c).res.r3 = s.res.r3 := rfl
end setRes012

section setRes0123
variable (s : State) (a b c d : Nat)
@[simp] theorem setRes0123_cmd : (setRes0123 s a b c d).cmd = s.cmd := rfl
@[simp] theorem setRes0123_arg : (setRes0123 s a b c d).arg = s.arg := rfl
@[simp] theorem setRes0123_fault : (setRes0123 s a b c d).fault = s.fault := rfl
@[simp] theorem setRes0123_cfg : (setRes0123 s a b c d).cfg = s.cfg := rfl
@[simp] theorem setRes0123_wbufCap : (setRes0123 s a b c d).wbufCap = s.wbufCap := rfl
@[simp] theorem setRes0123_raster : (setRes0123 s a b c d).raster = s.raster := rfl
@[simp] theorem setRes0123_stripe : (setRes0123 s a b c d).stripe = s.stripe := rfl
@[simp] theorem setRes0123_rbuf : (setRes0123 s a b c d).rbuf = s.rbuf := rfl
@[simp] theorem setRes0123_wr : (setRes0123 s a b c d).wr = s.wr := rfl
@[simp] theorem setRes0123_rd : (setRes0123 s a b c d).rd = s.rd := rfl
@[simp] theorem setRes0123_ana : (setRes0123 s a b c d).ana = s.ana := rfl
@[simp] theorem setRes0123_pal : (setRes0123 s a b c d).pal = s.pal := rfl
@[simp] theorem setRes0123_enc : (setRes0123 s a b c d).enc = s.enc := rfl
@[simp] theorem setRes0123_dec : (setRes0123 s a b c d).dec = s.dec := rfl
@[simp] theorem setRes0123_wstk : (setRes0123 s a b c d).wstk = s.wstk := rfl
@[simp] theorem setRes0123_due : (setRes0123 s a b c d).due = s.due := rfl
@[simp] theorem setRes0123_hostq : (setRes0123 s a b c d).hostq = s.hostq := rfl
@[simp] theorem setRes0123_freeCtr : (setRes0123 s a b c d).freeCtr = s.freeCtr := rfl
@[simp] theorem setRes0123_era : (setRes0123 s a b c d).era = s.era := rfl
@[simp] theorem setRes0123_r0 : (setRes0123 s a b c d).res.r0 = BitVec.ofNat 64 a := rfl
@[simp] theorem setRes0123_r1 : (setRes0123 s a b c d).res.r1 = BitVec.ofNat 64 b := rfl
@[simp] theorem setRes0123_r2 : (setRes0123 s a b c d).res.r2 = BitVec.ofNat 64 c := rfl
@[simp] theorem setRes0123_r3 : (setRes0123 s a b c d).res.r3 = BitVec.ofNat 64 d := rfl
end setRes0123

section faultEntry
variable (r : Raise) (s : State) (f : State → State)
@[simp] theorem raiseFault_cmd : (raiseFault r s).cmd = s.cmd := rfl
@[simp] theorem raiseFault_arg : (raiseFault r s).arg = s.arg := rfl
@[simp] theorem raiseFault_res : (raiseFault r s).res = s.res := rfl
@[simp] theorem raiseFault_fault : (raiseFault r s).fault = ⟨true, causeCode r.cause, BitVec.ofNat 64 r.info0, BitVec.ofNat 64 r.info1⟩ := rfl
@[simp] theorem raiseFault_cfg : (raiseFault r s).cfg = s.cfg := rfl
@[simp] theorem raiseFault_wbufCap : (raiseFault r s).wbufCap = s.wbufCap := rfl
@[simp] theorem raiseFault_raster : (raiseFault r s).raster = s.raster := rfl
@[simp] theorem raiseFault_stripe : (raiseFault r s).stripe = s.stripe := rfl
@[simp] theorem raiseFault_rbuf : (raiseFault r s).rbuf = s.rbuf := rfl
@[simp] theorem raiseFault_wr : (raiseFault r s).wr = s.wr := rfl
@[simp] theorem raiseFault_rd : (raiseFault r s).rd = s.rd := rfl
@[simp] theorem raiseFault_ana : (raiseFault r s).ana = s.ana := rfl
@[simp] theorem raiseFault_pal : (raiseFault r s).pal = s.pal := rfl
@[simp] theorem raiseFault_enc : (raiseFault r s).enc = s.enc := rfl
@[simp] theorem raiseFault_dec : (raiseFault r s).dec = s.dec := rfl
@[simp] theorem raiseFault_wstk : (raiseFault r s).wstk = s.wstk := rfl
@[simp] theorem raiseFault_due : (raiseFault r s).due = .none := rfl
@[simp] theorem raiseFault_hostq : (raiseFault r s).hostq = s.hostq := rfl
@[simp] theorem raiseFault_freeCtr : (raiseFault r s).freeCtr = s.freeCtr := rfl
@[simp] theorem raiseFault_era : (raiseFault r s).era = s.era := rfl
@[simp] theorem bodyFault_cmd : (bodyFault f r s).cmd = (f s).cmd := rfl
@[simp] theorem bodyFault_arg : (bodyFault f r s).arg = (f s).arg := rfl
@[simp] theorem bodyFault_res : (bodyFault f r s).res = (f s).res := rfl
@[simp] theorem bodyFault_fault : (bodyFault f r s).fault = ⟨true, causeCode r.cause, BitVec.ofNat 64 r.info0, BitVec.ofNat 64 r.info1⟩ := rfl
@[simp] theorem bodyFault_cfg : (bodyFault f r s).cfg = (f s).cfg := rfl
@[simp] theorem bodyFault_wbufCap : (bodyFault f r s).wbufCap = (f s).wbufCap := rfl
@[simp] theorem bodyFault_raster : (bodyFault f r s).raster = (f s).raster := rfl
@[simp] theorem bodyFault_stripe : (bodyFault f r s).stripe = (f s).stripe := rfl
@[simp] theorem bodyFault_rbuf : (bodyFault f r s).rbuf = (f s).rbuf := rfl
@[simp] theorem bodyFault_wr : (bodyFault f r s).wr = (f s).wr := rfl
@[simp] theorem bodyFault_rd : (bodyFault f r s).rd = (f s).rd := rfl
@[simp] theorem bodyFault_ana : (bodyFault f r s).ana = (f s).ana := rfl
@[simp] theorem bodyFault_pal : (bodyFault f r s).pal = (f s).pal := rfl
@[simp] theorem bodyFault_enc : (bodyFault f r s).enc = (f s).enc := rfl
@[simp] theorem bodyFault_dec : (bodyFault f r s).dec = (f s).dec := rfl
@[simp] theorem bodyFault_wstk : (bodyFault f r s).wstk = (f s).wstk := rfl
@[simp] theorem bodyFault_due : (bodyFault f r s).due = .none := rfl
@[simp] theorem bodyFault_hostq : (bodyFault f r s).hostq = (f s).hostq := rfl
@[simp] theorem bodyFault_freeCtr : (bodyFault f r s).freeCtr = s.freeCtr + 1 := rfl
@[simp] theorem bodyFault_era : (bodyFault f r s).era = (f s).era := rfl
end faultEntry

@[simp] theorem freeWriter_cmd (s : State) : (freeWriter s).cmd = s.cmd := rfl
@[simp] theorem freeWriter_arg (s : State) : (freeWriter s).arg = s.arg := rfl
@[simp] theorem freeWriter_res (s : State) : (freeWriter s).res = s.res := rfl
@[simp] theorem freeWriter_fault (s : State) : (freeWriter s).fault = s.fault := rfl
@[simp] theorem freeWriter_cfg (s : State) : (freeWriter s).cfg = s.cfg := rfl
@[simp] theorem freeWriter_wbufCap (s : State) : (freeWriter s).wbufCap = s.wbufCap := rfl
@[simp] theorem freeWriter_raster (s : State) : (freeWriter s).raster = s.raster := rfl
@[simp] theorem freeWriter_stripe (s : State) : (freeWriter s).stripe = s.stripe := rfl
@[simp] theorem freeWriter_rbuf (s : State) : (freeWriter s).rbuf = s.rbuf := rfl
@[simp] theorem freeWriter_rd (s : State) : (freeWriter s).rd = s.rd := rfl
@[simp] theorem freeWriter_ana (s : State) : (freeWriter s).ana = s.ana := rfl
@[simp] theorem freeWriter_pal (s : State) : (freeWriter s).pal = s.pal := rfl
@[simp] theorem freeWriter_enc (s : State) : (freeWriter s).enc = s.enc := rfl
@[simp] theorem freeWriter_dec (s : State) : (freeWriter s).dec = s.dec := rfl
@[simp] theorem freeWriter_wstk (s : State) : (freeWriter s).wstk = s.wstk := rfl
@[simp] theorem freeWriter_due (s : State) : (freeWriter s).due = s.due := rfl
@[simp] theorem freeWriter_hostq (s : State) : (freeWriter s).hostq = s.hostq := rfl
@[simp] theorem freeWriter_freeCtr (s : State) : (freeWriter s).freeCtr = s.freeCtr := rfl
@[simp] theorem freeWriter_era (s : State) : (freeWriter s).era = s.era := rfl
@[simp] theorem freePosition_cmd (s : State) : (freePosition s).cmd = s.cmd := rfl
@[simp] theorem freePosition_arg (s : State) : (freePosition s).arg = s.arg := rfl
@[simp] theorem freePosition_res (s : State) : (freePosition s).res = s.res := rfl
@[simp] theorem freePosition_fault (s : State) : (freePosition s).fault = s.fault := rfl
@[simp] theorem freePosition_cfg (s : State) : (freePosition s).cfg = s.cfg := rfl
@[simp] theorem freePosition_wbufCap (s : State) : (freePosition s).wbufCap = s.wbufCap := rfl
@[simp] theorem freePosition_raster (s : State) : (freePosition s).raster = s.raster := rfl
@[simp] theorem freePosition_stripe (s : State) : (freePosition s).stripe = s.stripe := rfl
@[simp] theorem freePosition_rbuf (s : State) : (freePosition s).rbuf = s.rbuf := rfl
@[simp] theorem freePosition_wr (s : State) : (freePosition s).wr = s.wr := rfl
@[simp] theorem freePosition_ana (s : State) : (freePosition s).ana = s.ana := rfl
@[simp] theorem freePosition_pal (s : State) : (freePosition s).pal = s.pal := rfl
@[simp] theorem freePosition_enc (s : State) : (freePosition s).enc = s.enc := rfl
@[simp] theorem freePosition_dec (s : State) : (freePosition s).dec = s.dec := rfl
@[simp] theorem freePosition_wstk (s : State) : (freePosition s).wstk = s.wstk := rfl
@[simp] theorem freePosition_due (s : State) : (freePosition s).due = s.due := rfl
@[simp] theorem freePosition_hostq (s : State) : (freePosition s).hostq = s.hostq := rfl
@[simp] theorem freePosition_freeCtr (s : State) : (freePosition s).freeCtr = s.freeCtr := rfl
@[simp] theorem freePosition_era (s : State) : (freePosition s).era = s.era := rfl
@[simp] theorem freeLength_cmd (s : State) : (freeLength s).cmd = s.cmd := rfl
@[simp] theorem freeLength_arg (s : State) : (freeLength s).arg = s.arg := rfl
@[simp] theorem freeLength_res (s : State) : (freeLength s).res = s.res := rfl
@[simp] theorem freeLength_fault (s : State) : (freeLength s).fault = s.fault := rfl
@[simp] theorem freeLength_cfg (s : State) : (freeLength s).cfg = s.cfg := rfl
@[simp] theorem freeLength_wbufCap (s : State) : (freeLength s).wbufCap = s.wbufCap := rfl
@[simp] theorem freeLength_raster (s : State) : (freeLength s).raster = s.raster := rfl
@[simp] theorem freeLength_stripe (s : State) : (freeLength s).stripe = s.stripe := rfl
@[simp] theorem freeLength_rbuf (s : State) : (freeLength s).rbuf = s.rbuf := rfl
@[simp] theorem freeLength_wr (s : State) : (freeLength s).wr = s.wr := rfl
@[simp] theorem freeLength_ana (s : State) : (freeLength s).ana = s.ana := rfl
@[simp] theorem freeLength_pal (s : State) : (freeLength s).pal = s.pal := rfl
@[simp] theorem freeLength_enc (s : State) : (freeLength s).enc = s.enc := rfl
@[simp] theorem freeLength_dec (s : State) : (freeLength s).dec = s.dec := rfl
@[simp] theorem freeLength_wstk (s : State) : (freeLength s).wstk = s.wstk := rfl
@[simp] theorem freeLength_due (s : State) : (freeLength s).due = s.due := rfl
@[simp] theorem freeLength_hostq (s : State) : (freeLength s).hostq = s.hostq := rfl
@[simp] theorem freeLength_freeCtr (s : State) : (freeLength s).freeCtr = s.freeCtr := rfl
@[simp] theorem freeLength_era (s : State) : (freeLength s).era = s.era := rfl
@[simp] theorem freeAnalysis_cmd (s : State) : (freeAnalysis s).cmd = s.cmd := rfl
@[simp] theorem freeAnalysis_arg (s : State) : (freeAnalysis s).arg = s.arg := rfl
@[simp] theorem freeAnalysis_res (s : State) : (freeAnalysis s).res = s.res := rfl
@[simp] theorem freeAnalysis_fault (s : State) : (freeAnalysis s).fault = s.fault := rfl
@[simp] theorem freeAnalysis_cfg (s : State) : (freeAnalysis s).cfg = s.cfg := rfl
@[simp] theorem freeAnalysis_wbufCap (s : State) : (freeAnalysis s).wbufCap = s.wbufCap := rfl
@[simp] theorem freeAnalysis_raster (s : State) : (freeAnalysis s).raster = s.raster := rfl
@[simp] theorem freeAnalysis_stripe (s : State) : (freeAnalysis s).stripe = s.stripe := rfl
@[simp] theorem freeAnalysis_rbuf (s : State) : (freeAnalysis s).rbuf = s.rbuf := rfl
@[simp] theorem freeAnalysis_wr (s : State) : (freeAnalysis s).wr = s.wr := rfl
@[simp] theorem freeAnalysis_rd (s : State) : (freeAnalysis s).rd = s.rd := rfl
@[simp] theorem freeAnalysis_pal (s : State) : (freeAnalysis s).pal = s.pal := rfl
@[simp] theorem freeAnalysis_enc (s : State) : (freeAnalysis s).enc = s.enc := rfl
@[simp] theorem freeAnalysis_dec (s : State) : (freeAnalysis s).dec = s.dec := rfl
@[simp] theorem freeAnalysis_wstk (s : State) : (freeAnalysis s).wstk = s.wstk := rfl
@[simp] theorem freeAnalysis_due (s : State) : (freeAnalysis s).due = s.due := rfl
@[simp] theorem freeAnalysis_hostq (s : State) : (freeAnalysis s).hostq = s.hostq := rfl
@[simp] theorem freeAnalysis_freeCtr (s : State) : (freeAnalysis s).freeCtr = s.freeCtr := rfl
@[simp] theorem freeAnalysis_era (s : State) : (freeAnalysis s).era = s.era := rfl
@[simp] theorem freePaletteTable_cmd (s : State) : (freePaletteTable s).cmd = s.cmd := rfl
@[simp] theorem freePaletteTable_arg (s : State) : (freePaletteTable s).arg = s.arg := rfl
@[simp] theorem freePaletteTable_res (s : State) : (freePaletteTable s).res = s.res := rfl
@[simp] theorem freePaletteTable_fault (s : State) : (freePaletteTable s).fault = s.fault := rfl
@[simp] theorem freePaletteTable_cfg (s : State) : (freePaletteTable s).cfg = s.cfg := rfl
@[simp] theorem freePaletteTable_wbufCap (s : State) : (freePaletteTable s).wbufCap = s.wbufCap := rfl
@[simp] theorem freePaletteTable_raster (s : State) : (freePaletteTable s).raster = s.raster := rfl
@[simp] theorem freePaletteTable_stripe (s : State) : (freePaletteTable s).stripe = s.stripe := rfl
@[simp] theorem freePaletteTable_rbuf (s : State) : (freePaletteTable s).rbuf = s.rbuf := rfl
@[simp] theorem freePaletteTable_wr (s : State) : (freePaletteTable s).wr = s.wr := rfl
@[simp] theorem freePaletteTable_rd (s : State) : (freePaletteTable s).rd = s.rd := rfl
@[simp] theorem freePaletteTable_ana (s : State) : (freePaletteTable s).ana = s.ana := rfl
@[simp] theorem freePaletteTable_enc (s : State) : (freePaletteTable s).enc = s.enc := rfl
@[simp] theorem freePaletteTable_dec (s : State) : (freePaletteTable s).dec = s.dec := rfl
@[simp] theorem freePaletteTable_wstk (s : State) : (freePaletteTable s).wstk = s.wstk := rfl
@[simp] theorem freePaletteTable_due (s : State) : (freePaletteTable s).due = s.due := rfl
@[simp] theorem freePaletteTable_hostq (s : State) : (freePaletteTable s).hostq = s.hostq := rfl
@[simp] theorem freePaletteTable_freeCtr (s : State) : (freePaletteTable s).freeCtr = s.freeCtr := rfl
@[simp] theorem freePaletteTable_era (s : State) : (freePaletteTable s).era = s.era := rfl
@[simp] theorem freeReferences_cmd (s : State) : (freeReferences s).cmd = s.cmd := rfl
@[simp] theorem freeReferences_arg (s : State) : (freeReferences s).arg = s.arg := rfl
@[simp] theorem freeReferences_res (s : State) : (freeReferences s).res = s.res := rfl
@[simp] theorem freeReferences_fault (s : State) : (freeReferences s).fault = s.fault := rfl
@[simp] theorem freeReferences_cfg (s : State) : (freeReferences s).cfg = s.cfg := rfl
@[simp] theorem freeReferences_wbufCap (s : State) : (freeReferences s).wbufCap = s.wbufCap := rfl
@[simp] theorem freeReferences_raster (s : State) : (freeReferences s).raster = s.raster := rfl
@[simp] theorem freeReferences_stripe (s : State) : (freeReferences s).stripe = s.stripe := rfl
@[simp] theorem freeReferences_rbuf (s : State) : (freeReferences s).rbuf = s.rbuf := rfl
@[simp] theorem freeReferences_wr (s : State) : (freeReferences s).wr = s.wr := rfl
@[simp] theorem freeReferences_rd (s : State) : (freeReferences s).rd = s.rd := rfl
@[simp] theorem freeReferences_ana (s : State) : (freeReferences s).ana = s.ana := rfl
@[simp] theorem freeReferences_enc (s : State) : (freeReferences s).enc = s.enc := rfl
@[simp] theorem freeReferences_dec (s : State) : (freeReferences s).dec = s.dec := rfl
@[simp] theorem freeReferences_wstk (s : State) : (freeReferences s).wstk = s.wstk := rfl
@[simp] theorem freeReferences_due (s : State) : (freeReferences s).due = s.due := rfl
@[simp] theorem freeReferences_hostq (s : State) : (freeReferences s).hostq = s.hostq := rfl
@[simp] theorem freeReferences_freeCtr (s : State) : (freeReferences s).freeCtr = s.freeCtr := rfl
@[simp] theorem freeReferences_era (s : State) : (freeReferences s).era = s.era := rfl
@[simp] theorem freeCursors_cmd (s : State) : (freeCursors s).cmd = s.cmd := rfl
@[simp] theorem freeCursors_arg (s : State) : (freeCursors s).arg = s.arg := rfl
@[simp] theorem freeCursors_res (s : State) : (freeCursors s).res = s.res := rfl
@[simp] theorem freeCursors_fault (s : State) : (freeCursors s).fault = s.fault := rfl
@[simp] theorem freeCursors_cfg (s : State) : (freeCursors s).cfg = s.cfg := rfl
@[simp] theorem freeCursors_wbufCap (s : State) : (freeCursors s).wbufCap = s.wbufCap := rfl
@[simp] theorem freeCursors_raster (s : State) : (freeCursors s).raster = s.raster := rfl
@[simp] theorem freeCursors_stripe (s : State) : (freeCursors s).stripe = s.stripe := rfl
@[simp] theorem freeCursors_rbuf (s : State) : (freeCursors s).rbuf = s.rbuf := rfl
@[simp] theorem freeCursors_wr (s : State) : (freeCursors s).wr = s.wr := rfl
@[simp] theorem freeCursors_rd (s : State) : (freeCursors s).rd = s.rd := rfl
@[simp] theorem freeCursors_ana (s : State) : (freeCursors s).ana = s.ana := rfl
@[simp] theorem freeCursors_pal (s : State) : (freeCursors s).pal = s.pal := rfl
@[simp] theorem freeCursors_dec (s : State) : (freeCursors s).dec = s.dec := rfl
@[simp] theorem freeCursors_wstk (s : State) : (freeCursors s).wstk = s.wstk := rfl
@[simp] theorem freeCursors_due (s : State) : (freeCursors s).due = s.due := rfl
@[simp] theorem freeCursors_hostq (s : State) : (freeCursors s).hostq = s.hostq := rfl
@[simp] theorem freeCursors_freeCtr (s : State) : (freeCursors s).freeCtr = s.freeCtr := rfl
@[simp] theorem freeCursors_era (s : State) : (freeCursors s).era = s.era := rfl
@[simp] theorem freeJobs_cmd (s : State) : (freeJobs s).cmd = s.cmd := rfl
@[simp] theorem freeJobs_arg (s : State) : (freeJobs s).arg = s.arg := rfl
@[simp] theorem freeJobs_res (s : State) : (freeJobs s).res = s.res := rfl
@[simp] theorem freeJobs_fault (s : State) : (freeJobs s).fault = s.fault := rfl
@[simp] theorem freeJobs_cfg (s : State) : (freeJobs s).cfg = s.cfg := rfl
@[simp] theorem freeJobs_wbufCap (s : State) : (freeJobs s).wbufCap = s.wbufCap := rfl
@[simp] theorem freeJobs_raster (s : State) : (freeJobs s).raster = s.raster := rfl
@[simp] theorem freeJobs_stripe (s : State) : (freeJobs s).stripe = s.stripe := rfl
@[simp] theorem freeJobs_rbuf (s : State) : (freeJobs s).rbuf = s.rbuf := rfl
@[simp] theorem freeJobs_wr (s : State) : (freeJobs s).wr = s.wr := rfl
@[simp] theorem freeJobs_rd (s : State) : (freeJobs s).rd = s.rd := rfl
@[simp] theorem freeJobs_ana (s : State) : (freeJobs s).ana = s.ana := rfl
@[simp] theorem freeJobs_pal (s : State) : (freeJobs s).pal = s.pal := rfl
@[simp] theorem freeJobs_enc (s : State) : (freeJobs s).enc = s.enc := rfl
@[simp] theorem freeJobs_wstk (s : State) : (freeJobs s).wstk = s.wstk := rfl
@[simp] theorem freeJobs_due (s : State) : (freeJobs s).due = s.due := rfl
@[simp] theorem freeJobs_hostq (s : State) : (freeJobs s).hostq = s.hostq := rfl
@[simp] theorem freeJobs_freeCtr (s : State) : (freeJobs s).freeCtr = s.freeCtr := rfl
@[simp] theorem freeJobs_era (s : State) : (freeJobs s).era = s.era := rfl
@[simp] theorem freeWalk_cmd (s : State) : (freeWalk s).cmd = s.cmd := rfl
@[simp] theorem freeWalk_arg (s : State) : (freeWalk s).arg = s.arg := rfl
@[simp] theorem freeWalk_res (s : State) : (freeWalk s).res = s.res := rfl
@[simp] theorem freeWalk_fault (s : State) : (freeWalk s).fault = s.fault := rfl
@[simp] theorem freeWalk_cfg (s : State) : (freeWalk s).cfg = s.cfg := rfl
@[simp] theorem freeWalk_wbufCap (s : State) : (freeWalk s).wbufCap = s.wbufCap := rfl
@[simp] theorem freeWalk_raster (s : State) : (freeWalk s).raster = s.raster := rfl
@[simp] theorem freeWalk_stripe (s : State) : (freeWalk s).stripe = s.stripe := rfl
@[simp] theorem freeWalk_rbuf (s : State) : (freeWalk s).rbuf = s.rbuf := rfl
@[simp] theorem freeWalk_wr (s : State) : (freeWalk s).wr = s.wr := rfl
@[simp] theorem freeWalk_rd (s : State) : (freeWalk s).rd = s.rd := rfl
@[simp] theorem freeWalk_ana (s : State) : (freeWalk s).ana = s.ana := rfl
@[simp] theorem freeWalk_pal (s : State) : (freeWalk s).pal = s.pal := rfl
@[simp] theorem freeWalk_enc (s : State) : (freeWalk s).enc = s.enc := rfl
@[simp] theorem freeWalk_dec (s : State) : (freeWalk s).dec = s.dec := rfl
@[simp] theorem freeWalk_due (s : State) : (freeWalk s).due = s.due := rfl
@[simp] theorem freeWalk_hostq (s : State) : (freeWalk s).hostq = s.hostq := rfl
@[simp] theorem freeWalk_freeCtr (s : State) : (freeWalk s).freeCtr = s.freeCtr := rfl
@[simp] theorem freeWalk_era (s : State) : (freeWalk s).era = s.era := rfl
@[simp] theorem freeRes0_cmd (s : State) : (freeRes0 s).cmd = s.cmd := rfl
@[simp] theorem freeRes0_arg (s : State) : (freeRes0 s).arg = s.arg := rfl
@[simp] theorem freeRes0_fault (s : State) : (freeRes0 s).fault = s.fault := rfl
@[simp] theorem freeRes0_cfg (s : State) : (freeRes0 s).cfg = s.cfg := rfl
@[simp] theorem freeRes0_wbufCap (s : State) : (freeRes0 s).wbufCap = s.wbufCap := rfl
@[simp] theorem freeRes0_raster (s : State) : (freeRes0 s).raster = s.raster := rfl
@[simp] theorem freeRes0_stripe (s : State) : (freeRes0 s).stripe = s.stripe := rfl
@[simp] theorem freeRes0_rbuf (s : State) : (freeRes0 s).rbuf = s.rbuf := rfl
@[simp] theorem freeRes0_wr (s : State) : (freeRes0 s).wr = s.wr := rfl
@[simp] theorem freeRes0_rd (s : State) : (freeRes0 s).rd = s.rd := rfl
@[simp] theorem freeRes0_ana (s : State) : (freeRes0 s).ana = s.ana := rfl
@[simp] theorem freeRes0_pal (s : State) : (freeRes0 s).pal = s.pal := rfl
@[simp] theorem freeRes0_enc (s : State) : (freeRes0 s).enc = s.enc := rfl
@[simp] theorem freeRes0_dec (s : State) : (freeRes0 s).dec = s.dec := rfl
@[simp] theorem freeRes0_wstk (s : State) : (freeRes0 s).wstk = s.wstk := rfl
@[simp] theorem freeRes0_due (s : State) : (freeRes0 s).due = s.due := rfl
@[simp] theorem freeRes0_hostq (s : State) : (freeRes0 s).hostq = s.hostq := rfl
@[simp] theorem freeRes0_freeCtr (s : State) : (freeRes0 s).freeCtr = s.freeCtr := rfl
@[simp] theorem freeRes0_era (s : State) : (freeRes0 s).era = s.era := rfl
@[simp] theorem freeRes01_cmd (s : State) : (freeRes01 s).cmd = s.cmd := rfl
@[simp] theorem freeRes01_arg (s : State) : (freeRes01 s).arg = s.arg := rfl
@[simp] theorem freeRes01_fault (s : State) : (freeRes01 s).fault = s.fault := rfl
@[simp] theorem freeRes01_cfg (s : State) : (freeRes01 s).cfg = s.cfg := rfl
@[simp] theorem freeRes01_wbufCap (s : State) : (freeRes01 s).wbufCap = s.wbufCap := rfl
@[simp] theorem freeRes01_raster (s : State) : (freeRes01 s).raster = s.raster := rfl
@[simp] theorem freeRes01_stripe (s : State) : (freeRes01 s).stripe = s.stripe := rfl
@[simp] theorem freeRes01_rbuf (s : State) : (freeRes01 s).rbuf = s.rbuf := rfl
@[simp] theorem freeRes01_wr (s : State) : (freeRes01 s).wr = s.wr := rfl
@[simp] theorem freeRes01_rd (s : State) : (freeRes01 s).rd = s.rd := rfl
@[simp] theorem freeRes01_ana (s : State) : (freeRes01 s).ana = s.ana := rfl
@[simp] theorem freeRes01_pal (s : State) : (freeRes01 s).pal = s.pal := rfl
@[simp] theorem freeRes01_enc (s : State) : (freeRes01 s).enc = s.enc := rfl
@[simp] theorem freeRes01_dec (s : State) : (freeRes01 s).dec = s.dec := rfl
@[simp] theorem freeRes01_wstk (s : State) : (freeRes01 s).wstk = s.wstk := rfl
@[simp] theorem freeRes01_due (s : State) : (freeRes01 s).due = s.due := rfl
@[simp] theorem freeRes01_hostq (s : State) : (freeRes01 s).hostq = s.hostq := rfl
@[simp] theorem freeRes01_freeCtr (s : State) : (freeRes01 s).freeCtr = s.freeCtr := rfl
@[simp] theorem freeRes01_era (s : State) : (freeRes01 s).era = s.era := rfl
@[simp] theorem freeRes012_cmd (s : State) : (freeRes012 s).cmd = s.cmd := rfl
@[simp] theorem freeRes012_arg (s : State) : (freeRes012 s).arg = s.arg := rfl
@[simp] theorem freeRes012_fault (s : State) : (freeRes012 s).fault = s.fault := rfl
@[simp] theorem freeRes012_cfg (s : State) : (freeRes012 s).cfg = s.cfg := rfl
@[simp] theorem freeRes012_wbufCap (s : State) : (freeRes012 s).wbufCap = s.wbufCap := rfl
@[simp] theorem freeRes012_raster (s : State) : (freeRes012 s).raster = s.raster := rfl
@[simp] theorem freeRes012_stripe (s : State) : (freeRes012 s).stripe = s.stripe := rfl
@[simp] theorem freeRes012_rbuf (s : State) : (freeRes012 s).rbuf = s.rbuf := rfl
@[simp] theorem freeRes012_wr (s : State) : (freeRes012 s).wr = s.wr := rfl
@[simp] theorem freeRes012_rd (s : State) : (freeRes012 s).rd = s.rd := rfl
@[simp] theorem freeRes012_ana (s : State) : (freeRes012 s).ana = s.ana := rfl
@[simp] theorem freeRes012_pal (s : State) : (freeRes012 s).pal = s.pal := rfl
@[simp] theorem freeRes012_enc (s : State) : (freeRes012 s).enc = s.enc := rfl
@[simp] theorem freeRes012_dec (s : State) : (freeRes012 s).dec = s.dec := rfl
@[simp] theorem freeRes012_wstk (s : State) : (freeRes012 s).wstk = s.wstk := rfl
@[simp] theorem freeRes012_due (s : State) : (freeRes012 s).due = s.due := rfl
@[simp] theorem freeRes012_hostq (s : State) : (freeRes012 s).hostq = s.hostq := rfl
@[simp] theorem freeRes012_freeCtr (s : State) : (freeRes012 s).freeCtr = s.freeCtr := rfl
@[simp] theorem freeRes012_era (s : State) : (freeRes012 s).era = s.era := rfl

@[simp] theorem softReset_cmd (s : State) : (softReset s).cmd = s.cmd := rfl
@[simp] theorem softReset_arg (s : State) : (softReset s).arg = s.arg := rfl
@[simp] theorem softReset_cfg (s : State) : (softReset s).cfg = s.cfg := rfl
@[simp] theorem softReset_wbufCap (s : State) : (softReset s).wbufCap = s.wbufCap := rfl
@[simp] theorem softReset_raster (s : State) : (softReset s).raster = s.raster := rfl
@[simp] theorem softReset_stripe (s : State) : (softReset s).stripe = s.stripe := rfl
@[simp] theorem softReset_rbuf (s : State) : (softReset s).rbuf = s.rbuf := rfl
@[simp] theorem softReset_due (s : State) : (softReset s).due = s.due := rfl
@[simp] theorem softReset_hostq (s : State) : (softReset s).hostq = s.hostq := rfl
@[simp] theorem softReset_freeCtr (s : State) : (softReset s).freeCtr = s.freeCtr := rfl
@[simp] theorem softReset_era (s : State) : (softReset s).era = s.era := rfl

end Sys2Proof.Machine
end

