-- ==== Sys2Proof/Laws/Bits.lean ====
section
/-! SUPPORT. Numbers as lists of bits, most significant first, and reading a field off a list. -/

namespace Sys2Proof

@[simp] theorem natToBits_length (n v : Nat) : (natToBits n v).length = n := by
  induction n with
  | zero => rfl
  | succ n ih => simp [natToBits, ih]

theorem bitsToNatFrom_append (acc : Nat) (a b : List Bool) :
    bitsToNatFrom acc (a ++ b) = bitsToNatFrom (bitsToNatFrom acc a) b := by
  induction a generalizing acc with
  | nil => rfl
  | cons x xs ih => exact ih _

/-- Reading a field's bits onto a value shifts the value and adds the field. -/
theorem bitsToNatFrom_natToBits (n v acc : Nat) :
    bitsToNatFrom acc (natToBits n v) = acc * 2 ^ n + v % 2 ^ n := by
  induction n generalizing acc with
  | zero => simp [natToBits, bitsToNatFrom, Nat.mod_one]
  | succ n ih =>
    simp only [natToBits, bitsToNatFrom, ih]
    have h : v % 2 ^ (n + 1) = (v.testBit n).toNat * 2 ^ n + v % 2 ^ n := by
      rw [pow_succ, Nat.mod_mul, Nat.testBit_eq_decide_div_mod_eq]
      have h2 : v / 2 ^ n % 2 < 2 := Nat.mod_lt _ (by decide)
      rcases Nat.lt_or_ge (v / 2 ^ n % 2) 1 with h3 | h3
      · have h4 : v / 2 ^ n % 2 = 0 := by omega
        simp [h4]
      · have h4 : v / 2 ^ n % 2 = 1 := by omega
        simp [h4, Nat.add_comm]
    rw [h, pow_succ]
    ring

/-- A field written and read back is the field (20_memory.md R61). -/
theorem bitsToNat_natToBits (n v : Nat) (h : v < 2 ^ n) : bitsToNat (natToBits n v) = v := by
  rw [bitsToNat, bitsToNatFrom_natToBits, Nat.zero_mul, Nat.zero_add, Nat.mod_eq_of_lt h]

/-- The front of a list of bits is split off as a field. -/
theorem splitField_natToBits (n v : Nat) (rest : List Bool) (h : v < 2 ^ n) :
    splitField n (natToBits n v ++ rest) = some (v, rest) := by
  have hl : ¬ (natToBits n v ++ rest).length < n := by simp
  have ht : (natToBits n v ++ rest).take n = natToBits n v :=
    List.take_left' (natToBits_length n v)
  have hd : (natToBits n v ++ rest).drop n = rest := List.drop_left' (natToBits_length n v)
  rw [splitField, if_neg hl, ht, hd, bitsToNat_natToBits n v h]

/-- A number's bits come in two runs. -/
theorem natToBits_take (n k v : Nat) (h : k ≤ n) :
    (natToBits n v).take k = natToBits k (v >>> (n - k)) := by
  induction n generalizing k with
  | zero => obtain rfl : k = 0 := by omega
            rfl
  | succ n ih =>
    cases k with
    | zero => rfl
    | succ k =>
      simp only [natToBits, List.take_succ_cons, ih k (by omega)]
      have : n + 1 - (k + 1) = n - k := by omega
      rw [this, Nat.testBit_shiftRight]
      congr 2
      omega

theorem natToBits_getElem (n v k : Nat) (h : k < (natToBits n v).length) :
    (natToBits n v)[k] = v.testBit (n - 1 - k) := by
  induction n generalizing k with
  | zero => simp at h
  | succ n ih =>
    cases k with
    | zero => simp [natToBits]
    | succ k =>
      simp only [natToBits, List.getElem_cons_succ]
      rw [ih]
      congr 1
      omega

theorem bytesToBits_append (a b : List Byte) : bytesToBits (a ++ b) = bytesToBits a ++ bytesToBits b := by
  simp [bytesToBits]

@[simp] theorem bytesToBits_length (a : List Byte) : (bytesToBits a).length = 8 * a.length := by
  induction a with
  | nil => rfl
  | cons x xs ih =>
    have : bytesToBits (x :: xs) = natToBits 8 x.toNat ++ bytesToBits xs := rfl
    rw [this, List.length_append, ih, natToBits_length, List.length_cons]
    omega

/-- Bit `k` of bytes is bit `7 - k % 8` of byte `k / 8` (20_memory.md R60). -/
theorem bytesToBits_getElem (a : List Byte) (k : Nat) (h : k < (bytesToBits a).length)
    (hb : k / 8 < a.length) : (bytesToBits a)[k] = a[k / 8].getLsbD (7 - k % 8) := by
  induction a generalizing k with
  | nil => simp at hb
  | cons x xs ih =>
    have e : bytesToBits (x :: xs) = natToBits 8 x.toNat ++ bytesToBits xs := rfl
    simp only [e]
    by_cases hk : k < 8
    · rw [List.getElem_append_left (by simpa using hk), natToBits_getElem]
      have h0 : k / 8 = 0 := by omega
      have h1 : k % 8 = k := by omega
      simp [h0, h1, BitVec.getLsbD]
    · rw [List.getElem_append_right (by simpa using hk)]
      simp only [natToBits_length]
      have h1 : (k - 8) / 8 < xs.length := by simp at hb; omega
      rw [ih (k - 8) _ h1]
      have h2 : k / 8 = (k - 8) / 8 + 1 := by omega
      have h3 : (k - 8) % 8 = k % 8 := by omega
      simp [h2, h3]

end Sys2Proof
end

