-- ==== Sys2Proof/Laws/Command.lean ====
section
/-! SUPPORT. What the shape of a command can answer (30_encoding.md R105, 60_exceptions.md R221 to
R227), and the bind of a body. -/

namespace Sys2Proof.Machine

@[simp] theorem ok_bind {α β : Type} (a : α) (f : α → Except Raise β) :
    (Except.ok a >>= f) = f a := rfl

@[simp] theorem error_bind {α β : Type} (r : Raise) (f : α → Except Raise β) :
    ((Except.error r : Except Raise α) >>= f) = .error r := rfl

@[simp] theorem pure_eq_ok {α : Type} (a : α) : (pure a : Except Raise α) = .ok a := rfl

/-- A bind that succeeds has a first part that succeeds. -/
theorem bind_eq_ok {α β : Type} (x : Except Raise α) (f : α → Except Raise β) (b : β)
    (h : (x >>= f) = .ok b) : ∃ a, x = .ok a ∧ f a = .ok b := by
  cases x with
  | error r => cases h
  | ok a => exact ⟨a, rfl, h⟩

/-- A bind that fails fails in its first part or in its second. -/
theorem bind_eq_error {α β : Type} (x : Except Raise α) (f : α → Except Raise β) (r : Raise)
    (h : (x >>= f) = .error r) : x = .error r ∨ ∃ a, x = .ok a ∧ f a = .error r := by
  cases x with
  | error r' => cases h; exact .inl rfl
  | ok a => exact .inr ⟨a, rfl, h⟩

section
variable (needs : State → Bool) (operands : State → Option Raise)
  (body : State → Except Raise State) (freed : State → State) (s : State)

/-- All a command can do: it answers a next state, which is one of five. -/
theorem runCommand_cases :
    (s.fault.flag = true ∧ runCommand needs operands body freed s = .next s) ∨
    (s.fault.flag = false ∧ needs s = false ∧
      runCommand needs operands body freed s = .next (raiseFault ⟨.badConfig, 0, 0⟩ s)) ∨
    (∃ r, s.fault.flag = false ∧ needs s = true ∧ operands s = some r ∧
      runCommand needs operands body freed s = .next (raiseFault r s)) ∨
    (∃ t, s.fault.flag = false ∧ needs s = true ∧ operands s = none ∧ body s = .ok t ∧
      runCommand needs operands body freed s = .next t) ∨
    (∃ r, s.fault.flag = false ∧ needs s = true ∧ operands s = none ∧ body s = .error r ∧
      runCommand needs operands body freed s = .next (bodyFault freed r s)) := by
  unfold runCommand
  cases hf : s.fault.flag
  · cases hn : needs s
    · simp
    · cases ho : operands s with
      | some r => simp
      | none => cases hb : body s <;> simp
  · simp

theorem runCommand_answers : ∃ t, runCommand needs operands body freed s = .next t := by
  rcases runCommand_cases needs operands body freed s with ⟨_, e⟩ | ⟨_, _, e⟩ | ⟨_, _, _, _, e⟩ |
    ⟨_, _, _, _, _, e⟩ | ⟨_, _, _, _, _, e⟩ <;> exact ⟨_, e⟩

/-- A command that passes its checks and whose body succeeds answers the body's state. -/
theorem runCommand_ok (t : State) (hf : Running s) (hn : needs s = true) (ho : operands s = none)
    (hb : body s = .ok t) : runCommand needs operands body freed s = .next t := by
  have hf' : s.fault.flag = false := hf
  simp [runCommand, hf', hn, ho, hb]

/-- A command that passes its checks and whose body faults enters the fault. -/
theorem runCommand_error (r : Raise) (hf : Running s) (hn : needs s = true)
    (ho : operands s = none) (hb : body s = .error r) :
    runCommand needs operands body freed s = .next (bodyFault freed r s) := by
  have hf' : s.fault.flag = false := hf
  simp [runCommand, hf', hn, ho, hb]

/-- A command whose operand check fails enters that fault and changes nothing else. -/
theorem runCommand_operand (r : Raise) (hf : Running s) (hn : needs s = true)
    (ho : operands s = some r) :
    runCommand needs operands body freed s = .next (raiseFault r s) := by
  have hf' : s.fault.flag = false := hf
  simp [runCommand, hf', hn, ho]

/-- A command whose configuration is invalid raises BadConfig(0, 0). -/
theorem runCommand_badConfig (hf : Running s) (hn : needs s = false) :
    runCommand needs operands body freed s = .next (raiseFault ⟨.badConfig, 0, 0⟩ s) := by
  have hf' : s.fault.flag = false := hf
  simp [runCommand, hf', hn]

/-- While a fault is pending a command changes nothing. -/
theorem runCommand_refused (hf : s.fault.flag = true) :
    runCommand needs operands body freed s = .next s := by
  simp [runCommand, hf]

end

/-- A writer body on the state: the writer changes, or the body faults. -/
theorem onWriter_ok (f : Option Nat → Writer → Except Raise Writer) (s : State) (w : Writer)
    (h : f s.wbufCap s.wr = .ok w) : onWriter f s = .ok (s.withWr w) := by
  simp [onWriter, h]

theorem onWriter_error (f : Option Nat → Writer → Except Raise Writer) (s : State) (r : Raise)
    (h : f s.wbufCap s.wr = .error r) : onWriter f s = .error r := by
  simp [onWriter, h]

theorem onWriter_eq_ok (f : Option Nat → Writer → Except Raise Writer) (s t : State)
    (h : onWriter f s = .ok t) : ∃ w, f s.wbufCap s.wr = .ok w ∧ t = s.withWr w := by
  obtain ⟨w, hw, ht⟩ := bind_eq_ok _ _ _ h
  exact ⟨w, hw, by simpa using ht.symm⟩

end Sys2Proof.Machine
end

