-- ==== Sys2Proof/Laws/Writer.lean ====
section
/-! SUPPORT. The bit writer: what one bit, a field and a flush do (40_bitio.md R122 to R124, R129). -/

namespace Sys2Proof.Machine

/-- Writing one more bit below the top of a number adds it as the last of the bits. -/
theorem natToBits_succ_append (k x : Nat) (b : Bool) :
    natToBits (k + 1) (2 * x + b.toNat) = natToBits k x ++ [b] := by
  induction k generalizing x with
  | zero => cases b <;> simp [natToBits, Nat.testBit_zero]
  | succ k ih =>
    have h : natToBits (k + 2) (2 * x + b.toNat) =
        (2 * x + b.toNat).testBit (k + 1) :: natToBits (k + 1) (2 * x + b.toNat) := rfl
    rw [h, ih]
    have e : (2 * x + b.toNat).testBit (k + 1) = x.testBit k := by
      rw [Nat.testBit_succ]
      congr 1
      cases b
      · simp
      · simp
        omega
    simp [natToBits, e]

theorem natToBits_zero (n : Nat) : natToBits n 0 = List.replicate n false := by
  induction n with
  | zero => rfl
  | succ n ih => simp [natToBits, ih, List.replicate_succ]

theorem natToBits_mul_pow (n k x : Nat) (hk : k ≤ n) :
    natToBits n (x * 2 ^ (n - k)) = natToBits k x ++ List.replicate (n - k) false := by
  apply List.ext_getElem
  · simp; omega
  · intro i h1 h2
    rw [natToBits_getElem]
    simp only [natToBits_length] at h1
    by_cases hi : i < k
    · rw [List.getElem_append_left (by simpa using hi), natToBits_getElem]
      rw [Nat.testBit_mul_two_pow]
      have e1 : n - k ≤ n - 1 - i := by omega
      have e2 : n - 1 - i - (n - k) = k - 1 - i := by omega
      rw [e2, decide_eq_true e1, Bool.true_and]
    · rw [List.getElem_append_right (by simpa using hi)]
      rw [Nat.testBit_mul_two_pow]
      have e1 : ¬ (n - k ≤ n - 1 - i) := by omega
      rw [decide_eq_false e1, Bool.false_and, List.getElem_replicate]

/-- A writer in order: WACC is its WNB bits followed by zeros. -/
theorem writerOK_iff (w : Writer) :
    writerOK w = true ↔ ∃ x, w.wacc.toNat = x * 2 ^ (8 - w.wnb.toNat) ∧ x < 2 ^ w.wnb.toNat := by
  have hk : w.wnb.toNat < 8 := w.wnb.isLt
  have ha : w.wacc.toNat < 256 := w.wacc.isLt
  have hp : 2 ^ w.wnb.toNat * 2 ^ (8 - w.wnb.toNat) = 256 := by
    rw [← pow_add, show w.wnb.toNat + (8 - w.wnb.toNat) = 8 by omega]
    rfl
  unfold writerOK
  rw [decide_eq_true_iff]
  constructor
  · intro h
    refine ⟨w.wacc.toNat / 2 ^ (8 - w.wnb.toNat), (Nat.div_mul_cancel (Nat.dvd_of_mod_eq_zero h)).symm, ?_⟩
    rw [Nat.div_lt_iff_lt_mul (by positivity), hp]
    exact ha
  · rintro ⟨x, hx, -⟩
    rw [hx]
    exact Nat.mul_mod_left x _

theorem writerBits_of_acc (w : Writer) (x : Nat) (hx : w.wacc.toNat = x * 2 ^ (8 - w.wnb.toNat)) :
    writerBits w = bytesToBits w.wbuf ++ natToBits w.wnb.toNat x := by
  have hk : w.wnb.toNat < 8 := w.wnb.isLt
  unfold writerBits
  rw [hx, natToBits_mul_pow 8 w.wnb.toNat x (by omega), List.take_left' (natToBits_length _ _)]

theorem wacc_or_bit (k x : Nat) (b : Bool) (acc : Byte) (hk : k < 8)
    (hx : acc.toNat = x * 2 ^ (8 - k)) :
    (acc ||| (BitVec.ofNat 8 b.toNat <<< (7 - k))).toNat = (2 * x + b.toNat) * 2 ^ (7 - k) := by
  have hp : 2 ^ (8 - k) = 2 * 2 ^ (7 - k) := by
    rw [← pow_succ', show 7 - k + 1 = 8 - k by omega]
  have hb : b.toNat < 2 := by cases b <;> decide
  have hs : (BitVec.ofNat 8 b.toNat <<< (7 - k)).toNat = b.toNat * 2 ^ (7 - k) := by
    have h1 : 2 ^ (7 - k) ≤ 2 ^ 7 := Nat.pow_le_pow_right (by decide) (by omega)
    have h2 : b.toNat * 2 ^ (7 - k) ≤ 1 * 2 ^ 7 := Nat.mul_le_mul (by omega) h1
    rw [BitVec.toNat_shiftLeft, Nat.shiftLeft_eq, BitVec.toNat_ofNat,
      Nat.mod_eq_of_lt (show b.toNat < 2 ^ 8 by omega), Nat.mod_eq_of_lt (by omega)]
  rw [BitVec.toNat_or, hs, hx, hp]
  have e : x * (2 * 2 ^ (7 - k)) = 2 ^ (7 - k) * (2 * x) := by ring
  have e2 : b.toNat * 2 ^ (7 - k) = 2 ^ (7 - k) * b.toNat := by ring
  rw [e, e2]
  have e3 : 2 ^ (7 - k) * (2 * x) ||| 2 ^ (7 - k) * b.toNat = 2 ^ (7 - k) * (2 * x ||| b.toNat) := by
    simp only [Nat.mul_comm (2 ^ (7 - k)), ← Nat.shiftLeft_eq]
    rw [Nat.shiftLeft_or_distrib]
  have e4 : 2 * x ||| b.toNat = 2 * x + b.toNat := by
    have := Nat.two_pow_add_eq_or_of_lt (i := 1) (b := b.toNat) (by omega) x
    simpa using this.symm
  rw [e3, e4, Nat.mul_comm]

/-- A byte is appended whole, or the buffer is full (40_bitio.md R130). -/
theorem emitByte_cases (cap : Option Nat) (b : Byte) (w : Writer) :
    (emitByte cap b w = .ok ⟨w.wbuf ++ [b], 0, 0⟩ ∧ wbufIsFull cap w.wbuf.length = false) ∨
      (emitByte cap b w = .error ⟨.wbufFull, w.wbuf.length, 0⟩ ∧
        wbufIsFull cap w.wbuf.length = true) := by
  unfold emitByte
  cases h : wbufIsFull cap w.wbuf.length
  · exact .inl ⟨by simp, rfl⟩
  · exact .inr ⟨by simp, rfl⟩

/-- What one more bit does to an ordered writer: it becomes the last bit written, unless its byte has
no room (40_bitio.md R122). -/
theorem putbit_cases (cap : Option Nat) (b : Bool) (w : Writer) (hw : writerOK w = true) :
    (∃ w', putbit cap b w = .ok w' ∧ writerOK w' = true ∧ writerBits w' = writerBits w ++ [b] ∧
        w.wbuf <+: w'.wbuf ∧ (w.wnb = 7 → wbufIsFull cap w.wbuf.length = false)) ∨
      (putbit cap b w = .error ⟨.wbufFull, w.wbuf.length, 0⟩ ∧ w.wnb = 7 ∧
        wbufIsFull cap w.wbuf.length = true) := by
  obtain ⟨x, hx, hlt⟩ := (writerOK_iff w).mp hw
  have hk : w.wnb.toNat < 8 := w.wnb.isLt
  have hacc := wacc_or_bit w.wnb.toNat x b w.wacc hk hx
  have hbits := writerBits_of_acc w x hx
  unfold putbit
  by_cases h7 : w.wnb = 7
  · rw [if_pos h7]
    have hn : w.wnb.toNat = 7 := by rw [h7]; rfl
    rcases emitByte_cases cap (w.wacc ||| BitVec.ofNat 8 b.toNat <<< (7 - w.wnb.toNat)) w with
      ⟨he, hf⟩ | ⟨he, hf⟩
    · refine .inl ⟨_, he, rfl, ?_, List.prefix_append _ _, fun _ => hf⟩
      rw [hbits, writerBits, bytesToBits_append]
      have e : bytesToBits [w.wacc ||| BitVec.ofNat 8 b.toNat <<< (7 - w.wnb.toNat)] =
          natToBits 7 x ++ [b] := by
        simp only [bytesToBits, List.flatMap_cons, List.flatMap_nil, List.append_nil]
        rw [← natToBits_succ_append, hacc, hn, Nat.sub_self, pow_zero, Nat.mul_one]
      rw [e, hn]
      simp
    · exact .inr ⟨he, h7, hf⟩
  · rw [if_neg h7]
    have hn : w.wnb.toNat < 7 := by
      have : w.wnb.toNat ≠ 7 := fun h => h7 (BitVec.eq_of_toNat_eq (by simpa using h))
      omega
    have hs : (w.wnb + 1).toNat = w.wnb.toNat + 1 := by
      rw [BitVec.toNat_add]
      simp
      omega
    have hacc' : (w.wacc ||| BitVec.ofNat 8 b.toNat <<< (7 - w.wnb.toNat)).toNat =
        (2 * x + b.toNat) * 2 ^ (8 - (w.wnb + 1).toNat) := by
      rw [hacc, hs, show 8 - (w.wnb.toNat + 1) = 7 - w.wnb.toNat by omega]
    refine .inl ⟨_, rfl, ?_, ?_, List.prefix_refl _, fun h => absurd h h7⟩
    · rw [writerOK_iff]
      refine ⟨2 * x + b.toNat, hacc', ?_⟩
      simp only [hs, pow_succ]
      cases b <;> simp <;> omega
    · rw [writerBits_of_acc _ (2 * x + b.toNat) hacc', hbits]
      simp only [hs]
      rw [natToBits_succ_append, List.append_assoc]

/-- The number of bits written (40_bitio.md R129: `WPOS = 8*WLEN + WNB`). -/
theorem writerBits_length (w : Writer) :
    (writerBits w).length = 8 * w.wbuf.length + w.wnb.toNat := by
  have hk : w.wnb.toNat < 8 := w.wnb.isLt
  simp [writerBits]
  omega

/-- What a field does to an ordered writer (40_bitio.md R123): its bits follow the bits already
written, or a byte it completes has no room. -/
theorem putbits_cases (cap : Option Nat) (v n : Nat) (w : Writer) (hw : writerOK w = true) :
    (∃ w', putbits cap v n w = .ok w' ∧ writerOK w' = true ∧
        writerBits w' = writerBits w ++ natToBits n v ∧ w.wbuf <+: w'.wbuf) ∨
      (∃ k, putbits cap v n w = .error ⟨.wbufFull, k, 0⟩ ∧ wbufIsFull cap k = true ∧
        8 * k + 8 ≤ (writerBits w).length + n) := by
  induction n generalizing w with
  | zero => exact .inl ⟨w, rfl, hw, by simp [natToBits], List.prefix_refl _⟩
  | succ n ih =>
    rcases putbit_cases cap (v.testBit n) w hw with ⟨w1, h1, hok, hbits, hpre, -⟩ | ⟨he, h7, hf⟩
    · rcases ih w1 hok with ⟨w2, h2, hok2, hbits2, hpre2⟩ | ⟨k, h2, hf, hk⟩
      · refine .inl ⟨w2, ?_, hok2, ?_, hpre.trans hpre2⟩
        · simp [putbits, h1, h2, bind, Except.bind]
        · rw [hbits2, hbits, natToBits, List.append_assoc, List.singleton_append]
      · refine .inr ⟨k, ?_, hf, ?_⟩
        · simp [putbits, h1, h2, bind, Except.bind]
        · rw [hbits] at hk
          simp at hk
          omega
    · refine .inr ⟨w.wbuf.length, ?_, hf, ?_⟩
      · simp [putbits, he, bind, Except.bind]
      · have h : (7 : BitVec 3).toNat = 7 := rfl
        rw [writerBits_length, h7, h]
        omega

/-- What a flush does to an ordered writer (40_bitio.md R124): zeros up to the byte boundary. -/
theorem flush_cases (cap : Option Nat) (w : Writer) (hw : writerOK w = true) :
    (∃ w', flush cap w = .ok w' ∧ w'.wnb = 0 ∧ writerOK w' = true ∧
        writerBits w' = writerBits w ++ List.replicate ((8 - w.wnb.toNat) % 8) false ∧
        w.wbuf <+: w'.wbuf) ∨
      (flush cap w = .error ⟨.wbufFull, w.wbuf.length, 0⟩ ∧ w.wnb ≠ 0 ∧
        wbufIsFull cap w.wbuf.length = true) := by
  obtain ⟨x, hx, hlt⟩ := (writerOK_iff w).mp hw
  have hk : w.wnb.toNat < 8 := w.wnb.isLt
  unfold flush
  by_cases h0 : w.wnb = 0
  · rw [if_pos h0]
    refine .inl ⟨w, rfl, h0, hw, ?_, List.prefix_refl _⟩
    simp [h0]
  · rw [if_neg h0]
    have hn : w.wnb.toNat ≠ 0 := fun h => h0 (BitVec.eq_of_toNat_eq (by simpa using h))
    rcases emitByte_cases cap w.wacc w with ⟨he, hf⟩ | ⟨he, hf⟩
    · refine .inl ⟨_, he, rfl, rfl, ?_, List.prefix_append _ _⟩
      rw [writerBits_of_acc w x hx, writerBits, bytesToBits_append]
      simp only [bytesToBits, List.flatMap_cons, List.flatMap_nil, List.append_nil, hx]
      rw [natToBits_mul_pow 8 w.wnb.toNat x (by omega)]
      have : (8 - w.wnb.toNat) % 8 = 8 - w.wnb.toNat := Nat.mod_eq_of_lt (by omega)
      simp [this]
    · exact .inr ⟨he, h0, hf⟩

end Sys2Proof.Machine
end

