-- ==== Sys2Proof/Laws/Emit.lean ====
section
/-! SUPPORT. What each writing body emits (40_bitio.md R129): a field, a colour, a palette table, a
token. -/

namespace Sys2Proof.Machine

/-- The writer `w'` is `w` with exactly these bits appended: ordered, no byte already in WBUF changed,
still within the capacity (40_bitio.md R129 to R131). -/
structure Wrote (cap : Option Nat) (w : Writer) (bits : List Bool) (w' : Writer) : Prop where
  ok : writerOK w' = true
  bits : writerBits w' = writerBits w ++ bits
  keeps : w.wbuf <+: w'.wbuf
  within : ∀ c, cap = some c → w.wbuf.length ≤ c → w'.wbuf.length ≤ c

/-- These bits complete a byte, the one at `k`, that WBUF has no room for (40_bitio.md R130). -/
structure Filled (cap : Option Nat) (w : Writer) (bits : List Bool) (k : Nat) : Prop where
  full : wbufIsFull cap k = true
  reached : 8 * k + 8 ≤ (writerBits w).length + bits.length
  atCap : ∀ c, cap = some c → w.wbuf.length ≤ c → k = c

theorem Wrote.refl {cap : Option Nat} {w : Writer} (h : writerOK w = true) : Wrote cap w [] w :=
  ⟨h, by simp, List.prefix_refl _, fun _ _ h => h⟩

theorem Wrote.trans {cap : Option Nat} {w w1 w2 : Writer} {a b : List Bool}
    (h1 : Wrote cap w a w1) (h2 : Wrote cap w1 b w2) : Wrote cap w (a ++ b) w2 :=
  ⟨h2.ok, by rw [h2.bits, h1.bits, List.append_assoc], h1.keeps.trans h2.keeps,
    fun c e h => h2.within c e (h1.within c e h)⟩

theorem Wrote.filled {cap : Option Nat} {w w1 : Writer} {a b : List Bool} {k : Nat}
    (h1 : Wrote cap w a w1) (h2 : Filled cap w1 b k) : Filled cap w (a ++ b) k := by
  refine ⟨h2.full, ?_, fun c e h => h2.atCap c e (h1.within c e h)⟩
  have := h2.reached
  rw [h1.bits] at this
  simp only [List.length_append] at this ⊢
  omega

theorem Filled.append {cap : Option Nat} {w : Writer} {a : List Bool} {k : Nat}
    (h : Filled cap w a k) (b : List Bool) : Filled cap w (a ++ b) k := by
  refine ⟨h.full, ?_, h.atCap⟩
  have := h.reached
  simp only [List.length_append]
  omega

theorem Filled.bounded {cap : Option Nat} {w : Writer} {bits : List Bool} {k : Nat}
    (h : Filled cap w bits k) : ∃ c, cap = some c := by
  cases cap with
  | none => exact absurd h.full (by simp [wbufIsFull])
  | some c => exact ⟨c, rfl⟩

/-- The writing body appends exactly these bits to an ordered writer, or raises WbufFull at a byte that
they complete. -/
def Emits (f : Option Nat → Writer → Except Raise Writer) (bits : List Bool) : Prop :=
  ∀ cap w, writerOK w = true →
    (∃ w', f cap w = .ok w' ∧ Wrote cap w bits w') ∨
      (∃ k, f cap w = .error ⟨.wbufFull, k, 0⟩ ∧ Filled cap w bits k)

theorem emits_nil : Emits (fun _ w => .ok w) [] := fun _ w hw => .inl ⟨w, rfl, .refl hw⟩

/-- One body after another emits the bits of both. -/
theorem Emits.bind {f g : Option Nat → Writer → Except Raise Writer} {a b : List Bool}
    (hf : Emits f a) (hg : Emits g b) : Emits (fun cap w => f cap w >>= g cap) (a ++ b) := by
  intro cap w hw
  rcases hf cap w hw with ⟨w1, h1, o1⟩ | ⟨k, h1, o1⟩
  · rcases hg cap w1 o1.ok with ⟨w2, h2, o2⟩ | ⟨k, h2, o2⟩
    · exact .inl ⟨w2, by simp only [h1, ok_bind, h2], o1.trans o2⟩
    · exact .inr ⟨k, by simp only [h1, ok_bind, h2], o1.filled o2⟩
  · exact .inr ⟨k, by simp only [h1, error_bind], o1.append b⟩

theorem emits_putbit (b : Bool) : Emits (fun cap => putbit cap b) [b] := by
  intro cap w hw
  have e7 : (7 : BitVec 3).toNat = 7 := rfl
  rcases putbit_cases cap b w hw with ⟨w', h, ok, hb, hp, hf⟩ | ⟨h, h7, hf⟩
  · refine .inl ⟨w', h, ok, hb, hp, fun c e hle => ?_⟩
    have hl : (writerBits w').length = (writerBits w).length + 1 := by simp [hb]
    rw [writerBits_length, writerBits_length] at hl
    have hk : w.wnb.toNat < 8 := w.wnb.isLt
    by_cases h7 : w.wnb = 7
    · have := hf h7
      simp only [e, wbufIsFull, decide_eq_false_iff_not] at this
      omega
    · have : w.wnb.toNat ≠ 7 := fun h => h7 (BitVec.eq_of_toNat_eq (by simpa using h))
      omega
  · refine .inr ⟨_, h, hf, ?_, fun c e hle => ?_⟩
    · rw [writerBits_length, h7, e7]
      simp
    · simp only [e, wbufIsFull, decide_eq_true_eq] at hf
      omega

theorem emits_putbits (v n : Nat) : Emits (fun cap => putbits cap v n) (natToBits n v) := by
  induction n with
  | zero => exact emits_nil
  | succ n ih => exact (emits_putbit (v.testBit n)).bind ih

/-- A body that is the same function emits the same bits. -/
theorem Emits.congr {f g : Option Nat → Writer → Except Raise Writer} {a : List Bool}
    (h : ∀ cap w, g cap w = f cap w) (hf : Emits f a) : Emits g a := by
  intro cap w hw
  rw [h cap w]
  exact hf cap w hw

theorem emits_putColor (c : Color) :
    Emits (fun cap => putColor cap c) (encode (.palEntry c.r c.g c.b)) := by
  refine Emits.congr (fun cap w => ?_) (((emits_putbits c.r.toNat 8).bind
    (emits_putbits c.g.toNat 8)).bind (emits_putbits c.b.toNat 8))
  simp only [putColor]
  cases putbits cap c.r.toNat 8 w <;> rfl

theorem emits_putColors (cs : List Color) :
    Emits (fun cap => putColors cap cs) (cs.flatMap fun c => encode (.palEntry c.r c.g c.b)) := by
  induction cs with
  | nil => exact emits_nil
  | cons c rest ih => exact (emits_putColor c).bind ih

/-- Palettes of at most 255 entries are written whole (43_encoder.md R171). -/
theorem emits_putPalettes (ps : List (List Color)) (p : Nat) (h : ∀ cs ∈ ps, cs.length ≤ 255) :
    Emits (fun cap => putPalettes cap p ps)
      (ps.flatMap fun cs => encode (.palSize (BitVec.ofNat 8 cs.length)) ++
        cs.flatMap fun c => encode (.palEntry c.r c.g c.b)) := by
  induction ps generalizing p with
  | nil => exact emits_nil
  | cons cs rest ih =>
    have hc : cs.length ≤ 255 := h cs (by simp)
    have e : encode (.palSize (BitVec.ofNat 8 cs.length)) = natToBits 8 cs.length := by
      simp only [encode, BitVec.toNat_ofNat]
      rw [Nat.mod_eq_of_lt (by omega)]
    have e2 : ((cs :: rest).flatMap fun cs => encode (.palSize (BitVec.ofNat 8 cs.length)) ++
        cs.flatMap fun c => encode (.palEntry c.r c.g c.b)) =
        (natToBits 8 cs.length ++ cs.flatMap fun c => encode (.palEntry c.r c.g c.b)) ++
          rest.flatMap fun cs => encode (.palSize (BitVec.ofNat 8 cs.length)) ++
            cs.flatMap fun c => encode (.palEntry c.r c.g c.b) := by
      rw [List.flatMap_cons, e]
    rw [e2]
    refine Emits.congr (fun cap w => ?_) (((emits_putbits cs.length 8).bind (emits_putColors cs)).bind
      (ih (p + 1) fun x hx => h x (by simp [hx])))
    simp only [putPalettes, if_neg (show ¬ 255 < cs.length by omega)]
    cases putbits cap cs.length 8 w <;> rfl

/-- A table with an encoding is written whole (43_encoder.md R171, 30_encoding.md R97). -/
theorem emits_putPaltab (ps : List (List Color)) (h : tableFits ps = true) :
    Emits (putPaltab ps) (tableWire ps) := by
  simp only [tableFits, Bool.and_eq_true, decide_eq_true_eq, List.all_eq_true] at h
  have e : encode (.palCount (BitVec.ofNat 16 ps.length)) = natToBits 16 ps.length := by
    simp only [encode, BitVec.toNat_ofNat]
    rw [Nat.mod_eq_of_lt (by omega)]
  have hb := (emits_putbits ps.length 16).bind (emits_putPalettes ps 0 h.2)
  intro cap w hw
  rw [tableWire, e, putPaltab, if_neg (by omega)]
  exact hb cap w hw

theorem emits_putLeaf (idx : Byte) : Emits (putLeaf idx) (encode (.leaf idx)) := by
  have := (emits_putbit true).bind (emits_putbits idx.toNat 8)
  exact this

theorem emits_putInternal : Emits putInternal (encode .internal) := emits_putbit false

theorem emits_putFields (fs : List (Nat × Nat)) :
    Emits (fun cap => putFields cap fs) (fieldBits fs) := by
  induction fs with
  | nil => exact emits_nil
  | cons f rest ih => exact (emits_putbits f.1 f.2).bind ih

theorem Filled.no_room {s : State} {bits : List Bool} {k : Nat} (h : Filled s.wbufCap s.wr bits k) :
    roomFor s bits.length = false := by
  have hr := h.reached
  have hf := h.full
  rw [writerBits_length] at hr
  cases hc : s.wbufCap with
  | none => simp [hc, wbufIsFull] at hf
  | some c =>
    simp only [hc, wbufIsFull, decide_eq_true_eq] at hf
    simp only [roomFor, hc, decide_eq_false_iff_not]
    omega

theorem Wrote.room {s : State} {bits : List Bool} {w : Writer} (h : Wrote s.wbufCap s.wr bits w)
    (hlen : ∀ c, s.wbufCap = some c → s.wr.wbuf.length ≤ c) : roomFor s bits.length = true := by
  cases hc : s.wbufCap with
  | none => simp [roomFor, hc]
  | some c =>
    have h1 := h.within c hc (hlen c hc)
    have h2 : (writerBits w).length = (writerBits s.wr).length + bits.length := by simp [h.bits]
    rw [writerBits_length, writerBits_length] at h2
    have hk : w.wnb.toNat < 8 := w.wnb.isLt
    simp only [roomFor, hc, decide_eq_true_eq]
    omega

/-- With room for the bytes the bits complete, the body succeeds (40_bitio.md R130). -/
theorem Emits.ok {f : Option Nat → Writer → Except Raise Writer} {bits : List Bool}
    (hf : Emits f bits) (s : State) (hw : writerOK s.wr = true)
    (hroom : roomFor s bits.length = true) :
    ∃ w, f s.wbufCap s.wr = .ok w ∧ Wrote s.wbufCap s.wr bits w := by
  rcases hf s.wbufCap s.wr hw with h | ⟨k, -, h⟩
  · exact h
  · rw [h.no_room] at hroom
    cases hroom

/-- Without that room it raises WbufFull at the capacity. -/
theorem Emits.full {f : Option Nat → Writer → Except Raise Writer} {bits : List Bool}
    (hf : Emits f bits) (s : State) (hw : writerOK s.wr = true) (c : Nat)
    (hcap : s.wbufCap = some c) (hlen : s.wr.wbuf.length ≤ c)
    (hroom : roomFor s bits.length = false) :
    f s.wbufCap s.wr = .error ⟨.wbufFull, c, 0⟩ := by
  rcases hf s.wbufCap s.wr hw with ⟨w, -, h⟩ | ⟨k, he, h⟩
  · have := h.room fun c' hc' => by rw [hcap] at hc'; cases hc'; exact hlen
    rw [this] at hroom
    cases hroom
  · rw [he, h.atCap c hcap hlen]

end Sys2Proof.Machine
end

