-- ==== Sys2Proof/Laws/Palette.lean ====
section
/-! SUPPORT. The palette merger: what one push can do (42_palette.md R162), and what any number of
pushes from an empty palette state build (R163, R164). -/

namespace Sys2Proof.Machine

/-- The scan answers the first near entry, or there is none (42_palette.md R162). -/
theorem findNear_cases (tol : Nat) (c : Color) (j : Nat) (es : List Color) :
    (∃ i e, es[i]? = some e ∧ near tol c e = true ∧
        (∀ m e', m < i → es[m]? = some e' → near tol c e' = false) ∧
        findNear tol c j es = some (j + i)) ∨
      ((∀ e ∈ es, near tol c e = false) ∧ findNear tol c j es = none) := by
  induction es generalizing j with
  | nil => exact .inr ⟨by simp, rfl⟩
  | cons e rest ih =>
    cases hn : near tol c e
    · rcases ih (j + 1) with ⟨i, e', h1, h2, h3, h4⟩ | ⟨h1, h2⟩
      · refine .inl ⟨i + 1, e', by simpa using h1, h2, ?_, by simp [findNear, hn, h4]; omega⟩
        intro m e'' hm he
        cases m with
        | zero =>
          simp only [List.getElem?_cons_zero, Option.some.injEq] at he
          rw [← he, hn]
        | succ m => exact h3 m e'' (by omega) (by simpa using he)
      · refine .inr ⟨?_, by simp [findNear, hn, h2]⟩
        intro x hx
        rcases List.mem_cons.mp hx with rfl | hx
        · exact hn
        · exact h1 x hx
    · exact .inl ⟨0, e, rfl, hn, fun m _ hm => absurd hm (Nat.not_lt_zero m), by simp [findNear, hn]⟩

/-- The palettes of a push: those there are, with an empty one opened for a new group. -/
abbrev opened (p : Palettes) : List (List Color) :=
  openGroup (p.leafref.length / Config.group) p.palettes

/-- The palette a push works on. -/
abbrev current (p : Palettes) : List Color :=
  paletteAt (opened p) (p.leafref.length / Config.group)

/-- All a push can do (42_palette.md R162): it reuses the first near entry, appends an entry, or finds
the palette full. -/
theorem palPush_cases (tol : Nat) (c : Color) (p : Palettes) :
    (∃ j e, (current p)[j]? = some e ∧ near tol c e = true ∧
        (∀ m e', m < j → (current p)[m]? = some e' → near tol c e' = false) ∧
        palPush tol c p = .ok ⟨p.leafref.length / Config.group, j, 0,
          ⟨opened p, p.leafref ++ [BitVec.ofNat 8 j]⟩⟩) ∨
    ((∀ e ∈ current p, near tol c e = false) ∧ (current p).length ≠ Config.group ∧
        palPush tol c p = .ok ⟨p.leafref.length / Config.group, (current p).length, 1,
          ⟨(opened p).set (p.leafref.length / Config.group) (current p ++ [c]),
            p.leafref ++ [BitVec.ofNat 8 (current p).length]⟩⟩) ∨
    ((∀ e ∈ current p, near tol c e = false) ∧ (current p).length = Config.group ∧
        palPush tol c p =
          .error ⟨.paletteFull, p.leafref.length / Config.group, p.leafref.length⟩) := by
  rcases findNear_cases tol c 0 (current p) with ⟨j, e, h1, h2, h3, h4⟩ | ⟨h1, h2⟩
  · rw [Nat.zero_add] at h4
    exact .inl ⟨j, e, h1, h2, h3, by simp only [palPush, h4]⟩
  · by_cases hl : (current p).length = Config.group
    · exact .inr (.inr ⟨h1, hl, by simp only [palPush, h2, if_pos hl]⟩)
    · exact .inr (.inl ⟨h1, hl, by simp only [palPush, h2, if_neg hl]⟩)

theorem paletteAt_of_lt (ps : List (List Color)) (g : Nat) (h : g < ps.length) :
    ps[g]? = some (paletteAt ps g) := by
  simp [paletteAt, List.getElem?_eq_getElem h]

theorem paletteAt_openGroup (ps : List (List Color)) (g n : Nat) :
    paletteAt (openGroup n ps) g = paletteAt ps g := by
  unfold openGroup
  split
  · unfold paletteAt
    rcases Nat.lt_trichotomy g ps.length with h | h | h
    · rw [List.getElem?_append_left h]
    · subst h
      simp
    · rw [List.getElem?_eq_none (by simp; omega), List.getElem?_eq_none (by omega)]
  · rfl

theorem paletteAt_set (ps : List (List Color)) (g n : Nat) (cs : List Color) (hn : n < ps.length) :
    paletteAt (ps.set n cs) g = if g = n then cs else paletteAt ps g := by
  unfold paletteAt
  rw [List.getElem?_set]
  by_cases h : n = g
  · subst h
    simp [hn]
  · simp [h, Ne.symm h]

/-- What pushing these colours, in order, from an empty palette state has built (42_palette.md R162 to
R164): a reference per leaf and a palette per group, every reference an entry near its leaf's colour,
no palette with more entries than its group has leaves, none empty. -/
structure Built (tol : Nat) (cols : List Color) (p : Palettes) : Prop where
  refs : p.leafref.length = cols.length
  groups : p.palettes.length = groupsOf cols.length
  represents : ∀ k c, cols[k]? = some c → ∃ idx e, p.leafref[k]? = some idx ∧
    (paletteAt p.palettes (k / Config.group))[idx.toNat]? = some e ∧ near tol c e = true
  sizes : ∀ g, (paletteAt p.palettes g).length ≤ cols.length - Config.group * g ∧
    (paletteAt p.palettes g).length ≤ Config.group
  nonempty : ∀ g, g < p.palettes.length → 1 ≤ (paletteAt p.palettes g).length

theorem built_nil (tol : Nat) : Built tol [] ⟨[], []⟩ where
  refs := rfl
  groups := rfl
  represents k c h := by simp at h
  sizes g := by simp [paletteAt]
  nonempty g h := by simp at h

theorem groupsOf_succ (n : Nat) :
    n / Config.group < groupsOf (n + 1) ∧ groupsOf (n + 1) = n / Config.group + 1 ∧
      (groupsOf n = n / Config.group ∨ groupsOf n = n / Config.group + 1) := by
  unfold groupsOf Config.group
  omega

theorem near_self (tol : Nat) (c : Color) : near tol c c = true := by
  simp [near, absdiff]

/-- A push keeps what is built, for one more leaf; it never finds the palette full
(60_exceptions.md R218). -/
theorem palPush_built (tol : Nat) (c : Color) (cols : List Color) (p : Palettes)
    (h : Built tol cols p) :
    ∃ r, palPush tol c p = .ok r ∧ Built tol (cols ++ [c]) r.pal := by
  have hG : Config.group = 256 := rfl
  obtain ⟨hg1, hg2, hg3⟩ := groupsOf_succ cols.length
  have hat : ∀ g, paletteAt (opened p) g = paletteAt p.palettes g := fun g =>
    paletteAt_openGroup _ _ _
  have hlen : (opened p).length = cols.length / Config.group + 1 := by
    unfold opened openGroup
    rw [h.refs, h.groups]
    split <;> rename_i heq
    · rw [List.length_append, h.groups]
      simp only [List.length_singleton]
      omega
    · rw [h.groups]
      omega
  have hcur : current p = paletteAt p.palettes (cols.length / Config.group) := by
    rw [current, hat, h.refs]
  have hsize := h.sizes (cols.length / Config.group)
  have hsmall : (current p).length ≤ cols.length % 256 := by
    rw [hcur]
    have := hsize.1
    rw [hG] at this ⊢
    omega
  have hlt : cols.length / Config.group < (opened p).length := by omega
  rcases palPush_cases tol c p with ⟨j, e, h1, h2, -, h4⟩ | ⟨h1, h2, h3⟩ | ⟨-, hfull, -⟩
  · refine ⟨_, h4, ?_⟩
    have hj : j < (current p).length := (List.getElem?_eq_some_iff.mp h1).1
    constructor
    · simp [h.refs]
    · simp only [hlen, List.length_append, List.length_singleton]
      exact hg2.symm
    · intro k d hk
      simp only
      rcases Nat.lt_trichotomy k cols.length with hlt' | rfl | hgt
      · rw [List.getElem?_append_left hlt'] at hk
        obtain ⟨idx, e', g1, g2, g3⟩ := h.represents k d hk
        refine ⟨idx, e', ?_, by rw [hat]; exact g2, g3⟩
        rw [List.getElem?_append_left (by rw [h.refs]; exact hlt'), g1]
      · have hd : d = c := by simpa using hk.symm
        subst hd
        refine ⟨BitVec.ofNat 8 j, e, ?_, ?_, h2⟩
        · rw [← h.refs]
          simp
        · rw [BitVec.toNat_ofNat, Nat.mod_eq_of_lt (show j < 2 ^ 8 by omega)]
          rw [← h.refs]
          exact h1
      · rw [List.getElem?_eq_none (by simp; omega)] at hk
        cases hk
    · intro g
      simp only
      rw [hat]
      have := h.sizes g
      simp only [List.length_append, List.length_singleton]
      omega
    · intro g hg
      simp only at hg ⊢
      rw [hat]
      by_cases hg' : g < p.palettes.length
      · exact h.nonempty g hg'
      · have : g = cols.length / Config.group := by rw [h.groups] at hg'; omega
        rw [this, ← hcur]
        omega
  · refine ⟨_, h3, ?_⟩
    have hset : ∀ g, paletteAt ((opened p).set (p.leafref.length / Config.group) (current p ++ [c])) g =
        if g = cols.length / Config.group then current p ++ [c] else paletteAt p.palettes g := by
      intro g
      rw [paletteAt_set _ _ _ _ (by rw [h.refs]; exact hlt), h.refs, hat]
    constructor
    · simp [h.refs]
    · simp only [List.length_set, hlen, List.length_append, List.length_singleton]
      exact hg2.symm
    · intro k d hk
      simp only [hset]
      rcases Nat.lt_trichotomy k cols.length with hlt' | rfl | hgt
      · rw [List.getElem?_append_left hlt'] at hk
        obtain ⟨idx, e', g1, g2, g3⟩ := h.represents k d hk
        refine ⟨idx, e', ?_, ?_, g3⟩
        · rw [List.getElem?_append_left (by rw [h.refs]; exact hlt'), g1]
        · split <;> rename_i heq
          · rw [hcur, ← heq, List.getElem?_append_left (List.getElem?_eq_some_iff.mp g2).1]
            exact g2
          · exact g2
      · have hd : d = c := by simpa using hk.symm
        subst hd
        refine ⟨BitVec.ofNat 8 (current p).length, d, ?_, ?_, near_self tol d⟩
        · rw [← h.refs]
          simp
        · rw [if_pos rfl, BitVec.toNat_ofNat, Nat.mod_eq_of_lt (show _ < 2 ^ 8 by omega)]
          simp
      · rw [List.getElem?_eq_none (by simp; omega)] at hk
        cases hk
    · intro g
      simp only [hset, List.length_append, List.length_singleton]
      split <;> rename_i heq
      · subst heq
        simp only [List.length_append, List.length_singleton]
        rw [hG]
        omega
      · have := h.sizes g
        omega
    · intro g hg
      simp only [hset]
      split <;> rename_i heq
      · simp
      · simp only [List.length_set, hlen] at hg
        exact h.nonempty g (by rw [h.groups]; omega)
  · exfalso
    rw [hG] at hfull
    omega

/-- Pushing every colour succeeds and builds (42_palette.md R163). -/
theorem palPushAll_built (tol : Nat) (cs cols : List Color) (p : Palettes) (h : Built tol cols p) :
    ∃ q, palPushAll tol cs p = .ok q ∧ Built tol (cols ++ cs) q := by
  induction cs generalizing cols p with
  | nil => exact ⟨p, rfl, by simpa using h⟩
  | cons c rest ih =>
    obtain ⟨r, h1, h2⟩ := palPush_built tol c cols p h
    obtain ⟨q, h3, h4⟩ := ih (cols ++ [c]) r.pal h2
    exact ⟨q, by simp [palPushAll, h1, h3], by simpa using h4⟩

/-- The palette builder never faults (42_palette.md R163). -/
theorem palBuild_ok (s : State) :
    ∃ p, palBuild s = .ok (s.withPal p) ∧ Built s.cfg.colortol.toNat s.ana.leafcolor p := by
  obtain ⟨p, h1, h2⟩ := palPushAll_built s.cfg.colortol.toNat s.ana.leafcolor [] _
    (built_nil s.cfg.colortol.toNat)
  refine ⟨p, ?_, h2⟩
  have e : palBuild s = (palPushAll s.cfg.colortol.toNat s.ana.leafcolor ⟨[], []⟩ >>=
      fun p => pure (s.withPal p)) := rfl
  rw [e, h1, ok_bind, pure_eq_ok]

/-- References that represent leaves are in range (44_decoder.md R187). -/
theorem refsInRange_of (ps : List (List Color)) (k : Nat) (refs : List Byte)
    (h : ∀ m idx, refs[m]? = some idx →
      idx.toNat < (paletteAt ps ((k + m) / Config.group)).length) : refsInRange ps k refs = true := by
  induction refs generalizing k with
  | nil => rfl
  | cons idx rest ih =>
    simp only [refsInRange, Bool.and_eq_true, decide_eq_true_eq]
    refine ⟨by simpa using h 0 idx rfl, ih (k + 1) fun m x hm => ?_⟩
    have := h (m + 1) x (by simpa using hm)
    rwa [show k + 1 + m = k + (m + 1) by omega]

theorem Built.refsInRange {tol : Nat} {cols : List Color} {p : Palettes} (h : Built tol cols p) :
    refsInRange p.palettes 0 p.leafref = true := by
  refine refsInRange_of _ _ _ fun m idx hm => ?_
  have hlt : m < cols.length := by
    rw [← h.refs]
    exact (List.getElem?_eq_some_iff.mp hm).1
  obtain ⟨idx', e, g1, g2, -⟩ := h.represents m cols[m] (List.getElem?_eq_getElem hlt)
  rw [g1] at hm
  cases hm
  rw [Nat.zero_add]
  exact (List.getElem?_eq_some_iff.mp g2).1

end Sys2Proof.Machine
end

