-- ==== Sys2Proof/Laws/Reader.lean ====
section
/-! SUPPORT. The bit reader in terms of the bits still to read (40_bitio.md R126, R127). -/

namespace Sys2Proof.Machine

@[simp] theorem advance_zero (s : State) : s.advance 0 = s := rfl
@[simp] theorem advance_advance (s : State) (m n : Nat) :
    (s.advance m).advance n = s.advance (m + n) := by
  simp [State.advance, State.withRd, Nat.add_assoc]
@[simp] theorem advance_rd (s : State) (n : Nat) :
    (s.advance n).rd = { s.rd with rpos := s.rd.rpos + n } := rfl
@[simp] theorem advance_withPal (s : State) (n : Nat) (p : Palettes) :
    (s.advance n).withPal p = (s.withPal p).advance n := rfl
@[simp] theorem advance_withDec (s : State) (n : Nat) (d : Jobs) :
    (s.advance n).withDec d = (s.withDec d).advance n := rfl
@[simp] theorem advance_withStack (s : State) (n : Nat) (k : List Region) :
    (s.advance n).withStack k = (s.withStack k).advance n := rfl

@[simp] theorem unreadBits_length (s : State) :
    (unreadBits s).length = 8 * s.rd.rlen - s.rd.rpos := by simp [unreadBits]

/-- Two states with the same stream and position have the same bits to read. -/
theorem unreadBits_congr (s t : State) (h1 : t.rd = s.rd) (h2 : t.rbuf = s.rbuf)
    (h3 : t.era = s.era) : unreadBits t = unreadBits s := by
  simp [unreadBits, streamBit, rbyte, h1, h2, h3]

theorem unreadBits_advance (s : State) (n : Nat) : unreadBits (s.advance n) = (unreadBits s).drop n := by
  apply List.ext_getElem
  · simp
    omega
  · intro k h1 h2
    simp only [unreadBits, List.getElem_map, List.getElem_range, List.getElem_drop, advance_rd]
    rw [Nat.add_assoc]
    rfl

/-- One bit is read, or the stream is at its end and nothing changes. -/
theorem getbit_cases (s : State) :
    (∃ b rest, unreadBits s = b :: rest ∧ getbit s = some (b, s.advance 1) ∧
        unreadBits (s.advance 1) = rest) ∨
      (unreadBits s = [] ∧ getbit s = none) := by
  by_cases h : 8 * s.rd.rlen ≤ s.rd.rpos
  · refine .inr ⟨?_, by simp [getbit, h]⟩
    rw [← List.length_eq_zero_iff, unreadBits_length]
    omega
  · have hl : 0 < (unreadBits s).length := by rw [unreadBits_length]; omega
    refine .inl ⟨(unreadBits s)[0], (unreadBits s).drop 1, ?_, ?_, unreadBits_advance s 1⟩
    · exact (List.cons_getElem_drop_succ (h := hl)).symm
    · have : (unreadBits s)[0] = streamBit s s.rd.rpos := by simp [unreadBits]
      rw [this, getbit, if_neg h]
      rfl

theorem getbit_of_cons (s : State) (b : Bool) (rest : List Bool) (h : unreadBits s = b :: rest) :
    getbit s = some (b, s.advance 1) ∧ unreadBits (s.advance 1) = rest := by
  rcases getbit_cases s with ⟨b', rest', h1, h2, h3⟩ | ⟨h1, -⟩
  · obtain ⟨rfl, rfl⟩ := List.cons.inj (h.symm.trans h1)
    exact ⟨h2, h3⟩
  · rw [h] at h1
    cases h1

theorem getbitsLoop_eq (n v : Nat) (s : State) (h : n ≤ (unreadBits s).length) :
    getbitsLoop n v s = some (bitsToNatFrom v ((unreadBits s).take n), s.advance n) := by
  induction n generalizing v s with
  | zero => rfl
  | succ n ih =>
    rcases getbit_cases s with ⟨b, rest, h1, h2, h3⟩ | ⟨h1, -⟩
    · rw [getbitsLoop, h2]
      simp only
      rw [ih _ _ (by rw [h3]; rw [h1] at h; simpa using h), h1, h3, advance_advance,
        Nat.add_comm 1 n]
      rfl
    · rw [h1] at h
      simp at h

/-- A field of `n` bits is read whole, or nothing is read. -/
theorem getbits_cases (n : Nat) (s : State) (hp : s.rd.rpos ≤ 8 * s.rd.rlen) :
    (n ≤ (unreadBits s).length ∧
        getbits n s = some (bitsToNat ((unreadBits s).take n), s.advance n)) ∨
      ((unreadBits s).length < n ∧ getbits n s = none) := by
  rw [unreadBits_length]
  by_cases h : 8 * s.rd.rlen < s.rd.rpos + n
  · exact .inr ⟨by omega, by simp [getbits, h]⟩
  · refine .inl ⟨by omega, ?_⟩
    rw [getbits, if_neg h, getbitsLoop_eq _ _ _ (by rw [unreadBits_length]; omega)]
    rfl

/-- A field that lies next in the stream is read as it was written. -/
theorem getbits_of_field (n v : Nat) (rest : List Bool) (s : State) (hn : 0 < n) (hv : v < 2 ^ n)
    (h : unreadBits s = natToBits n v ++ rest) :
    getbits n s = some (v, s.advance n) ∧ unreadBits (s.advance n) = rest := by
  have hl : n ≤ (unreadBits s).length := by rw [h]; simp
  have hd : (natToBits n v ++ rest).drop n = rest := List.drop_left' (natToBits_length n v)
  have ht : (natToBits n v ++ rest).take n = natToBits n v := List.take_left' (natToBits_length n v)
  rw [unreadBits_advance, h, hd]
  refine ⟨?_, rfl⟩
  have hlt : ¬ 8 * s.rd.rlen < s.rd.rpos + n := by
    rw [unreadBits_length] at hl
    omega
  rw [getbits, if_neg hlt, getbitsLoop_eq _ _ _ hl, h, ht, bitsToNatFrom_natToBits, Nat.zero_mul,
    Nat.zero_add, Nat.mod_eq_of_lt hv]

end Sys2Proof.Machine
end

