-- ==== Sys2Proof/Laws/Table.lean ====
section
/-! SUPPORT. Reading a palette table (44_decoder.md R186): a table that lies next in the stream is
read whole, and a stream that begins with none is truncated. -/

namespace Sys2Proof.Machine

/-- The bits of a number read off bits are those bits. -/
theorem natToBits_bitsToNat (bs : List Bool) : natToBits bs.length (bitsToNat bs) = bs := by
  induction bs using List.reverseRecOn with
  | nil => rfl
  | append_singleton bs b ih =>
    have e : bitsToNat (bs ++ [b]) = 2 * bitsToNat bs + b.toNat := by
      rw [bitsToNat, bitsToNatFrom_append]
      rfl
    rw [e, List.length_append, List.length_singleton]
    have h : ∀ (k x : Nat), natToBits (k + 1) (2 * x + b.toNat) = natToBits k x ++ [b] := by
      intro k
      induction k with
      | zero => intro x; cases b <;> simp [natToBits, Nat.testBit_zero]
      | succ k ihk =>
        intro x
        have e2 : (2 * x + b.toNat).testBit (k + 1) = x.testBit k := by
          rw [Nat.testBit_succ]
          congr 1
          cases b <;> simp
          omega
        have : natToBits (k + 2) (2 * x + b.toNat) =
            (2 * x + b.toNat).testBit (k + 1) :: natToBits (k + 1) (2 * x + b.toNat) := rfl
        rw [this, ihk, e2]
        rfl
    rw [h, ih]

theorem bitsToNat_lt (bs : List Bool) : bitsToNat bs < 2 ^ bs.length := by
  have h := natToBits_bitsToNat bs
  have e : bitsToNat bs = bitsToNat bs % 2 ^ bs.length := by
    have := bitsToNatFrom_natToBits bs.length (bitsToNat bs) 0
    rw [h, Nat.zero_mul, Nat.zero_add] at this
    exact this
  rw [e]
  exact Nat.mod_lt _ (by positivity)

/-- A field of the table that lies next is read, whatever its value. -/
theorem need_of_field (n p v : Nat) (rest : List Bool) (s : State) (hn : 0 < n) (hv : v < 2 ^ n)
    (h : unreadBits s = natToBits n v ++ rest) :
    need n p s = .ok (v, s.advance n) ∧ unreadBits (s.advance n) = rest := by
  obtain ⟨h1, h2⟩ := getbits_of_field n v rest s hn hv h
  exact ⟨by simp [need, h1], h2⟩

/-- Any `n` bits are a field. -/
theorem field_of_bits (n : Nat) (bits : List Bool) (h : n ≤ bits.length) :
    bitsToNat (bits.take n) < 2 ^ n ∧
      bits = natToBits n (bitsToNat (bits.take n)) ++ bits.drop n := by
  have hl : (bits.take n).length = n := by simpa using h
  have hv := bitsToNat_lt (bits.take n)
  have hb := natToBits_bitsToNat (bits.take n)
  rw [hl] at hv hb
  exact ⟨hv, by rw [hb, List.take_append_drop]⟩

/-- A field that does not fit entirely is not consumed: the table is truncated there. -/
theorem need_of_short (n p : Nat) (s : State) (h : (unreadBits s).length < n) :
    need n p s = .error ⟨.palTabTruncated, s.rd.rpos, p⟩ := by
  have : 8 * s.rd.rlen < s.rd.rpos + n := by
    rw [unreadBits_length] at h
    omega
  simp [need, getbits, this]

/-- The three channels of an entry. -/
theorem needColor_of_wire (p : Nat) (c : Color) (rest : List Bool) (s : State)
    (h : unreadBits s = encode (.palEntry c.r c.g c.b) ++ rest) :
    needColor p s = .ok (c, s.advance 24) ∧ unreadBits (s.advance 24) = rest := by
  simp only [encode, List.append_assoc] at h
  obtain ⟨h1, u1⟩ := need_of_field 8 p _ _ s (by decide) c.r.isLt h
  obtain ⟨h2, u2⟩ := need_of_field 8 p _ _ _ (by decide) c.g.isLt u1
  obtain ⟨h3, u3⟩ := need_of_field 8 p _ _ _ (by decide) c.b.isLt u2
  simp only [advance_advance] at h2 u2 h3 u3
  exact ⟨by simp [needColor, h1, h2, h3], u3⟩

/-- With fewer than three bytes left an entry is truncated at the first channel that does not fit. -/
theorem needColor_of_short (p : Nat) (s : State) (h : (unreadBits s).length < 24) :
    needColor p s =
      .error ⟨.palTabTruncated, s.rd.rpos + 8 * ((unreadBits s).length / 8), p⟩ := by
  by_cases h1 : (unreadBits s).length < 8
  · rw [needColor, need_of_short 8 p s h1, error_bind, Nat.div_eq_of_lt h1]
    rfl
  obtain ⟨v1, e1⟩ := field_of_bits 8 (unreadBits s) (by omega)
  obtain ⟨n1, u1⟩ := need_of_field 8 p _ _ s (by decide) v1 e1
  have l1 : (unreadBits (s.advance 8)).length = (unreadBits s).length - 8 := by rw [u1]; simp
  by_cases h2 : (unreadBits (s.advance 8)).length < 8
  · rw [needColor, n1, ok_bind]
    simp only
    rw [need_of_short 8 p _ h2, error_bind, show (unreadBits s).length / 8 = 1 by omega]
    rfl
  obtain ⟨v2, e2⟩ := field_of_bits 8 (unreadBits (s.advance 8)) (by omega)
  obtain ⟨n2, u2⟩ := need_of_field 8 p _ _ _ (by decide) v2 e2
  have l2 : (unreadBits ((s.advance 8).advance 8)).length = (unreadBits s).length - 16 := by
    rw [u2, List.length_drop, l1]
    omega
  rw [needColor, n1, ok_bind]
  simp only
  rw [n2, ok_bind]
  simp only
  rw [need_of_short 8 p _ (by omega), error_bind, show (unreadBits s).length / 8 = 2 by omega]
  rfl

/-- Any 24 bits are an entry. -/
theorem color_of_bits (bits : List Bool) (h : 24 ≤ bits.length) :
    ∃ c : Color, bits = encode (.palEntry c.r c.g c.b) ++ bits.drop 24 := by
  obtain ⟨v1, e1⟩ := field_of_bits 8 bits (by omega)
  obtain ⟨v2, e2⟩ := field_of_bits 8 (bits.drop 8) (by simp; omega)
  obtain ⟨v3, e3⟩ := field_of_bits 8 ((bits.drop 8).drop 8) (by simp; omega)
  refine ⟨⟨BitVec.ofNat 8 (bitsToNat (bits.take 8)), BitVec.ofNat 8 (bitsToNat ((bits.drop 8).take 8)),
    BitVec.ofNat 8 (bitsToNat (((bits.drop 8).drop 8).take 8))⟩, ?_⟩
  simp only [encode, BitVec.toNat_ofNat]
  rw [Nat.mod_eq_of_lt v1, Nat.mod_eq_of_lt v2, Nat.mod_eq_of_lt v3, List.append_assoc,
    List.append_assoc]
  have e4 : bits.drop 24 = ((bits.drop 8).drop 8).drop 8 := by simp
  rw [e4, ← e3, ← e2, ← e1]

/-- The bits of palette entries. -/
def colorsWire (cs : List Color) : List Bool := cs.flatMap fun c => encode (.palEntry c.r c.g c.b)

theorem colorsWire_length (cs : List Color) : (colorsWire cs).length = 24 * cs.length := by
  induction cs with
  | nil => rfl
  | cons c rest ih =>
    have e : colorsWire (c :: rest) = encode (.palEntry c.r c.g c.b) ++ colorsWire rest := rfl
    rw [e, List.length_append, ih]
    simp only [encode, List.length_append, natToBits_length, List.length_cons]
    omega

theorem needColors_of_wire (p : Nat) (cs done : List Color) (rest : List Bool) (s : State)
    (h : unreadBits s = colorsWire cs ++ rest) :
    needColors p cs.length done s = .ok (done ++ cs, s.advance (24 * cs.length)) ∧
      unreadBits (s.advance (24 * cs.length)) = rest := by
  induction cs generalizing done s with
  | nil => exact ⟨by simp [needColors], h⟩
  | cons c cs ih =>
    have e : colorsWire (c :: cs) = encode (.palEntry c.r c.g c.b) ++ colorsWire cs := rfl
    rw [e, List.append_assoc] at h
    obtain ⟨h1, u1⟩ := needColor_of_wire p c _ s h
    obtain ⟨h2, u2⟩ := ih (done ++ [c]) _ u1
    simp only [advance_advance, show 24 + 24 * cs.length = 24 * (cs.length + 1) by omega] at h2 u2
    refine ⟨?_, u2⟩
    simp only [List.length_cons, needColors, h1, ok_bind, h2]
    simp

/-- With too few bits for `n` entries they are truncated at the first channel that does not fit. -/
theorem needColors_of_short (p n : Nat) (done : List Color) (s : State)
    (h : (unreadBits s).length < 24 * n) :
    needColors p n done s =
      .error ⟨.palTabTruncated, s.rd.rpos + 8 * ((unreadBits s).length / 8), p⟩ := by
  induction n generalizing done s with
  | zero => omega
  | succ n ih =>
    by_cases h1 : (unreadBits s).length < 24
    · rw [needColors, needColor_of_short p s h1, error_bind]
    · obtain ⟨c, e⟩ := color_of_bits (unreadBits s) (by omega)
      obtain ⟨h2, u2⟩ := needColor_of_wire p c _ s e
      have l2 : (unreadBits (s.advance 24)).length = (unreadBits s).length - 24 := by rw [u2]; simp
      rw [needColors, h2, ok_bind]
      simp only
      rw [ih _ _ (by omega), l2]
      congr 2
      show s.rd.rpos + 24 + _ = _
      omega

/-- Any `24 * n` bits are `n` entries. -/
theorem colors_of_bits (n : Nat) (bits : List Bool) (h : 24 * n ≤ bits.length) :
    ∃ cs, cs.length = n ∧ bits = colorsWire cs ++ bits.drop (24 * n) := by
  induction n generalizing bits with
  | zero => exact ⟨[], rfl, rfl⟩
  | succ n ih =>
    obtain ⟨c, e⟩ := color_of_bits bits (by omega)
    obtain ⟨cs, hl, e2⟩ := ih (bits.drop 24) (by simp; omega)
    refine ⟨c :: cs, by simp [hl], ?_⟩
    have e3 : colorsWire (c :: cs) = encode (.palEntry c.r c.g c.b) ++ colorsWire cs := rfl
    have e4 : bits.drop (24 * (n + 1)) = (bits.drop 24).drop (24 * n) := by
      rw [List.drop_drop]
      congr 1
      omega
    rw [e3, List.append_assoc, e4, ← e2, ← e]

theorem palettesWire_cons (cs : List Color) (ps : List (List Color)) :
    palettesWire (cs :: ps) =
      encode (.palSize (BitVec.ofNat 8 cs.length)) ++ colorsWire cs ++ palettesWire ps := rfl

theorem palSize_wire (n : Nat) (h : n ≤ 255) :
    encode (.palSize (BitVec.ofNat 8 n)) = natToBits 8 n := by
  simp only [encode, BitVec.toNat_ofNat]
  rw [Nat.mod_eq_of_lt (by omega)]

theorem palCount_wire (n : Nat) (h : n ≤ 65535) :
    encode (.palCount (BitVec.ofNat 16 n)) = natToBits 16 n := by
  simp only [encode, BitVec.toNat_ofNat]
  rw [Nat.mod_eq_of_lt (by omega)]

/-- A palette that does not fit entirely is truncated at its first field that does not. -/
theorem needPalettes_of_short (n : Nat) (s : State)
    (h : (unreadBits s).length < 8 + 24 * bitsToNat ((unreadBits s).take 8)) :
    needPalettes (n + 1) s =
      .error ⟨.palTabTruncated, s.rd.rpos + 8 * ((unreadBits s).length / 8),
        s.pal.palettes.length⟩ := by
  have hstep : needPalettes (n + 1) s =
      (need 8 s.pal.palettes.length s >>= fun v =>
        needColors s.pal.palettes.length v.1 [] v.2 >>= fun w =>
          needPalettes n (addPalette w.1 w.2)) := rfl
  by_cases h1 : (unreadBits s).length < 8
  · rw [hstep, need_of_short 8 _ s h1, error_bind, Nat.div_eq_of_lt h1]
    rfl
  · obtain ⟨v1, e1⟩ := field_of_bits 8 (unreadBits s) (by omega)
    obtain ⟨n1, u1⟩ := need_of_field 8 s.pal.palettes.length _ _ s (by decide) v1 e1
    have l1 : (unreadBits (s.advance 8)).length = (unreadBits s).length - 8 := by rw [u1]; simp
    rw [hstep, n1, ok_bind]
    simp only
    rw [needColors_of_short _ _ _ _ (by omega), error_bind, l1]
    congr 2
    show s.rd.rpos + 8 + _ = _
    omega

/-- `n` palettes lie next, or the first that does not lie there whole. -/
theorem palettes_of_bits (n : Nat) (bits : List Bool) :
    ∃ ps rest, (∀ cs ∈ ps, cs.length ≤ 255) ∧ bits = palettesWire ps ++ rest ∧
      (ps.length = n ∨ ps.length < n ∧ rest.length < 8 + 24 * bitsToNat (rest.take 8)) := by
  induction n generalizing bits with
  | zero => exact ⟨[], bits, by simp, rfl, .inl rfl⟩
  | succ n ih =>
    by_cases h : bits.length < 8 + 24 * bitsToNat (bits.take 8)
    · exact ⟨[], bits, by simp, rfl, .inr ⟨by simp, h⟩⟩
    · obtain ⟨v, e⟩ := field_of_bits 8 bits (by omega)
      obtain ⟨cs, hl, e2⟩ := colors_of_bits (bitsToNat (bits.take 8)) (bits.drop 8) (by simp; omega)
      obtain ⟨ps, rest, h1, h2, h3⟩ := ih ((bits.drop 8).drop (24 * bitsToNat (bits.take 8)))
      refine ⟨cs :: ps, rest, ?_, ?_, ?_⟩
      · intro x hx
        rcases List.mem_cons.mp hx with rfl | hx
        · omega
        · exact h1 x hx
      · rw [palettesWire_cons, palSize_wire _ (by omega), hl, List.append_assoc, List.append_assoc,
          ← h2, ← e2, ← e]
      · simp only [List.length_cons]
        omega

/-- Palettes that lie next are read, and the read goes on after them. -/
theorem needPalettes_append (ps : List (List Color)) (n : Nat) (rest : List Bool) (s : State)
    (hp : ∀ cs ∈ ps, cs.length ≤ 255) (h : unreadBits s = palettesWire ps ++ rest) :
    needPalettes (ps.length + n) s =
      needPalettes n ((s.withPal { s.pal with palettes := s.pal.palettes ++ ps }).advance
        (palettesWire ps).length) ∧
      unreadBits (s.advance (palettesWire ps).length) = rest := by
  refine ⟨?_, by rw [unreadBits_advance, h, List.drop_left' rfl]⟩
  induction ps generalizing s with
  | nil => simp [palettesWire, State.withPal]
  | cons cs ps ih =>
    have hc : cs.length ≤ 255 := hp cs (by simp)
    have e : palettesWire (cs :: ps) = natToBits 8 cs.length ++ (colorsWire cs ++ palettesWire ps) := by
      rw [palettesWire_cons, palSize_wire _ hc, List.append_assoc]
    have el : (palettesWire (cs :: ps)).length = 8 + 24 * cs.length + (palettesWire ps).length := by
      rw [e, List.length_append, List.length_append, natToBits_length, colorsWire_length]
      omega
    rw [e, List.append_assoc, List.append_assoc] at h
    obtain ⟨h1, u1⟩ := need_of_field 8 s.pal.palettes.length _ _ s (by decide) (by omega) h
    obtain ⟨h2, u2⟩ := needColors_of_wire s.pal.palettes.length cs [] _ _ u1
    simp only [advance_advance, List.nil_append] at h2 u2
    have u2' : unreadBits (addPalette cs (s.advance (8 + 24 * cs.length))) = palettesWire ps ++ rest := by
      rw [← u2]
      exact unreadBits_congr _ _ rfl rfl rfl
    have h3 := ih (addPalette cs (s.advance (8 + 24 * cs.length)))
      (fun x hx => hp x (by simp [hx])) u2'
    have hstep : needPalettes ((cs :: ps).length + n) s =
        (need 8 s.pal.palettes.length s >>= fun v =>
          needColors s.pal.palettes.length v.1 [] v.2 >>= fun w =>
            needPalettes (ps.length + n) (addPalette w.1 w.2)) := by
      rw [List.length_cons, show ps.length + 1 + n = ps.length + n + 1 by omega]
      rfl
    rw [hstep, h1, ok_bind, h2, ok_bind, h3, el]
    simp only [addPalette, State.advance, State.withPal, State.withRd, List.append_assoc,
      List.singleton_append]
    congr 3
    omega

theorem needPalettes_of_wire (ps : List (List Color)) (rest : List Bool) (s : State)
    (hp : ∀ cs ∈ ps, cs.length ≤ 255) (h : unreadBits s = palettesWire ps ++ rest) :
    needPalettes ps.length s =
        .ok ((s.withPal { s.pal with palettes := s.pal.palettes ++ ps }).advance
          (palettesWire ps).length) ∧
      unreadBits (s.advance (palettesWire ps).length) = rest := by
  have := needPalettes_append ps 0 rest s hp h
  exact this

theorem tableWire_eq (ps : List (List Color)) (h : tableFits ps = true) :
    tableWire ps = natToBits 16 ps.length ++ palettesWire ps := by
  simp only [tableFits, Bool.and_eq_true, decide_eq_true_eq] at h
  rw [tableWire, palCount_wire _ h.1]

/-- A table that lies next in the stream is read whole. -/
theorem decPaltab_of_wire (ps : List (List Color)) (rest : List Bool) (s : State)
    (hfit : tableFits ps = true) (h : unreadBits s = tableWire ps ++ rest) :
    decPaltab s =
        .ok ((s.withPal { s.pal with palettes := ps }).advance (tableWire ps).length) ∧
      unreadBits (s.advance (tableWire ps).length) = rest := by
  have e := tableWire_eq ps hfit
  simp only [tableFits, Bool.and_eq_true, decide_eq_true_eq, List.all_eq_true] at hfit
  rw [e, List.append_assoc] at h
  obtain ⟨h1, u1⟩ := need_of_field 16 65536 _ _ s (by decide) (by omega) h
  have u1' : unreadBits (clearPalettes (s.advance 16)) = palettesWire ps ++ rest := by
    rw [← u1]
    exact unreadBits_congr _ _ rfl rfl rfl
  obtain ⟨h2, u2⟩ := needPalettes_of_wire ps rest _ hfit.2 u1'
  have el : (tableWire ps).length = 16 + (palettesWire ps).length := by
    rw [e, List.length_append, natToBits_length]
  rw [el]
  constructor
  · have : decPaltab s = (need 16 65536 s >>= fun v => needPalettes v.1 (clearPalettes v.2)) := rfl
    rw [this, h1, ok_bind, h2]
    simp only [clearPalettes, State.advance, State.withPal, State.withRd, List.nil_append,
      Nat.add_assoc]
  · rw [← u2]
    refine unreadBits_congr _ _ ?_ rfl rfl
    simp [clearPalettes]

theorem palettesWire_length_mod (ps : List (List Color)) : (palettesWire ps).length % 8 = 0 := by
  induction ps with
  | nil => rfl
  | cons cs ps ih =>
    have := colorsWire_length cs
    simp only [palettesWire_cons, List.length_append, encode, natToBits_length]
    omega

/-- A read of a stream that ends inside the table is PalTabTruncated, at the first field that does not
fit entirely (60_exceptions.md R212). -/
theorem decPaltab_of_cut (s : State) (info0 info1 : Nat)
    (h : TableCut s.rd.rpos (unreadBits s) info0 info1) :
    decPaltab s = .error ⟨.palTabTruncated, info0, info1⟩ := by
  have hstep : decPaltab s = (need 16 65536 s >>= fun v => needPalettes v.1 (clearPalettes v.2)) := rfl
  cases h with
  | count h => rw [hstep, need_of_short 16 65536 s h, error_bind]
  | @palette n ps rest hbits hsize hn h =>
    have e : encode (.palCount n) = natToBits 16 n.toNat := rfl
    rw [e, List.append_assoc] at hbits
    obtain ⟨h1, u1⟩ := need_of_field 16 65536 _ _ s (by decide) n.isLt hbits
    have u1' : unreadBits (clearPalettes (s.advance 16)) = palettesWire ps ++ rest := by
      rw [← u1]
      exact unreadBits_congr _ _ rfl rfl rfl
    obtain ⟨k, hk⟩ : ∃ k, n.toNat = ps.length + (k + 1) := ⟨n.toNat - ps.length - 1, by omega⟩
    obtain ⟨h2, u2⟩ := needPalettes_append ps (k + 1) rest (clearPalettes (s.advance 16)) hsize u1'
    have u3 : unreadBits (((clearPalettes (s.advance 16)).withPal
        { (clearPalettes (s.advance 16)).pal with
          palettes := (clearPalettes (s.advance 16)).pal.palettes ++ ps }).advance
        (palettesWire ps).length) = rest := by
      rw [← u2]
      exact unreadBits_congr _ _ rfl rfl rfl
    rw [hstep, h1, ok_bind]
    simp only
    rw [hk, h2, needPalettes_of_short _ _ (by rw [u3]; exact h), u3]
    have hm := palettesWire_length_mod ps
    have hl : (unreadBits s).length = 16 + ((palettesWire ps).length + rest.length) := by
      rw [hbits]; simp
    rw [hl]
    congr 2
    show s.rd.rpos + 16 + (palettesWire ps).length + _ = _
    omega

/-- The stream goes on with a table, or ends inside it. -/
theorem table_or_cut (pos : Nat) (bits : List Bool) :
    (∃ ps rest, tableFits ps = true ∧ bits = tableWire ps ++ rest) ∨
      ∃ info0 info1, TableCut pos bits info0 info1 := by
  by_cases h : bits.length < 16
  · exact .inr ⟨_, _, .count h⟩
  · obtain ⟨v, e⟩ := field_of_bits 16 bits (by omega)
    obtain ⟨ps, rest, h1, h2, h3⟩ := palettes_of_bits (bitsToNat (bits.take 16)) (bits.drop 16)
    rcases h3 with h3 | ⟨h3, h4⟩
    · have hfit : tableFits ps = true := by
        simp only [tableFits, Bool.and_eq_true, decide_eq_true_eq, List.all_eq_true]
        exact ⟨by omega, h1⟩
      exact .inl ⟨ps, rest, hfit, by rw [tableWire_eq ps hfit, h3, List.append_assoc, ← h2, ← e]⟩
    · refine .inr ⟨_, _, .palette (n := BitVec.ofNat 16 (bitsToNat (bits.take 16))) (ps := ps)
        (rest := rest) ?_ h1 ?_ h4⟩
      · simp only [encode, BitVec.toNat_ofNat, Nat.mod_eq_of_lt v]
        rw [List.append_assoc, ← h2, ← e]
      · simp only [BitVec.toNat_ofNat, Nat.mod_eq_of_lt v]
        exact h3

end Sys2Proof.Machine
end

