-- ==== Sys2Proof/Laws/Walk.lean ====
section
/-! SUPPORT. The split rule, and the walk stack as a recursion over the region tree
(41_classifier.md R140, R151, R152; 43_encoder.md R172). -/

namespace Sys2Proof.Machine

/-- All that `splitGeom` can do with a non-empty region. -/
theorem splitGeom_cases (r : Region) (hw : 1 ≤ r.w) (hh : 1 ≤ r.h) :
    (r.w = 1 ∧ r.h = 1 ∧ splitGeom r.w r.h = .undivided) ∨
    (r.h ≤ r.w ∧ 2 ≤ r.w ∧ splitGeom r.w r.h = .width (r.w / 2) (r.w - r.w / 2)) ∨
    (r.w < r.h ∧ 2 ≤ r.h ∧ splitGeom r.w r.h = .height (r.h / 2) (r.h - r.h / 2)) := by
  have hm : Config.minBlock = 1 := rfl
  by_cases h1 : r.h ≤ r.w ∧ Config.minBlock ≤ r.w / 2
  · exact .inr (.inl ⟨h1.1, by omega, by rw [splitGeom, if_pos h1]⟩)
  · by_cases h2 : r.h / 2 < Config.minBlock
    · exact .inl ⟨by omega, by omega, by rw [splitGeom, if_neg h1, if_pos h2]⟩
    · exact .inr (.inr ⟨by omega, by omega, by rw [splitGeom, if_neg h1, if_neg h2]⟩)

/-- The children of a non-empty region are non-empty and share out its area. -/
theorem children_area (r a b : Region) (hw : 1 ≤ r.w) (hh : 1 ≤ r.h)
    (h : children r (splitGeom r.w r.h) = some (a, b)) :
    1 ≤ a.w ∧ 1 ≤ a.h ∧ 1 ≤ b.w ∧ 1 ≤ b.h ∧ a.w * a.h + b.w * b.h = r.w * r.h := by
  rcases splitGeom_cases r hw hh with ⟨-, -, hs⟩ | ⟨h1, h2, hs⟩ | ⟨h1, h2, hs⟩
  · rw [hs] at h
    cases h
  · rw [hs] at h
    simp only [children, Option.some.injEq, Prod.mk.injEq] at h
    obtain ⟨rfl, rfl⟩ := h
    refine ⟨by simp only; omega, hh, by simp only; omega, hh, ?_⟩
    simp only
    rw [← Nat.add_mul, show r.w / 2 + (r.w - r.w / 2) = r.w by omega]
  · rw [hs] at h
    simp only [children, Option.some.injEq, Prod.mk.injEq] at h
    obtain ⟨rfl, rfl⟩ := h
    refine ⟨hw, by simp only; omega, hw, by simp only; omega, ?_⟩
    simp only
    rw [← Nat.mul_add, show r.h / 2 + (r.h - r.h / 2) = r.h by omega]

/-- The recursion "visit node; if internal: first child, second child" succeeds, with `n` visits. -/
inductive Walked (visit : Region → State → Except Raise Visited) :
    Nat → Region → State → State → Prop where
  | leaf {r : Region} {s s' : State} (h : visit r s = .ok (s', none)) : Walked visit 1 r s s'
  | node {m n : Nat} {r a b : Region} {s s1 s2 s3 : State}
      (h : visit r s = .ok (s1, some (a, b))) (ha : Walked visit m a s1 s2)
      (hb : Walked visit n b s2 s3) : Walked visit (m + n + 1) r s s3

/-- The recursion fails at its `n`-th visit. -/
inductive Failed (visit : Region → State → Except Raise Visited) :
    Nat → Region → State → Raise → Prop where
  | here {r : Region} {s : State} {e : Raise} (h : visit r s = .error e) : Failed visit 1 r s e
  | first {n : Nat} {r a b : Region} {s s1 : State} {e : Raise}
      (h : visit r s = .ok (s1, some (a, b))) (ha : Failed visit n a s1 e) :
      Failed visit (n + 1) r s e
  | second {m n : Nat} {r a b : Region} {s s1 s2 : State} {e : Raise}
      (h : visit r s = .ok (s1, some (a, b))) (ha : Walked visit m a s1 s2)
      (hb : Failed visit n b s2 e) : Failed visit (m + n + 1) r s e

/-- The visit neither reads nor writes the walk stack, splits by `splitGeom`, and leaves the
configuration and the stripe table alone. -/
structure Blind (visit : Region → State → Except Raise Visited) : Prop where
  stack : ∀ r s k, visit r (s.withStack k) =
    (visit r s).map fun v => (v.1.withStack k, v.2)
  split : ∀ r s s' kids, visit r s = .ok (s', some kids) →
    children r (splitGeom r.w r.h) = some kids
  table : ∀ r s v, visit r s = .ok v →
    v.1.stripe = s.stripe ∧ v.1.cfg = s.cfg ∧ v.1.era = s.era

section
variable {visit : Region → State → Except Raise Visited}

theorem Blind.ok (hv : Blind visit) {r : Region} {s s' : State} {o : Option (Region × Region)}
    (k : List Region) (h : visit r s = .ok (s', o)) :
    visit r (s.withStack k) = .ok (s'.withStack k, o) := by
  rw [hv.stack, h]
  rfl

theorem Blind.error (hv : Blind visit) {r : Region} {s : State} {e : Raise} (k : List Region)
    (h : visit r s = .error e) : visit r (s.withStack k) = .error e := by
  rw [hv.stack, h]
  rfl

theorem walkLoop_cons (f : Nat) (r : Region) (k : List Region) (s : State) :
    walkLoop visit (f + 1) (s.withStack (r :: k)) =
      (visit r (s.withStack k) >>= fun v => walkLoop visit f (pushKids v)) := rfl

/-- The walk stack realises the recursion: after its visits the region is gone from the stack. -/
theorem walkLoop_of_walked (hv : Blind visit) {n : Nat} {r : Region} {s s' : State}
    (h : Walked visit n r s s') (f : Nat) (k : List Region) :
    walkLoop visit (n + f) (s.withStack (r :: k)) = walkLoop visit f (s'.withStack k) := by
  induction h generalizing f k with
  | leaf h =>
    rw [Nat.add_comm, walkLoop_cons, hv.ok k h]
    rfl
  | @node m n r a b s s1 s2 s3 h ha hb iha ihb =>
    rw [show m + n + 1 + f = m + (n + f) + 1 by omega, walkLoop_cons, hv.ok k h, ok_bind]
    have e : pushKids (s1.withStack k, some (a, b)) = s1.withStack (a :: b :: k) := rfl
    rw [e, iha, ihb]

theorem walkLoop_of_failed (hv : Blind visit) {n : Nat} {r : Region} {s : State} {e : Raise}
    (h : Failed visit n r s e) (f : Nat) (k : List Region) :
    walkLoop visit (n + f) (s.withStack (r :: k)) = .error e := by
  induction h generalizing f k with
  | here h =>
    rw [Nat.add_comm, walkLoop_cons, hv.error k h]
    rfl
  | @first n r a b s s1 e h ha iha =>
    rw [show n + 1 + f = n + f + 1 by omega, walkLoop_cons, hv.ok k h, ok_bind]
    exact iha f (b :: k)
  | @second m n r a b s s1 s2 e h ha hb ihb =>
    rw [show m + n + 1 + f = m + (n + f) + 1 by omega, walkLoop_cons, hv.ok k h, ok_bind]
    have e' : pushKids (s1.withStack k, some (a, b)) = s1.withStack (a :: b :: k) := rfl
    rw [e', walkLoop_of_walked hv ha]
    exact ihb f k

/-- Every walk of a non-empty region ends, in fewer than twice its area of visits
(41_classifier.md R151). -/
theorem walked_or_failed (hv : Blind visit) (r : Region) (s : State) (hw : 1 ≤ r.w)
    (hh : 1 ≤ r.h) :
    (∃ n s', Walked visit n r s s' ∧ n + 1 ≤ 2 * (r.w * r.h)) ∨
      ∃ n e, Failed visit n r s e ∧ n + 1 ≤ 2 * (r.w * r.h) := by
  induction hN : r.w * r.h using Nat.strong_induction_on generalizing r s with
  | _ N ih =>
    have hpos : 1 ≤ N := hN ▸ Nat.mul_pos hw hh
    cases hvis : visit r s with
    | error e => exact .inr ⟨1, e, .here hvis, by omega⟩
    | ok v =>
      obtain ⟨s1, o⟩ := v
      cases o with
      | none => exact .inl ⟨1, s1, .leaf hvis, by omega⟩
      | some p =>
        obtain ⟨a, b⟩ := p
        obtain ⟨haw, hah, hbw, hbh, harea⟩ := children_area r a b hw hh (hv.split r s s1 _ hvis)
        have hA : 1 ≤ a.w * a.h := Nat.mul_pos haw hah
        have hB : 1 ≤ b.w * b.h := Nat.mul_pos hbw hbh
        rcases ih (a.w * a.h) (by omega) a s1 haw hah rfl with ⟨m, s2, ha, hm⟩ | ⟨m, e, ha, hm⟩
        · rcases ih (b.w * b.h) (by omega) b s2 hbw hbh rfl with ⟨n, s3, hb, hn⟩ | ⟨n, e, hb, hn⟩
          · exact .inl ⟨m + n + 1, s3, .node hvis ha hb, by omega⟩
          · exact .inr ⟨m + n + 1, e, .second hvis ha hb, by omega⟩
        · exact .inr ⟨m + 1, e, .first hvis ha, by omega⟩

theorem walkLoop_empty (f : Nat) (s : State) :
    walkLoop visit f (s.withStack []) = .ok (s.withStack []) := by
  cases f <;> rfl

/-- The walk of one stripe is the recursion from its root, and leaves the stack empty
(10_state.md R39): either the recursion succeeds, or it fails and the walk raises the same. -/
theorem walkLoop_root_cases (hv : Blind visit) (r : Region) (s : State) (hw : 1 ≤ r.w)
    (hh : 1 ≤ r.h) :
    (∃ n s', Walked visit n r s s' ∧
        walkLoop visit (visitBound r) (s.withStack [r]) = .ok (s'.withStack [])) ∨
      ∃ n e, Failed visit n r s e ∧
        walkLoop visit (visitBound r) (s.withStack [r]) = .error e := by
  rcases walked_or_failed hv r s hw hh with ⟨n, s', h, hn⟩ | ⟨n, e, h, hn⟩
  · refine .inl ⟨n, s', h, ?_⟩
    rw [visitBound, show 2 * (r.w * r.h) = n + (2 * (r.w * r.h) - n) by omega,
      walkLoop_of_walked hv h, walkLoop_empty]
  · refine .inr ⟨n, e, h, ?_⟩
    rw [visitBound, show 2 * (r.w * r.h) = n + (2 * (r.w * r.h) - n) by omega,
      walkLoop_of_failed hv h]

/-- The recursion is deterministic. -/
theorem Walked.unique {m n : Nat} {r : Region} {s s' s'' : State} (h : Walked visit m r s s')
    (h' : Walked visit n r s s'') : m = n ∧ s' = s'' := by
  induction h generalizing n s'' with
  | leaf h =>
    cases h' with
    | leaf h2 => rw [h] at h2; cases h2; exact ⟨rfl, rfl⟩
    | node h2 _ _ => rw [h] at h2; cases h2
  | node h ha hb iha ihb =>
    cases h' with
    | leaf h2 => rw [h] at h2; cases h2
    | node h2 ha2 hb2 =>
      rw [h] at h2
      cases h2
      obtain ⟨rfl, rfl⟩ := iha ha2
      obtain ⟨rfl, rfl⟩ := ihb hb2
      exact ⟨rfl, rfl⟩

theorem Failed.not_walked {m n : Nat} {r : Region} {s s' : State} {e : Raise}
    (h : Failed visit m r s e) (h' : Walked visit n r s s') : False := by
  induction h generalizing n s' with
  | here h =>
    cases h' with
    | leaf h2 => rw [h] at h2; cases h2
    | node h2 _ _ => rw [h] at h2; cases h2
  | first h _ iha =>
    cases h' with
    | leaf h2 => rw [h] at h2; cases h2
    | node h2 ha2 _ => rw [h] at h2; cases h2; exact iha ha2
  | second h ha _ ihb =>
    cases h' with
    | leaf h2 => rw [h] at h2; cases h2
    | node h2 ha2 hb2 =>
      rw [h] at h2
      cases h2
      obtain ⟨rfl, rfl⟩ := ha.unique ha2
      exact ihb hb2

/-- The recursion having succeeded, the stripe's walk answers its state. -/
theorem walkLoop_root_ok (hv : Blind visit) {n : Nat} {r : Region} {s s' : State} (hw : 1 ≤ r.w)
    (hh : 1 ≤ r.h) (h : Walked visit n r s s') :
    walkLoop visit (visitBound r) (s.withStack [r]) = .ok (s'.withStack []) := by
  rcases walkLoop_root_cases hv r s hw hh with ⟨m, s'', h', he⟩ | ⟨m, e, h', -⟩
  · obtain ⟨-, rfl⟩ := h.unique h'
    exact he
  · exact absurd h (fun h => h'.not_walked h)

/-- A property every visit keeps is kept by the recursion. -/
theorem Walked.keeps {P : State → Prop}
    (hP : ∀ r s v, visit r s = .ok v → P s → P v.1)
    {n : Nat} {r : Region} {s s' : State} (h : Walked visit n r s s') (hs : P s) : P s' := by
  induction h with
  | leaf h => exact hP _ _ _ h hs
  | node h _ _ iha ihb => exact ihb (iha (hP _ _ _ h hs))

/-- What a failing visit raises, from a state with a property every visit keeps. -/
theorem Failed.cause {Q : State → Prop} {P : Raise → Prop}
    (hQ : ∀ r s v, visit r s = .ok v → Q s → Q v.1)
    (hP : ∀ r s e, visit r s = .error e → Q s → P e)
    {n : Nat} {r : Region} {s : State} {e : Raise} (h : Failed visit n r s e) (hs : Q s) : P e := by
  induction h with
  | here h => exact hP _ _ _ h hs
  | first h _ ih => exact ih (hQ _ _ _ h hs)
  | second h ha _ ih => exact ih (ha.keeps hQ (hQ _ _ _ h hs))

theorem Walked.table (hv : Blind visit) {n : Nat} {r : Region} {s s' : State}
    (h : Walked visit n r s s') :
    s'.stripe = s.stripe ∧ s'.cfg = s.cfg ∧ s'.era = s.era := by
  refine h.keeps (P := fun t => t.stripe = s.stripe ∧ t.cfg = s.cfg ∧ t.era = s.era) ?_
    ⟨rfl, rfl, rfl⟩
  intro r t v hvis ⟨h1, h2, h3⟩
  obtain ⟨g1, g2, g3⟩ := hv.table r t v hvis
  exact ⟨g1.trans h1, g2.trans h2, g3.trans h3⟩

/-- The recursion does not see the stack. -/
theorem Walked.withStack (hv : Blind visit) {n : Nat} {r : Region} {s s' : State}
    (h : Walked visit n r s s') (k : List Region) :
    Walked visit n r (s.withStack k) (s'.withStack k) := by
  induction h with
  | leaf h => exact .leaf (hv.ok k h)
  | node h _ _ iha ihb => exact .node (hv.ok k h) iha ihb

theorem Failed.withStack (hv : Blind visit) {n : Nat} {r : Region} {s : State} {e : Raise}
    (h : Failed visit n r s e) (k : List Region) : Failed visit n r (s.withStack k) e := by
  induction h with
  | here h => exact .here (hv.error k h)
  | first h _ iha => exact .first (hv.ok k h) iha
  | second h ha _ ihb => exact .second (hv.ok k h) (ha.withStack hv k) ihb

end

theorem stripeRoot_congr (s t : State) (i : Nat) (h1 : t.stripe = s.stripe) (h2 : t.cfg = s.cfg)
    (h3 : t.era = s.era) : stripeRoot t i = stripeRoot s i := by
  simp [stripeRoot, stripeAt, h1, h2, h3]

section
variable {visit : Nat → Region → State → Except Raise Visited}

/-- The recursion over `n` stripes from stripe `i` on, one after the other. -/
inductive WalkedStripes (visit : Nat → Region → State → Except Raise Visited) :
    Nat → Nat → State → State → Prop where
  | nil {i : Nat} {s : State} : WalkedStripes visit 0 i s s
  | cons {m n i : Nat} {s s1 s2 : State} (h : Walked (visit i) m (stripeRoot s i) s s1)
      (hs : WalkedStripes visit n (i + 1) s1 s2) : WalkedStripes visit (n + 1) i s s2

/-- The recursion over the stripes fails in one of them. -/
inductive FailedStripes (visit : Nat → Region → State → Except Raise Visited) :
    Nat → Nat → State → Raise → Prop where
  | here {m n i : Nat} {s : State} {e : Raise} (h : Failed (visit i) m (stripeRoot s i) s e) :
      FailedStripes visit (n + 1) i s e
  | later {m n i : Nat} {s s1 : State} {e : Raise} (h : Walked (visit i) m (stripeRoot s i) s s1)
      (hs : FailedStripes visit n (i + 1) s1 e) : FailedStripes visit (n + 1) i s e

theorem WalkedStripes.withStack (hv : ∀ i, Blind (visit i)) {n i : Nat} {s s' : State}
    (h : WalkedStripes visit n i s s') (k : List Region) :
    WalkedStripes visit n i (s.withStack k) (s'.withStack k) := by
  induction h with
  | nil => exact .nil
  | cons h _ ih => exact .cons (h.withStack (hv _) k) ih

/-- A property every visit keeps is kept over the stripes. -/
theorem WalkedStripes.keeps {P : State → Prop}
    (hP : ∀ i r s v, visit i r s = .ok v → P s → P v.1)
    {n i : Nat} {s s' : State} (h : WalkedStripes visit n i s s') (hs : P s) : P s' := by
  induction h with
  | nil => exact hs
  | cons h _ ih => exact ih (h.keeps (hP _) hs)

/-- What a failing visit of any stripe raises. -/
theorem FailedStripes.cause {Q : State → Prop} {P : Raise → Prop}
    (hQ : ∀ i r s v, visit i r s = .ok v → Q s → Q v.1)
    (hP : ∀ i r s e, visit i r s = .error e → Q s → P e)
    {n i : Nat} {s : State} {e : Raise} (h : FailedStripes visit n i s e) (hs : Q s) : P e := by
  induction h with
  | here h => exact h.cause (hQ _) (hP _) hs
  | later h _ ih => exact ih (h.keeps (hQ _) hs)

/-- The walk over `n` stripes is the recursion over them; it leaves the stack empty
(10_state.md R39). -/
theorem walkStripes_cases (hv : ∀ i, Blind (visit i)) (n i : Nat) (s : State)
    (hroots : ∀ j, j < n → 1 ≤ (stripeRoot s (i + j)).w ∧ 1 ≤ (stripeRoot s (i + j)).h) :
    (∃ s', WalkedStripes visit n i s s' ∧
        walkStripes visit n i s = .ok (if n = 0 then s else s'.withStack [])) ∨
      ∃ e, FailedStripes visit n i s e ∧ walkStripes visit n i s = .error e := by
  induction n generalizing i s with
  | zero => exact .inl ⟨s, .nil, rfl⟩
  | succ n ih =>
    obtain ⟨hw, hh⟩ := hroots 0 (by omega)
    have hstep : walkStripes visit (n + 1) i s =
        (walkLoop (visit i) (visitBound (stripeRoot s i)) (s.withStack [stripeRoot s i]) >>=
          fun s' => walkStripes visit n (i + 1) s') := rfl
    rcases walkLoop_root_cases (hv i) (stripeRoot s i) s hw hh with ⟨m, s1, h1, he⟩ | ⟨m, e, h1, he⟩
    · have htab := h1.table (hv i)
      have hroots' : ∀ j, j < n → 1 ≤ (stripeRoot (s1.withStack []) (i + 1 + j)).w ∧
          1 ≤ (stripeRoot (s1.withStack []) (i + 1 + j)).h := by
        intro j hj
        rw [stripeRoot_congr s (s1.withStack []) (i + 1 + j) htab.1 htab.2.1 htab.2.2,
          show i + 1 + j = i + (j + 1) by omega]
        exact hroots (j + 1) (by omega)
      rw [hstep, he, ok_bind]
      rcases ih (i + 1) (s1.withStack []) hroots' with ⟨s2, h2, he2⟩ | ⟨e, h2, he2⟩
      · refine .inl ⟨s2.withStack s1.wstk, .cons h1 ?_, ?_⟩
        · have := h2.withStack hv s1.wstk
          simpa using this
        · rw [he2]
          by_cases hn : n = 0
          · subst hn
            cases h2
            simp
          · simp [hn]
      · refine .inr ⟨e, .later h1 ?_, he2⟩
        have : ∀ {n i : Nat} {s : State} {e : Raise}, FailedStripes visit n i s e →
            ∀ k, FailedStripes visit n i (s.withStack k) e := by
          intro n i s e h k
          induction h with
          | here h => exact .here (h.withStack (hv _) k)
          | later h _ ih => exact .later (h.withStack (hv _) k) ih
        simpa using this h2 s1.wstk
    · exact .inr ⟨e, .here h1, by rw [hstep, he, error_bind]⟩

end

/-- A valid configuration's stripes are non-empty, lie one below the other and end at the last row
(10_state.md R29). -/
theorem stripesOK_spec (s : State) (n i y : Nat) (h : stripesOK s n i y = true) :
    y ≤ s.cfg.imgH.toNat ∧ ∀ j, j < n →
      1 ≤ (stripeAt s (i + j)).h.toNat ∧
      y ≤ (stripeAt s (i + j)).y.toNat ∧
      (stripeAt s (i + j)).y.toNat + (stripeAt s (i + j)).h.toNat ≤ s.cfg.imgH.toNat := by
  induction n generalizing i y with
  | zero =>
    have : y = s.cfg.imgH.toNat := by simpa [stripesOK] using h
    exact ⟨by omega, fun j hj => absurd hj (Nat.not_lt_zero j)⟩
  | succ n ih =>
    simp only [stripesOK, Bool.and_eq_true, decide_eq_true_eq] at h
    obtain ⟨⟨hy, hb⟩, hrest⟩ := h
    have hb' : 1 ≤ (stripeAt s i).h.toNat := hb
    obtain ⟨hle, hall⟩ := ih (i + 1) _ hrest
    refine ⟨by omega, fun j hj => ?_⟩
    cases j with
    | zero => exact ⟨hb', by simp only [Nat.add_zero]; omega, by simp only [Nat.add_zero]; omega⟩
    | succ j =>
      obtain ⟨g1, g2, g3⟩ := hall j (by omega)
      rw [show i + (j + 1) = i + 1 + j by omega]
      exact ⟨g1, by omega, g3⟩

theorem cfgOK_spec (s : State) (h : cfgOK s = true) :
    1 ≤ s.cfg.imgW.toNat ∧ 1 ≤ s.cfg.imgH.toNat ∧ 1 ≤ s.cfg.nstripe.toNat ∧
      stripesOK s s.cfg.nstripe.toNat 0 0 = true := by
  simp only [cfgOK, imgOK, Bool.and_eq_true, decide_eq_true_eq] at h
  exact ⟨h.1.1.1, h.1.1.2, h.1.2, h.2⟩

/-- Under a valid configuration every stripe's root is non-empty and inside the raster
(41_classifier.md R152). -/
theorem cfgOK_root (s : State) (h : cfgOK s = true) (i : Nat) (hi : i < s.cfg.nstripe.toNat) :
    1 ≤ (stripeRoot s i).w ∧ 1 ≤ (stripeRoot s i).h ∧
      (stripeRoot s i).x + (stripeRoot s i).w = s.cfg.imgW.toNat ∧
      (stripeRoot s i).y + (stripeRoot s i).h ≤ s.cfg.imgH.toNat := by
  obtain ⟨hw, -, -, hs⟩ := cfgOK_spec s h
  obtain ⟨-, hall⟩ := stripesOK_spec s _ 0 0 hs
  obtain ⟨g1, -, g3⟩ := hall i hi
  rw [Nat.zero_add] at g1 g3
  exact ⟨hw, g1, by simp [stripeRoot], g3⟩

/-- The whole walk under a valid configuration. -/
theorem walk_cases (visit : Nat → Region → State → Except Raise Visited)
    (hv : ∀ i, Blind (visit i)) (s : State) (h : cfgOK s = true) :
    (∃ s', WalkedStripes visit s.cfg.nstripe.toNat 0 s s' ∧ walk visit s = .ok (s'.withStack [])) ∨
      ∃ e, FailedStripes visit s.cfg.nstripe.toNat 0 s e ∧ walk visit s = .error e := by
  have hn : s.cfg.nstripe.toNat ≠ 0 := by
    have := (cfgOK_spec s h).2.2.1
    omega
  have hroots : ∀ j, j < s.cfg.nstripe.toNat →
      1 ≤ (stripeRoot s (0 + j)).w ∧ 1 ≤ (stripeRoot s (0 + j)).h := by
    intro j hj
    rw [Nat.zero_add]
    exact ⟨(cfgOK_root s h j hj).1, (cfgOK_root s h j hj).2.1⟩
  rcases walkStripes_cases hv s.cfg.nstripe.toNat 0 s hroots with ⟨s', h1, h2⟩ | h'
  · rw [if_neg hn] at h2
    exact .inl ⟨s', h1, h2⟩
  · exact .inr h'

end Sys2Proof.Machine
end

