-- ==== Sys2Proof/Laws/Visits.lean ====
section
/-! SUPPORT. The three visits of the walk: what each can answer (41_classifier.md R150, 43_encoder.md
R173, 44_decoder.md R187), and that none of them sees the walk stack. -/

namespace Sys2Proof.Machine

/-- Where `classify` splits, it splits as `splitGeom` does (00_scope.md R12, 41_classifier.md R146). -/
theorem classify_split (luma : Color → BitVec 16) (s : State) (r : Region)
    (kids : Region × Region) (h : children r (classify luma s r).1 = some kids) :
    children r (splitGeom r.w r.h) = some kids := by
  unfold classify at h
  split at h
  · cases h
  · split at h
    · cases h
    · split at h
      · cases h
      · split at h <;> simp_all [children]

theorem analyzeVisit_blind (luma : Color → BitVec 16) (i : Nat) : Blind (analyzeVisit luma i) where
  stack r s k := by
    have e : classify luma (s.withStack k) r = classify luma s r := rfl
    have e2 : avgColor (s.withStack k) r = avgColor s r := rfl
    unfold analyzeVisit
    rw [e, e2]
    cases children r (classify luma s r).1 <;> rfl
  split r s s' kids h := by
    unfold analyzeVisit at h
    cases hc : children r (classify luma s r).1 with
    | none => rw [hc] at h; cases h
    | some kids' =>
      rw [hc] at h
      cases h
      exact classify_split luma s r kids hc
  table r s v h := by
    unfold analyzeVisit at h
    cases hc : children r (classify luma s r).1 with
    | none => rw [hc] at h; cases h; exact ⟨rfl, rfl, rfl⟩
    | some kids' => rw [hc] at h; cases h; exact ⟨rfl, rfl, rfl⟩

/-- All an emission visit can do: it consumes a pattern entry and writes a token, or raises
(43_encoder.md R173). -/
theorem encVisit_cases (i : Nat) (r : Region) (s : State) :
    (∃ idx w, s.ana.pattern[s.enc.patcur]? = some true ∧
        s.pal.leafref[s.enc.refcur]? = some idx ∧ putLeaf idx s.wbufCap s.wr = .ok w ∧
        encVisit i r s = .ok ((s.withEnc ⟨s.enc.patcur + 1, s.enc.refcur + 1⟩).withWr w, none)) ∨
    (∃ kids w, s.ana.pattern[s.enc.patcur]? = some false ∧
        children r (splitGeom r.w r.h) = some kids ∧ putInternal s.wbufCap s.wr = .ok w ∧
        encVisit i r s =
          .ok ((s.withEnc { s.enc with patcur := s.enc.patcur + 1 }).withWr w, some kids)) ∨
    (s.ana.pattern[s.enc.patcur]? = none ∧
        encVisit i r s = .error ⟨.patternExhausted, s.enc.patcur, i⟩) ∨
    (s.ana.pattern[s.enc.patcur]? = some true ∧ s.pal.leafref[s.enc.refcur]? = none ∧
        encVisit i r s = .error ⟨.leafRefExhausted, s.enc.refcur, i⟩) ∨
    (s.ana.pattern[s.enc.patcur]? = some false ∧ children r (splitGeom r.w r.h) = none ∧
        encVisit i r s = .error ⟨.patternGeometry, s.enc.patcur, r.x * 65536 + r.y⟩) ∨
    (∃ idx e, s.ana.pattern[s.enc.patcur]? = some true ∧
        s.pal.leafref[s.enc.refcur]? = some idx ∧ putLeaf idx s.wbufCap s.wr = .error e ∧
        encVisit i r s = .error e) ∨
    (∃ kids e, s.ana.pattern[s.enc.patcur]? = some false ∧
        children r (splitGeom r.w r.h) = some kids ∧ putInternal s.wbufCap s.wr = .error e ∧
        encVisit i r s = .error e) := by
  unfold encVisit
  cases hp : s.ana.pattern[s.enc.patcur]? with
  | none => simp
  | some isLeaf =>
    cases isLeaf
    · cases hk : children r (splitGeom r.w r.h) with
      | none => simp [encInternal, hk]
      | some kids =>
        cases hw : putInternal s.wbufCap s.wr with
        | ok w => simp [encInternal, hk, onWriter, hw]
        | error e => simp [encInternal, hk, onWriter, hw]
    · cases hk : s.pal.leafref[s.enc.refcur]? with
      | none => simp [encLeaf, hk]
      | some idx =>
        cases hw : putLeaf idx s.wbufCap s.wr with
        | ok w => simp [encLeaf, hk, onWriter, hw, State.withEnc]
        | error e => simp [encLeaf, hk, onWriter, hw]

theorem encVisit_blind (i : Nat) : Blind (encVisit i) where
  stack r s k := by
    unfold encVisit
    simp only [withStack_ana, withStack_enc]
    cases s.ana.pattern[s.enc.patcur]? with
    | none => rfl
    | some isLeaf =>
      cases isLeaf
      · simp only [encInternal]
        cases children r (splitGeom r.w r.h) with
        | none => rfl
        | some kids =>
          simp only [onWriter]
          cases hw : putInternal s.wbufCap s.wr <;> simp [hw, Except.map, State.withStack, State.withEnc, State.withWr]
      · simp only [encLeaf, if_true]
        cases hl : s.pal.leafref[s.enc.refcur]? with
        | none => simp [hl, Except.map]
        | some idx =>
          simp only [onWriter]
          cases hw : putLeaf idx s.wbufCap s.wr <;>
            simp [hl, hw, Except.map, State.withStack, State.withEnc, State.withWr]
  split r s s' kids h := by
    rcases encVisit_cases i r s with ⟨_, _, _, _, _, e⟩ | ⟨_, _, _, hk, _, e⟩ | ⟨_, e⟩ | ⟨_, _, e⟩ |
      ⟨_, _, e⟩ | ⟨_, _, _, _, _, e⟩ | ⟨_, _, _, _, _, e⟩ <;> rw [e] at h <;> cases h
    exact hk
  table r s v h := by
    rcases encVisit_cases i r s with ⟨_, _, _, _, _, e⟩ | ⟨_, _, _, hk, _, e⟩ | ⟨_, e⟩ | ⟨_, _, e⟩ |
      ⟨_, _, e⟩ | ⟨_, _, _, _, _, e⟩ | ⟨_, _, _, _, _, e⟩ <;> rw [e] at h <;> cases h <;>
      exact ⟨rfl, rfl, rfl⟩

/-- All reading a token can do (30_encoding.md R92, R93; 44_decoder.md R187). -/
theorem fetchToken_cases (s : State) :
    (∃ rest, unreadBits s = false :: rest ∧ fetchToken s = .ok (.internal, s.advance 1)) ∨
    (∃ rest, unreadBits s = true :: rest ∧ 8 ≤ rest.length ∧
      fetchToken s = .ok (.leaf (BitVec.ofNat 8 (bitsToNat (rest.take 8))), s.advance 9)) ∨
    (unreadBits s = [] ∧ fetchToken s = .error ⟨.streamExhausted, s.rd.rpos, s.dec.leaford⟩) ∨
    (∃ rest, unreadBits s = true :: rest ∧ rest.length < 8 ∧
      fetchToken s = .error ⟨.streamExhausted, s.rd.rpos + 1, s.dec.leaford⟩) := by
  rcases getbit_cases s with ⟨b, rest, h1, h2, h3⟩ | ⟨h1, h2⟩
  · cases b
    · exact .inl ⟨rest, h1, by simp [fetchToken, h2, decodeToken]⟩
    · have hp : (s.advance 1).rd.rpos ≤ 8 * (s.advance 1).rd.rlen := by
        have : (unreadBits s).length = rest.length + 1 := by rw [h1]; rfl
        rw [unreadBits_length] at this
        simp only [advance_rd]
        omega
      rcases getbits_cases 8 (s.advance 1) hp with ⟨hl, hg⟩ | ⟨hl, hg⟩
      · rw [h3] at hl hg
        exact .inr (.inl ⟨rest, h1, hl, by simp [fetchToken, h2, hg, decodeToken]⟩)
      · rw [h3] at hl
        refine .inr (.inr (.inr ⟨rest, h1, hl, ?_⟩))
        simp [fetchToken, h2, hg]
        rfl
  · exact .inr (.inr (.inl ⟨h1, by simp [fetchToken, h2]⟩))

/-- All a token's effect can do (44_decoder.md R187). -/
theorem tokenEffect_cases (t : Token) (r : Region) (s : State) :
    (∃ idx cs, t = .leaf idx ∧ s.pal.palettes[s.dec.leaford / Config.group]? = some cs ∧
      idx.toNat < cs.length ∧
      tokenEffect t r s = .ok (s.withDec ⟨s.dec.jobq ++
        [⟨r.x, r.y, r.w, r.h, jobPal (s.dec.leaford / Config.group), idx⟩], s.dec.leaford + 1⟩, none)) ∨
    (∃ kids, t = .internal ∧ children r (splitGeom r.w r.h) = some kids ∧
      tokenEffect t r s = .ok (s, some kids)) ∨
    (∃ idx, t = .leaf idx ∧ s.pal.palettes[s.dec.leaford / Config.group]? = none ∧
      tokenEffect t r s = .error ⟨.paletteRange, s.dec.leaford, s.dec.leaford / Config.group⟩) ∨
    (∃ idx cs, t = .leaf idx ∧ s.pal.palettes[s.dec.leaford / Config.group]? = some cs ∧
      cs.length ≤ idx.toNat ∧
      tokenEffect t r s = .error ⟨.indexRange, s.dec.leaford, idx.toNat⟩) ∨
    (t = .internal ∧ children r (splitGeom r.w r.h) = none ∧
      tokenEffect t r s = .error ⟨.unsplittable, s.rd.rpos - 1, r.x * 65536 + r.y⟩) := by
  cases t with
  | leaf idx =>
    cases hp : s.pal.palettes[s.dec.leaford / Config.group]? with
    | none => simp [tokenEffect, decLeaf, hp]
    | some cs =>
      by_cases hl : cs.length ≤ idx.toNat
      · simp [tokenEffect, decLeaf, hp, hl]
      · simp [tokenEffect, decLeaf, hp, hl]
        omega
  | internal =>
    cases hk : children r (splitGeom r.w r.h) with
    | none => simp [tokenEffect, decInternal, hk]
    | some kids => simp [tokenEffect, decInternal, hk]

theorem fetchToken_withStack (s : State) (k : List Region) :
    fetchToken (s.withStack k) = (fetchToken s).map fun v => (v.1, v.2.withStack k) := by
  have hu : unreadBits (s.withStack k) = unreadBits s := rfl
  rcases fetchToken_cases s with ⟨rest, h, e⟩ | ⟨rest, h, hl, e⟩ | ⟨h, e⟩ | ⟨rest, h, hl, e⟩ <;>
    rcases fetchToken_cases (s.withStack k) with ⟨rest', h', e'⟩ | ⟨rest', h', hl', e'⟩ | ⟨h', e'⟩ |
      ⟨rest', h', hl', e'⟩ <;> rw [hu, h] at h' <;> simp_all [Except.map] <;> omega

theorem tokenEffect_withStack (t : Token) (r : Region) (s : State) (k : List Region) :
    tokenEffect t r (s.withStack k) =
      (tokenEffect t r s).map fun v => (v.1.withStack k, v.2) := by
  cases t with
  | leaf idx =>
    simp only [tokenEffect, decLeaf, withStack_pal, withStack_dec]
    cases s.pal.palettes[s.dec.leaford / Config.group]? with
    | none => rfl
    | some cs =>
      simp only
      split <;> rfl
  | internal =>
    simp only [tokenEffect, decInternal, withStack_rd]
    cases children r (splitGeom r.w r.h) <;> rfl

theorem decVisit_eq (i : Nat) (r : Region) (s : State) :
    decVisit i r s = (fetchToken s >>= fun v => tokenEffect v.1 r v.2) := rfl

theorem decVisit_blind (i : Nat) : Blind (decVisit i) where
  stack r s k := by
    rw [decVisit_eq, decVisit_eq, fetchToken_withStack]
    cases fetchToken s with
    | error e => rfl
    | ok v => exact tokenEffect_withStack v.1 r v.2 k
  split r s s' kids h := by
    obtain ⟨v, -, h2⟩ := bind_eq_ok _ _ _ (decVisit_eq i r s ▸ h)
    rcases tokenEffect_cases v.1 r v.2 with ⟨_, _, _, _, _, e⟩ | ⟨_, _, hk, e⟩ | ⟨_, _, _, e⟩ |
      ⟨_, _, _, _, _, e⟩ | ⟨_, _, e⟩ <;> rw [e] at h2 <;> cases h2
    exact hk
  table r s v h := by
    obtain ⟨u, h1, h2⟩ := bind_eq_ok _ _ _ (decVisit_eq i r s ▸ h)
    have ht : u.2.stripe = s.stripe ∧ u.2.cfg = s.cfg ∧ u.2.era = s.era := by
      rcases fetchToken_cases s with ⟨_, _, e⟩ | ⟨_, _, _, e⟩ | ⟨_, e⟩ | ⟨_, _, _, e⟩ <;>
        rw [e] at h1 <;> cases h1 <;> exact ⟨rfl, rfl, rfl⟩
    rcases tokenEffect_cases u.1 r u.2 with ⟨_, _, _, _, _, e⟩ | ⟨_, _, hk, e⟩ | ⟨_, _, _, e⟩ |
      ⟨_, _, _, _, _, e⟩ | ⟨_, _, e⟩ <;> rw [e] at h2 <;> cases h2 <;> exact ht

end Sys2Proof.Machine
end

