-- ==== Sys2Proof/Laws/Trees.lean ====
section
/-! SUPPORT. The three walks in terms of the trees of the wire grammar (30_encoding.md R91,
43_encoder.md R172): what a walk over a tree does, and that a walk that succeeds is one over trees. -/

namespace Sys2Proof.Machine

theorem drop_of_drop_append {α : Type} (l a b : List α) (n : Nat) (h : l.drop n = a ++ b) :
    l.drop (n + a.length) = b := by
  rw [← List.drop_drop, h, List.drop_left']
  rfl

theorem getElem?_of_drop_cons {α : Type} (l b : List α) (x : α) (n : Nat) (h : l.drop n = x :: b) :
    l[n]? = some x := by
  have := congrArg (fun k => k[0]?) h
  simpa using this

theorem drop_cons_of_getElem? {α : Type} (l : List α) (x : α) (n : Nat) (h : l[n]? = some x) :
    l.drop n = x :: l.drop (n + 1) := by
  obtain ⟨hlt, rfl⟩ := List.getElem?_eq_some_iff.mp h
  exact (List.cons_getElem_drop_succ (h := hlt)).symm

/-! ## Counting -/

theorem WireTree.pattern_length (t : WireTree) : t.pattern.length + 1 = 2 * t.refs.length := by
  induction t with
  | leaf idx => rfl
  | node a b iha ihb =>
    simp only [WireTree.pattern, WireTree.refs, List.length_cons, List.length_append]
    omega

theorem WireTree.wire_length (t : WireTree) : t.wire.length = t.pattern.length + 8 * t.refs.length := by
  induction t with
  | leaf idx => simp [WireTree.wire, WireTree.pattern, WireTree.refs, encode]
  | node a b iha ihb =>
    simp only [WireTree.wire, WireTree.pattern, WireTree.refs, List.length_cons, List.length_append, encode]
    simp only [List.length_nil]
    omega

/-! ## Emission -/

/-- The state an emission of one tree leaves, but for the writer. -/
def emitted (s : State) (t : WireTree) (w : Writer) : State :=
  (s.withEnc ⟨s.enc.patcur + t.pattern.length, s.enc.refcur + t.refs.length⟩).withWr w

theorem encVisit_tree (i : Nat) (t : WireTree) (r : Region) (s : State) (p' : List Bool) (k' : List Byte)
    (hfit : t.fits r = true) (hp : s.ana.pattern.drop s.enc.patcur = t.pattern ++ p')
    (hr : s.pal.leafref.drop s.enc.refcur = t.refs ++ k') (hw : writerOK s.wr = true) :
    (∃ n w, Walked (encVisit i) n r s (emitted s t w) ∧ Wrote s.wbufCap s.wr t.wire w) ∨
      ∃ n k, Failed (encVisit i) n r s ⟨.wbufFull, k, 0⟩ ∧ Filled s.wbufCap s.wr t.wire k := by
  induction t generalizing r s p' k' with
  | leaf idx =>
    have h1 := getElem?_of_drop_cons _ _ _ _ hp
    have h2 := getElem?_of_drop_cons _ _ _ _ hr
    have hv : encVisit i r s = (onWriter (putLeaf idx)
        (s.withEnc ⟨s.enc.patcur + 1, s.enc.refcur + 1⟩) >>= fun s' => pure (s', none)) := by
      simp [encVisit, h1, encLeaf, h2]
    rcases emits_putLeaf idx s.wbufCap s.wr hw with ⟨w, he, ho⟩ | ⟨k, he, ho⟩
    · refine .inl ⟨1, w, .leaf ?_, ho⟩
      rw [hv, onWriter_ok _ _ w (by simpa using he)]
      rfl
    · refine .inr ⟨1, k, .here ?_, ho⟩
      rw [hv, onWriter_error _ _ _ (by simpa using he)]
      rfl
  | node a b iha ihb =>
    have h1 := getElem?_of_drop_cons _ _ _ _ hp
    simp only [WireTree.fits] at hfit
    cases hk : children r (splitGeom r.w r.h) with
    | none => simp [hk] at hfit
    | some kids =>
      obtain ⟨ra, rb⟩ := kids
      simp only [hk, Bool.and_eq_true] at hfit
      have hv : encVisit i r s = (onWriter putInternal
          (s.withEnc { s.enc with patcur := s.enc.patcur + 1 }) >>=
            fun s' => pure (s', some (ra, rb))) := by
        simp [encVisit, h1, encInternal, hk]
      rcases emits_putInternal s.wbufCap s.wr hw with ⟨w, he, ho⟩ | ⟨k, he, ho⟩
      · have hvis : encVisit i r s =
            .ok ((s.withEnc { s.enc with patcur := s.enc.patcur + 1 }).withWr w, some (ra, rb)) := by
          rw [hv, onWriter_ok _ _ w (by simpa using he)]
          rfl
        have hpa : s.ana.pattern.drop (s.enc.patcur + 1) = a.pattern ++ (b.pattern ++ p') := by
          have := drop_of_drop_append _ [false] (a.pattern ++ b.pattern ++ p') _
            (by simpa [WireTree.pattern] using hp)
          simpa using this
        have hra : s.pal.leafref.drop s.enc.refcur = a.refs ++ (b.refs ++ k') := by
          simpa [WireTree.refs] using hr
        rcases iha ra ((s.withEnc { s.enc with patcur := s.enc.patcur + 1 }).withWr w) _ _ hfit.1
            hpa hra ho.ok with ⟨m, w2, g1, o2⟩ | ⟨m, k, g1, o2⟩
        · rcases ihb rb (emitted ((s.withEnc { s.enc with patcur := s.enc.patcur + 1 }).withWr w) a w2)
              p' k' hfit.2 (drop_of_drop_append _ _ _ _ hpa) (drop_of_drop_append _ _ _ _ hra) o2.ok
            with ⟨n, w3, g2, o3⟩ | ⟨n, k, g2, o3⟩
          · refine .inl ⟨m + n + 1, w3, ?_, ho.trans (o2.trans o3)⟩
            have e : emitted s (.node a b) w3 =
                emitted (emitted ((s.withEnc { s.enc with patcur := s.enc.patcur + 1 }).withWr w) a w2)
                  b w3 := by
              simp only [emitted, WireTree.pattern, WireTree.refs, List.length_cons, List.length_append,
                State.withEnc, State.withWr]
              congr 2 <;> omega
            rw [e]
            exact .node hvis g1 g2
          · exact .inr ⟨m + n + 1, k, .second hvis g1 g2, ho.filled (o2.filled o3)⟩
        · exact .inr ⟨m + 1, k, .first hvis g1, ho.filled (o2.append _)⟩
      · refine .inr ⟨1, k, .here ?_, ho.append _⟩
        rw [hv, onWriter_error _ _ _ (by simpa using he)]
        rfl

/-- An emission of a region that succeeds follows a tree. -/
theorem encVisit_sound (i n : Nat) (r : Region) (s s' : State) (h : Walked (encVisit i) n r s s') :
    ∃ t w, t.fits r = true ∧ s' = emitted s t w ∧
      s.ana.pattern.drop s.enc.patcur = t.pattern ++ s.ana.pattern.drop s'.enc.patcur ∧
      s.pal.leafref.drop s.enc.refcur = t.refs ++ s.pal.leafref.drop s'.enc.refcur := by
  induction h with
  | @leaf r s s' h =>
    rcases encVisit_cases i r s with ⟨idx, w, h1, h2, _, e⟩ | ⟨_, _, _, _, _, e⟩ | ⟨_, e⟩ |
      ⟨_, _, e⟩ | ⟨_, _, e⟩ | ⟨_, _, _, _, _, e⟩ | ⟨_, _, _, _, _, e⟩ <;> rw [e] at h <;> cases h
    refine ⟨.leaf idx, w, rfl, rfl, ?_, ?_⟩
    · exact drop_cons_of_getElem? _ _ _ h1
    · exact drop_cons_of_getElem? _ _ _ h2
  | @node m n r ra rb s s1 s2 s3 h _ _ iha ihb =>
    rcases encVisit_cases i r s with ⟨_, _, _, _, _, e⟩ | ⟨kids, w, h1, hk, _, e⟩ | ⟨_, e⟩ |
      ⟨_, _, e⟩ | ⟨_, _, e⟩ | ⟨_, _, _, _, _, e⟩ | ⟨_, _, _, _, _, e⟩ <;> rw [e] at h <;> cases h
    obtain ⟨a, wa, fa, ea, pa, ka⟩ := iha
    obtain ⟨b, wb, fb, eb, pb, kb⟩ := ihb
    refine ⟨.node a b, wb, ?_, ?_, ?_, ?_⟩
    · simp [WireTree.fits, hk, fa, fb]
    · rw [eb, ea]
      simp only [emitted, WireTree.pattern, WireTree.refs, List.length_cons, List.length_append,
        State.withEnc, State.withWr]
      congr 2 <;> omega
    · rw [drop_cons_of_getElem? _ _ _ h1]
      have e1 : s2.ana = s.ana := by rw [ea]; rfl
      rw [e1] at pb
      simp only [withWr_ana, withEnc_ana, withWr_enc, withEnc_enc] at pa
      simp only [WireTree.pattern, List.cons_append, List.append_assoc, List.cons.injEq, true_and]
      rw [pa, pb]
    · have e1 : s2.pal = s.pal := by rw [ea]; rfl
      rw [e1] at kb
      simp only [withWr_pal, withEnc_pal, withWr_enc, withEnc_enc] at ka
      simp only [WireTree.refs, List.append_assoc]
      rw [ka, kb]

/-! ## Parsing -/

theorem jobsFrom_append (k : Nat) (r1 r2 : List Region) (i1 i2 : List Byte)
    (h : r1.length = i1.length) :
    jobsFrom k (r1 ++ r2) (i1 ++ i2) = jobsFrom k r1 i1 ++ jobsFrom (k + i1.length) r2 i2 := by
  induction r1 generalizing k i1 with
  | nil =>
    cases i1 with
    | nil => rfl
    | cons _ _ => cases h
  | cons r rs ih =>
    cases i1 with
    | nil => cases h
    | cons x xs =>
      simp only [List.cons_append, jobsFrom, List.length_cons]
      rw [ih (k + 1) xs (by simpa using h), show k + 1 + xs.length = k + (xs.length + 1) by omega]

theorem refsInRange_append (ps : List (List Color)) (k : Nat) (a b : List Byte) :
    refsInRange ps k (a ++ b) = (refsInRange ps k a && refsInRange ps (k + a.length) b) := by
  induction a generalizing k with
  | nil => simp [refsInRange]
  | cons x xs ih =>
    simp only [List.cons_append, refsInRange, ih, List.length_cons, Bool.and_assoc]
    rw [show k + 1 + xs.length = k + (xs.length + 1) by omega]

theorem WireTree.regions_length (t : WireTree) (r : Region) (h : t.fits r = true) :
    (t.regions r).length = t.refs.length := by
  induction t generalizing r with
  | leaf idx => rfl
  | node a b iha ihb =>
    simp only [WireTree.fits] at h
    cases hk : children r (splitGeom r.w r.h) with
    | none => simp [hk] at h
    | some kids =>
      obtain ⟨ra, rb⟩ := kids
      simp only [hk, Bool.and_eq_true] at h
      simp only [WireTree.regions, hk, WireTree.refs, List.length_append, iha ra h.1, ihb rb h.2]

/-- The state a parse of one tree leaves. -/
def parsed (s : State) (t : WireTree) (r : Region) : State :=
  (s.withDec ⟨s.dec.jobq ++ jobsFrom s.dec.leaford (t.regions r) t.refs,
    s.dec.leaford + t.refs.length⟩).advance t.wire.length

theorem fetchToken_of_leaf (idx : Byte) (rest : List Bool) (s : State)
    (h : unreadBits s = encode (.leaf idx) ++ rest) :
    fetchToken s = .ok (.leaf idx, s.advance 9) ∧ unreadBits (s.advance 9) = rest := by
  simp only [encode, List.cons_append] at h
  obtain ⟨h1, h2⟩ := getbit_of_cons s _ _ h
  obtain ⟨h3, h4⟩ := getbits_of_field 8 idx.toNat rest _ (by decide) idx.isLt h2
  simp only [advance_advance] at h3 h4
  refine ⟨?_, h4⟩
  simp [fetchToken, h1, h3, decodeToken]

theorem fetchToken_of_internal (rest : List Bool) (s : State)
    (h : unreadBits s = encode .internal ++ rest) :
    fetchToken s = .ok (.internal, s.advance 1) ∧ unreadBits (s.advance 1) = rest := by
  simp only [encode, List.singleton_append] at h
  obtain ⟨h1, h2⟩ := getbit_of_cons s _ _ h
  exact ⟨by simp [fetchToken, h1, decodeToken], h2⟩

theorem decVisit_tree (i : Nat) (t : WireTree) (r : Region) (s : State) (rest : List Bool)
    (hfit : t.fits r = true) (hu : unreadBits s = t.wire ++ rest)
    (hr : refsInRange s.pal.palettes s.dec.leaford t.refs = true) :
    (∃ n, Walked (decVisit i) n r s (parsed s t r)) ∧ unreadBits (parsed s t r) = rest := by
  have hrest : unreadBits (parsed s t r) = rest := by
    have : unreadBits (parsed s t r) = unreadBits (s.advance t.wire.length) :=
      unreadBits_congr _ _ rfl rfl rfl
    rw [this, unreadBits_advance, hu, List.drop_left' rfl]
  refine ⟨?_, hrest⟩
  clear hrest
  induction t generalizing r s rest with
  | leaf idx =>
    obtain ⟨h1, -⟩ := fetchToken_of_leaf idx rest s hu
    simp only [WireTree.refs, refsInRange, Bool.and_true, decide_eq_true_eq] at hr
    refine ⟨1, .leaf ?_⟩
    rw [decVisit_eq, h1, ok_bind]
    have hp : s.pal.palettes[s.dec.leaford / Config.group]? =
        some (paletteAt s.pal.palettes (s.dec.leaford / Config.group)) := by
      unfold paletteAt at hr ⊢
      cases hg : s.pal.palettes[s.dec.leaford / Config.group]? with
      | none => rw [hg] at hr; simp at hr
      | some cs => rfl
    have hn : ¬ (paletteAt s.pal.palettes (s.dec.leaford / Config.group)).length ≤ idx.toNat := by
      omega
    simp only [tokenEffect, decLeaf]
    have e1 : (s.advance 9).dec = s.dec := rfl
    have e2 : (s.advance 9).pal = s.pal := rfl
    simp only [e1, e2, hp, if_neg hn]
    have el : (WireTree.leaf idx).wire.length = 9 := by simp [WireTree.wire, encode]
    simp [parsed, el, WireTree.regions, WireTree.refs, jobsFrom]
  | node a b iha ihb =>
    simp only [WireTree.fits] at hfit
    cases hk : children r (splitGeom r.w r.h) with
    | none => simp [hk] at hfit
    | some kids =>
      obtain ⟨ra, rb⟩ := kids
      simp only [hk, Bool.and_eq_true] at hfit
      simp only [WireTree.wire, List.append_assoc] at hu
      simp only [WireTree.refs, refsInRange_append, Bool.and_eq_true] at hr
      obtain ⟨h1, u1⟩ := fetchToken_of_internal _ s hu
      have hvis : decVisit i r s = .ok (s.advance 1, some (ra, rb)) := by
        rw [decVisit_eq, h1, ok_bind]
        simp [tokenEffect, decInternal, hk]
      obtain ⟨m, g1⟩ := iha ra (s.advance 1) _ hfit.1 u1 hr.1
      have u2 : unreadBits (parsed (s.advance 1) a ra) = b.wire ++ rest := by
        have : unreadBits (parsed (s.advance 1) a ra) =
            unreadBits ((s.advance 1).advance a.wire.length) := unreadBits_congr _ _ rfl rfl rfl
        rw [this, unreadBits_advance, u1, List.drop_left' rfl]
      obtain ⟨n, g2⟩ := ihb rb (parsed (s.advance 1) a ra) rest hfit.2 u2 hr.2
      refine ⟨m + n + 1, ?_⟩
      have e : parsed s (.node a b) r = parsed (parsed (s.advance 1) a ra) b rb := by
        have hl := a.regions_length ra hfit.1
        have el : (WireTree.node a b).wire.length = 1 + a.wire.length + b.wire.length := by
          simp only [WireTree.wire, List.length_append, encode, List.length_singleton]
          omega
        simp only [parsed, WireTree.regions, hk, WireTree.refs, jobsFrom_append _ _ _ _ _ hl, el,
          State.advance, State.withDec, State.withRd, List.length_append, List.append_assoc,
          Nat.add_assoc]
      rw [e]
      exact .node hvis g1 g2

/-- A parse of a region that succeeds reads a tree. -/
theorem decVisit_sound (i n : Nat) (r : Region) (s s' : State) (h : Walked (decVisit i) n r s s') :
    ∃ t, t.fits r = true ∧ s' = parsed s t r ∧ unreadBits s = t.wire ++ unreadBits s' ∧
      refsInRange s.pal.palettes s.dec.leaford t.refs = true := by
  induction h with
  | @leaf r s s' h =>
    rw [decVisit_eq] at h
    obtain ⟨v, hf, ht⟩ := bind_eq_ok _ _ _ h
    rcases tokenEffect_cases v.1 r v.2 with ⟨idx, cs, e1, e2, e3, e4⟩ | ⟨_, _, _, e⟩ |
      ⟨_, _, _, e⟩ | ⟨_, _, _, _, _, e⟩ | ⟨_, _, e⟩
    · rw [e4] at ht
      rcases fetchToken_cases s with ⟨_, _, e⟩ | ⟨rest, hu, hl, e⟩ | ⟨_, e⟩ | ⟨_, _, _, e⟩
      · rw [e] at hf; cases hf; cases e1
      · rw [e] at hf
        cases hf
        simp only [Token.leaf.injEq] at e1
        have hlt := bitsToNat_lt (rest.take 8)
        have hnb := natToBits_bitsToNat (rest.take 8)
        have h8 : (rest.take 8).length = 8 := by simpa using hl
        rw [h8] at hlt hnb
        have hidx : idx.toNat = bitsToNat (rest.take 8) := by
          rw [← e1, BitVec.toNat_ofNat, Nat.mod_eq_of_lt hlt]
        have hw : unreadBits s = (WireTree.leaf idx).wire ++ rest.drop 8 := by
          simp only [WireTree.wire, encode, List.cons_append]
          rw [hu, hidx, hnb, List.take_append_drop]
        have d1 : (s.advance 9).dec = s.dec := rfl
        have d2 : (s.advance 9).pal = s.pal := rfl
        have el : (WireTree.leaf idx).wire.length = 9 := by simp [WireTree.wire, encode]
        cases ht
        refine ⟨.leaf idx, rfl, ?_, ?_, ?_⟩
        · simp [parsed, el, WireTree.regions, WireTree.refs, jobsFrom, d1]
        · rw [hw]
          congr 1
          have : unreadBits ((s.advance 9).withDec ⟨(s.advance 9).dec.jobq ++
              [⟨r.x, r.y, r.w, r.h, jobPal ((s.advance 9).dec.leaford / Config.group), idx⟩],
              (s.advance 9).dec.leaford + 1⟩) = unreadBits (s.advance 9) :=
            unreadBits_congr _ _ rfl rfl rfl
          rw [this, unreadBits_advance, hw, List.drop_left' el]
        · simp only [d1, d2] at e2
          simp only [WireTree.refs, refsInRange, paletteAt, e2, Option.getD_some, Bool.and_true,
            decide_eq_true_eq]
          exact e3
      · rw [e] at hf; cases hf
      · rw [e] at hf; cases hf
    all_goals (rw [e] at ht; cases ht)
  | @node m n r ra rb s s1 s2 s3 h _ _ iha ihb =>
    rw [decVisit_eq] at h
    obtain ⟨v, hf, ht⟩ := bind_eq_ok _ _ _ h
    rcases tokenEffect_cases v.1 r v.2 with ⟨_, _, _, _, _, e⟩ | ⟨kids, e1, hk, e⟩ |
      ⟨_, _, _, e⟩ | ⟨_, _, _, _, _, e⟩ | ⟨_, _, e⟩ <;> rw [e] at ht <;> cases ht
    rcases fetchToken_cases s with ⟨rest, hu, e⟩ | ⟨rest, hu, hl, e⟩ | ⟨_, e⟩ | ⟨_, _, _, e⟩ <;>
      rw [e] at hf <;> cases hf
    · obtain ⟨a, fa, ea, ua, ka⟩ := iha
      obtain ⟨b, fb, eb, ub, kb⟩ := ihb
      refine ⟨.node a b, by simp [WireTree.fits, hk, fa, fb], ?_, ?_, ?_⟩
      · have hl := a.regions_length ra fa
        have el : (WireTree.node a b).wire.length = 1 + a.wire.length + b.wire.length := by
          simp only [WireTree.wire, List.length_append, encode, List.length_singleton]
          omega
        rw [eb, ea]
        simp only [parsed, WireTree.regions, hk, WireTree.refs, jobsFrom_append _ _ _ _ _ hl, el,
          State.advance, State.withDec, State.withRd, List.length_append, List.append_assoc,
          Nat.add_assoc]
      · have hu1 : unreadBits (s.advance 1) = rest := by
          rw [unreadBits_advance, hu]
          rfl
        rw [hu, ← hu1, ua, ub]
        simp [WireTree.wire, encode]
      · simp only [WireTree.refs, refsInRange_append, Bool.and_eq_true]
        refine ⟨ka, ?_⟩
        rw [ea] at kb
        exact kb
    · cases e1

/-! ## Analysis -/

theorem classify_withAna (luma : Color → BitVec 16) (s : State) (a : Analysis) (r : Region) :
    classify luma (s.withAna a) r = classify luma s r := rfl

theorem avgColor_withAna (s : State) (a : Analysis) (r : Region) :
    avgColor (s.withAna a) r = avgColor s r := rfl

theorem Analyzed.withAna {s : State} {r : Region} {p : List Bool} {c : List Color} {a : Analysis}
    (h : Analyzed (s.withAna a) r p c) : Analyzed s r p c := by
  induction h with
  | leaf h => exact .leaf h
  | node h _ _ iha ihb => exact .node h iha ihb

/-- The analysis of a region is the recursion of 41_classifier.md R150. -/
theorem analyzeVisit_sound (i n : Nat) (r : Region) (s s' : State)
    (h : Walked (analyzeVisit Config.luma i) n r s s') :
    ∃ p c, Analyzed s r p c ∧ s' = s.withAna ⟨s.ana.pattern ++ p, s.ana.leafcolor ++ c⟩ := by
  induction h with
  | @leaf r s s' h =>
    unfold analyzeVisit at h
    cases hc : children r (classify Config.luma s r).1 with
    | none =>
      rw [hc] at h
      cases h
      exact ⟨_, _, .leaf hc, rfl⟩
    | some kids => rw [hc] at h; cases h
  | @node m n r ra rb s s1 s2 s3 h _ _ iha ihb =>
    unfold analyzeVisit at h
    cases hc : children r (classify Config.luma s r).1 with
    | none => rw [hc] at h; cases h
    | some kids =>
      rw [hc] at h
      cases h
      obtain ⟨pa, ca, ha, rfl⟩ := iha
      obtain ⟨pb, cb, hb, rfl⟩ := ihb
      exact ⟨_, _, .node hc ha.withAna hb.withAna.withAna, by simp [State.withAna]⟩

/-- No analysis visit fails. -/
theorem analyzeVisit_not_failed (luma : Color → BitVec 16) (i n : Nat) (r : Region) (s : State)
    (e : Raise) (h : Failed (analyzeVisit luma i) n r s e) : False := by
  induction h with
  | @here r s e h =>
    unfold analyzeVisit at h
    cases hc : children r (classify luma s r).1 <;> rw [hc] at h <;> cases h
  | first _ _ ih => exact ih
  | second _ _ _ ih => exact ih

/-- The analysed pattern is that of a tree that fits, with any references to its leaves; the leaf
colours are the means over its leaf regions. -/
theorem Analyzed.tree {s : State} {r : Region} {p : List Bool} {c : List Color}
    (h : Analyzed s r p c) (refs : List Byte) (hl : refs.length = c.length) :
    ∃ t : WireTree, t.fits r = true ∧ t.pattern = p ∧ t.refs = refs ∧
      c = (t.regions r).map (avgColor s) := by
  induction h generalizing refs with
  | leaf h =>
    match refs, hl with
    | [idx], _ => exact ⟨.leaf idx, rfl, rfl, rfl, rfl⟩
  | @node r ra rb pa pb ca cb h ha hb iha ihb =>
    rw [List.length_append] at hl
    have hk := classify_split _ _ _ _ h
    obtain ⟨a, fa, ea, ka, rga⟩ := iha (refs.take ca.length) (by simp; omega)
    obtain ⟨b, fb, eb, kb, rgb⟩ := ihb (refs.drop ca.length) (by simp; omega)
    refine ⟨.node a b, by simp [WireTree.fits, hk, fa, fb], by simp [WireTree.pattern, ea, eb], ?_, ?_⟩
    · simp [WireTree.refs, ka, kb]
    · simp only [WireTree.regions, hk, List.map_append, ← rga, ← rgb]

end Sys2Proof.Machine
end

