-- ==== Sys2Proof/Laws/Forests.lean ====
section
/-! SUPPORT. The whole walks of ANALYZE, ENC_TREE and DEC_TREE in terms of one tree per stripe
(43_encoder.md R172, R173; 44_decoder.md R188; 41_classifier.md R150). -/

namespace Sys2Proof.Machine

theorem cfgOK_congr (s t : State) (h1 : t.stripe = s.stripe) (h2 : t.cfg = s.cfg)
    (h3 : t.era = s.era) : cfgOK t = cfgOK s := by
  have hs : ∀ j, stripeAt t j = stripeAt s j := fun j => by simp only [stripeAt, h1, h3]
  have h : ∀ n i y, stripesOK t n i y = stripesOK s n i y := by
    intro n
    induction n with
    | zero => intro i y; simp [stripesOK, h2]
    | succ n ih => intro i y; rw [stripesOK, stripesOK, hs, ih]
  simp only [cfgOK, imgOK, h, h2]

theorem forestFits_congr (s t : State) (h1 : t.stripe = s.stripe) (h2 : t.cfg = s.cfg)
    (h3 : t.era = s.era) (i : Nat) (ts : List WireTree) : forestFits t i ts = forestFits s i ts := by
  induction ts generalizing i with
  | nil => simp [forestFits, h2]
  | cons a rest ih => simp only [forestFits, ih, stripeRoot_congr s t i h1 h2 h3]

theorem forestRegions_congr (s t : State) (h1 : t.stripe = s.stripe) (h2 : t.cfg = s.cfg)
    (h3 : t.era = s.era) (i : Nat) (ts : List WireTree) :
    forestRegions t i ts = forestRegions s i ts := by
  induction ts generalizing i with
  | nil => rfl
  | cons a rest ih => simp only [forestRegions, ih, stripeRoot_congr s t i h1 h2 h3]

theorem forestFits_length (s : State) (i : Nat) (ts : List WireTree) (h : forestFits s i ts = true) :
    i + ts.length = s.cfg.nstripe.toNat := by
  induction ts generalizing i with
  | nil => simpa [forestFits] using h
  | cons a rest ih =>
    simp only [forestFits, Bool.and_eq_true] at h
    have := ih (i + 1) h.2
    simp only [List.length_cons]
    omega

/-- NPAT = 2*NLEAF - NSTRIPE (41_classifier.md R150). -/
theorem forestPattern_length (ts : List WireTree) :
    (forestPattern ts).length + ts.length = 2 * (forestRefs ts).length := by
  induction ts with
  | nil => rfl
  | cons a rest ih =>
    have h := a.pattern_length
    simp only [forestPattern, forestRefs, List.flatMap_cons, List.length_append, List.length_cons]
      at ih ⊢
    omega

/-- NBITS = NPAT + 8*NLEAF (43_encoder.md R175). -/
theorem forestWire_length (ts : List WireTree) :
    (forestWire ts).length = (forestPattern ts).length + 8 * (forestRefs ts).length := by
  induction ts with
  | nil => rfl
  | cons a rest ih =>
    have h := a.wire_length
    simp only [forestWire, forestPattern, forestRefs, List.flatMap_cons, List.length_append] at ih ⊢
    omega

theorem forestRegions_length (s : State) (i : Nat) (ts : List WireTree) (h : forestFits s i ts = true) :
    (forestRegions s i ts).length = (forestRefs ts).length := by
  induction ts generalizing i with
  | nil => rfl
  | cons a rest ih =>
    simp only [forestFits, Bool.and_eq_true] at h
    simp only [forestRegions, forestRefs, List.flatMap_cons, List.length_append,
      a.regions_length _ h.1, ih (i + 1) h.2]

section
variable {visit : Nat → Region → State → Except Raise Visited}

theorem WalkedStripes.unique {n i : Nat} {s s' s'' : State} (h : WalkedStripes visit n i s s')
    (h' : WalkedStripes visit n i s s'') : s' = s'' := by
  induction h generalizing s'' with
  | nil => cases h'; rfl
  | cons h _ ih =>
    cases h' with
    | cons h2 hs2 =>
      obtain ⟨-, rfl⟩ := h.unique h2
      exact ih hs2

theorem FailedStripes.not_walked {n i : Nat} {s s' : State} {e : Raise}
    (h : FailedStripes visit n i s e) (h' : WalkedStripes visit n i s s') : False := by
  induction h generalizing s' with
  | here h =>
    cases h' with
    | cons h2 _ => exact h.not_walked h2
  | later h _ ih =>
    cases h' with
    | cons h2 hs2 =>
      obtain ⟨-, rfl⟩ := h.unique h2
      exact ih hs2

theorem Failed.unique {v : Region → State → Except Raise Visited} {m n : Nat} {r : Region}
    {s : State} {e e' : Raise} (h : Failed v m r s e) (h' : Failed v n r s e') : e = e' := by
  induction h generalizing n with
  | here h =>
    cases h' with
    | here h2 => rw [h] at h2; cases h2; rfl
    | first h2 _ => rw [h] at h2; cases h2
    | second h2 _ _ => rw [h] at h2; cases h2
  | first h ha ih =>
    cases h' with
    | here h2 => rw [h] at h2; cases h2
    | first h2 ha2 => rw [h] at h2; cases h2; exact ih ha2
    | second h2 ha2 _ => rw [h] at h2; cases h2; exact absurd ha2 (fun w => ha.not_walked w)
  | second h ha hb ih =>
    cases h' with
    | here h2 => rw [h] at h2; cases h2
    | first h2 ha2 => rw [h] at h2; cases h2; exact absurd ha (fun w => ha2.not_walked w)
    | second h2 ha2 hb2 =>
      rw [h] at h2
      cases h2
      obtain ⟨-, rfl⟩ := ha.unique ha2
      exact ih hb2

theorem FailedStripes.unique {n i : Nat} {s : State} {e e' : Raise}
    (h : FailedStripes visit n i s e) (h' : FailedStripes visit n i s e') : e = e' := by
  induction h with
  | here h =>
    cases h' with
    | here h2 => exact h.unique h2
    | later h2 _ => exact absurd h2 (fun w => h.not_walked w)
  | later h _ ih =>
    cases h' with
    | here h2 => exact absurd h (fun w => h2.not_walked w)
    | later h2 hs2 =>
      obtain ⟨-, rfl⟩ := h.unique h2
      exact ih hs2

/-- The walk answers what the recursion over the stripes answers. -/
theorem walk_ok (hv : ∀ i, Blind (visit i)) (s s' : State) (hc : cfgOK s = true)
    (h : WalkedStripes visit s.cfg.nstripe.toNat 0 s s') : walk visit s = .ok (s'.withStack []) := by
  rcases walk_cases visit hv s hc with ⟨s'', h', e⟩ | ⟨_, h', -⟩
  · rw [h.unique h']
    exact e
  · exact absurd h (fun w => h'.not_walked w)

theorem walk_error (hv : ∀ i, Blind (visit i)) (s : State) (e : Raise) (hc : cfgOK s = true)
    (h : FailedStripes visit s.cfg.nstripe.toNat 0 s e) : walk visit s = .error e := by
  rcases walk_cases visit hv s hc with ⟨s'', h', -⟩ | ⟨e', h', he⟩
  · exact absurd h' (fun w => h.not_walked w)
  · rw [h.unique h']
    exact he

theorem walk_eq_ok (hv : ∀ i, Blind (visit i)) (s t : State) (hc : cfgOK s = true)
    (h : walk visit s = .ok t) :
    ∃ s', WalkedStripes visit s.cfg.nstripe.toNat 0 s s' ∧ t = s'.withStack [] := by
  rcases walk_cases visit hv s hc with ⟨s', h', e⟩ | ⟨_, _, e⟩
  · rw [e] at h
    cases h
    exact ⟨s', h', rfl⟩
  · rw [e] at h
    cases h

end

/-! ## ENC_TREE -/

/-- The state an emission of these trees leaves, but for the stack. -/
def emittedAll (s : State) (ts : List WireTree) (w : Writer) : State :=
  (s.withEnc ⟨s.enc.patcur + (forestPattern ts).length,
    s.enc.refcur + (forestRefs ts).length⟩).withWr w

theorem emittedAll_cons (s : State) (t : WireTree) (ts : List WireTree) (w w' : Writer) :
    emittedAll (emitted s t w) ts w' = emittedAll s (t :: ts) w' := by
  simp only [emittedAll, emitted, forestPattern, forestRefs, List.flatMap_cons, List.length_append,
    State.withEnc, State.withWr, Nat.add_assoc]

theorem encStripes_forest (ts : List WireTree) (i : Nat) (s : State) (p' : List Bool) (k' : List Byte)
    (hfit : forestFits s i ts = true)
    (hp : s.ana.pattern.drop s.enc.patcur = forestPattern ts ++ p')
    (hr : s.pal.leafref.drop s.enc.refcur = forestRefs ts ++ k') (hw : writerOK s.wr = true) :
    (∃ w, WalkedStripes encVisit ts.length i s (emittedAll s ts w) ∧
        Wrote s.wbufCap s.wr (forestWire ts) w) ∨
      ∃ k, FailedStripes encVisit ts.length i s ⟨.wbufFull, k, 0⟩ ∧
        Filled s.wbufCap s.wr (forestWire ts) k := by
  induction ts generalizing i s p' k' with
  | nil => exact .inl ⟨s.wr, .nil, .refl hw⟩
  | cons t ts ih =>
    simp only [forestFits, Bool.and_eq_true] at hfit
    simp only [forestPattern, forestRefs, List.flatMap_cons, List.append_assoc] at hp hr
    rcases encVisit_tree i t (stripeRoot s i) s _ _ hfit.1 hp hr hw with ⟨n, w, g1, o1⟩ | ⟨n, k, g1, o1⟩
    · have hf2 : forestFits (emitted s t w) (i + 1) ts = true := by
        rw [forestFits_congr s (emitted s t w) rfl rfl rfl]
        exact hfit.2
      rcases ih (i + 1) (emitted s t w) p' k' hf2 (drop_of_drop_append _ _ _ _ hp)
          (drop_of_drop_append _ _ _ _ hr) o1.ok with ⟨w2, g2, o2⟩ | ⟨k, g2, o2⟩
      · refine .inl ⟨w2, ?_, o1.trans o2⟩
        rw [← emittedAll_cons s t ts w w2]
        exact .cons g1 g2
      · exact .inr ⟨k, .later g1 g2, o1.filled o2⟩
    · exact .inr ⟨k, .here g1, o1.append _⟩

theorem encStripes_sound (n i : Nat) (s s' : State) (hn : i + n = s.cfg.nstripe.toNat)
    (h : WalkedStripes encVisit n i s s') :
    ∃ ts w, forestFits s i ts = true ∧ s' = emittedAll s ts w ∧
      s.ana.pattern.drop s.enc.patcur = forestPattern ts ++ s.ana.pattern.drop s'.enc.patcur ∧
      s.pal.leafref.drop s.enc.refcur = forestRefs ts ++ s.pal.leafref.drop s'.enc.refcur := by
  induction h with
  | @nil i s => exact ⟨[], s.wr, by simpa [forestFits] using hn, rfl, rfl, rfl⟩
  | @cons m n i s s1 s2 h hs ih =>
    obtain ⟨t, w, ft, et, pt, kt⟩ := encVisit_sound _ _ _ _ _ h
    have hn' : i + 1 + n = s1.cfg.nstripe.toNat := by
      rw [et]
      simp only [emitted, withWr_cfg, withEnc_cfg]
      omega
    obtain ⟨ts, w2, ft2, e2, pt2, kt2⟩ := ih hn'
    refine ⟨t :: ts, w2, ?_, ?_, ?_, ?_⟩
    · simp only [forestFits, ft, Bool.true_and]
      rw [← forestFits_congr s s1 (by rw [et]; rfl) (by rw [et]; rfl) (by rw [et]; rfl)]
      exact ft2
    · rw [e2, et, emittedAll_cons]
    · have : s1.ana = s.ana := by rw [et]; rfl
      rw [this] at pt2
      rw [pt, pt2]
      simp [forestPattern]
    · have : s1.pal = s.pal := by rw [et]; rfl
      rw [this] at kt2
      rw [kt, kt2]
      simp [forestRefs]

/-- ENC_TREE's body over a forest that PATTERN and LEAFREF describe (43_encoder.md R173). -/
theorem encTree_of_forest (s : State) (ts : List WireTree) (hc : cfgOK s = true)
    (hw : writerOK s.wr = true) (hfit : forestFits s 0 ts = true)
    (hp : s.ana.pattern = forestPattern ts) (hr : s.pal.leafref = forestRefs ts) :
    (∃ w, encTree s = .ok (((s.withEnc ⟨s.ana.pattern.length, s.pal.leafref.length⟩).withWr w).withStack
        []) ∧ Wrote s.wbufCap s.wr (forestWire ts) w) ∨
      ∃ k, encTree s = .error ⟨.wbufFull, k, 0⟩ ∧ Filled s.wbufCap s.wr (forestWire ts) k := by
  have hc0 : cfgOK (s.withEnc ⟨0, 0⟩) = true := (cfgOK_congr s (s.withEnc ⟨0, 0⟩) rfl rfl rfl).trans hc
  have hlen := forestFits_length s 0 ts hfit
  rw [Nat.zero_add] at hlen
  have hn : ts.length = (s.withEnc ⟨0, 0⟩).cfg.nstripe.toNat := hlen
  have hf0 : forestFits (s.withEnc ⟨0, 0⟩) 0 ts = true := by
    rw [forestFits_congr s (s.withEnc ⟨0, 0⟩) rfl rfl rfl]
    exact hfit
  have hstep : encTree s = (walk encVisit (s.withEnc ⟨0, 0⟩) >>= fun s' =>
      if s'.enc.patcur ≠ s'.ana.pattern.length ∨ s'.enc.refcur ≠ s'.pal.leafref.length then
        .error ⟨.leftover, s'.ana.pattern.length - s'.enc.patcur,
          s'.pal.leafref.length - s'.enc.refcur⟩
      else pure s') := rfl
  rcases encStripes_forest ts 0 (s.withEnc ⟨0, 0⟩) [] [] hf0 (by simp [hp]) (by simp [hr]) hw with
    ⟨w, g, o⟩ | ⟨k, g, o⟩
  · refine .inl ⟨w, ?_, o⟩
    rw [hn] at g
    rw [hstep, walk_ok encVisit_blind _ _ hc0 g, ok_bind]
    simp [emittedAll, State.withEnc, State.withWr, State.withStack, hp, hr]
  · refine .inr ⟨k, ?_, o⟩
    rw [hn] at g
    rw [hstep, walk_error encVisit_blind _ _ hc0 g, error_bind]

/-- ENC_TREE's body succeeds only where PATTERN and LEAFREF describe a forest. -/
theorem encTree_sound (s t : State) (hc : cfgOK s = true) (h : encTree s = .ok t) :
    ∃ ts, forestFits s 0 ts = true ∧ s.ana.pattern = forestPattern ts ∧
      s.pal.leafref = forestRefs ts := by
  have hc0 : cfgOK (s.withEnc ⟨0, 0⟩) = true := (cfgOK_congr s (s.withEnc ⟨0, 0⟩) rfl rfl rfl).trans hc
  obtain ⟨u, h1, h2⟩ := bind_eq_ok _ _ _ h
  obtain ⟨s', g, rfl⟩ := walk_eq_ok encVisit_blind _ _ hc0 h1
  obtain ⟨ts, w, hf, rfl, hp, hr⟩ := encStripes_sound _ _ _ _ (by simp) g
  split at h2
  · cases h2
  · rename_i hne
    simp only [not_or, not_not] at hne
    have e1 : (emittedAll (s.withEnc ⟨0, 0⟩) ts w).enc.patcur = s.ana.pattern.length := hne.1
    have e2 : (emittedAll (s.withEnc ⟨0, 0⟩) ts w).enc.refcur = s.pal.leafref.length := hne.2
    rw [e1] at hp
    rw [e2] at hr
    refine ⟨ts, ?_, ?_, ?_⟩
    · rw [← forestFits_congr s (s.withEnc ⟨0, 0⟩) rfl rfl rfl]
      exact hf
    · simpa using hp
    · simpa using hr

/-! ## DEC_TREE -/

/-- The state a parse of these trees leaves, but for the stack. -/
def parsedAll (s : State) (i : Nat) (ts : List WireTree) : State :=
  (s.withDec ⟨s.dec.jobq ++ jobsFrom s.dec.leaford (forestRegions s i ts) (forestRefs ts),
    s.dec.leaford + (forestRefs ts).length⟩).advance (forestWire ts).length

theorem parsedAll_cons (s : State) (i : Nat) (t : WireTree) (ts : List WireTree)
    (hf : t.fits (stripeRoot s i) = true) :
    parsedAll (parsed s t (stripeRoot s i)) (i + 1) ts = parsedAll s i (t :: ts) := by
  have hr : forestRegions (parsed s t (stripeRoot s i)) (i + 1) ts = forestRegions s (i + 1) ts :=
    forestRegions_congr s (parsed s t (stripeRoot s i)) rfl rfl rfl _ _
  unfold parsedAll
  rw [hr]
  simp only [parsed, forestRegions, forestRefs, forestWire, List.flatMap_cons,
    jobsFrom_append _ _ _ _ _ (t.regions_length _ hf), List.length_append, List.append_assoc,
    State.advance, State.withDec, State.withRd, Nat.add_assoc]

theorem decStripes_forest (ts : List WireTree) (i : Nat) (s : State) (rest : List Bool)
    (hfit : forestFits s i ts = true) (hu : unreadBits s = forestWire ts ++ rest)
    (hr : refsInRange s.pal.palettes s.dec.leaford (forestRefs ts) = true) :
    WalkedStripes decVisit ts.length i s (parsedAll s i ts) := by
  induction ts generalizing i s rest with
  | nil =>
    have : parsedAll s i [] = s := by
      simp [parsedAll, forestRegions, forestRefs, forestWire, jobsFrom, State.withDec]
    rw [this]
    exact .nil
  | cons t ts ih =>
    simp only [forestFits, Bool.and_eq_true] at hfit
    simp only [forestWire, forestRefs, List.flatMap_cons, List.append_assoc] at hu hr
    rw [refsInRange_append, Bool.and_eq_true] at hr
    obtain ⟨⟨n, g1⟩, u1⟩ := decVisit_tree i t (stripeRoot s i) s _ hfit.1 hu hr.1
    have hf2 : forestFits (parsed s t (stripeRoot s i)) (i + 1) ts = true := by
      rw [forestFits_congr s (parsed s t (stripeRoot s i)) rfl rfl rfl]
      exact hfit.2
    have g2 := ih (i + 1) (parsed s t (stripeRoot s i)) rest hf2 u1 hr.2
    rw [parsedAll_cons s i t ts hfit.1] at g2
    exact .cons g1 g2

theorem decStripes_sound (n i : Nat) (s s' : State) (hn : i + n = s.cfg.nstripe.toNat)
    (h : WalkedStripes decVisit n i s s') :
    ∃ ts, forestFits s i ts = true ∧ s' = parsedAll s i ts ∧
      unreadBits s = forestWire ts ++ unreadBits s' ∧
      refsInRange s.pal.palettes s.dec.leaford (forestRefs ts) = true := by
  induction h with
  | @nil i s =>
    refine ⟨[], by simpa [forestFits] using hn, ?_, rfl, rfl⟩
    simp [parsedAll, forestRegions, forestRefs, forestWire, jobsFrom, State.withDec]
  | @cons m n i s s1 s2 h hs ih =>
    obtain ⟨t, ft, et, ut, kt⟩ := decVisit_sound _ _ _ _ _ h
    have hn' : i + 1 + n = s1.cfg.nstripe.toNat := by
      rw [et]
      simp only [parsed, State.advance, withRd_cfg, withDec_cfg]
      omega
    obtain ⟨ts, ft2, e2, ut2, kt2⟩ := ih hn'
    refine ⟨t :: ts, ?_, ?_, ?_, ?_⟩
    · simp only [forestFits, ft, Bool.true_and]
      rw [← forestFits_congr s s1 (by rw [et]; rfl) (by rw [et]; rfl) (by rw [et]; rfl)]
      exact ft2
    · rw [e2, et, parsedAll_cons _ _ _ _ ft]
    · rw [ut, ut2]
      simp [forestWire]
    · simp only [forestRefs, List.flatMap_cons]
      rw [refsInRange_append, kt, Bool.true_and]
      rw [et] at kt2
      exact kt2

/-- DEC_TREE's body over a stream that goes on with a forest's tokens (44_decoder.md R188). -/
theorem decTree_of_forest (s : State) (ts : List WireTree) (rest : List Bool) (hc : cfgOK s = true)
    (hfit : forestFits s 0 ts = true) (hu : unreadBits s = forestWire ts ++ rest)
    (hr : refsInRange s.pal.palettes 0 (forestRefs ts) = true) :
    decTree s = .ok (((s.withDec ⟨jobsFrom 0 (forestRegions s 0 ts) (forestRefs ts),
      (forestRefs ts).length⟩).advance (forestWire ts).length).withStack []) := by
  have hc0 : cfgOK (s.withDec ⟨[], 0⟩) = true := (cfgOK_congr s (s.withDec ⟨[], 0⟩) rfl rfl rfl).trans hc
  have hlen := forestFits_length s 0 ts hfit
  rw [Nat.zero_add] at hlen
  have hf0 : forestFits (s.withDec ⟨[], 0⟩) 0 ts = true := by
    rw [forestFits_congr s (s.withDec ⟨[], 0⟩) rfl rfl rfl]
    exact hfit
  have g := decStripes_forest ts 0 (s.withDec ⟨[], 0⟩) rest hf0 hu hr
  rw [hlen] at g
  have : decTree s = walk decVisit (s.withDec ⟨[], 0⟩) := rfl
  rw [this, walk_ok decVisit_blind _ _ hc0 g]
  have hreg : forestRegions (s.withDec ⟨[], 0⟩) 0 ts = forestRegions s 0 ts :=
    forestRegions_congr s (s.withDec ⟨[], 0⟩) rfl rfl rfl _ _
  simp only [parsedAll, hreg]
  simp [State.withDec, State.advance, State.withRd, State.withStack]

/-- DEC_TREE's body succeeds only on a forest's tokens. -/
theorem decTree_sound (s t : State) (hc : cfgOK s = true) (h : decTree s = .ok t) :
    ∃ ts rest, forestFits s 0 ts = true ∧ unreadBits s = forestWire ts ++ rest ∧
      refsInRange s.pal.palettes 0 (forestRefs ts) = true := by
  have hc0 : cfgOK (s.withDec ⟨[], 0⟩) = true := (cfgOK_congr s (s.withDec ⟨[], 0⟩) rfl rfl rfl).trans hc
  obtain ⟨s', g, -⟩ := walk_eq_ok decVisit_blind _ _ hc0 h
  obtain ⟨ts, hf, -, hu, hr⟩ := decStripes_sound _ _ _ _ (by simp) g
  refine ⟨ts, _, ?_, hu, hr⟩
  rw [← forestFits_congr s (s.withDec ⟨[], 0⟩) rfl rfl rfl]
  exact hf

/-! ## ANALYZE -/

theorem Analyzed.congr {s t : State} {r : Region} {p : List Bool} {c : List Color}
    (h : Analyzed t r p c) (hc : ∀ r, classify Config.luma t r = classify Config.luma s r)
    (ha : ∀ r, avgColor t r = avgColor s r) : Analyzed s r p c := by
  induction h with
  | leaf h =>
    rw [ha]
    rw [hc] at h
    exact .leaf h
  | node h _ _ iha ihb =>
    rw [hc] at h
    exact .node h iha ihb

theorem AnalyzedStripes.withAna {s : State} {a : Analysis} {n i : Nat} {p : List Bool}
    {c : List Color} (h : AnalyzedStripes (s.withAna a) n i p c) : AnalyzedStripes s n i p c := by
  induction h with
  | nil => exact .nil
  | cons h _ ih => exact .cons h.withAna ih

theorem analyzeStripes_sound (n i : Nat) (s s' : State)
    (h : WalkedStripes (analyzeVisit Config.luma) n i s s') :
    ∃ p c, AnalyzedStripes s n i p c ∧
      s' = s.withAna ⟨s.ana.pattern ++ p, s.ana.leafcolor ++ c⟩ := by
  induction h with
  | nil => exact ⟨[], [], .nil, by simp [State.withAna]⟩
  | @cons m n i s s1 s2 h hs ih =>
    obtain ⟨p, c, h1, e1⟩ := analyzeVisit_sound _ _ _ _ _ h
    subst e1
    obtain ⟨ps, cs, h2, e2⟩ := ih
    exact ⟨p ++ ps, c ++ cs, .cons h1 h2.withAna, by rw [e2]; simp [State.withAna]⟩

/-- ANALYZE's body never faults and gives the recursion's pattern and leaf colours
(41_classifier.md R150). -/
theorem analyze_ok (s : State) (hc : cfgOK s = true) :
    ∃ p c, AnalyzedStripes s s.cfg.nstripe.toNat 0 p c ∧
      analyze Config.luma s = .ok ((s.withAna ⟨p, c⟩).withStack []) := by
  have hc0 : cfgOK (s.withAna ⟨[], []⟩) = true := (cfgOK_congr s (s.withAna ⟨[], []⟩) rfl rfl rfl).trans hc
  have hdef : analyze Config.luma s = walk (analyzeVisit Config.luma) (s.withAna ⟨[], []⟩) := rfl
  rcases walk_cases _ (analyzeVisit_blind Config.luma) _ hc0 with ⟨s', g, e⟩ | ⟨r, g, -⟩
  · obtain ⟨p, c, h1, rfl⟩ := analyzeStripes_sound _ _ _ _ g
    exact ⟨p, c, h1.withAna, by rw [hdef, e]; rfl⟩
  · exfalso
    have : ∀ {n i : Nat} {s : State} {e : Raise},
        FailedStripes (analyzeVisit Config.luma) n i s e → False := by
      intro n i s e h
      induction h with
      | here h => exact analyzeVisit_not_failed _ _ _ _ _ _ h
      | later _ _ ih => exact ih
    exact this g

/-- The analysed pattern is that of a forest that fits, with any references to its leaves. -/
theorem AnalyzedStripes.forest {s : State} {n i : Nat} {p : List Bool} {c : List Color}
    (h : AnalyzedStripes s n i p c) (hn : i + n = s.cfg.nstripe.toNat) (refs : List Byte)
    (hl : refs.length = c.length) :
    ∃ ts, forestFits s i ts = true ∧ forestPattern ts = p ∧ forestRefs ts = refs ∧
      c = (forestRegions s i ts).map (avgColor s) := by
  induction h generalizing refs with
  | nil =>
    obtain rfl : refs = [] := List.length_eq_zero_iff.mp hl
    exact ⟨[], by simpa [forestFits] using hn, rfl, rfl, rfl⟩
  | @cons n i p ps c cs h hs ih =>
    rw [List.length_append] at hl
    obtain ⟨t, f1, p1, k1, c1⟩ := h.tree (refs.take c.length) (by simp; omega)
    obtain ⟨ts, f2, p2, k2, c2⟩ := ih (by omega) (refs.drop c.length) (by simp; omega)
    refine ⟨t :: ts, by simp [forestFits, f1, f2], ?_, ?_, ?_⟩
    · simp [forestPattern, p1]
      simpa [forestPattern] using p2
    · have e2 : ts.flatMap WireTree.refs = refs.drop c.length := k2
      simp [forestRefs, k1, e2]
    · simp only [forestRegions, List.map_append, ← c1, ← c2]

/-- The counts of 41_classifier.md R150: NPAT + NSTRIPE = 2*NLEAF. -/
theorem AnalyzedStripes.counts {s : State} {n i : Nat} {p : List Bool} {c : List Color}
    (h : AnalyzedStripes s n i p c) : p.length + n = 2 * c.length := by
  have one : ∀ {r : Region} {p : List Bool} {c : List Color}, Analyzed s r p c →
      p.length + 1 = 2 * c.length := by
    intro r p c h
    induction h with
    | leaf h => rfl
    | node h _ _ iha ihb =>
      simp only [List.length_cons, List.length_append]
      omega
  induction h with
  | nil => rfl
  | cons h _ ih =>
    have := one h
    simp only [List.length_append]
    omega

end Sys2Proof.Machine
end

