-- ==== Sys2Proof/Laws/Encode.lean ====
section
/-! SUPPORT. The body of ENCODE, part by part (43_encoder.md R174): the analysis and the palettes,
which never fail; the table, the trees and the flush. -/

namespace Sys2Proof.Machine

/-- What ENCODE does after its palettes are built. -/
def emitAll (s : State) : Except Raise State :=
  encPaltab s >>= fun s1 => encTree s1 >>= onWriter flush

/-- The table is a whole number of bytes (20_memory.md R64). -/
theorem tableWire_length_mod (ps : List (List Color)) (h : tableFits ps = true) :
    (tableWire ps).length % 8 = 0 := by
  rw [tableWire_eq ps h]
  have := palettesWire_length_mod ps
  simp
  omega

/-- A flushed writer is whole bytes. -/
theorem flushed_bytes (w : Writer) (h0 : w.wnb = 0) (hw : writerOK w = true) :
    w = ⟨w.wbuf, 0, 0⟩ ∧ writerBits w = bytesToBits w.wbuf := by
  obtain ⟨wb, wa, wn⟩ := w
  simp only at h0
  subst h0
  have : wa = 0 := by
    simp [writerOK] at hw
    apply BitVec.eq_of_toNat_eq
    have := wa.isLt
    simp at this ⊢
    omega
  subst this
  exact ⟨rfl, by simp [writerBits]⟩

/-- The table of palettes that fit, the trees' tokens and the flush, from the empty writer. -/
theorem emitAll_fits (m : State) (ts : List WireTree) (hc : cfgOK m = true) (hm : m.wr = emptyWriter)
    (hf : tableFits m.pal.palettes = true) (hfit : forestFits m 0 ts = true)
    (hp : m.ana.pattern = forestPattern ts) (hr : m.pal.leafref = forestRefs ts) :
    (∃ w1 w2 bytes, encPaltab m = .ok (m.withWr w1) ∧
        encTree (m.withWr w1) =
          .ok (((m.withEnc ⟨m.ana.pattern.length, m.pal.leafref.length⟩).withWr w2).withStack []) ∧
        flush m.wbufCap w2 = .ok ⟨bytes, 0, 0⟩ ∧
        bytesToBits bytes = tableWire m.pal.palettes ++ forestWire ts ++
          List.replicate ((8 - (forestWire ts).length % 8) % 8) false ∧
        emitAll m = .ok (((m.withEnc ⟨m.ana.pattern.length, m.pal.leafref.length⟩).withWr
          ⟨bytes, 0, 0⟩).withStack [])) ∨
      ∃ c, m.wbufCap = some c ∧ emitAll m = .error ⟨.wbufFull, c, 0⟩ := by
  have hlen : m.wr.wbuf.length = 0 := by rw [hm]; rfl
  have hw0 : writerOK m.wr = true := by rw [hm]; rfl
  rcases emits_putPaltab _ hf m.wbufCap m.wr hw0 with ⟨w1, a1, a2⟩ | ⟨k, a1, a2⟩
  swap
  · obtain ⟨c, hcap⟩ := a2.bounded
    refine .inr ⟨c, hcap, ?_⟩
    rw [emitAll, show encPaltab m = _ from onWriter_error _ _ _ a1, error_bind,
      a2.atCap c hcap (by omega)]
  have b1 : encPaltab m = .ok (m.withWr w1) := onWriter_ok _ _ _ a1
  have hc1 : cfgOK (m.withWr w1) = true :=
    (cfgOK_congr m (m.withWr w1) rfl rfl rfl).trans hc
  have hfit1 : forestFits (m.withWr w1) 0 ts = true :=
    (forestFits_congr m (m.withWr w1) rfl rfl rfl 0 ts).trans hfit
  rcases encTree_of_forest (m.withWr w1) ts hc1 (by simpa using a2.ok) hfit1 (by simpa using hp)
    (by simpa using hr) with ⟨w2, c1, c2⟩ | ⟨k, c1, c2⟩
  swap
  · obtain ⟨c, hcap⟩ := c2.bounded
    refine .inr ⟨c, by simpa using hcap, ?_⟩
    rw [emitAll, b1, ok_bind, c1, error_bind,
      c2.atCap c hcap (a2.within c (by simpa using hcap) (by omega))]
  have c1' : encTree (m.withWr w1) =
      .ok (((m.withEnc ⟨m.ana.pattern.length, m.pal.leafref.length⟩).withWr w2).withStack []) := c1
  rcases flush_cases m.wbufCap w2 c2.ok with ⟨w3, d1, d2, d3, d4, -⟩ | ⟨d1, d2, d3⟩
  · obtain ⟨e1, e2⟩ := flushed_bytes w3 d2 d3
    rw [e1] at d1
    refine .inl ⟨w1, w2, w3.wbuf, b1, c1', d1, ?_, ?_⟩
    · have f1 : writerBits w2 = tableWire m.pal.palettes ++ forestWire ts := by
        have h0 : writerBits m.wr = [] := by rw [hm]; rfl
        have := c2.bits
        rw [withWr_wr, a2.bits, h0] at this
        simpa using this
      rw [← e2, d4, f1]
      congr 2
      have l1 := congrArg List.length f1
      have l2 := tableWire_length_mod _ hf
      have l3 : w2.wnb.toNat < 8 := w2.wnb.isLt
      rw [writerBits_length, List.length_append] at l1
      omega
    · rw [emitAll, b1, ok_bind, c1', ok_bind, onWriter_ok _ _ _ (by simpa using d1)]
      rfl
  · cases hcap : m.wbufCap with
    | none => simp [hcap, wbufIsFull] at d3
    | some c =>
      have hle : w2.wbuf.length ≤ c :=
        c2.within c (by simpa using hcap) (a2.within c hcap (by omega))
      have hge : c ≤ w2.wbuf.length := by simpa [hcap, wbufIsFull] using d3
      refine .inr ⟨c, rfl, ?_⟩
      rw [emitAll, b1, ok_bind, c1', ok_bind, show c = w2.wbuf.length by omega]
      exact onWriter_error _ _ _ (by simpa using d1)

/-- A palette of more than 255 entries stops the table at the first such, once the palettes before it
are written; or WBUF is full before. -/
theorem putPalettes_tooBig (cap : Option Nat) (ps : List (List Color)) (k p : Nat) (cs : List Color)
    (w : Writer) (hw : writerOK w = true) (hp : ps[p]? = some cs) (hc : 255 < cs.length)
    (hq : ∀ q ds, q < p → ps[q]? = some ds → ds.length ≤ 255) :
    (putPalettes cap k ps w = .error ⟨.palSizeUnrepresentable, k + p, cs.length⟩ ∧
        ∃ w', Wrote cap w (palettesWire (ps.take p)) w') ∨
      ∃ j, putPalettes cap k ps w = .error ⟨.wbufFull, j, 0⟩ ∧
        Filled cap w (palettesWire (ps.take p)) j := by
  induction ps generalizing k p w with
  | nil => simp at hp
  | cons d ps ih =>
    cases p with
    | zero =>
      simp only [List.getElem?_cons_zero, Option.some.injEq] at hp
      subst hp
      exact .inl ⟨by simp [putPalettes, hc], w, .refl hw⟩
    | succ p =>
      have hd := hq 0 d (by omega) (by simp)
      have e : putPalettes cap k (d :: ps) w =
          ((putbits cap d.length 8 w >>= putColors cap d) >>= putPalettes cap (k + 1) ps) := by
        simp only [putPalettes, show ¬ 255 < d.length by omega, if_false]
        cases putbits cap d.length 8 w <;> rfl
      rw [List.take_succ_cons, palettesWire_cons, palSize_wire _ hd]
      have key := (emits_putbits d.length 8).bind (emits_putColors d) cap w hw
      rcases key with ⟨w', h1, h2⟩ | ⟨j, h1, h2⟩ <;> dsimp only at h1
      · rw [e, h1, ok_bind, show k + (p + 1) = k + 1 + p by omega]
        rcases ih (k + 1) p w' h2.ok (by simpa using hp)
          (fun q ds h h' => hq (q + 1) ds (by omega) (by simpa using h')) with
          ⟨h3, w2, o⟩ | ⟨j, h3, o⟩
        · exact .inl ⟨h3, w2, h2.trans o⟩
        · exact .inr ⟨j, h3, h2.filled o⟩
      · rw [e, h1, error_bind]
        exact .inr ⟨j, rfl, h2.append _⟩

/-- The same of the whole table, whose count comes first. -/
theorem putPaltab_tooBig (cap : Option Nat) (ps : List (List Color)) (p : Nat) (cs : List Color)
    (w : Writer) (hw : writerOK w = true) (hn : ps.length ≤ 65535) (hp : ps[p]? = some cs)
    (hc : 255 < cs.length) (hq : ∀ q ds, q < p → ps[q]? = some ds → ds.length ≤ 255) :
    (putPaltab ps cap w = .error ⟨.palSizeUnrepresentable, p, cs.length⟩ ∧
        ∃ w', Wrote cap w (natToBits 16 ps.length ++ palettesWire (ps.take p)) w') ∨
      ∃ j, putPaltab ps cap w = .error ⟨.wbufFull, j, 0⟩ ∧
        Filled cap w (natToBits 16 ps.length ++ palettesWire (ps.take p)) j := by
  simp only [putPaltab, show ¬ 65535 < ps.length by omega, if_false]
  rcases emits_putbits ps.length 16 cap w hw with ⟨w', g1, g2⟩ | ⟨j, g1, g2⟩ <;> dsimp only at g1
  · rw [g1, ok_bind]
    rcases putPalettes_tooBig cap ps 0 p cs w' g2.ok hp hc hq with ⟨h, w2, o⟩ | ⟨j, h, o⟩
    · exact .inl ⟨by simpa using h, w2, g2.trans o⟩
    · exact .inr ⟨j, h, g2.filled o⟩
  · rw [g1, error_bind]
    exact .inr ⟨j, rfl, g2.append _⟩

/-- A list with a long member has a first one. -/
theorem exists_first_long (ps : List (List Color)) (h : ¬ ∀ cs ∈ ps, cs.length ≤ 255) :
    ∃ (p : Nat) (cs : List Color), ps[p]? = some cs ∧ 255 < cs.length ∧
      ∀ (q : Nat) (ds : List Color), q < p → ps[q]? = some ds → ds.length ≤ 255 := by
  induction ps with
  | nil => exact absurd (by simp) h
  | cons d ps ih =>
    by_cases hd : d.length ≤ 255
    · obtain ⟨p, cs, h1, h2, h3⟩ := ih (fun hall => h (by simpa [hd] using hall))
      refine ⟨p + 1, cs, h1, h2, ?_⟩
      intro q ds hq hds
      cases q with
      | zero => simp only [List.getElem?_cons_zero, Option.some.injEq] at hds; rwa [← hds]
      | succ q => exact h3 q ds (by omega) (by simpa using hds)
    · exact ⟨0, d, rfl, Nat.lt_of_not_le hd, fun q ds hq => absurd hq (Nat.not_lt_zero q)⟩

/-- The table of palettes that do not fit, from the empty writer. -/
theorem putPaltab_unfit (ps : List (List Color)) (cap : Option Nat) (hf : tableFits ps = false) :
    (65535 < ps.length ∧ putPaltab ps cap emptyWriter = .error ⟨.palCountOverflow, ps.length, 0⟩) ∨
    (ps.length ≤ 65535 ∧ ∃ p cs, ps[p]? = some cs ∧ 255 < cs.length ∧
      (∀ q ds, q < p → ps[q]? = some ds → ds.length ≤ 255) ∧
      putPaltab ps cap emptyWriter = .error ⟨.palSizeUnrepresentable, p, cs.length⟩) ∨
    ∃ c, cap = some c ∧ putPaltab ps cap emptyWriter = .error ⟨.wbufFull, c, 0⟩ := by
  by_cases hn : 65535 < ps.length
  · exact .inl ⟨hn, by simp [putPaltab, hn]⟩
  · have hn' : ps.length ≤ 65535 := by omega
    right
    have hall : ¬ ∀ cs ∈ ps, cs.length ≤ 255 := by
      intro hall
      have : tableFits ps = true := by simp [tableFits, hn']; exact hall
      rw [hf] at this
      cases this
    obtain ⟨p, cs, h1, h2, h3⟩ := exists_first_long ps hall
    rcases putPaltab_tooBig cap ps p cs emptyWriter rfl hn' h1 h2 h3 with ⟨h, -⟩ | ⟨j, h, o⟩
    · exact .inl ⟨hn', p, cs, h1, h2, h3, h⟩
    · obtain ⟨c, hcap⟩ := o.bounded
      rw [o.atCap c hcap (Nat.zero_le c)] at h
      exact .inr ⟨c, hcap, h⟩

/-- The state in which ENCODE starts to write. -/
def encodeMid (s : State) (p : List Bool) (c : List Color) (pal : Palettes) : State :=
  (((s.withAna ⟨p, c⟩).withStack []).withPal pal).withWr emptyWriter

/-- ENCODE analyses, builds the palettes, and writes. -/
theorem encodeBody_mid (s : State) (hc : cfgOK s = true) :
    ∃ p c pal, AnalyzedStripes s s.cfg.nstripe.toNat 0 p c ∧
      palPushAll s.cfg.colortol.toNat c ⟨[], []⟩ = .ok pal ∧ Built s.cfg.colortol.toNat c pal ∧
      analyze Config.luma s = .ok ((s.withAna ⟨p, c⟩).withStack []) ∧
      palBuild ((s.withAna ⟨p, c⟩).withStack []) =
        .ok (((s.withAna ⟨p, c⟩).withStack []).withPal pal) ∧
      cfgOK (encodeMid s p c pal) = true ∧
      encodeBody Config.luma s = emitAll (encodeMid s p c pal) := by
  obtain ⟨p, c, h1, h2⟩ := analyze_ok s hc
  obtain ⟨pal, h3, h4⟩ := palPushAll_built s.cfg.colortol.toNat c [] ⟨[], []⟩ (built_nil _)
  have h5 : palBuild ((s.withAna ⟨p, c⟩).withStack []) =
      .ok (((s.withAna ⟨p, c⟩).withStack []).withPal pal) := by
    have e : palBuild ((s.withAna ⟨p, c⟩).withStack []) =
        (palPushAll s.cfg.colortol.toNat c ⟨[], []⟩ >>= fun q =>
          pure (((s.withAna ⟨p, c⟩).withStack []).withPal q)) := rfl
    rw [e, h3, ok_bind, pure_eq_ok]
  refine ⟨p, c, pal, h1, h3, by simpa using h4, h2, h5,
    (cfgOK_congr s (encodeMid s p c pal) rfl rfl rfl).trans hc, ?_⟩
  rw [encodeBody, h2, ok_bind, h5, ok_bind]
  rfl

end Sys2Proof.Machine
end

