-- ==== Sys2Proof/Laws/Exec.lean ====
section
/-! SUPPORT. Every command as an instance of the one shape of a command (30_encoding.md R105), so that a
proof about a command rewrites with its line here and cites the lemmas of Laws/Command.lean. -/

namespace Sys2Proof.Machine

variable (s : State)

theorem exec_nop : exec .nop s =
    runCommand noNeeds noChecks .ok id s := rfl

theorem exec_bwInit : exec .bwInit s =
    runCommand noNeeds noChecks (fun s => .ok (s.withWr emptyWriter)) id s := rfl

theorem exec_putbit : exec .putbit s =
    runCommand noNeeds checkPutbit
      (fun s => onWriter (fun cap => putbit cap (decide (arg0 s = 1))) s) freeWriter s := rfl

theorem exec_putbits : exec .putbits s =
    runCommand noNeeds checkPutbits
      (fun s => onWriter (fun cap => putbits cap (arg0 s) (arg1 s)) s) freeWriter s := rfl

theorem exec_bwFlush : exec .bwFlush s =
    runCommand noNeeds noChecks (onWriter flush) freeWriter s := rfl

theorem exec_brInit : exec .brInit s =
    runCommand noNeeds noChecks (fun s => .ok (brInit (arg0 s) s)) id s := rfl

theorem exec_getbit : exec .getbit s =
    runCommand noNeeds noChecks
      (fun s =>
        match getbit s with
        | none => .error ⟨.streamExhausted, s.rd.rpos, 1⟩
        | some (b, s') => .ok (setRes0 s' b.toNat))
      (freeRes0 ∘ freePosition) s := rfl

theorem exec_getbits : exec .getbits s =
    runCommand noNeeds checkGetbits
      (fun s =>
        match getbits (arg0 s) s with
        | none => .error ⟨.streamExhausted, s.rd.rpos, arg0 s⟩
        | some (v, s') => .ok (setRes0 s' v))
      (freeRes0 ∘ freePosition) s := rfl

theorem exec_splitgeom : exec .splitgeom s =
    runCommand noNeeds checkSplitgeom
      (fun s =>
        let d := splitGeom (arg0 s) (arg1 s)
        .ok (setRes012 s (divisionKind d) (divisionFirst d) (divisionSecond d)))
      id s := rfl

theorem exec_classify : exec .classify s =
    runCommand imgOK checkClassify
      (fun s =>
        let c := classify Config.luma s (argRegion s)
        .ok (setRes0123 s (divisionKind c.1) (divisionFirst c.1) (divisionSecond c.1) c.2))
      id s := rfl

theorem exec_avgcolor : exec .avgcolor s =
    runCommand imgOK checkAvgcolor
      (fun s => .ok (setRes0 s (packColor (avgColor s (argRegion s))))) id s := rfl

theorem exec_analyze : exec .analyze s =
    runCommand cfgOK noChecks
      (fun s => do
        let s' ← analyze Config.luma s
        pure (setRes01 s' s'.ana.leafcolor.length s'.ana.pattern.length))
      (freeRes01 ∘ freeWalk ∘ freeAnalysis) s := rfl

theorem exec_palInit : exec .palInit s =
    runCommand noNeeds noChecks (fun s => .ok (palInit s)) id s := rfl

theorem exec_palPush : exec .palPush s =
    runCommand noNeeds checkPalPush
      (fun s => do
        let r ← palPush s.cfg.colortol.toNat (unpackColor (arg0 s)) s.pal
        pure (setRes012 (s.withPal r.pal) r.g r.j r.isNew))
      (freeRes012 ∘ freePaletteTable ∘ freeReferences) s := rfl

theorem exec_palBuild : exec .palBuild s =
    runCommand noNeeds noChecks
      (fun s => do
        let s' ← palBuild s
        pure (setRes0 s' s'.pal.palettes.length))
      (freeRes0 ∘ freePaletteTable ∘ freeReferences) s := rfl

theorem exec_encPaltab : exec .encPaltab s =
    runCommand noNeeds noChecks encPaltab freeWriter s := rfl

theorem exec_encTree : exec .encTree s =
    runCommand cfgOK noChecks encTree (freeWalk ∘ freeCursors ∘ freeWriter) s := rfl

theorem exec_encode : exec .encode s =
    runCommand cfgOK noChecks
      (fun s => do
        let s' ← encodeBody Config.luma s
        pure (setRes0 s' s'.wr.wbuf.length))
      (freeRes0 ∘ freeWalk ∘ freeCursors ∘ freeWriter ∘ freePaletteTable ∘ freeReferences ∘
        freeAnalysis) s := rfl

theorem exec_decPaltab : exec .decPaltab s =
    runCommand noNeeds noChecks
      (fun s => do
        let s' ← decPaltab s
        pure (setRes0 s' s'.pal.palettes.length))
      freeDecPaltab s := rfl

theorem exec_decTree : exec .decTree s =
    runCommand cfgOK noChecks
      (fun s => do
        let s' ← decTree s
        pure (setRes0 s' s'.dec.jobq.length))
      freeDecTree s := rfl

theorem exec_decode : exec .decode s =
    runCommand cfgOK noChecks
      (fun s => do
        let s1 ← decPaltab (brInit (arg0 s) s)
        let s2 ← decTree s1
        pure (setRes01 s2 s2.dec.jobq.length s2.rd.rpos))
      (freeRes01 ∘ freeLength ∘ freePosition ∘ freePaletteTable ∘ freeWalk ∘ freeJobs) s := rfl

theorem exec_reset : exec .reset s = .next (softReset s) := rfl

/-! ## Body faults -/

/-- Of the state, `freed` changes only the parts `ps`. -/
def Frees (freed : State → State) (ps : List Part) : Prop :=
  ∀ s, HostSideKept s (freed s) ∧ (freed s).res.r3 = s.res.r3 ∧ ∀ p, p ∉ ps → p.same s (freed s)

theorem Part.same_trans {s t u : State} (p : Part) (h : p.same s t) (h' : p.same t u) :
    p.same s u := by
  cases p <;> exact Eq.trans h' h

theorem HostSideKept.trans {s t u : State} (h : HostSideKept s t) (h' : HostSideKept t u) :
    HostSideKept s u := by
  obtain ⟨a1, a2, a3, a4, a5, a6, a7, a8⟩ := h
  obtain ⟨b1, b2, b3, b4, b5, b6, b7, b8⟩ := h'
  exact ⟨b1.trans a1, b2.trans a2, b3.trans a3, b4.trans a4, b5.trans a5,
    fun x y => (b6 x y).trans (a6 x y), fun i => (b7 i).trans (a7 i), fun a => (b8 a).trans (a8 a)⟩

/-- Freeing some parts and then others frees them all. -/
theorem Frees.comp {f g : State → State} {ps qs : List Part} (hf : Frees f ps) (hg : Frees g qs) :
    Frees (f ∘ g) (ps ++ qs) := by
  intro s
  obtain ⟨f1, f2, f3⟩ := hf (g s)
  obtain ⟨g1, g2, g3⟩ := hg s
  refine ⟨g1.trans f1, f2.trans g2, fun p hp => ?_⟩
  rw [List.mem_append, not_or] at hp
  exact p.same_trans (g3 p hp.2) (f3 p hp.1)

theorem Frees.mono {f : State → State} {ps qs : List Part} (hf : Frees f ps) (h : ps ⊆ qs) :
    Frees f qs :=
  fun s => ⟨(hf s).1, (hf s).2.1, fun p hp => (hf s).2.2 p fun hm => hp (h hm)⟩

theorem frees_res0 : Frees freeRes0 [.res0] :=
  fun s => ⟨⟨rfl, rfl, rfl, rfl, rfl, fun _ _ => rfl, fun _ => rfl, fun _ => rfl⟩, rfl,
    fun p hp => by cases p <;> first | exact absurd (by decide) hp | rfl⟩

theorem frees_res01 : Frees freeRes01 [.res0, .res1] :=
  fun s => ⟨⟨rfl, rfl, rfl, rfl, rfl, fun _ _ => rfl, fun _ => rfl, fun _ => rfl⟩, rfl,
    fun p hp => by cases p <;> first | exact absurd (by decide) hp | rfl⟩

theorem frees_res012 : Frees freeRes012 [.res0, .res1, .res2] :=
  fun s => ⟨⟨rfl, rfl, rfl, rfl, rfl, fun _ _ => rfl, fun _ => rfl, fun _ => rfl⟩, rfl,
    fun p hp => by cases p <;> first | exact absurd (by decide) hp | rfl⟩

theorem frees_writer : Frees freeWriter [.writer] :=
  fun s => ⟨⟨rfl, rfl, rfl, rfl, rfl, fun _ _ => rfl, fun _ => rfl, fun _ => rfl⟩, rfl,
    fun p hp => by cases p <;> first | exact absurd (by decide) hp | rfl⟩

theorem frees_position : Frees freePosition [.rpos] :=
  fun s => ⟨⟨rfl, rfl, rfl, rfl, rfl, fun _ _ => rfl, fun _ => rfl, fun _ => rfl⟩, rfl,
    fun p hp => by cases p <;> first | exact absurd (by decide) hp | rfl⟩

theorem frees_length : Frees freeLength [.rlen] :=
  fun s => ⟨⟨rfl, rfl, rfl, rfl, rfl, fun _ _ => rfl, fun _ => rfl, fun _ => rfl⟩, rfl,
    fun p hp => by cases p <;> first | exact absurd (by decide) hp | rfl⟩

theorem frees_analysis : Frees freeAnalysis [.analysis] :=
  fun s => ⟨⟨rfl, rfl, rfl, rfl, rfl, fun _ _ => rfl, fun _ => rfl, fun _ => rfl⟩, rfl,
    fun p hp => by cases p <;> first | exact absurd (by decide) hp | rfl⟩

theorem frees_paletteTable : Frees freePaletteTable [.palettes] :=
  fun s => ⟨⟨rfl, rfl, rfl, rfl, rfl, fun _ _ => rfl, fun _ => rfl, fun _ => rfl⟩, rfl,
    fun p hp => by cases p <;> first | exact absurd (by decide) hp | rfl⟩

theorem frees_references : Frees freeReferences [.leafref] :=
  fun s => ⟨⟨rfl, rfl, rfl, rfl, rfl, fun _ _ => rfl, fun _ => rfl, fun _ => rfl⟩, rfl,
    fun p hp => by cases p <;> first | exact absurd (by decide) hp | rfl⟩

theorem frees_cursors : Frees freeCursors [.cursors] :=
  fun s => ⟨⟨rfl, rfl, rfl, rfl, rfl, fun _ _ => rfl, fun _ => rfl, fun _ => rfl⟩, rfl,
    fun p hp => by cases p <;> first | exact absurd (by decide) hp | rfl⟩

theorem frees_jobs : Frees freeJobs [.jobs] :=
  fun s => ⟨⟨rfl, rfl, rfl, rfl, rfl, fun _ _ => rfl, fun _ => rfl, fun _ => rfl⟩, rfl,
    fun p hp => by cases p <;> first | exact absurd (by decide) hp | rfl⟩

theorem frees_walk : Frees freeWalk [.stack] :=
  fun s => ⟨⟨rfl, rfl, rfl, rfl, rfl, fun _ _ => rfl, fun _ => rfl, fun _ => rfl⟩, rfl,
    fun p hp => by cases p <;> first | exact absurd (by decide) hp | rfl⟩

/-! What each instruction with body faults frees is what its rule lists as written. -/

theorem frees_getbit : Frees (freeRes0 ∘ freePosition) (writesOf .getbit) :=
  (frees_res0.comp frees_position).mono (by decide)

theorem frees_palPush :
    Frees (freeRes012 ∘ freePaletteTable ∘ freeReferences) (writesOf .palPush) :=
  (frees_res012.comp (frees_paletteTable.comp frees_references)).mono (by decide)

theorem frees_encTree : Frees (freeWalk ∘ freeCursors ∘ freeWriter) (writesOf .encTree) :=
  (frees_walk.comp (frees_cursors.comp frees_writer)).mono (by decide)

theorem frees_encode :
    Frees (freeRes0 ∘ freeWalk ∘ freeCursors ∘ freeWriter ∘ freePaletteTable ∘ freeReferences ∘
      freeAnalysis) (writesOf .encode) :=
  (frees_res0.comp (frees_walk.comp (frees_cursors.comp (frees_writer.comp
    (frees_paletteTable.comp (frees_references.comp frees_analysis)))))).mono (by decide)

theorem frees_decPaltab : Frees freeDecPaltab (writesOf .decPaltab) :=
  (frees_res0.comp (frees_position.comp frees_paletteTable)).mono (by decide)

theorem frees_decTree : Frees freeDecTree (writesOf .decTree) :=
  (frees_res0.comp (frees_position.comp (frees_walk.comp frees_jobs))).mono (by decide)

theorem frees_decode :
    Frees (freeRes01 ∘ freeLength ∘ freePosition ∘ freePaletteTable ∘ freeWalk ∘ freeJobs)
      (writesOf .decode) :=
  (frees_res01.comp (frees_length.comp (frees_position.comp (frees_paletteTable.comp
    (frees_walk.comp frees_jobs))))).mono (by decide)

/-- An instruction that answers the fault of a body faults with that cause and information, and
changes only what it frees (60_exceptions.md R225). -/
theorem faults_of_bodyFault {i : Instr} {freed : State → State} {s : State} {r : Raise}
    (hk : Frees freed (writesOf i)) (he : exec i s = .next (bodyFault freed r s)) :
    Faults i s (causeCode r.cause) r.info0 r.info1 :=
  ⟨_, he, rfl, rfl, (hk s).1, (hk s).2.1, fun p hp => by cases p <;> exact (hk s).2.2 _ hp⟩

/-- A command whose body raises faults with that cause and information. -/
theorem faults_of {i : Instr} {needs : State → Bool} {operands : State → Option Raise}
    {body : State → Except Raise State} {freed : State → State} {s : State} {r : Raise}
    (hk : Frees freed (writesOf i)) (he : exec i s = runCommand needs operands body freed s)
    (hf : Running s) (hn : needs s = true) (ho : operands s = none) (hb : body s = .error r) :
    Faults i s (causeCode r.cause) r.info0 r.info1 :=
  faults_of_bodyFault hk (he.trans (runCommand_error _ _ _ _ _ r hf hn ho hb))

/-- Every command but RESET has the one shape. -/
theorem exec_command (i : Instr) (hp : portOf i = .cmd) (hr : i ≠ .reset) :
    ∃ needs operands body freed, ∀ s, exec i s = runCommand needs operands body freed s := by
  cases i with
  | leaf _ | internal | palCount _ | palSize _ | palEntry _ _ _ | pad _ | artHeader _ _ _ _ => cases hp
  | reset => exact absurd rfl hr
  | nop => exact ⟨_, _, _, _, exec_nop⟩
  | bwInit => exact ⟨_, _, _, _, exec_bwInit⟩
  | putbit => exact ⟨_, _, _, _, exec_putbit⟩
  | putbits => exact ⟨_, _, _, _, exec_putbits⟩
  | bwFlush => exact ⟨_, _, _, _, exec_bwFlush⟩
  | brInit => exact ⟨_, _, _, _, exec_brInit⟩
  | getbit => exact ⟨_, _, _, _, exec_getbit⟩
  | getbits => exact ⟨_, _, _, _, exec_getbits⟩
  | splitgeom => exact ⟨_, _, _, _, exec_splitgeom⟩
  | classify => exact ⟨_, _, _, _, exec_classify⟩
  | avgcolor => exact ⟨_, _, _, _, exec_avgcolor⟩
  | analyze => exact ⟨_, _, _, _, exec_analyze⟩
  | palInit => exact ⟨_, _, _, _, exec_palInit⟩
  | palPush => exact ⟨_, _, _, _, exec_palPush⟩
  | palBuild => exact ⟨_, _, _, _, exec_palBuild⟩
  | encPaltab => exact ⟨_, _, _, _, exec_encPaltab⟩
  | encTree => exact ⟨_, _, _, _, exec_encTree⟩
  | encode => exact ⟨_, _, _, _, exec_encode⟩
  | decPaltab => exact ⟨_, _, _, _, exec_decPaltab⟩
  | decTree => exact ⟨_, _, _, _, exec_decTree⟩
  | decode => exact ⟨_, _, _, _, exec_decode⟩

/-- Every instruction answers a next state (70_reset_and_hazards.md R254). -/
theorem exec_answers (i : Instr) : ∃ t, exec i s = .next t := by
  by_cases hp : portOf i = .cmd
  · by_cases hr : i = .reset
    · exact ⟨_, by rw [hr, exec_reset]⟩
    · obtain ⟨_, _, _, _, e⟩ := exec_command i hp hr
      rw [e]
      exact runCommand_answers _ _ _ _ s
  · cases i with
    | leaf _ => simp only [exec, execLeaf, tokenOutcome]; repeat' (first | split | exact ⟨_, rfl⟩)
    | internal => simp only [exec, execInternal, tokenOutcome]; repeat' (first | split | exact ⟨_, rfl⟩)
    | palCount _ => simp only [exec, execPalCount]; repeat' (first | split | exact ⟨_, rfl⟩)
    | palSize _ => simp only [exec, execPalSize]; repeat' (first | split | exact ⟨_, rfl⟩)
    | palEntry _ _ _ => simp only [exec, execPalEntry]; repeat' (first | split | exact ⟨_, rfl⟩)
    | pad _ => exact ⟨_, rfl⟩
    | artHeader _ _ _ _ => simp only [exec, execArtHeader]; split <;> exact ⟨_, rfl⟩
    | _ => exact absurd rfl hp

end Sys2Proof.Machine
end

