-- ==== Sys2Proof/Laws/Faults.lean ====
section
/-! SUPPORT. Where ENC_TREE and DEC_TREE fault (43_encoder.md R173, 44_decoder.md R187): a walk that has
come to a node whose visit fails raises what that visit raises, and a walk that fails has come to
such a node. -/

namespace Sys2Proof.Machine

theorem splitGeom_undivided (r : Region) (h : splitGeom r.w r.h = .undivided) :
    children r (splitGeom r.w r.h) = none := by rw [h]; rfl

theorem undivided_of_children (r : Region) (h : children r (splitGeom r.w r.h) = none) :
    splitGeom r.w r.h = .undivided := by
  cases hs : splitGeom r.w r.h with
  | undivided => rfl
  | width _ _ => rw [hs] at h; cases h
  | height _ _ => rw [hs] at h; cases h

/-- What a walk of `r` below its internal token still has to do to come to the node. -/
theorem Before.region_first (p : Before) (r r' : Region) (h : (Before.first p).region r = some r') :
    ∃ ra rb, children r (splitGeom r.w r.h) = some (ra, rb) ∧ p.region ra = some r' := by
  simp only [Before.region] at h
  cases hk : children r (splitGeom r.w r.h) with
  | none => rw [hk] at h; cases h
  | some kids => rw [hk] at h; exact ⟨kids.1, kids.2, rfl, h⟩

theorem Before.region_second (a : WireTree) (p : Before) (r r' : Region)
    (h : (Before.second a p).region r = some r') :
    ∃ ra rb, children r (splitGeom r.w r.h) = some (ra, rb) ∧ a.fits ra = true ∧
      p.region rb = some r' := by
  simp only [Before.region] at h
  cases hk : children r (splitGeom r.w r.h) with
  | none => rw [hk] at h; cases h
  | some kids =>
    rw [hk] at h
    simp only at h
    split at h
    · exact ⟨kids.1, kids.2, rfl, ‹_›, h⟩
    · cases h

theorem treesFit_congr (s t : State) (h1 : t.stripe = s.stripe) (h2 : t.cfg = s.cfg)
    (h3 : t.era = s.era) (i : Nat) (ts : List WireTree) : treesFit t i ts = treesFit s i ts := by
  induction ts generalizing i with
  | nil => rfl
  | cons a rest ih => simp only [treesFit, ih, stripeRoot_congr s t i h1 h2 h3]

/-! ## Parsing -/

/-- The state before the visit of a node that `p` lies before. -/
def reached (s : State) (p : Before) (jobs : List Job) : State :=
  (s.withDec ⟨jobs, s.dec.leaford + p.refs.length⟩).advance p.wire.length

theorem decInternal_ok (i : Nat) (r ra rb : Region) (s : State) (rest : List Bool)
    (hk : children r (splitGeom r.w r.h) = some (ra, rb))
    (hu : unreadBits s = encode .internal ++ rest) :
    decVisit i r s = .ok (s.advance 1, some (ra, rb)) ∧ unreadBits (s.advance 1) = rest := by
  obtain ⟨h1, u1⟩ := fetchToken_of_internal rest s hu
  exact ⟨by rw [decVisit_eq, h1, ok_bind]; simp [tokenEffect, decInternal, hk], u1⟩

theorem decVisit_before (i : Nat) (p : Before) (r r' : Region) (s : State) (rest : List Bool)
    (hreg : p.region r = some r') (hu : unreadBits s = p.wire ++ rest)
    (hr : refsInRange s.pal.palettes s.dec.leaford p.refs = true) :
    ∃ jobs, unreadBits (reached s p jobs) = rest ∧
      ∀ e, decVisit i r' (reached s p jobs) = .error e → ∃ n, Failed (decVisit i) n r s e := by
  induction p generalizing r s with
  | here =>
    cases hreg
    have e : reached s .here s.dec.jobq = s := by
      simp [reached, Before.refs, Before.wire, State.withDec]
    exact ⟨s.dec.jobq, by rw [e]; exact hu, fun x hx => ⟨1, .here (by rw [e] at hx; exact hx)⟩⟩
  | first p ih =>
    obtain ⟨ra, rb, hk, hp⟩ := p.region_first r r' hreg
    simp only [Before.wire, List.append_assoc] at hu
    obtain ⟨hv, u1⟩ := decInternal_ok i r ra rb s _ hk hu
    obtain ⟨jobs, h1, h2⟩ := ih ra (s.advance 1) hp u1 hr
    have e : reached s (.first p) jobs = reached (s.advance 1) p jobs := by
      simp [reached, Before.refs, Before.wire, encode, State.withDec, State.advance, State.withRd,
        Nat.add_assoc, Nat.add_comm]
    refine ⟨jobs, by rw [e]; exact h1, fun x hx => ?_⟩
    obtain ⟨n, hf⟩ := h2 x (by rw [← e]; exact hx)
    exact ⟨_, .first hv hf⟩
  | second a p ih =>
    obtain ⟨ra, rb, hk, ha, hp⟩ := Before.region_second a p r r' hreg
    simp only [Before.wire, List.append_assoc] at hu
    simp only [Before.refs, refsInRange_append, Bool.and_eq_true] at hr
    obtain ⟨hv, u1⟩ := decInternal_ok i r ra rb s _ hk hu
    obtain ⟨⟨m, g⟩, u2⟩ := decVisit_tree i a ra (s.advance 1) _ ha u1 hr.1
    obtain ⟨jobs, h1, h2⟩ := ih rb (parsed (s.advance 1) a ra) hp u2 hr.2
    have e : reached s (.second a p) jobs = reached (parsed (s.advance 1) a ra) p jobs := by
      simp only [reached, parsed, Before.refs, Before.wire, encode, State.withDec, State.advance,
        State.withRd, List.length_append, List.length_singleton, Nat.add_assoc]
    refine ⟨jobs, by rw [e]; exact h1, fun x hx => ?_⟩
    obtain ⟨n, hf⟩ := h2 x (by rw [← e]; exact hx)
    exact ⟨_, .second hv g hf⟩

/-- A token that cannot be taken is that visit's fault. -/
theorem decVisit_of_tokenError (i : Nat) (r : Region) (s : State) (code : Byte) (info0 info1 : Nat)
    (h : TokenError s.pal.palettes s.rd.rpos s.dec.leaford r (unreadBits s) code info0 info1) :
    ∃ c, causeCode c = code ∧ decVisit i r s = .error ⟨c, info0, info1⟩ := by
  generalize hu : unreadBits s = bits at h
  cases h with
  | noBit =>
    refine ⟨.streamExhausted, rfl, ?_⟩
    rcases fetchToken_cases s with ⟨_, h, e⟩ | ⟨_, h, _, e⟩ | ⟨h, e⟩ | ⟨_, h, _, e⟩
    · rw [hu] at h; cases h
    · rw [hu] at h; cases h
    · rw [decVisit_eq, e, error_bind]
    · rw [hu] at h; cases h
  | @noIndex rest hl =>
    refine ⟨.streamExhausted, rfl, ?_⟩
    rcases fetchToken_cases s with ⟨_, h, e⟩ | ⟨_, h, hl', e⟩ | ⟨h, e⟩ | ⟨_, h, _, e⟩
    · rw [hu] at h; cases h
    · rw [hu] at h; cases h; omega
    · rw [hu] at h; cases h
    · rw [decVisit_eq, e, error_bind]
  | @palette idx rest hp =>
    obtain ⟨h1, -⟩ := fetchToken_of_leaf idx rest s hu
    have hp' : s.pal.palettes[s.dec.leaford / Config.group]? = none :=
      List.getElem?_eq_none_iff.mpr hp
    refine ⟨.paletteRange, rfl, ?_⟩
    rw [decVisit_eq, h1, ok_bind]
    simp only [tokenEffect, decLeaf]
    have e1 : (s.advance 9).dec = s.dec := rfl
    have e2 : (s.advance 9).pal = s.pal := rfl
    simp only [e1, e2, hp']
    rfl
  | @index idx rest cs hp hl =>
    obtain ⟨h1, -⟩ := fetchToken_of_leaf idx rest s hu
    refine ⟨.indexRange, rfl, ?_⟩
    have hp' : s.pal.palettes[s.dec.leaford / Config.group]? = some cs := hp
    rw [decVisit_eq, h1, ok_bind]
    simp only [tokenEffect, decLeaf]
    have e1 : (s.advance 9).dec = s.dec := rfl
    have e2 : (s.advance 9).pal = s.pal := rfl
    simp only [e1, e2, hp', if_pos hl]
  | @split rest hs =>
    obtain ⟨h1, -⟩ := fetchToken_of_internal rest s hu
    refine ⟨.unsplittable, rfl, ?_⟩
    rw [decVisit_eq, h1, ok_bind]
    simp only [tokenEffect, decInternal, splitGeom_undivided r hs]
    simp

/-- A visit that fails meets a token that it cannot take. -/
theorem tokenError_of_decVisit (i : Nat) (r : Region) (s : State) (e : Raise)
    (h : decVisit i r s = .error e) :
    TokenError s.pal.palettes s.rd.rpos s.dec.leaford r (unreadBits s) (causeCode e.cause) e.info0
      e.info1 := by
  rw [decVisit_eq] at h
  rcases fetchToken_cases s with ⟨rest, hu, hf⟩ | ⟨rest, hu, hl, hf⟩ | ⟨hu, hf⟩ | ⟨rest, hu, hl, hf⟩
  · rw [hf, ok_bind] at h
    rcases tokenEffect_cases .internal r (s.advance 1) with ⟨_, _, _, _, _, he⟩ | ⟨_, _, _, he⟩ |
      ⟨_, e1, _, _⟩ | ⟨_, _, e1, _⟩ | ⟨_, hk, he⟩
    · rw [he] at h; cases h
    · rw [he] at h; cases h
    · cases e1
    · cases e1
    · rw [he] at h
      cases h
      rw [hu]
      exact .split (undivided_of_children r hk)
  · rw [hf, ok_bind] at h
    have hlt := bitsToNat_lt (rest.take 8)
    have hnb := natToBits_bitsToNat (rest.take 8)
    have h8 : (rest.take 8).length = 8 := by simpa using hl
    rw [h8] at hlt hnb
    have hw : unreadBits s =
        encode (.leaf (BitVec.ofNat 8 (bitsToNat (rest.take 8)))) ++ rest.drop 8 := by
      simp only [encode, List.cons_append, BitVec.toNat_ofNat, Nat.mod_eq_of_lt hlt]
      rw [hnb, List.take_append_drop, hu]
    rcases tokenEffect_cases (.leaf (BitVec.ofNat 8 (bitsToNat (rest.take 8)))) r (s.advance 9) with
      ⟨_, _, _, _, _, he⟩ | ⟨_, _, _, he⟩ | ⟨_, e1, hp, he⟩ | ⟨_, _, e1, hp, hl2, he⟩ | ⟨e1, _, _⟩
    · rw [he] at h; cases h
    · rw [he] at h; cases h
    · rw [he] at h
      cases h
      rw [hw]
      exact .palette (List.getElem?_eq_none_iff.mp hp)
    · rw [he] at h
      cases h
      cases e1
      rw [hw]
      exact .index hp hl2
    · cases e1
  · rw [hf, error_bind] at h
    cases h
    rw [hu]
    exact .noBit
  · rw [hf, error_bind] at h
    cases h
    rw [hu]
    exact .noIndex hl

/-- A visit that answers two children has read an INTERNAL token. -/
theorem decVisit_internal (i : Nat) (r : Region) (s s1 : State) (ra rb : Region)
    (h : decVisit i r s = .ok (s1, some (ra, rb))) :
    children r (splitGeom r.w r.h) = some (ra, rb) ∧ s1 = s.advance 1 ∧
      unreadBits s = encode .internal ++ unreadBits s1 := by
  rw [decVisit_eq] at h
  obtain ⟨v, hf, ht⟩ := bind_eq_ok _ _ _ h
  rcases tokenEffect_cases v.1 r v.2 with ⟨_, _, _, _, _, e⟩ | ⟨kids, e1, hk, e⟩ |
    ⟨_, _, _, e⟩ | ⟨_, _, _, _, _, e⟩ | ⟨_, _, e⟩ <;> rw [e] at ht <;> cases ht
  rcases fetchToken_cases s with ⟨rest, hu, e⟩ | ⟨rest, hu, hl, e⟩ | ⟨_, e⟩ | ⟨_, _, _, e⟩ <;>
    rw [e] at hf <;> cases hf
  · refine ⟨hk, rfl, ?_⟩
    rw [unreadBits_advance, hu]
    rfl
  · cases e1

/-- A parse of a region that fails has come to a node whose token cannot be taken. -/
theorem decVisit_failed (i n : Nat) (r : Region) (s : State) (e : Raise)
    (h : Failed (decVisit i) n r s e) :
    ∃ p r' rest, Before.region p r = some r' ∧ unreadBits s = p.wire ++ rest ∧
      refsInRange s.pal.palettes s.dec.leaford p.refs = true ∧
      TokenError s.pal.palettes (s.rd.rpos + p.wire.length) (s.dec.leaford + p.refs.length) r' rest
        (causeCode e.cause) e.info0 e.info1 := by
  induction h with
  | @here r s e h => exact ⟨.here, r, _, rfl, rfl, rfl, tokenError_of_decVisit i r s e h⟩
  | @first n r ra rb s s1 e h ha ih =>
    obtain ⟨p, r', rest, h1, h2, h3, h4⟩ := ih
    obtain ⟨hk, rfl, hu⟩ : children r (splitGeom r.w r.h) = some (ra, rb) ∧ s1 = s.advance 1 ∧
        unreadBits s = encode .internal ++ unreadBits s1 := decVisit_internal i r s s1 ra rb h
    refine ⟨.first p, r', rest, by simp [Before.region, hk, h1], ?_, h3, ?_⟩
    · rw [hu, h2]; simp [Before.wire]
    · have : s.rd.rpos + (Before.first p).wire.length = (s.advance 1).rd.rpos + p.wire.length := by
        simp [Before.wire, encode]; omega
      rw [this]
      exact h4
  | @second m n r ra rb s s1 s2 e h ha hb ih =>
    obtain ⟨p, r', rest, h1, h2, h3, h4⟩ := ih
    obtain ⟨hk, rfl, hu⟩ := decVisit_internal i r s s1 ra rb h
    obtain ⟨a, fa, rfl, ua, ka⟩ := decVisit_sound _ _ _ _ _ ha
    refine ⟨.second a p, r', rest, by simp [Before.region, hk, fa, h1], ?_, ?_, ?_⟩
    · rw [hu, ua, h2]; simp [Before.wire]
    · simp only [Before.refs, refsInRange_append, Bool.and_eq_true]
      exact ⟨ka, h3⟩
    · have e1 : s.rd.rpos + (Before.second a p).wire.length =
          (parsed (s.advance 1) a ra).rd.rpos + p.wire.length := by
        simp [Before.wire, encode, parsed]; omega
      have e2 : s.dec.leaford + (Before.second a p).refs.length =
          (parsed (s.advance 1) a ra).dec.leaford + p.refs.length := by
        show s.dec.leaford + (a.refs ++ p.refs).length = s.dec.leaford + a.refs.length + p.refs.length
        rw [List.length_append, Nat.add_assoc]
      rw [e1, e2]
      exact h4

/-- The parse of the stripes from number `i` on, come to such a node, fails there. -/
theorem decStripes_failed_of (ts : List WireTree) (n i : Nat) (p : Before) (r : Region) (s : State)
    (rest : List Bool) (code : Byte) (info0 info1 : Nat) (hn : ts.length < n)
    (hfit : treesFit s i ts = true) (hreg : p.region (stripeRoot s (i + ts.length)) = some r)
    (hu : unreadBits s = forestWire ts ++ p.wire ++ rest)
    (hr : refsInRange s.pal.palettes s.dec.leaford (forestRefs ts ++ p.refs) = true)
    (he : TokenError s.pal.palettes (s.rd.rpos + (forestWire ts ++ p.wire).length)
      (s.dec.leaford + (forestRefs ts ++ p.refs).length) r rest code info0 info1) :
    ∃ c, causeCode c = code ∧ FailedStripes decVisit n i s ⟨c, info0, info1⟩ := by
  induction ts generalizing n i s with
  | nil =>
    obtain ⟨m, rfl⟩ : ∃ m, n = m + 1 := ⟨n - 1, by simp at hn; omega⟩
    obtain ⟨jobs, h1, h2⟩ := decVisit_before i p (stripeRoot s i) r s rest hreg hu hr
    obtain ⟨c, hc, hv⟩ := decVisit_of_tokenError i r (reached s p jobs) code info0 info1
      (by rw [h1]; exact he)
    obtain ⟨k, hf⟩ := h2 _ hv
    exact ⟨c, hc, .here hf⟩
  | cons t ts ih =>
    obtain ⟨m, rfl⟩ : ∃ m, n = m + 1 := ⟨n - 1, by simp at hn; omega⟩
    simp only [treesFit, Bool.and_eq_true] at hfit
    simp only [forestWire, forestRefs, List.flatMap_cons, List.append_assoc] at hu hr he
    rw [refsInRange_append, Bool.and_eq_true] at hr
    obtain ⟨⟨k, g1⟩, u1⟩ := decVisit_tree i t (stripeRoot s i) s _ hfit.1 hu hr.1
    have hs : ∀ j, stripeRoot (parsed s t (stripeRoot s i)) j = stripeRoot s j := fun _ => rfl
    obtain ⟨c, hc, hf⟩ := ih m (i + 1) (parsed s t (stripeRoot s i)) (by simpa using hn)
      (by rw [treesFit_congr s (parsed s t (stripeRoot s i)) rfl rfl rfl]; exact hfit.2)
      (by rw [hs, ← hreg]; congr 2; simp; omega)
      (by simpa [forestWire] using u1) hr.2
      (by
        have e1 : (parsed s t (stripeRoot s i)).rd.rpos + (forestWire ts ++ p.wire).length =
            s.rd.rpos + (t.wire ++ (forestWire ts ++ p.wire)).length := by
          show s.rd.rpos + t.wire.length + (forestWire ts ++ p.wire).length = _
          simp [Nat.add_assoc]
        have e2 : (parsed s t (stripeRoot s i)).dec.leaford + (forestRefs ts ++ p.refs).length =
            s.dec.leaford + (t.refs ++ (forestRefs ts ++ p.refs)).length := by
          show s.dec.leaford + t.refs.length + (forestRefs ts ++ p.refs).length = _
          simp [Nat.add_assoc]
        rw [e1, e2]
        exact he)
    exact ⟨c, hc, .later g1 hf⟩

/-- The parse of the stripes from number `i` on fails only at such a node. -/
theorem decStripes_failed (n i : Nat) (s : State) (e : Raise) (h : FailedStripes decVisit n i s e) :
    ∃ ts p r rest, ts.length < n ∧ treesFit s i ts = true ∧
      Before.region p (stripeRoot s (i + ts.length)) = some r ∧
      unreadBits s = forestWire ts ++ p.wire ++ rest ∧
      refsInRange s.pal.palettes s.dec.leaford (forestRefs ts ++ p.refs) = true ∧
      TokenError s.pal.palettes (s.rd.rpos + (forestWire ts ++ p.wire).length)
        (s.dec.leaford + (forestRefs ts ++ p.refs).length) r rest (causeCode e.cause) e.info0
        e.info1 := by
  induction h with
  | @here m n i s e h =>
    obtain ⟨p, r, rest, h1, h2, h3, h4⟩ := decVisit_failed _ _ _ _ _ h
    exact ⟨[], p, r, rest, by simp, rfl, h1, h2, h3, h4⟩
  | @later m n i s s1 e h hs ih =>
    obtain ⟨ts, p, r, rest, h1, h2, h3, h4, h5, h6⟩ := ih
    obtain ⟨t, ft, rfl, ut, kt⟩ := decVisit_sound _ _ _ _ _ h
    refine ⟨t :: ts, p, r, rest, by simpa using h1, ?_, ?_, ?_, ?_, ?_⟩
    · rw [treesFit_congr s (parsed s t (stripeRoot s i)) rfl rfl rfl] at h2
      simp only [treesFit, ft, h2, Bool.and_self]
    · rw [← h3, List.length_cons, show i + (ts.length + 1) = i + 1 + ts.length by omega]
      rfl
    · rw [ut, h4]; simp [forestWire]
    · simp only [forestRefs, List.flatMap_cons, List.append_assoc, refsInRange_append,
        Bool.and_eq_true] at h5 ⊢
      exact ⟨kt, h5⟩
    · have e1 : s.rd.rpos + (forestWire (t :: ts) ++ p.wire).length =
          (parsed s t (stripeRoot s i)).rd.rpos + (forestWire ts ++ p.wire).length := by
        show _ = s.rd.rpos + t.wire.length + (forestWire ts ++ p.wire).length
        simp [forestWire, Nat.add_assoc]
      have e2 : s.dec.leaford + (forestRefs (t :: ts) ++ p.refs).length =
          (parsed s t (stripeRoot s i)).dec.leaford + (forestRefs ts ++ p.refs).length := by
        show _ = s.dec.leaford + t.refs.length + (forestRefs ts ++ p.refs).length
        simp [forestRefs, Nat.add_assoc]
      rw [e1, e2]
      exact h6

/-- The parsing pass raises what `ParseFails` says (44_decoder.md R187, R188). -/
theorem decTree_of_fails (s : State) (code : Byte) (info0 info1 : Nat) (hc : cfgOK s = true)
    (h : ParseFails s code info0 info1) :
    ∃ c, causeCode c = code ∧ decTree s = .error ⟨c, info0, info1⟩ := by
  obtain ⟨ts, p, r, rest, ⟨h1, h2, h3⟩, h4, h5, h6⟩ := h
  have hc0 : cfgOK (s.withDec ⟨[], 0⟩) = true :=
    (cfgOK_congr s (s.withDec ⟨[], 0⟩) rfl rfl rfl).trans hc
  obtain ⟨c, e, hf⟩ := decStripes_failed_of ts s.cfg.nstripe.toNat 0 p r (s.withDec ⟨[], 0⟩) rest
    code info0 info1 h1 ((treesFit_congr s (s.withDec ⟨[], 0⟩) rfl rfl rfl 0 ts).trans h2)
    (by rw [Nat.zero_add]; exact h3) h4 h5 (by rw [withDec_dec, Nat.zero_add]; exact h6)
  exact ⟨c, e, walk_error decVisit_blind _ _ hc0 hf⟩

/-- The parsing pass raises nothing else. -/
theorem fails_of_decTree (s : State) (e : Raise) (hc : cfgOK s = true) (h : decTree s = .error e) :
    ParseFails s (causeCode e.cause) e.info0 e.info1 := by
  have hc0 : cfgOK (s.withDec ⟨[], 0⟩) = true :=
    (cfgOK_congr s (s.withDec ⟨[], 0⟩) rfl rfl rfl).trans hc
  rcases walk_cases decVisit decVisit_blind _ hc0 with ⟨s', -, he⟩ | ⟨e', hf, he⟩
  · rw [decTree, he] at h; cases h
  · rw [decTree, he] at h
    cases h
    obtain ⟨ts, p, r, rest, h1, h2, h3, h4, h5, h6⟩ := decStripes_failed _ _ _ _ hf
    refine ⟨ts, p, r, rest, ⟨h1, ?_, by rw [Nat.zero_add] at h3; exact h3⟩, h4, h5, ?_⟩
    · exact (treesFit_congr s (s.withDec ⟨[], 0⟩) rfl rfl rfl 0 ts).symm.trans h2
    · rw [withDec_dec, Nat.zero_add] at h6
      exact h6

/-! ## Emission -/

/-- The state before the visit of a node that `p` lies before. -/
def arrived (s : State) (p : Before) (w : Writer) : State :=
  (s.withEnc ⟨s.enc.patcur + p.pattern.length, s.enc.refcur + p.refs.length⟩).withWr w

/-- The state after an INTERNAL token. -/
def entered (s : State) (w : Writer) : State :=
  (s.withEnc { s.enc with patcur := s.enc.patcur + 1 }).withWr w

/-- An INTERNAL token at a region with children is written, or WBUF is full. -/
theorem encInternal_cases (i : Nat) (r ra rb : Region) (s : State) (pat : List Bool)
    (hk : children r (splitGeom r.w r.h) = some (ra, rb))
    (hp : s.ana.pattern.drop s.enc.patcur = false :: pat) (hw : writerOK s.wr = true) :
    ((∃ w, encVisit i r s = .ok (entered s w, some (ra, rb)) ∧
        Wrote s.wbufCap s.wr (encode .internal) w) ∨
      ∃ k, encVisit i r s = .error ⟨.wbufFull, k, 0⟩ ∧
        Filled s.wbufCap s.wr (encode .internal) k) ∧
    s.ana.pattern.drop (s.enc.patcur + 1) = pat := by
  have h1 := getElem?_of_drop_cons _ _ _ _ hp
  have hv : encVisit i r s = (onWriter putInternal
      (s.withEnc { s.enc with patcur := s.enc.patcur + 1 }) >>=
        fun s' => pure (s', some (ra, rb))) := by
    simp [encVisit, h1, encInternal, hk]
  refine ⟨?_, drop_of_drop_append _ [false] _ _ hp⟩
  rcases emits_putInternal s.wbufCap s.wr hw with ⟨w, he, ho⟩ | ⟨k, he, ho⟩
  · exact .inl ⟨w, by rw [hv, onWriter_ok _ _ w (by simpa using he)]; rfl, ho⟩
  · exact .inr ⟨k, by rw [hv, onWriter_error _ _ _ (by simpa using he)]; rfl, ho⟩

theorem encVisit_before (i : Nat) (p : Before) (r r' : Region) (s : State) (pat : List Bool)
    (refs : List Byte) (hreg : p.region r = some r')
    (hp : s.ana.pattern.drop s.enc.patcur = p.pattern ++ pat)
    (hr : s.pal.leafref.drop s.enc.refcur = p.refs ++ refs) (hw : writerOK s.wr = true) :
    (∃ w, Wrote s.wbufCap s.wr p.wire w ∧
        s.ana.pattern.drop (s.enc.patcur + p.pattern.length) = pat ∧
        s.pal.leafref.drop (s.enc.refcur + p.refs.length) = refs ∧
        ∀ e, encVisit i r' (arrived s p w) = .error e → ∃ n, Failed (encVisit i) n r s e) ∨
      ∃ n k, Failed (encVisit i) n r s ⟨.wbufFull, k, 0⟩ ∧ Filled s.wbufCap s.wr p.wire k := by
  induction p generalizing r s with
  | here =>
    cases hreg
    exact .inl ⟨s.wr, .refl hw, hp, hr, fun e he => ⟨1, .here he⟩⟩
  | first p ih =>
    obtain ⟨ra, rb, hk, hreg'⟩ := p.region_first r r' hreg
    obtain ⟨⟨w, hv, o⟩ | ⟨k, hv, o⟩, hp1⟩ := encInternal_cases i r ra rb s (p.pattern ++ pat) hk hp hw
    · rcases ih ra (entered s w) hreg' hp1 hr o.ok with ⟨w2, o2, h1, h2, h3⟩ | ⟨n, k, h1, o2⟩
      · have e : arrived s (.first p) w2 = arrived (entered s w) p w2 := by
          simp only [arrived, entered, Before.pattern, Before.refs, List.length_cons, State.withEnc,
            State.withWr]
          congr 2
          omega
        refine .inl ⟨w2, o.trans o2, ?_, h2, fun x hx => ?_⟩
        · rw [← h1]
          show _ = s.ana.pattern.drop (s.enc.patcur + 1 + p.pattern.length)
          simp only [Before.pattern, List.length_cons]
          congr 1
          omega
        · obtain ⟨n, hf⟩ := h3 x (by rw [← e]; exact hx)
          exact ⟨_, .first hv hf⟩
      · exact .inr ⟨_, k, .first hv h1, o.filled o2⟩
    · exact .inr ⟨_, k, .here hv, o.append _⟩
  | second a p ih =>
    obtain ⟨ra, rb, hk, ha, hreg'⟩ := Before.region_second a p r r' hreg
    simp only [Before.refs, List.append_assoc] at hr
    obtain ⟨⟨w, hv, o⟩ | ⟨k, hv, o⟩, hp1⟩ :=
      encInternal_cases i r ra rb s (a.pattern ++ (p.pattern ++ pat)) hk
        (by simpa [Before.pattern] using hp) hw
    · rcases encVisit_tree i a ra (entered s w) _ _ ha hp1 hr o.ok with ⟨m, w2, g, o2⟩ | ⟨m, k, g, o2⟩
      · have hp2 := drop_of_drop_append _ _ _ _ hp1
        have hr2 := drop_of_drop_append _ _ _ _ hr
        rcases ih rb (emitted (entered s w) a w2) hreg' hp2 hr2 o2.ok with
          ⟨w3, o3, h1, h2, h3⟩ | ⟨n, k, h1, o3⟩
        · have e : arrived s (.second a p) w3 = arrived (emitted (entered s w) a w2) p w3 := by
            simp only [arrived, emitted, entered, Before.pattern, Before.refs, List.length_cons,
              List.length_append, State.withEnc, State.withWr]
            congr 2 <;> omega
          refine .inl ⟨w3, o.trans (o2.trans o3), ?_, ?_, fun x hx => ?_⟩
          · rw [← h1]
            show _ = s.ana.pattern.drop (s.enc.patcur + 1 + a.pattern.length + p.pattern.length)
            simp only [Before.pattern, List.length_cons, List.length_append]
            congr 1
            omega
          · rw [← h2]
            show _ = s.pal.leafref.drop (s.enc.refcur + a.refs.length + p.refs.length)
            simp only [Before.refs, List.length_append]
            congr 1
            omega
          · obtain ⟨n, hf⟩ := h3 x (by rw [← e]; exact hx)
            exact ⟨_, .second hv g hf⟩
        · exact .inr ⟨_, k, .second hv g h1, o.filled (o2.filled o3)⟩
      · exact .inr ⟨_, k, .first hv g, o.filled (o2.append _)⟩
    · exact .inr ⟨_, k, .here hv, o.append _⟩

theorem getElem?_of_drop_nil {α : Type} (l : List α) (n : Nat) (h : l.drop n = []) :
    l[n]? = none := by
  rw [List.drop_eq_nil_iff] at h
  exact List.getElem?_eq_none_iff.mpr h

theorem drop_of_getElem?_none {α : Type} (l : List α) (n : Nat) (h : l[n]? = none) :
    l.drop n = [] := by
  rw [List.getElem?_eq_none_iff] at h
  exact List.drop_eq_nil_iff.mpr h

/-- A visit that finds no pattern entry, no reference or no children raises that. -/
theorem encVisit_of_emitError (i : Nat) (r : Region) (s : State) (code : Byte) (info0 info1 : Nat)
    (h : EmitError i s.enc.patcur s.enc.refcur r (s.ana.pattern.drop s.enc.patcur)
      (s.pal.leafref.drop s.enc.refcur) code info0 info1) :
    ∃ c, causeCode c = code ∧ encVisit i r s = .error ⟨c, info0, info1⟩ := by
  generalize hp : s.ana.pattern.drop s.enc.patcur = pat at h
  generalize hr : s.pal.leafref.drop s.enc.refcur = refs at h
  cases h with
  | noPattern =>
    have h1 := getElem?_of_drop_nil _ _ hp
    exact ⟨.patternExhausted, rfl, by simp [encVisit, h1]⟩
  | @noRef pat =>
    have h1 := getElem?_of_drop_cons _ _ _ _ hp
    have h2 := getElem?_of_drop_nil _ _ hr
    exact ⟨.leafRefExhausted, rfl, by simp [encVisit, h1, encLeaf, h2]⟩
  | @geometry pat refs hs =>
    have h1 := getElem?_of_drop_cons _ _ _ _ hp
    exact ⟨.patternGeometry, rfl,
      by simp [encVisit, h1, encInternal, splitGeom_undivided r hs]⟩

theorem encWalked_writerOK {n i : Nat} {s s' : State} {r : Region}
    (h : Walked (encVisit i) n r s s') (hw : writerOK s.wr = true) : writerOK s'.wr = true := by
  refine h.keeps (P := fun t => writerOK t.wr = true) ?_ hw
  intro r t v hv ht
  rcases encVisit_cases i r t with ⟨idx, w, _, _, hl, e⟩ | ⟨kids, w, _, _, hl, e⟩ | ⟨_, e⟩ |
    ⟨_, _, e⟩ | ⟨_, _, e⟩ | ⟨_, _, _, _, _, e⟩ | ⟨_, _, _, _, _, e⟩ <;> rw [e] at hv <;> cases hv
  · rcases emits_putLeaf idx t.wbufCap t.wr ht with ⟨w', he, ho⟩ | ⟨k, he, _⟩
    · rw [hl] at he; cases he; exact ho.ok
    · rw [hl] at he; cases he
  · rcases emits_putInternal t.wbufCap t.wr ht with ⟨w', he, ho⟩ | ⟨k, he, _⟩
    · rw [hl] at he; cases he; exact ho.ok
    · rw [hl] at he; cases he

/-- A visit that fails while WBUF is unbounded. -/
theorem emitError_of_encVisit (i : Nat) (r : Region) (s : State) (e : Raise)
    (hcap : s.wbufCap = none) (hw : writerOK s.wr = true) (h : encVisit i r s = .error e) :
    EmitError i s.enc.patcur s.enc.refcur r (s.ana.pattern.drop s.enc.patcur)
      (s.pal.leafref.drop s.enc.refcur) (causeCode e.cause) e.info0 e.info1 := by
  have full : ∀ {f : Option Nat → Writer → Except Raise Writer} {bits : List Bool} {e : Raise},
      Emits f bits → f s.wbufCap s.wr = .error e → False := by
    intro f bits e hf he
    rcases hf s.wbufCap s.wr hw with ⟨w, h1, _⟩ | ⟨k, _, ho⟩
    · rw [he] at h1; cases h1
    · obtain ⟨c, hc⟩ := ho.bounded
      rw [hcap] at hc
      cases hc
  rcases encVisit_cases i r s with ⟨_, _, _, _, _, e'⟩ | ⟨_, _, _, _, _, e'⟩ | ⟨h1, e'⟩ |
    ⟨h1, h2, e'⟩ | ⟨h1, h2, e'⟩ | ⟨idx, _, _, _, he, _⟩ | ⟨_, _, _, _, he, _⟩
  · rw [e'] at h; cases h
  · rw [e'] at h; cases h
  · rw [e'] at h
    cases h
    rw [drop_of_getElem?_none _ _ h1]
    exact .noPattern
  · rw [e'] at h
    cases h
    rw [drop_cons_of_getElem? _ _ _ h1, drop_of_getElem?_none _ _ h2]
    exact .noRef
  · rw [e'] at h
    cases h
    rw [drop_cons_of_getElem? _ _ _ h1]
    exact .geometry (undivided_of_children r h2)
  · exact (full (emits_putLeaf idx) he).elim
  · exact (full emits_putInternal he).elim

/-- A visit that answers two children has written an INTERNAL token. -/
theorem encVisit_internal (i : Nat) (r : Region) (s s1 : State) (ra rb : Region)
    (h : encVisit i r s = .ok (s1, some (ra, rb))) (hw : writerOK s.wr = true) :
    ∃ w, children r (splitGeom r.w r.h) = some (ra, rb) ∧
      s.ana.pattern.drop s.enc.patcur = false :: s.ana.pattern.drop (s.enc.patcur + 1) ∧
      writerOK w = true ∧ s1 = entered s w := by
  rcases encVisit_cases i r s with ⟨_, _, _, _, _, e⟩ | ⟨kids, w, h1, hk, hl, e⟩ | ⟨_, e⟩ |
    ⟨_, _, e⟩ | ⟨_, _, e⟩ | ⟨_, _, _, _, _, e⟩ | ⟨_, _, _, _, _, e⟩ <;> rw [e] at h <;> cases h
  refine ⟨w, hk, drop_cons_of_getElem? _ _ _ h1, ?_, rfl⟩
  rcases emits_putInternal s.wbufCap s.wr hw with ⟨w', he, ho⟩ | ⟨k, he, _⟩
  · rw [hl] at he; cases he; exact ho.ok
  · rw [hl] at he; cases he

/-- An emission of a region that fails while WBUF is unbounded has come to such a node. -/
theorem encVisit_failed (i n : Nat) (r : Region) (s : State) (e : Raise)
    (h : Failed (encVisit i) n r s e) (hcap : s.wbufCap = none) (hw : writerOK s.wr = true) :
    ∃ p r' pat refs, Before.region p r = some r' ∧
      s.ana.pattern.drop s.enc.patcur = p.pattern ++ pat ∧
      s.pal.leafref.drop s.enc.refcur = p.refs ++ refs ∧
      EmitError i (s.enc.patcur + p.pattern.length) (s.enc.refcur + p.refs.length) r' pat refs
        (causeCode e.cause) e.info0 e.info1 := by
  induction h with
  | @here r s e h => exact ⟨.here, r, _, _, rfl, rfl, rfl, emitError_of_encVisit i r s e hcap hw h⟩
  | @first n r ra rb s s1 e h ha ih =>
    obtain ⟨w, hk, hp, hw1, rfl⟩ := encVisit_internal i r s s1 ra rb h hw
    obtain ⟨p, r', pat, refs, h1, h2, h3, h4⟩ := ih hcap hw1
    refine ⟨.first p, r', pat, refs, by simp [Before.region, hk, h1], ?_, h3, ?_⟩
    · rw [hp]
      exact congrArg _ h2
    · have e1 : s.enc.patcur + (Before.first p).pattern.length =
          (entered s w).enc.patcur + p.pattern.length := by
        show s.enc.patcur + (p.pattern.length + 1) = s.enc.patcur + 1 + _
        omega
      rw [e1]
      exact h4
  | @second m n r ra rb s s1 s2 e h ha hb ih =>
    obtain ⟨w, hk, hp, hw1, rfl⟩ := encVisit_internal i r s s1 ra rb h hw
    have hw2 := encWalked_writerOK ha hw1
    obtain ⟨a, w2, fa, rfl, pa, ka⟩ := encVisit_sound _ _ _ _ _ ha
    obtain ⟨p, r', pat, refs, h1, h2, h3, h4⟩ := ih hcap hw2
    refine ⟨.second a p, r', pat, refs, by simp [Before.region, hk, fa, h1], ?_, ?_, ?_⟩
    · rw [hp]
      have : s.ana.pattern.drop (s.enc.patcur + 1) = a.pattern ++ (p.pattern ++ pat) :=
        pa.trans (congrArg _ h2)
      rw [this]
      simp [Before.pattern]
    · have : s.pal.leafref.drop s.enc.refcur = a.refs ++ (p.refs ++ refs) :=
        ka.trans (congrArg _ h3)
      rw [this]
      simp [Before.refs]
    · have e1 : s.enc.patcur + (Before.second a p).pattern.length =
          (emitted (entered s w) a w2).enc.patcur + p.pattern.length := by
        show s.enc.patcur + ((a.pattern ++ p.pattern).length + 1) =
          s.enc.patcur + 1 + a.pattern.length + _
        rw [List.length_append]
        omega
      have e2 : s.enc.refcur + (Before.second a p).refs.length =
          (emitted (entered s w) a w2).enc.refcur + p.refs.length := by
        show s.enc.refcur + (a.refs ++ p.refs).length = s.enc.refcur + a.refs.length + _
        rw [List.length_append]
        omega
      rw [e1, e2]
      exact h4

/-- The emission of the stripes from number `i` on, come to a node whose visit fails, fails there, or
before it for want of room. -/
theorem encStripes_failed_of (ts : List WireTree) (n i : Nat) (p : Before) (r : Region) (s : State)
    (pat : List Bool) (refs : List Byte) (code : Byte) (info0 info1 : Nat) (hn : ts.length < n)
    (hfit : treesFit s i ts = true) (hreg : p.region (stripeRoot s (i + ts.length)) = some r)
    (hp : s.ana.pattern.drop s.enc.patcur = forestPattern ts ++ p.pattern ++ pat)
    (hr : s.pal.leafref.drop s.enc.refcur = forestRefs ts ++ p.refs ++ refs)
    (hw : writerOK s.wr = true)
    (he : EmitError (i + ts.length) (s.enc.patcur + (forestPattern ts ++ p.pattern).length)
      (s.enc.refcur + (forestRefs ts ++ p.refs).length) r pat refs code info0 info1) :
    (∃ c w, causeCode c = code ∧ FailedStripes encVisit n i s ⟨c, info0, info1⟩ ∧
        Wrote s.wbufCap s.wr (forestWire ts ++ p.wire) w) ∨
      ∃ k, FailedStripes encVisit n i s ⟨.wbufFull, k, 0⟩ ∧
        Filled s.wbufCap s.wr (forestWire ts ++ p.wire) k := by
  induction ts generalizing n i s with
  | nil =>
    obtain ⟨m, rfl⟩ : ∃ m, n = m + 1 := ⟨n - 1, by simp at hn; omega⟩
    rcases encVisit_before i p (stripeRoot s i) r s pat refs hreg hp hr hw with
      ⟨w, o, h1, h2, h3⟩ | ⟨k, b, h1, o⟩
    · have he' : EmitError i (arrived s p w).enc.patcur (arrived s p w).enc.refcur r
          ((arrived s p w).ana.pattern.drop (arrived s p w).enc.patcur)
          ((arrived s p w).pal.leafref.drop (arrived s p w).enc.refcur) code info0 info1 := by
        have e1 : (arrived s p w).ana.pattern.drop (arrived s p w).enc.patcur = pat := h1
        have e2 : (arrived s p w).pal.leafref.drop (arrived s p w).enc.refcur = refs := h2
        rw [e1, e2]
        exact he
      obtain ⟨c, hc, hv⟩ := encVisit_of_emitError i r (arrived s p w) code info0 info1 he'
      obtain ⟨k, hf⟩ := h3 _ hv
      exact .inl ⟨c, w, hc, .here hf, o⟩
    · exact .inr ⟨b, .here h1, o⟩
  | cons t ts ih =>
    obtain ⟨m, rfl⟩ : ∃ m, n = m + 1 := ⟨n - 1, by simp at hn; omega⟩
    simp only [treesFit, Bool.and_eq_true] at hfit
    simp only [forestPattern, forestRefs, List.flatMap_cons, List.append_assoc] at hp hr he
    have hwire : forestWire (t :: ts) ++ p.wire = t.wire ++ (forestWire ts ++ p.wire) := by
      simp [forestWire]
    rw [hwire]
    rcases encVisit_tree i t (stripeRoot s i) s _ _ hfit.1 hp hr hw with ⟨k, w, g, o⟩ | ⟨k, b, g, o⟩
    · have hidx : i + (t :: ts).length = i + 1 + ts.length := by simp; omega
      rw [hidx] at he hreg
      have hp2 := drop_of_drop_append _ _ _ _ hp
      have hr2 := drop_of_drop_append _ _ _ _ hr
      rcases ih m (i + 1) (emitted s t w) (by simpa using hn)
          (by rw [treesFit_congr s (emitted s t w) rfl rfl rfl]; exact hfit.2) hreg
          (hp2.trans (List.append_assoc _ _ _).symm) (hr2.trans (List.append_assoc _ _ _).symm) o.ok
          (by
            have e1 : (emitted s t w).enc.patcur + (forestPattern ts ++ p.pattern).length =
                s.enc.patcur + (t.pattern ++ (forestPattern ts ++ p.pattern)).length := by
              show s.enc.patcur + t.pattern.length + (forestPattern ts ++ p.pattern).length = _
              simp [Nat.add_assoc]
            have e2 : (emitted s t w).enc.refcur + (forestRefs ts ++ p.refs).length =
                s.enc.refcur + (t.refs ++ (forestRefs ts ++ p.refs)).length := by
              show s.enc.refcur + t.refs.length + (forestRefs ts ++ p.refs).length = _
              simp [Nat.add_assoc]
            rw [e1, e2]
            exact he) with ⟨c, w2, hc, hf, o2⟩ | ⟨b, hf, o2⟩
      · exact .inl ⟨c, w2, hc, .later g hf, o.trans o2⟩
      · exact .inr ⟨b, .later g hf, o.filled o2⟩
    · exact .inr ⟨b, .here g, o.append _⟩

/-- The emission of the stripes from number `i` on fails, while WBUF is unbounded, only at such a
node. -/
theorem encStripes_failed (n i : Nat) (s : State) (e : Raise) (h : FailedStripes encVisit n i s e)
    (hcap : s.wbufCap = none) (hw : writerOK s.wr = true) :
    ∃ ts p r pat refs, ts.length < n ∧ treesFit s i ts = true ∧
      Before.region p (stripeRoot s (i + ts.length)) = some r ∧
      s.ana.pattern.drop s.enc.patcur = forestPattern ts ++ p.pattern ++ pat ∧
      s.pal.leafref.drop s.enc.refcur = forestRefs ts ++ p.refs ++ refs ∧
      EmitError (i + ts.length) (s.enc.patcur + (forestPattern ts ++ p.pattern).length)
        (s.enc.refcur + (forestRefs ts ++ p.refs).length) r pat refs (causeCode e.cause) e.info0
        e.info1 := by
  induction h with
  | @here m n i s e h =>
    obtain ⟨p, r, pat, refs, h1, h2, h3, h4⟩ := encVisit_failed _ _ _ _ _ h hcap hw
    exact ⟨[], p, r, pat, refs, by simp, rfl, h1, h2, h3, h4⟩
  | @later m n i s s1 e h hs ih =>
    have hw1 := encWalked_writerOK h hw
    obtain ⟨t, w, ft, rfl, pt, kt⟩ := encVisit_sound _ _ _ _ _ h
    obtain ⟨ts, p, r, pat, refs, h1, h2, h3, h4, h5, h6⟩ := ih hcap hw1
    have hidx : i + (t :: ts).length = i + 1 + ts.length := by simp; omega
    refine ⟨t :: ts, p, r, pat, refs, by simpa using h1, ?_, ?_, ?_, ?_, ?_⟩
    · rw [treesFit_congr s (emitted s t w) rfl rfl rfl] at h2
      simp only [treesFit, ft, h2, Bool.and_self]
    · rw [hidx]
      exact h3
    · refine pt.trans ?_
      have e : s.ana.pattern.drop (emitted s t w).enc.patcur = _ := h4
      rw [e]
      simp [forestPattern]
    · refine kt.trans ?_
      have e : s.pal.leafref.drop (emitted s t w).enc.refcur = _ := h5
      rw [e]
      simp [forestRefs]
    · have e1 : s.enc.patcur + (forestPattern (t :: ts) ++ p.pattern).length =
          (emitted s t w).enc.patcur + (forestPattern ts ++ p.pattern).length := by
        show _ = s.enc.patcur + t.pattern.length + (forestPattern ts ++ p.pattern).length
        simp [forestPattern, Nat.add_assoc]
      have e2 : s.enc.refcur + (forestRefs (t :: ts) ++ p.refs).length =
          (emitted s t w).enc.refcur + (forestRefs ts ++ p.refs).length := by
        show _ = s.enc.refcur + t.refs.length + (forestRefs ts ++ p.refs).length
        simp [forestRefs, Nat.add_assoc]
      rw [hidx, e1, e2]
      exact h6

theorem encTree_eq (s : State) : encTree s = (walk encVisit (s.withEnc ⟨0, 0⟩) >>= fun s' =>
    if s'.enc.patcur ≠ s'.ana.pattern.length ∨ s'.enc.refcur ≠ s'.pal.leafref.length then
      .error ⟨.leftover, s'.ana.pattern.length - s'.enc.patcur,
        s'.pal.leafref.length - s'.enc.refcur⟩
    else pure s') := rfl

/-- The emission pass raises what `EmitFails` says, or before that WbufFull (43_encoder.md R173). -/
theorem encTree_of_fails (s : State) (bits : List Bool) (code : Byte) (info0 info1 : Nat)
    (hc : cfgOK s = true) (hw : writerOK s.wr = true) (h : EmitFails s bits code info0 info1) :
    (∃ c w, causeCode c = code ∧ encTree s = .error ⟨c, info0, info1⟩ ∧
        Wrote s.wbufCap s.wr bits w) ∨
      ∃ k, encTree s = .error ⟨.wbufFull, k, 0⟩ ∧ Filled s.wbufCap s.wr bits k := by
  have hc0 : cfgOK (s.withEnc ⟨0, 0⟩) = true :=
    (cfgOK_congr s (s.withEnc ⟨0, 0⟩) rfl rfl rfl).trans hc
  cases h with
  | @node ts p r pat refs _ _ _ hdue hpat hrefs h =>
    rcases encStripes_failed_of ts s.cfg.nstripe.toNat 0 p r (s.withEnc ⟨0, 0⟩) pat refs code info0
        info1 hdue.1 ((treesFit_congr s (s.withEnc ⟨0, 0⟩) rfl rfl rfl 0 ts).trans hdue.2.1)
        (by rw [Nat.zero_add]; exact hdue.2.2) hpat hrefs hw (by simpa using h) with
      ⟨c, w, e, hf, o⟩ | ⟨k, hf, o⟩
    · exact .inl ⟨c, w, e, by rw [encTree_eq, walk_error encVisit_blind _ _ hc0 hf, error_bind], o⟩
    · exact .inr ⟨k, by rw [encTree_eq, walk_error encVisit_blind _ _ hc0 hf, error_bind], o⟩
  | @leftover ts pat refs hfit hpat hrefs h =>
    have hlen := forestFits_length s 0 ts hfit
    rw [Nat.zero_add] at hlen
    have hf0 : forestFits (s.withEnc ⟨0, 0⟩) 0 ts = true :=
      (forestFits_congr s (s.withEnc ⟨0, 0⟩) rfl rfl rfl 0 ts).trans hfit
    rcases encStripes_forest ts 0 (s.withEnc ⟨0, 0⟩) pat refs hf0 hpat hrefs hw with ⟨w, g, o⟩ |
      ⟨k, g, o⟩
    · rw [show ts.length = (s.withEnc ⟨0, 0⟩).cfg.nstripe.toNat from hlen] at g
      refine .inl ⟨.leftover, w, rfl, ?_, o⟩
      rw [encTree_eq, walk_ok encVisit_blind _ _ hc0 g, ok_bind]
      have e1 : s.ana.pattern.length = (forestPattern ts).length + pat.length := by rw [hpat]; simp
      have e2 : s.pal.leafref.length = (forestRefs ts).length + refs.length := by rw [hrefs]; simp
      have hne : pat.length ≠ 0 ∨ refs.length ≠ 0 := by
        rcases h with h | h
        · exact .inl fun h0 => h (List.length_eq_zero_iff.mp h0)
        · exact .inr fun h0 => h (List.length_eq_zero_iff.mp h0)
      have hcur : ((emittedAll (s.withEnc ⟨0, 0⟩) ts w).withStack []).enc =
          ⟨(forestPattern ts).length, (forestRefs ts).length⟩ := by
        simp [emittedAll]
      have ha : ((emittedAll (s.withEnc ⟨0, 0⟩) ts w).withStack []).ana = s.ana := rfl
      have hl : ((emittedAll (s.withEnc ⟨0, 0⟩) ts w).withStack []).pal = s.pal := rfl
      simp only [hcur, ha, hl]
      rw [if_pos (by omega), e1, e2, Nat.add_sub_cancel_left, Nat.add_sub_cancel_left]
    · rw [show ts.length = (s.withEnc ⟨0, 0⟩).cfg.nstripe.toNat from hlen] at g
      exact .inr ⟨k, by rw [encTree_eq, walk_error encVisit_blind _ _ hc0 g, error_bind], o⟩

/-- PATTERN and LEAFREF describe one tree per stripe, or the emission pass fails. -/
theorem forest_or_emitFails (s : State) (hc : cfgOK s = true) :
    (∃ ts, forestFits s 0 ts = true ∧ s.ana.pattern = forestPattern ts ∧
        s.pal.leafref = forestRefs ts) ∨
      ∃ bits code info0 info1, EmitFails s bits code info0 info1 := by
  let u : State := { s with wbufCap := none, wr := emptyWriter, enc := ⟨0, 0⟩ }
  have hcu : cfgOK u = true := (cfgOK_congr s u rfl rfl rfl).trans hc
  rcases walk_cases encVisit encVisit_blind u hcu with ⟨s', g, -⟩ | ⟨e, hf, -⟩
  · obtain ⟨ts, w, hfit, rfl, hp, hr⟩ := encStripes_sound _ _ _ _ (by simp) g
    have hfit' : forestFits s 0 ts = true := (forestFits_congr s u rfl rfl rfl 0 ts).symm.trans hfit
    have hp' : s.ana.pattern = forestPattern ts ++ s.ana.pattern.drop (emittedAll u ts w).enc.patcur :=
      hp
    have hr' : s.pal.leafref = forestRefs ts ++ s.pal.leafref.drop (emittedAll u ts w).enc.refcur :=
      hr
    by_cases h : s.ana.pattern.drop (emittedAll u ts w).enc.patcur = [] ∧
        s.pal.leafref.drop (emittedAll u ts w).enc.refcur = []
    · rw [h.1, List.append_nil] at hp'
      rw [h.2, List.append_nil] at hr'
      exact .inl ⟨ts, hfit', hp', hr'⟩
    · exact .inr ⟨_, _, _, _, .leftover hfit' hp' hr' (by rw [not_and_or] at h; exact h)⟩
  · obtain ⟨ts, p, r, pat, refs, h1, h2, h3, h4, h5, h6⟩ := encStripes_failed _ _ _ _ hf rfl rfl
    rw [Nat.zero_add] at h3 h6
    have h6' : EmitError ts.length (forestPattern ts ++ p.pattern).length
        (forestRefs ts ++ p.refs).length r pat refs (causeCode e.cause) e.info0 e.info1 := by
      simpa [u] using h6
    exact .inr ⟨_, _, _, _,
      .node ⟨h1, (treesFit_congr s u rfl rfl rfl 0 ts).symm.trans h2, h3⟩ h4 h5 h6'⟩

end Sys2Proof.Machine
end

