-- ==== Sys2Proof/Laws/Memory.lean ====
section
/-! SUPPORT. Sparse memory: a read after a write, and the canonical form. -/

namespace Sys2Proof.Machine

theorem Memory.read_write_same {α : Type} (m : Memory α) (a : Nat) (v : α) :
    Memory.read (Memory.write m a v) a = some v := by
  induction m with
  | nil => simp [Memory.write, Memory.read]
  | cons e rest ih =>
    obtain ⟨b, u⟩ := e
    simp only [Memory.write]
    split
    · simp [Memory.read]
    · split
      · simp [Memory.read]
      · rename_i h1 h2
        simp [Memory.read, h2, ih]

theorem Memory.read_write_other {α : Type} (m : Memory α) (a c : Nat) (v : α) (h : c ≠ a) :
    Memory.read (Memory.write m a v) c = Memory.read m c := by
  induction m with
  | nil => simp [Memory.write, Memory.read, h]
  | cons e rest ih =>
    obtain ⟨b, u⟩ := e
    simp only [Memory.write]
    split
    · simp [Memory.read, h]
    · split
      · rename_i h1 h2
        subst h2
        simp [Memory.read, h]
      · simp only [Memory.read, ih]

/-- Every listed address of a canonical memory is above `a`. -/
def Memory.above {α : Type} (a : Nat) : Memory α → Prop
  | [] => True
  | (b, _) :: _ => a < b

theorem Memory.wf_cons {α : Type} (a : Nat) (v : α) (m : Memory α) :
    Memory.wf ((a, v) :: m) = true ↔ Memory.above a m ∧ Memory.wf m = true := by
  cases m with
  | nil => simp [Memory.wf, Memory.above]
  | cons e rest => obtain ⟨b, u⟩ := e; simp [Memory.wf, Memory.above]

theorem Memory.above_write {α : Type} (m : Memory α) (a b : Nat) (v : α) (hb : b < a)
    (h : Memory.above b m) : Memory.above b (Memory.write m a v) := by
  cases m with
  | nil => simpa [Memory.write, Memory.above] using hb
  | cons e rest =>
    obtain ⟨c, u⟩ := e
    simp only [Memory.write]
    split
    · exact hb
    · split
      · exact hb
      · exact h

/-- A write keeps the canonical form. -/
theorem Memory.wf_write {α : Type} (m : Memory α) (a : Nat) (v : α) (h : Memory.wf m = true) :
    Memory.wf (Memory.write m a v) = true := by
  induction m with
  | nil => simp [Memory.write, Memory.wf]
  | cons e rest ih =>
    obtain ⟨b, u⟩ := e
    rw [Memory.wf_cons] at h
    simp only [Memory.write]
    split
    · rename_i hab
      rw [Memory.wf_cons, Memory.wf_cons]
      exact ⟨hab, h⟩
    · split
      · rename_i hab heq
        subst heq
        rw [Memory.wf_cons]
        exact h
      · rename_i hab hne
        rw [Memory.wf_cons]
        exact ⟨Memory.above_write rest a b v (by omega) h.1, ih h.2⟩

/-- Loading bytes keeps the canonical form. -/
theorem wf_loadRbuf (a : Nat) (bs : List Byte) (m : Memory Byte) (h : Memory.wf m = true) :
    Memory.wf (loadRbuf a bs m) = true := by
  induction bs generalizing a m with
  | nil => simpa [loadRbuf] using h
  | cons b rest ih => exact ih _ _ (Memory.wf_write m a b h)

/-- The reset state's memories are in canonical form. -/
theorem reset_memories_wf :
    Memory.wf State.reset.raster = true ∧ Memory.wf State.reset.stripe = true ∧
      Memory.wf State.reset.rbuf = true := by decide

end Sys2Proof.Machine
end

