-- ==== Sys2Proof/Laws/Load.lean ====
section
/-! SUPPORT. Bytes copied to the front of RBUF are the stream that is read (40_bitio.md R128), field by
field. -/

namespace Sys2Proof.Machine

theorem loadRbuf_read (bs : List Byte) (a k : Nat) (m : Memory Byte) :
    Memory.read (loadRbuf a bs m) k =
      if a ≤ k ∧ k < a + bs.length then bs[k - a]? else Memory.read m k := by
  induction bs generalizing a m with
  | nil => rw [if_neg (by simp only [List.length_nil]; omega)]; rfl
  | cons b rest ih =>
    have e : loadRbuf a (b :: rest) m = loadRbuf (a + 1) rest (Memory.write m a b) := rfl
    rw [e, ih]
    simp only [List.length_cons]
    rcases Nat.lt_trichotomy k a with h | rfl | h
    · rw [if_neg (by omega), if_neg (by omega), Memory.read_write_other _ _ _ _ (by omega)]
    · rw [if_neg (by omega), if_pos (by omega), Memory.read_write_same]
      simp
    · by_cases h2 : k < a + 1 + rest.length
      · rw [if_pos (by omega), if_pos (by omega), show k - a = k - (a + 1) + 1 by omega]
        rfl
      · rw [if_neg (by omega), if_neg (by omega), Memory.read_write_other _ _ _ _ (by omega)]

/-- The unread bits of a loaded stream are its bytes' bits. -/
theorem unreadBits_loaded (bs : List Byte) (s : State) : unreadBits (loaded bs s) = bytesToBits bs := by
  apply List.ext_getElem
  · simp [loaded]
  · intro k h1 h2
    have hk : k / 8 < bs.length := by simp at h2; omega
    rw [bytesToBits_getElem bs k h2 hk]
    simp only [unreadBits, List.getElem_map, List.getElem_range, loaded, streamBit, Nat.zero_add]
    congr 1
    simp only [rbyte, loadRbuf_read]
    rw [if_pos (by omega)]
    simp [List.getElem?_eq_getElem hk]

/-- Fields that lie next in the stream are read in order (20_memory.md R68). -/
theorem getFields_of_fields (fs : List (Nat × Nat)) (rest : List Bool) (s : State)
    (hp : s.rd.rpos ≤ 8 * s.rd.rlen) (hv : ∀ f ∈ fs, f.1 < 2 ^ f.2)
    (h : unreadBits s = fieldBits fs ++ rest) :
    getFields (fs.map Prod.snd) s = some (fs.map Prod.fst, s.advance (fs.map Prod.snd).sum) := by
  induction fs generalizing s with
  | nil => rfl
  | cons f fs ih =>
    obtain ⟨v, n⟩ := f
    have hv1 : v < 2 ^ n := hv (v, n) (by simp)
    have e : fieldBits ((v, n) :: fs) = natToBits n v ++ fieldBits fs := rfl
    rw [e, List.append_assoc] at h
    have hl : n ≤ (unreadBits s).length := by rw [h]; simp
    have hg : getbits n s = some (v, s.advance n) ∧ unreadBits (s.advance n) = fieldBits fs ++ rest := by
      by_cases hn : n = 0
      · subst hn
        obtain rfl : v = 0 := by simpa using hv1
        refine ⟨?_, by simpa [natToBits] using h⟩
        rw [getbits, if_neg (by omega)]
        rfl
      · exact getbits_of_field n v _ s (by omega) hv1 h
    have hp' : (s.advance n).rd.rpos ≤ 8 * (s.advance n).rd.rlen := by
      rw [unreadBits_length] at hl
      simp only [advance_rd]
      omega
    have := ih (s.advance n) hp' (fun f hf => hv f (by simp [hf])) hg.2
    simp only [List.map_cons, getFields, hg.1, this, advance_advance, List.sum_cons]

end Sys2Proof.Machine
end

