-- ==== Sys2Proof/Laws/PerInstr.lean ====
section
/-! SUPPORT. What holds of every instruction as syntax, one lemma per constructor. -/

namespace Sys2Proof.Laws.EncodedLength

/-- The number of bits of a row of the opcode table (30_encoding.md R92, R97, R98, R100, R104). -/
def rowBits : Instr → Nat
  | .leaf _ => 9
  | .internal => 1
  | .palCount _ => 16
  | .palEntry _ _ _ => 24
  | .pad n => n
  | .artHeader _ _ _ _ => 72
  | .palSize _ => 8
  | .nop | .bwInit | .putbit | .putbits | .bwFlush | .brInit | .getbit | .getbits | .splitgeom | .classify | .avgcolor
  | .analyze | .palInit | .palPush | .palBuild | .encPaltab | .encTree | .encode | .decPaltab | .decTree | .decode | .reset => 8

/-- An instruction is encoded in the bits its row has. -/
def Statement (i : Instr) : Prop := (encode i).length = rowBits i

theorem leaf (idx : Byte) : Statement (.leaf idx) := by
  simp [Statement, rowBits, encode]
theorem internal : Statement .internal := rfl
theorem palCount (p : Half) : Statement (.palCount p) := by
  simp [Statement, rowBits, encode]
theorem palSize (s : Byte) : Statement (.palSize s) := by
  simp [Statement, rowBits, encode]
theorem palEntry (r g b : Byte) : Statement (.palEntry r g b) := by
  simp [Statement, rowBits, encode]
theorem pad (n : Nat) : Statement (.pad n) := by
  simp [Statement, rowBits, encode]
theorem artHeader (magic : BitVec 32) (width height : Half) (quality : Byte) : Statement (.artHeader magic width height quality) := by
  simp [Statement, rowBits, encode]
theorem nop : Statement .nop := rfl
theorem bwInit : Statement .bwInit := rfl
theorem putbit : Statement .putbit := rfl
theorem putbits : Statement .putbits := rfl
theorem bwFlush : Statement .bwFlush := rfl
theorem brInit : Statement .brInit := rfl
theorem getbit : Statement .getbit := rfl
theorem getbits : Statement .getbits := rfl
theorem splitgeom : Statement .splitgeom := rfl
theorem classify : Statement .classify := rfl
theorem avgcolor : Statement .avgcolor := rfl
theorem analyze : Statement .analyze := rfl
theorem palInit : Statement .palInit := rfl
theorem palPush : Statement .palPush := rfl
theorem palBuild : Statement .palBuild := rfl
theorem encPaltab : Statement .encPaltab := rfl
theorem encTree : Statement .encTree := rfl
theorem encode : Statement .encode := rfl
theorem decPaltab : Statement .decPaltab := rfl
theorem decTree : Statement .decTree := rfl
theorem decode : Statement .decode := rfl
theorem reset : Statement .reset := rfl

end Sys2Proof.Laws.EncodedLength
end

