-- ==== Sys2Proof/Tests/Slice0.lean ====
section
/-! SUPPORT. The author's tests of the layers, of single steps, and a witness for every statement
with hypotheses. Expected values are those of 95_test_vectors.md where a vector is named, else worked
out by hand from the rule. -/

namespace Sys2Proof.Tests

open Sys2Proof.Machine

/-! ## Well-formedness -/

theorem test_pad_eight_refused : wellFormed (.pad 8) = false := rfl
theorem test_pad_seven_accepted : wellFormed (.pad 7) = true := rfl

/-! ## Decoding: every constructor from bits written out from its encoding -/

theorem test_decode_leaf :
    decode .token [true, false, false, false, false, false, false, true, true, false] =
      .ok (.leaf 3, [false]) := rfl
theorem test_decode_internal : decode .token [false, true] = .ok (.internal, [true]) := rfl
theorem test_decode_palCount :
    decode .palCount [false, false, false, false, false, false, false, true,
      false, false, false, false, false, false, true, false] = .ok (.palCount 258, []) := rfl
theorem test_decode_palSize :
    decode .palSize [true, true, true, true, true, true, true, false] = .ok (.palSize 254, []) := rfl
theorem test_decode_palEntry :
    decode .palEntry [true, true, false, false, true, false, false, false,
      false, true, true, false, false, true, false, false,
      false, false, true, true, false, false, true, false] = .ok (.palEntry 200 100 50, []) := rfl
theorem test_decode_pad : decode (.pad 3) [false, false, false] = .ok (.pad 3, []) := rfl
theorem test_decode_artHeader :
    decode .header (bytesToBits [1, 2, 3, 4, 0, 4, 1, 0, 50]) =
      .ok (.artHeader 0x01020304 4 256 50, []) := rfl
theorem test_decode_nop :
    decode .cmd [false, false, false, false, false, false, false, false] = .ok (.nop, []) := rfl
theorem test_decode_bwInit :
    decode .cmd [false, false, false, false, false, false, false, true] = .ok (.bwInit, []) := rfl
theorem test_decode_putbit :
    decode .cmd [false, false, false, false, false, false, true, false] = .ok (.putbit, []) := rfl
theorem test_decode_putbits :
    decode .cmd [false, false, false, false, false, false, true, true] = .ok (.putbits, []) := rfl
theorem test_decode_bwFlush :
    decode .cmd [false, false, false, false, false, true, false, false] = .ok (.bwFlush, []) := rfl
theorem test_decode_brInit :
    decode .cmd [false, false, false, false, false, true, false, true] = .ok (.brInit, []) := rfl
theorem test_decode_getbit :
    decode .cmd [false, false, false, false, false, true, true, false] = .ok (.getbit, []) := rfl
theorem test_decode_getbits :
    decode .cmd [false, false, false, false, false, true, true, true] = .ok (.getbits, []) := rfl
theorem test_decode_splitgeom :
    decode .cmd [false, false, false, true, false, false, false, false] = .ok (.splitgeom, []) := rfl
theorem test_decode_classify :
    decode .cmd [false, false, false, true, false, false, false, true] = .ok (.classify, []) := rfl
theorem test_decode_avgcolor :
    decode .cmd [false, false, false, true, false, false, true, false] = .ok (.avgcolor, []) := rfl
theorem test_decode_analyze :
    decode .cmd [false, false, false, true, false, false, true, true] = .ok (.analyze, []) := rfl
theorem test_decode_palInit :
    decode .cmd [false, false, true, false, false, false, false, false] = .ok (.palInit, []) := rfl
theorem test_decode_palPush :
    decode .cmd [false, false, true, false, false, false, false, true] = .ok (.palPush, []) := rfl
theorem test_decode_palBuild :
    decode .cmd [false, false, true, false, false, false, true, false] = .ok (.palBuild, []) := rfl
theorem test_decode_encPaltab :
    decode .cmd [false, false, true, true, false, false, false, false] = .ok (.encPaltab, []) := rfl
theorem test_decode_encTree :
    decode .cmd [false, false, true, true, false, false, false, true] = .ok (.encTree, []) := rfl
theorem test_decode_encode :
    decode .cmd [false, false, true, true, false, false, true, false] = .ok (.encode, []) := rfl
theorem test_decode_decPaltab :
    decode .cmd [false, true, false, false, false, false, false, false] = .ok (.decPaltab, []) := rfl
theorem test_decode_decTree :
    decode .cmd [false, true, false, false, false, false, false, true] = .ok (.decTree, []) := rfl
theorem test_decode_decode :
    decode .cmd [false, true, false, false, false, false, true, false] = .ok (.decode, []) := rfl
theorem test_decode_reset :
    decode .cmd [true, true, true, true, true, true, true, true] = .ok (.reset, []) := rfl

theorem test_truncated_leaf :
    decode .token [true, false, false, false, false, false, false, false] =
      .error (.truncated "LEAF") := rfl
theorem test_reserved_code : decode .cmd [false, false, false, false, true, false, false, false] =
    .error (.reservedCommand 0x08) := rfl

/-! Words of the opcode table in its own numbering. -/

theorem test_table_command : decodeTableWord 8 0x42 = some .decode := rfl
theorem test_table_leaf : decodeTableWord 9 0x105 = some (.leaf 5) := rfl
theorem test_table_internal : decodeTableWord 1 0 = some .internal := rfl
theorem test_table_palCount : decodeTableWord 16 0x0201 = some (.palCount 0x0102) := rfl
theorem test_table_palEntry : decodeTableWord 24 0x3264C8 = some (.palEntry 200 100 50) := rfl
theorem test_table_pad : decodeTableWord 7 0 = some (.pad 7) := rfl

/-! ## Single steps -/

/-- The reset state with WBUF unbounded. -/
def base : State := { State.reset with wbufCap := none }

/-- ARG. -/
def withArgs (a b c d : Nat) (s : State) : State :=
  { s with arg := ⟨BitVec.ofNat 64 a, BitVec.ofNat 64 b, BitVec.ofNat 64 c, BitVec.ofNat 64 d⟩ }

/-- Entries listed from address `a` on. -/
def listed {α : Type} : Nat → List α → Memory α
  | _, [] => []
  | a, v :: vs => (a, v) :: listed (a + 1) vs

/-- A raster of these pixels, row by row, in one stripe. -/
def image (w h : Nat) (px : List Color) (s : State) : State :=
  { s with
    cfg := { s.cfg with imgW := BitVec.ofNat 16 w, imgH := BitVec.ofNat 16 h, nstripe := 1 }
    stripe := [(0, ⟨0, BitVec.ofNat 16 h⟩)]
    raster := listed 0 px }

/-- An image in `n` stripes of one row each. -/
def rows (w n : Nat) (px : List Color) (s : State) : State :=
  { image w n px s with
    cfg := { (image w n px s).cfg with nstripe := BitVec.ofNat 16 n }
    stripe := listed 0 ((List.range n).map fun i => ⟨BitVec.ofNat 16 i, 1⟩) }

/-- RBUF and the reader at its start. -/
def stream (bytes : List Byte) (s : State) : State :=
  { s with rbuf := listed 0 bytes, rd := ⟨bytes.length, 0⟩ }

/-- The state after an instruction. -/
def after (i : Instr) (s : State) : State :=
  match exec i s with
  | .next t => t
  | .fault _ => s
  | .refused _ => s

/-- MAXGRAD. -/
def grad (g : Nat) (s : State) : State :=
  { s with cfg := { s.cfg with maxgrad := BitVec.ofNat 16 g } }

/-- COLORTOL. -/
def tol (g : Nat) (s : State) : State :=
  { s with cfg := { s.cfg with colortol := BitVec.ofNat 16 g } }

/-- A luma for tests of functions that take one: the red channel. -/
def red (c : Color) : BitVec 16 := c.r.setWidth 16

/-- The colour whose `red` is `n`. -/
def grey (n : Nat) : Color := ⟨BitVec.ofNat 8 n, 0, 0⟩

/-- A 4×4 raster of luma 100 but for two pixels (vectors C1, C2, C2b). -/
def twoSpots (n : Nat) : State :=
  grad 20 (image 4 4 ((List.replicate 6 (grey 100)) ++ [grey n] ++ (List.replicate 8 (grey 100)) ++
    [grey 110]) base)

/-- One black palette entry, the table that T1 has with it, and a region that waits. -/
def waiting (r : Region) (rpos : Nat) : State :=
  { base with
    due := .node 0, wstk := [r], rd := ⟨8, rpos⟩, pal := ⟨[[⟨200, 100, 50⟩]], []⟩ }

/-- The bytes of vector T1. -/
def t1 : List Byte := [0x00, 0x01, 0x01, 0xC8, 0x64, 0x32, 0x80, 0x00]

/-- The configuration of vector T1, and its raster. -/
def flat4 : State := image 4 4 (List.replicate 16 ⟨200, 100, 50⟩) base

/-- One pixel, as vector D7 has it. -/
def dot : State := image 1 1 [⟨200, 100, 50⟩] base

/-- Vector T2's raster. -/
def columns : State :=
  image 2 2 [⟨10, 20, 30⟩, ⟨200, 210, 220⟩, ⟨10, 20, 30⟩, ⟨200, 210, 220⟩] base

-- T1: the one leaf
theorem test_leaf : (after (.leaf 0) (waiting ⟨0, 0, 4, 4⟩ 57)).dec.jobq = [⟨0, 0, 4, 4, 0, 0⟩] ∧
    (after (.leaf 0) (waiting ⟨0, 0, 4, 4⟩ 57)).wstk = [] := by decide
-- D4
theorem test_leaf_index :
    (after (.leaf 1) (waiting ⟨0, 0, 4, 4⟩ 57)).fault = ⟨true, 0x14, 0, 1⟩ := by decide
-- splitGeom(5,4) = Width(2,3)
theorem test_internal :
    (after .internal (waiting ⟨0, 0, 5, 4⟩ 49)).wstk = [⟨0, 0, 2, 4⟩, ⟨2, 0, 3, 4⟩] := by decide
-- D6
theorem test_internal_unsplittable :
    (after .internal (waiting ⟨0, 0, 1, 1⟩ 49)).fault = ⟨true, 0x15, 48, 0⟩ := by decide
theorem test_palCount : (after (.palCount 2) (base.withDue .count)).due = .size 2 := by decide
theorem test_palSize : (after (.palSize 3) (base.withDue (.size 2))).due = .entry 1 3 [] := by decide
theorem test_palSize_empty :
    (after (.palSize 0) (base.withDue (.size 1))).pal.palettes = [[]] := by decide
theorem test_palEntry :
    (after (.palEntry 1 2 3) (base.withDue (.entry 0 1 [⟨4, 5, 6⟩]))).pal.palettes =
      [[⟨4, 5, 6⟩, ⟨1, 2, 3⟩]] := by decide
theorem test_pad : exec (.pad 7) base = .next base := rfl
theorem test_artHeader : (after (.artHeader Config.magic 4 256 50) base).cfg.imgH = 256 := by
  simp [after, exec, execArtHeader]
-- F8
theorem test_nop : exec .nop base = .next base := rfl
-- B16
theorem test_bwInit :
    (after .bwInit { base with wr := ⟨[1], 0xA0, 3⟩ }).wr = ⟨[], 0, 0⟩ := by decide
-- P4 step 3
theorem test_putbit :
    (after .putbit (withArgs 1 0 0 0 { base with wr := ⟨[], 0, 1⟩ })).wr = ⟨[], 0x40, 2⟩ := by decide
-- B15
theorem test_putbit_operand :
    (after .putbit (withArgs 2 0 0 0 base)).fault = ⟨true, 0x42, 0, 2⟩ := by decide
-- B4
theorem test_putbits :
    (after .putbits (withArgs 0x101 9 0 0 base)).wr = ⟨[0x80], 0x80, 1⟩ := by decide
-- F11
theorem test_putbits_width_first :
    (after .putbits (withArgs 4 40 0 0 base)).fault = ⟨true, 0x42, 1, 40⟩ := by decide
-- B5
theorem test_bwFlush :
    (after .bwFlush { base with wr := ⟨[0x80], 0x80, 1⟩ }).wr = ⟨[0x80, 0x80], 0, 0⟩ := by decide
-- B18
theorem test_bwFlush_full :
    (after .bwFlush { base with wbufCap := some 1, wr := ⟨[0xFF], 0x80, 1⟩ }).fault =
      ⟨true, 0x24, 1, 0⟩ := by decide
-- R125's example
theorem test_brInit : (after .brInit (withArgs 8 0 0 0 base)).rd = ⟨8, 0⟩ := by decide
-- G1
theorem test_getbit : (after .getbit (stream [0xA0] base)).res.r0 = 1 ∧
    (after .getbit (stream [0xA0] base)).rd.rpos = 1 := by decide
-- F5
theorem test_getbit_end : (after .getbit base).fault = ⟨true, 0x12, 0, 1⟩ := by decide
-- G2
theorem test_getbits :
    (after .getbits (withArgs 9 0 0 0 (stream [0x80, 0x80] base))).res.r0 = 0x101 := by decide
-- G12
theorem test_getbits_length :
    (after .getbits (withArgs 17 0 0 0 { stream [0x12, 0x34, 0x56] base with rd := ⟨2, 0⟩ })).fault =
      ⟨true, 0x12, 0, 17⟩ := by decide
-- SPLITGEOM 7, 3
theorem test_splitgeom : (after .splitgeom (withArgs 7 3 0 0 base)).res = ⟨1, 3, 4, 0⟩ := by decide
-- SPLITGEOM 5, 0
theorem test_splitgeom_operand :
    (after .splitgeom (withArgs 5 0 0 0 base)).fault = ⟨true, 0x42, 1, 0⟩ := by decide
-- C7
theorem test_classify : (after .classify (withArgs 0 0 1 1 dot)).res = ⟨0, 0, 0, 1⟩ := by decide
-- C1, C2, C2b, C11 with luma given
theorem test_classify_energy :
    classify red (twoSpots 104) ⟨0, 0, 4, 4⟩ = (.width 2 2, 5) ∧
    classify red (twoSpots 106) ⟨0, 0, 4, 4⟩ = (.undivided, 4) ∧
    classify red (twoSpots 105) ⟨0, 0, 4, 4⟩ = (.width 2 2, 5) ∧
    borderEnergy red (image 4 4 ((List.range 16).map fun k => grey (k + 1)) base) ⟨2, 2, 4, 4⟩ = 4 :=
  by decide +kernel
-- A1
theorem test_avgcolor :
    (after .avgcolor (withArgs 0 0 3 1
      (image 3 1 [⟨255, 0, 1⟩, ⟨254, 0, 2⟩, ⟨254, 1, 2⟩] base))).res.r0 = 0xFE0001 := by decide
-- A6
theorem test_avgcolor_outside :
    (after .avgcolor (withArgs 4 0 1 1 flat4)).fault = ⟨true, 0x42, 0, 4⟩ := by decide
theorem test_analyze : (after .analyze dot).ana = ⟨[true], [⟨200, 100, 50⟩]⟩ ∧
    (after .analyze dot).res = ⟨1, 1, 0, 0⟩ := by decide
-- T2 with luma given
theorem test_analyze_columns :
    ((analyze red columns).toOption.map State.ana) =
      some ⟨[false, true, true], [⟨10, 20, 30⟩, ⟨200, 210, 220⟩]⟩ := by decide +kernel
theorem test_palInit : (after .palInit { base with pal := ⟨[[]], [1]⟩ }).pal = ⟨[], []⟩ := by decide
-- P6 step 6
theorem test_palPush :
    (after .palPush (withArgs 0x0F0F0F 0 0 0
      (tol 10 { base with pal := ⟨[[⟨0, 0, 0⟩, ⟨20, 20, 20⟩]], [0, 0, 1, 0]⟩ }))).res =
      ⟨0, 1, 0, 0⟩ := by decide
-- the shared-buffer check of section 4
theorem test_palPush_state :
    (after .palPush (withArgs 0x010203 0 0 0 { base with pal := ⟨[[⟨200, 100, 50⟩]], []⟩ })).fault =
      ⟨true, 0x43, 1, 1⟩ := by decide
-- P9
theorem test_palBuild :
    (after .palBuild (tol 10 { base with ana := ⟨[], [⟨0, 0, 0⟩, ⟨11, 0, 0⟩, ⟨5, 0, 0⟩]⟩ })).pal =
      ⟨[[⟨0, 0, 0⟩, ⟨11, 0, 0⟩]], [0, 1, 0]⟩ := by decide
-- P6 step 8
theorem test_encPaltab :
    (after .encPaltab
      { base with pal := ⟨[[⟨0, 0, 0⟩, ⟨20, 20, 20⟩, ⟨30, 9, 20⟩]], []⟩ }).wr.wbuf =
      [0x00, 0x01, 0x03, 0x00, 0x00, 0x00, 0x14, 0x14, 0x14, 0x1E, 0x09, 0x14] := by decide +kernel
-- P3 step 9
theorem test_encTree :
    (after .encTree
      { columns with ana := ⟨[false, true, true], []⟩, pal := ⟨[], [0, 1]⟩ }).wr =
      ⟨[0x40, 0x20], 0x20, 3⟩ := by decide +kernel
-- T8, the fourth case
theorem test_encTree_leftover :
    (after .encTree
      { columns with ana := ⟨[true, true, true], []⟩, pal := ⟨[], [0, 1]⟩ }).fault =
      ⟨true, 0x34, 2, 1⟩ := by decide +kernel
-- T1's bytes for one leaf
theorem test_encode : (after .encode dot).wr.wbuf = t1 ∧ (after .encode dot).res.r0 = 8 := by
  decide +kernel
-- T2 with luma given
theorem test_encode_columns :
    ((encodeBody red columns).toOption.map fun s => s.wr.wbuf) =
      some [0x00, 0x01, 0x02, 0x0A, 0x14, 0x1E, 0xC8, 0xD2, 0xDC, 0x40, 0x20, 0x20] := by
  decide +kernel
-- R186's example
theorem test_decPaltab :
    (after .decPaltab (stream t1 base)).pal.palettes = [[⟨200, 100, 50⟩]] ∧
    (after .decPaltab (stream t1 base)).rd.rpos = 48 := by decide +kernel
-- D3
theorem test_decPaltab_truncated :
    (after .decPaltab (stream [0x00, 0x01, 0x02, 0xC8, 0x64, 0x32, 0x80] base)).fault =
      ⟨true, 0x11, 56, 0⟩ := by decide +kernel
-- R188's example
theorem test_decTree :
    (after .decTree { stream t1 flat4 with
      rd := ⟨8, 48⟩, pal := ⟨[[⟨200, 100, 50⟩]], []⟩ }).dec = ⟨[⟨0, 0, 4, 4, 0, 0⟩], 1⟩ := by
  decide +kernel
-- D8
theorem test_decode :
    (after .decode (withArgs 9 0 0 0 (stream [0x00, 0x01, 0x01, 0xC8, 0x64, 0x32, 0x40, 0x20, 0x00]
      flat4))).res = ⟨2, 67, 0, 0⟩ := by decide +kernel
-- D15
theorem test_decode_mismatch :
    (after .decode (withArgs 12 0 0 0 (stream
      [0x00, 0x01, 0x02, 0x0A, 0x14, 0x1E, 0xC8, 0xD2, 0xDC, 0x40, 0x20, 0x20]
      (rows 2 2 [] base)))).fault = ⟨true, 0x15, 92, 1⟩ := by decide +kernel
-- F4
theorem test_reset :
    (after .reset { withArgs 1 2 3 4 base with fault := ⟨true, 0x41, 8, 0⟩ }).fault =
      ⟨false, 0, 0, 0⟩ ∧
    (after .reset { withArgs 1 2 3 4 base with fault := ⟨true, 0x41, 8, 0⟩ }).arg =
      ⟨1, 2, 3, 4⟩ := by decide

/-! ## Witnesses

One for each statement with hypotheses: concrete states and operands that meet them, clause by clause,
at the edges of the clauses' ranges. -/

theorem witness_DecodeOfEncode : wellFormed (.pad 7) = true ∧ wellFormed (.leaf 255) = true := by
  decide

theorem witness_EncodeOfDecode :
    decode .token (List.replicate 9 true) = .ok (.leaf 255, []) ∧ Port.token ≠ .pad 7 ∧
    decode (.pad 7) (List.replicate 8 true) = .ok (.pad 7, [true]) := ⟨rfl, by decide, rfl⟩

theorem witness_ReservedCodes :
    (decodeCommand 0x08 = none ∧ decodeCommand 0x0F = none ∧ decodeCommand 0x14 = none ∧
      decodeCommand 0x1F = none ∧ decodeCommand 0x23 = none ∧ decodeCommand 0x2F = none ∧
      decodeCommand 0x33 = none ∧ decodeCommand 0x3F = none ∧ decodeCommand 0x43 = none ∧
      decodeCommand 0xFE = none) ∧
    ∃ s : State, s.cmd = some 0xFE ∧ Running s :=
  ⟨by decide, { base with cmd := some 0xFE }, by decide⟩

/-- A leaf token is next, and a region waits. -/
def dueLeaf : State := { waiting ⟨0, 0, 4, 4⟩ 48 with rbuf := listed 0 t1 }

/-- The host reads a header next. -/
def dueHeader : State := { base with hostq := [.readHeader [1, 2, 3, 4, 0, 4, 1, 0, 50]] }

theorem witness_StepRunsInstruction :
    (({ base with cmd := some 0xFF } : State).cmd = some 0xFF ∧ decodeCommand 0xFF = some .reset) ∧
    (dueLeaf.cmd = none ∧ dueLeaf.rd.rpos ≤ 8 * dueLeaf.rd.rlen ∧ duePort dueLeaf = some .token ∧
      decode .token (unreadBits dueLeaf) = .ok (.leaf 0, List.replicate 7 false)) ∧
    (dueHeader.cmd = none ∧ dueHeader.due = .none ∧
      dueHeader.hostq = [.readHeader [1, 2, 3, 4, 0, 4, 1, 0, 50]] ∧
      decode .header (bytesToBits [1, 2, 3, 4, 0, 4, 1, 0, 50]) =
        .ok (.artHeader 0x01020304 4 256 50, [])) :=
  ⟨by decide, ⟨by decide, by decide, by decide, rfl⟩, by decide, by decide, rfl, rfl⟩

/-- The host writes CMD next. -/
def dueCommand : State := { base with hostq := [.writeReg 0x00 0x42] }

theorem witness_CmdWriteStartsCommand :
    dueCommand.cmd = none ∧ dueCommand.due = .none ∧ dueCommand.hostq = [.writeReg 0x00 0x42] ∧
      decodeCommand ((0x42 : Word).setWidth 8) = some .decode := by decide

theorem witness_StepHostActions :
    (dueCommand.cmd = none ∧ dueCommand.due = .none ∧
      dueCommand.hostq = .writeReg 0x00 0x42 :: [] ∧
      (∀ bytes, HostOp.writeReg 0x00 0x42 ≠ .readHeader bytes) ∧
      hostAct (.writeReg 0x00 0x42) base = .ok { base with cmd := some 0x42 }) ∧
    (base.cmd = none ∧ base.due = .none ∧ base.hostq = []) ∧
    (step { base with hostq := [.writeRaster (65535 * 65535) ⟨0, 0, 0⟩] } =
        .fault (.noSuchEntry .raster (65535 * 65535)) ∧
      step { base with hostq := [.writeStripe 65535 ⟨0, 0⟩] } = .fault (.noSuchEntry .stripe 65535) ∧
      step { base with hostq := [.writeRbuf (2 ^ 64) 0] } = .fault (.noSuchEntry .rbuf (2 ^ 64))) :=
  ⟨⟨by decide, by decide, rfl, (fun _ h => by cases h), rfl⟩, by decide, rfl, rfl, rfl⟩

theorem witness_RegisterMap :
    ((0x10 : Byte) = 0x10 ∧ (0x15 : Byte) = 0x15) ∧ ((0x08 : Byte) ≠ 0x00 ∧ (0x09 : Byte) ≠ 0x08) ∧
    (∀ num ∈ ([0x01, 0x07, 0x0C, 0x0F, 0x12, 0x16, 0xFF] : List Byte),
      ¬ (num.toNat = 0x00 ∨ (0x08 ≤ num.toNat ∧ num.toNat ≤ 0x0B) ∨ num.toNat = 0x10 ∨
        num.toNat = 0x11 ∨ (0x13 ≤ num.toNat ∧ num.toNat ≤ 0x15))) ∧
    (∀ num ∈ ([0x00, 0x04, 0x07, 0x16, 0x1F, 0x25, 0x27, 0x30, 0xFF] : List Byte),
      num.toNat = 0x00 ∨ (0x04 ≤ num.toNat ∧ num.toNat ≤ 0x07) ∨
        (0x16 ≤ num.toNat ∧ num.toNat ≤ 0x1F) ∨ (0x25 ≤ num.toNat ∧ num.toNat ≤ 0x27) ∨
        0x30 ≤ num.toNat) := by decide

theorem inv_base : Inv { base with cmd := some 0x02 } :=
  ⟨rfl, rfl, rfl, rfl, fun _ => ⟨rfl, rfl, rfl, rfl, (fun _ h => by cases h), by decide, rfl, rfl,
    by decide⟩⟩

theorem witness_StepKeepsInv :
    Inv { base with cmd := some 0x02 } ∧
    step { base with cmd := some 0x02 } = .next (after .putbit base) := ⟨inv_base, rfl⟩

theorem witness_BlockAndHostOwnership :
    (portOf .reset ≠ .header ∧ exec .reset base = .next (after .reset base)) ∧
    (HostOp.writePattern 0 true ≠ .powerOn ∧
      hostAct (.writePattern 0 true) { base with ana := ⟨[false], []⟩ } =
        .ok { base with ana := ⟨[true], []⟩ }) := ⟨⟨by decide, rfl⟩, by decide, rfl⟩

theorem witness_HostWriteReadsBack :
    -- IMG_W = 0: an entry all the same
    (base.cfg.imgW = 0 ∧
      hostAct (.writeRaster 7 ⟨1, 2, 3⟩) base = .ok { base with raster := [(7, ⟨1, 2, 3⟩)] }) ∧
    (1 < columns.cfg.imgW.toNat ∧
      hostAct (.writeRaster (1 * columns.cfg.imgW.toNat + 1) ⟨1, 2, 3⟩) columns =
        .ok { columns with raster := Memory.write columns.raster 3 ⟨1, 2, 3⟩ }) ∧
    hostAct (.writeStripe 65534 ⟨1, 2⟩) base = .ok { base with stripe := [(65534, ⟨1, 2⟩)] } ∧
    hostAct (.writeRbuf (2 ^ 64 - 1) 7) base = .ok { base with rbuf := [(2 ^ 64 - 1, 7)] } ∧
    ((0 : Nat) < [false].length ∧ hostAct (.writePattern 0 true) { base with ana := ⟨[false], []⟩ } =
      .ok { base with ana := ⟨[true], []⟩ }) ∧
    hostAct (.writeLeafcolor 0 ⟨1, 2, 3⟩) { base with ana := ⟨[], [⟨0, 0, 0⟩]⟩ } =
      .ok { base with ana := ⟨[], [⟨1, 2, 3⟩]⟩ } ∧
    (([⟨1, 2, 3⟩] : List Color)[0]? = some ⟨1, 2, 3⟩ ∧ ([⟨1, 2, 3⟩] : List Color).length ≤ 1) :=
  ⟨⟨rfl, rfl⟩, ⟨by decide, rfl⟩, rfl, rfl, ⟨by decide, rfl⟩, rfl, rfl, by decide⟩

theorem witness_ConfigValidity :
    (cfgOK flat4 = true ∧ cfgOK (rows 2 2 [] base) = true) ∧
    (Running base ∧ imgOK base = false ∧ cfgOK base = false) ∧
    -- section 6: a table that does not reach IMG_H, and one with a gap
    (cfgOK { flat4 with stripe := [(0, ⟨0, 3⟩)] } = false ∧
      cfgOK { flat4 with
        cfg := { flat4.cfg with nstripe := 2 }, stripe := [(0, ⟨0, 2⟩), (1, ⟨3, 1⟩)] } = false) := by
  decide

/-- A faulted state at a command boundary. -/
def faulted (code : Option Byte) : State := { base with cmd := code, fault := ⟨true, 0x12, 0, 1⟩ }

theorem witness_RefusedWhileFaulted :
    (faulted (some 0x00)).cmd = some 0x00 ∧ (faulted (some 0xFE)).cmd = some 0xFE ∧
      (faulted (some 0xFE)).fault.flag = true ∧ (0xFE : Byte) ≠ 0xFF := by decide

theorem inv_faulted (code : Option Byte) (q : List HostOp) :
    Inv { faulted code with hostq := q } :=
  ⟨rfl, rfl, rfl, rfl, fun h => by cases h⟩

theorem witness_FaultLeftOnlyByReset :
    (Inv (faulted (some 0xFF)) ∧ (faulted (some 0xFF)).fault.flag = true ∧
      step (faulted (some 0xFF)) = .next (after .reset (faulted none)) ∧
      (after .reset (faulted none)).fault ≠ (faulted (some 0xFF)).fault) ∧
    (Inv { faulted none with hostq := [.powerOn] } ∧
      step { faulted none with hostq := [.powerOn] } = .next (powerOn (faulted none)) ∧
      (powerOn (faulted none)).fault ≠ (faulted none).fault) :=
  ⟨⟨inv_faulted _ [], by decide, rfl, by decide⟩, inv_faulted _ _, rfl, by decide⟩

theorem witness_BwInit : Running { base with wr := ⟨[1], 0xA0, 3⟩ } := by decide

/-- A writer that has one byte, of room for `cap`, and `n` bits of the next. -/
def writing (cap : Nat) (acc : Byte) (n : BitVec 3) : State :=
  { base with wbufCap := some cap, wr := ⟨[0xFF], acc, n⟩ }

theorem witness_Putbit :
    (Running (withArgs 2 0 0 0 base) ∧ 1 < arg0 (withArgs 2 0 0 0 base)) ∧
    (arg0 (withArgs 1 0 0 0 (writing 1 0 6)) ≤ 1 ∧ (writing 1 0 6).wr.wnb ≠ 7) ∧
    (arg0 (withArgs 1 0 0 0 (writing 2 0 7)) ≤ 1 ∧ (writing 2 0 7).wr.wnb = 7 ∧
      ∀ c, (writing 2 0 7).wbufCap = some c → (writing 2 0 7).wr.wbuf.length < c) ∧
    (arg0 (withArgs 1 0 0 0 (writing 1 0 7)) ≤ 1 ∧ (writing 1 0 7).wr.wnb = 7 ∧
      (writing 1 0 7).wbufCap = some 1 ∧ 1 ≤ (writing 1 0 7).wr.wbuf.length) :=
  ⟨by decide, by decide, ⟨by decide, by decide, fun c h => by cases h; decide⟩, by decide⟩

theorem witness_Putbits :
    (Running (withArgs 0 33 0 0 base) ∧ writerOK base.wr = true ∧
      32 < arg1 (withArgs 0 33 0 0 base)) ∧
    (arg1 (withArgs (2 ^ 32) 32 0 0 base) ≤ 32 ∧
      2 ^ arg1 (withArgs (2 ^ 32) 32 0 0 base) ≤ arg0 (withArgs (2 ^ 32) 32 0 0 base)) ∧
    (arg0 (withArgs (2 ^ 32 - 1) 32 0 0 base) < 2 ^ arg1 (withArgs (2 ^ 32 - 1) 32 0 0 base) ∧
      roomFor (withArgs (2 ^ 32 - 1) 32 0 0 base) 32 = true) ∧
    (arg1 (withArgs 0xFF 8 0 0 (writing 1 0 0)) ≤ 32 ∧
      arg0 (withArgs 0xFF 8 0 0 (writing 1 0 0)) < 2 ^ arg1 (withArgs 0xFF 8 0 0 (writing 1 0 0)) ∧
      (writing 1 0 0).wbufCap = some 1 ∧ (writing 1 0 0).wr.wbuf.length ≤ 1 ∧
      roomFor (withArgs 0xFF 8 0 0 (writing 1 0 0)) 8 = false) := by decide

theorem witness_BwFlush :
    (Running base ∧ writerOK base.wr = true ∧ base.wr.wnb = 0) ∧
    (writerOK (writing 2 0x80 1).wr = true ∧ (writing 2 0x80 1).wr.wnb ≠ 0 ∧
      ∀ c, (writing 2 0x80 1).wbufCap = some c → (writing 2 0x80 1).wr.wbuf.length < c) ∧
    (writerOK (writing 1 0xFE 7).wr = true ∧ (writing 1 0xFE 7).wr.wnb ≠ 0 ∧
      (writing 1 0xFE 7).wbufCap = some 1 ∧ 1 ≤ (writing 1 0xFE 7).wr.wbuf.length) :=
  ⟨by decide, ⟨by decide, by decide, fun c h => by cases h; decide⟩, by decide⟩

theorem witness_WbufAppendOnly :
    Instr.putbits ≠ .bwInit ∧ Instr.putbits ≠ .encode ∧ Instr.putbits ≠ .reset ∧
    exec .putbits (withArgs 0x101 9 0 0 base) =
      .next (after .putbits (withArgs 0x101 9 0 0 base)) ∧
    Running (after .putbits (withArgs 0x101 9 0 0 base)) :=
  ⟨by decide, by decide, by decide, rfl, by decide⟩

/-- The fields of section 2's round trip. -/
def someFields : List (Nat × Nat) := [(1, 1), (0x55, 8), (0, 1), (3, 2), (0x1234, 16)]

-- the round trip of section 2: WBUF `AA B1 23 40`
theorem witness_FieldsRoundTrip :
    (∀ f ∈ someFields, f.1 < 2 ^ f.2) ∧
    putFields (some 4) someFields emptyWriter = .ok ⟨[0xAA, 0xB1, 0x23], 0x40, 4⟩ ∧
    flush (some 4) ⟨[0xAA, 0xB1, 0x23], 0x40, 4⟩ = .ok ⟨[0xAA, 0xB1, 0x23, 0x40], 0, 0⟩ :=
  ⟨by decide, rfl, rfl⟩

theorem witness_BrInit : Running (withArgs 0 0 0 0 base) ∧ Running (withArgs 1 0 0 0 base) := by decide

theorem witness_Getbit :
    (Running (stream [0xA0] base) ∧
      ({ stream [0xA0] base with rd := ⟨1, 7⟩ } : State).rd.rpos < 8 * 1) ∧
    8 * ({ stream [0xA0] base with rd := ⟨1, 8⟩ } : State).rd.rlen ≤
      ({ stream [0xA0] base with rd := ⟨1, 8⟩ } : State).rd.rpos := by decide

theorem witness_Getbits :
    (Running (withArgs 33 0 0 0 (stream t1 base)) ∧ 32 < arg0 (withArgs 33 0 0 0 (stream t1 base))) ∧
    (arg0 (withArgs 32 0 0 0 (stream [1, 2, 3, 4] base)) ≤ 32 ∧
      (stream [1, 2, 3, 4] base).rd.rpos + arg0 (withArgs 32 0 0 0 (stream [1, 2, 3, 4] base)) ≤
        8 * (stream [1, 2, 3, 4] base).rd.rlen) ∧
    8 * (stream [1, 2, 3] base).rd.rlen <
      (stream [1, 2, 3] base).rd.rpos + arg0 (withArgs 25 0 0 0 (stream [1, 2, 3] base)) := by decide

-- section 3.1
theorem witness_SplitRule :
    splitGeom 1 1 = .undivided ∧ splitGeom 2 2 = .width 1 1 ∧ splitGeom 1 2 = .height 1 1 ∧
    splitGeom 65535 65535 = .width 32767 32768 ∧ splitGeom 65534 65535 = .height 32767 32768 := by
  decide

theorem witness_SplitgeomCommand :
    (Running (withArgs 0 5 0 0 base) ∧
      ¬ (1 ≤ arg0 (withArgs 0 5 0 0 base) ∧ arg0 (withArgs 0 5 0 0 base) ≤ 65535) ∧
      ¬ (1 ≤ arg0 (withArgs 65536 5 0 0 base) ∧ arg0 (withArgs 65536 5 0 0 base) ≤ 65535)) ∧
    (arg0 (withArgs 1 65536 0 0 base) ≤ 65535 ∧
      ¬ (1 ≤ arg1 (withArgs 1 65536 0 0 base) ∧ arg1 (withArgs 1 65536 0 0 base) ≤ 65535) ∧
      ¬ (1 ≤ arg1 (withArgs 65535 0 0 0 base) ∧ arg1 (withArgs 65535 0 0 0 base) ≤ 65535)) ∧
    (splitGeom (arg0 (withArgs 1 1 0 0 base)) (arg1 (withArgs 1 1 0 0 base)) = .undivided ∧
      splitGeom (arg0 (withArgs 65535 1 0 0 base)) (arg1 (withArgs 65535 1 0 0 base)) =
        .width 32767 32768 ∧
      splitGeom (arg0 (withArgs 1 65535 0 0 base)) (arg1 (withArgs 1 65535 0 0 base)) =
        .height 32767 32768) := by decide

theorem witness_SpreadLaws :
    ([(0, 0)] : List (Nat × Nat)) ≠ [] ∧ ([(0, 0)] : List (Nat × Nat)) ⊆ [(1, 0), (0, 0)] ∧
    (∀ p ∈ ([(0, 0), (3, 3)] : List (Nat × Nat)), pixel flat4 p.1 p.2 = ⟨200, 100, 50⟩) ∧
    (⟨0, 0, 2, 5⟩ : Region).w ≤ 2 ∧ (⟨0, 0, 5, 2⟩ : Region).h ≤ 2 ∧ (⟨0, 0, 3, 3⟩ : Region).w = 3 := by
  decide

-- C1: luma 110 in a corner, 104 inside: Eb = 10, Ei = 4
theorem test_energies :
    energy red (twoSpots 104) ⟨0, 0, 4, 4⟩ = 10 ∧ borderEnergy red (twoSpots 104) ⟨0, 0, 4, 4⟩ = 10 ∧
    innerEnergy red (twoSpots 104) ⟨0, 0, 4, 4⟩ = 4 := by decide +kernel

/-- Vector C10's raster. -/
def corner : State := grad 50 (image 8 8 (List.replicate 63 (grey 100) ++ [grey 101]) base)

theorem witness_ClassifyDecision :
    -- C6: flat
    (energy red flat4 ⟨0, 0, 4, 4⟩ = 0) ∧
    -- C2: step 4, sides of 4
    (energy red (twoSpots 106) ⟨0, 0, 4, 4⟩ ≠ 0 ∧ edgeDom red (twoSpots 106) ⟨0, 0, 4, 4⟩ = false ∧
      energy red (twoSpots 106) ⟨0, 0, 4, 4⟩ ≤ (twoSpots 106).cfg.maxgrad.toNat) ∧
    -- C1: dominated by an edge; C9b's kind: over MAXGRAD; C10: a side above 4
    (edgeDom red (twoSpots 104) ⟨0, 0, 4, 4⟩ = true ∧
      (grad 9 (twoSpots 106)).cfg.maxgrad.toNat <
        energy red (grad 9 (twoSpots 106)) ⟨0, 0, 4, 4⟩ ∧
      energy red corner ⟨0, 0, 8, 8⟩ ≠ 0) := by decide +kernel

theorem witness_ClassifyCommand :
    (Running base ∧ imgOK base = false) ∧
    (Running flat4 ∧ imgOK flat4 = true) ∧ 65535 < arg0 (withArgs 65536 0 1 1 flat4) ∧
    (arg0 (withArgs 65535 65536 1 1 flat4) ≤ 65535 ∧ 65535 < arg1 (withArgs 65535 65536 1 1 flat4)) ∧
    ¬ (1 ≤ arg2 (withArgs 0 65535 0 4 flat4) ∧ arg2 (withArgs 0 65535 0 4 flat4) ≤ 65535) ∧
    ¬ (1 ≤ arg3 (withArgs 0 0 65535 65536 flat4) ∧
      arg3 (withArgs 0 0 65535 65536 flat4) ≤ 65535) ∧
    (1 ≤ arg2 (withArgs 4 0 1 65535 flat4) ∧ arg3 (withArgs 4 0 1 65535 flat4) ≤ 65535 ∧
      flat4.cfg.imgW.toNat ≤ arg0 (withArgs 4 0 1 65535 flat4) ∧
      ¬ (arg2 (withArgs 4 0 1 65535 flat4) = 1 ∧ arg3 (withArgs 4 0 1 65535 flat4) = 1)) ∧
    (arg2 (withArgs 4 4 1 1 flat4) = 1 ∧ arg3 (withArgs 4 4 1 1 flat4) = 1) := by
  decide

theorem witness_AvgcolorCommand :
    (Running base ∧ imgOK base = false) ∧ (Running flat4 ∧ imgOK flat4 = true) ∧
    checkClassify (withArgs 0 0 0 4 flat4) = some ⟨.illegalOperand, 2, 0⟩ ∧
    (checkClassify (withArgs 4 0 1 1 flat4) = none ∧
      flat4.cfg.imgW.toNat ≤ arg0 (withArgs 4 0 1 1 flat4)) ∧
    (checkClassify (withArgs 3 3 4 4 flat4) = none ∧
      arg0 (withArgs 3 3 4 4 flat4) < flat4.cfg.imgW.toNat ∧
      arg1 (withArgs 3 3 4 4 flat4) < flat4.cfg.imgH.toNat) := by decide

theorem witness_AnalyzeCommand : Running dot ∧ cfgOK dot = true := by decide

theorem witness_PalInit : Running { base with pal := ⟨[[]], [1]⟩ } := by decide

/-- The palette state of a group that has these entries and `n` leaves. -/
def palState (es : List Color) (n : Nat) (c : Nat) : State :=
  withArgs c 0 0 0 { base with pal := ⟨[es], List.replicate n 0⟩ }

/-- `n` red entries. -/
def reds (n : Nat) : List Color := List.replicate n ⟨255, 0, 0⟩

theorem witness_PalPush :
    (Running (palState [] 0 (2 ^ 24)) ∧ 2 ^ 24 ≤ arg0 (palState [] 0 (2 ^ 24))) ∧
    (arg0 (palState [] 0 (2 ^ 24 - 1)) < 2 ^ 24 ∧
      (palState [] 0 (2 ^ 24 - 1)).pal.palettes.length ≠
        ((palState [] 0 (2 ^ 24 - 1)).pal.leafref.length + 255) / 256) ∧
    arg0 (palState [] 0 0x010203) = (1 : Byte).toNat * 65536 + (2 : Byte).toNat * 256 + (3 : Byte).toNat ∧
    -- leaf 256 opens group 1
    ((palState (reds 1) 256 0).pal.palettes.length = (256 + 255) / 256 ∧ 256 / 256 = 1) ∧
    -- the entry is near; it is not and there is room for one; it is not and there is none
    (near 0 ⟨255, 0, 0⟩ ⟨255, 0, 0⟩ = true ∧ (reds 2)[0]? = some ⟨255, 0, 0⟩) ∧
    ((∀ e ∈ reds 255, near 0 ⟨0, 0, 0⟩ e = false) ∧ (reds 255).length ≠ 256) ∧
    ((palState (reds 256) 5 0).pal.palettes.length = (5 + 255) / 256 ∧
      (∀ e ∈ reds 256, near 0 ⟨0, 0, 0⟩ e = false) ∧ (reds 256).length = 256) := by decide +kernel

theorem witness_PalBuild : Running { base with ana := ⟨[], [⟨1, 2, 3⟩]⟩ } := by decide

theorem witness_EncPaltab :
    (Running (palState (reds 255) 0 0) ∧ writerOK base.wr = true ∧
      tableFits (palState (reds 255) 0 0).pal.palettes = true ∧
      roomFor (palState (reds 255) 0 0) (tableWire (palState (reds 255) 0 0).pal.palettes).length =
        true) ∧
    65535 < (List.replicate 65536 ([] : List Color)).length ∧
    -- a palette of one entry before one of 256: six bytes
    (([reds 1, reds 256] : List (List Color))[1]? = some (reds 256) ∧ 255 < (reds 256).length ∧
      (reds 1).length ≤ 255 ∧ 16 + (palettesWire ([reds 1, reds 256].take 1)).length = 48 ∧
      roomFor { base with wbufCap := some 6 } 48 = true ∧
      roomFor { base with wbufCap := some 5 } 48 = false) ∧
    (tableFits (writing 1 0 0).pal.palettes = true ∧ (writing 1 0 0).wbufCap = some 1 ∧
      (writing 1 0 0).wr.wbuf.length ≤ 1 ∧
      roomFor (writing 1 0 0) (tableWire (writing 1 0 0).pal.palettes).length = false) :=
  ⟨by decide +kernel, by rw [List.length_replicate]; omega, by decide +kernel, by decide⟩

/-- A pattern and references. -/
def tree (p : List Bool) (k : List Byte) (s : State) : State :=
  { s with ana := ⟨p, []⟩, pal := ⟨[], k⟩ }

theorem witness_EncTree :
    (Running (tree [true] [0] dot) ∧ cfgOK (tree [true] [0] dot) = true ∧
      writerOK (tree [true] [0] dot).wr = true ∧ forestFits (tree [true] [0] dot) 0 [.leaf 0] = true ∧
      (tree [true] [0] dot).ana.pattern = forestPattern [.leaf 0] ∧
      (tree [true] [0] dot).pal.leafref = forestRefs [.leaf 0] ∧
      roomFor (tree [true] [0] dot) (forestWire [.leaf 0]).length = true) ∧
    (({ tree [true] [0] dot with wbufCap := some 0 } : State).wr.wbuf.length ≤ 0 ∧
      roomFor { tree [true] [0] dot with wbufCap := some 0 } (forestWire [.leaf 0]).length = false) := by
  decide

/-- Two rows of two pixels, one stripe each. -/
def quarters : State := rows 2 2 [] base

-- the second child of the second stripe: no entry left; a leaf and no reference; an internal node of
-- one pixel; and an entry too many
theorem witness_EncTreeFaults :
    (Running quarters ∧ cfgOK quarters = true ∧ writerOK quarters.wr = true) ∧
    NodeDue quarters [.leaf 0] (.second (.leaf 0) .here) ⟨1, 1, 1, 1⟩ ∧
    EmitFails (tree [true, false, true] [0, 0] quarters)
      (forestWire [.leaf 0] ++ (Before.second (.leaf 0) .here).wire) 0x32 3 1 ∧
    EmitFails (tree [true, false, true, true] [0, 0] quarters)
      (forestWire [.leaf 0] ++ (Before.second (.leaf 0) .here).wire) 0x33 2 1 ∧
    EmitFails (tree [true, false, true, false] [0, 0] quarters)
      (forestWire [.leaf 0] ++ (Before.second (.leaf 0) .here).wire) 0x31 3 65537 ∧
    EmitFails (tree [true, true, true] [0, 0] quarters) (forestWire [.leaf 0, .leaf 0]) 0x34 1 0 ∧
    (roomFor quarters 19 = true ∧ roomFor { quarters with wbufCap := some 1 } 19 = false) ∧
    (tree [] [] dot).ana.pattern = [] ∧
    ((tree [true] [] dot).ana.pattern = true :: [] ∧ (tree [true] [] dot).pal.leafref = []) ∧
    ((tree [false] [] dot).ana.pattern = false :: [] ∧ dot.cfg.imgW = 1 ∧ (stripeAt dot 0).h = 1) :=
  have due : NodeDue quarters [.leaf 0] (.second (.leaf 0) .here) ⟨1, 1, 1, 1⟩ :=
    ⟨by decide, by decide, by decide⟩
  ⟨by decide, due,
    .node (pat := []) (refs := []) due rfl rfl .noPattern,
    .node (pat := [true]) (refs := []) due rfl rfl .noRef,
    .node (pat := [false]) (refs := []) due rfl rfl (.geometry rfl),
    .leftover (pat := [true]) (refs := []) (by decide) rfl rfl (.inl (by decide)),
    by decide, rfl, by decide, by decide⟩

theorem witness_EncTreeReadsNoPixels :
    exec .encTree (tree [true] [0] dot) = .next (after .encTree (tree [true] [0] dot)) := rfl

theorem witness_EncodeCommand : Running dot ∧ cfgOK dot = true ∧ dot.wbufCap = none := by decide

theorem witness_EncodeNeverInconsistent :
    Running dot ∧ cfgOK dot = true ∧ exec .encode dot = .next (after .encode dot) :=
  ⟨by decide, by decide, rfl⟩

theorem witness_EncodeIsTheSequence :
    Running dot ∧ exec .encode dot = .next (after .encode dot) ∧ Running (after .encode dot) :=
  ⟨by decide, rfl, by decide +kernel⟩

theorem witness_DecPaltab :
    (Running (stream t1 base) ∧ tableFits [[⟨200, 100, 50⟩]] = true ∧
      unreadBits (stream t1 base) = tableWire [[⟨200, 100, 50⟩]] ++ unreadBits (stream [0x80, 0] base)) ∧
    (unreadBits { stream t1 base with rd := ⟨8, 49⟩ }).length < 16 ∧
    -- the table ends before its third channel; and inside the size of a second palette
    TableCut 0 (unreadBits (stream [0, 1, 1, 0xC8, 0x64] base)) 40 0 ∧
    TableCut 0 (unreadBits (stream [0, 2, 0] base)) 24 1 :=
  ⟨by decide +kernel, by decide +kernel,
    .palette (n := 1) (ps := []) (rest := bytesToBits [1, 0xC8, 0x64]) (by decide +kernel)
      (by decide) (by decide) (by decide),
    .palette (n := 2) (ps := [[]]) (rest := []) (by decide +kernel) (by decide) (by decide)
      (by decide)⟩

/-- Vector T1's payload after its table. -/
def afterTable : State :=
  { stream t1 flat4 with rd := ⟨8, 48⟩, pal := ⟨[[⟨200, 100, 50⟩]], []⟩ }

theorem witness_DecTree :
    Running afterTable ∧ cfgOK afterTable = true ∧ forestFits afterTable 0 [.leaf 0] = true ∧
      unreadBits afterTable = forestWire [.leaf 0] ++ List.replicate 7 false ∧
      refsInRange afterTable.pal.palettes 0 (forestRefs [.leaf 0]) = true := by decide +kernel

theorem test_jobPal : jobPal 65535 = 0xFFFF ∧ jobPal 65536 = Config.widePal 65536 := ⟨rfl, rfl⟩

/-- A stream with these palettes, over `quarters`. -/
def parsing (ps : List (List Color)) (bytes : List Byte) : State :=
  { stream bytes quarters with pal := ⟨ps, []⟩ }

/-- One palette of one entry. -/
def single : List (List Color) := [[⟨200, 100, 50⟩]]

-- at the first token: no bit, no palette, an index out of range; at the second child of the second
-- stripe: four bits of an index, and a 0 bit at one pixel
theorem witness_DecTreeFaults :
    (Running (parsing single []) ∧ cfgOK (parsing single []) = true) ∧
    ParseFails (parsing single []) 0x12 0 0 ∧
    ParseFails (parsing [] [0x80, 0x00]) 0x13 0 0 ∧
    ParseFails (parsing single [0x80, 0x80]) 0x14 0 1 ∧
    ParseFails (parsing single [0x80, 0x20, 0x10]) 0x12 20 2 ∧
    ParseFails (parsing single [0x80, 0x20, 0x00]) 0x15 19 65537 :=
  ⟨by decide,
    ⟨[], .here, ⟨0, 0, 2, 1⟩, [], ⟨by decide, rfl, by decide⟩, by decide +kernel, rfl, .noBit⟩,
    ⟨[], .here, ⟨0, 0, 2, 1⟩, encode (.leaf 0) ++ List.replicate 7 false,
      ⟨by decide, rfl, by decide⟩, by decide +kernel, rfl, .palette (by decide)⟩,
    ⟨[], .here, ⟨0, 0, 2, 1⟩, encode (.leaf 1) ++ List.replicate 7 false,
      ⟨by decide, rfl, by decide⟩, by decide +kernel, rfl, .index (cs := [⟨200, 100, 50⟩]) rfl (by decide)⟩,
    ⟨[.leaf 0], .second (.leaf 0) .here, ⟨1, 1, 1, 1⟩, true :: List.replicate 4 false,
      ⟨by decide, by decide, by decide⟩, by decide +kernel, by decide, .noIndex (by decide)⟩,
    ⟨[.leaf 0], .second (.leaf 0) .here, ⟨1, 1, 1, 1⟩, encode .internal ++ List.replicate 4 false,
      ⟨by decide, by decide, by decide⟩, by decide +kernel, by decide, .split rfl⟩⟩

/-- Vector D1. -/
def d1 : State := withArgs 8 0 0 0 (stream t1 flat4)

/-- Vector T1's payload but for its index, which is 1. -/
def d4 : State :=
  withArgs 8 0 0 0 (stream [0x00, 0x01, 0x01, 0xC8, 0x64, 0x32, 0x80, 0x80] flat4)

/-- Vector T1's payload cut before its third channel. -/
def dCut : State := withArgs 5 0 0 0 (stream t1 flat4)

theorem witness_DecodeCommand :
    (Running d1 ∧ cfgOK d1 = true ∧ tableFits single = true ∧ forestFits d1 0 [.leaf 0] = true ∧
      unreadBits (d1.withRd ⟨arg0 d1, 0⟩) =
        tableWire single ++ forestWire [.leaf 0] ++ List.replicate 7 false ∧
      refsInRange single 0 (forestRefs [.leaf 0]) = true) ∧
    (exec .decode d1 = .next (after .decode d1) ∧ Running (after .decode d1)) ∧
    (Running dCut ∧ cfgOK dCut = true ∧
      TableCut 0 (unreadBits (dCut.withRd ⟨arg0 dCut, 0⟩)) 40 0) ∧
    (unreadBits (d4.withRd ⟨arg0 d4, 0⟩) =
        tableWire single ++ (encode (.leaf 1) ++ List.replicate 7 false) ∧
      ParseFails { d4 with
        pal := { d4.pal with palettes := single }
        rd := ⟨arg0 d4, (tableWire single).length⟩ } 0x14 0 1) :=
  ⟨by decide +kernel, ⟨rfl, by decide +kernel⟩,
    ⟨by decide, by decide,
      .palette (n := 1) (ps := []) (rest := bytesToBits [1, 0xC8, 0x64]) (by decide +kernel)
        (by decide) (by decide) (by decide)⟩,
    by decide +kernel,
    ⟨[], .here, ⟨0, 0, 4, 4⟩, encode (.leaf 1) ++ List.replicate 7 false,
      ⟨by decide, rfl, by decide⟩, by decide +kernel, rfl,
      .index (cs := [⟨200, 100, 50⟩]) rfl (by decide)⟩⟩

theorem witness_EncodeDecodeRoundTrip :
    Running dot ∧ exec .encode dot = .next (after .encode dot) ∧ Running (after .encode dot) ∧
      (after .encode dot).wr.wbuf.length < 2 ^ 64 := ⟨by decide, rfl, by decide +kernel, by decide +kernel⟩

theorem witness_DecoderReadsNoPixels :
    exec .decPaltab d1 = .next (after .decPaltab d1) ∧
    exec .decTree afterTable = .next (after .decTree afterTable) ∧
    exec .decode d1 = .next (after .decode d1) := ⟨rfl, rfl, rfl⟩

theorem witness_TreeSizes :
    ((WireTree.leaf 0).fits ⟨0, 0, 65535, 65535⟩ = true ∧
      (WireTree.node (.leaf 0) (.leaf 1)).fits ⟨0, 0, 65535, 1⟩ = true ∧
      (WireTree.node (.leaf 0) (.leaf 1)).fits ⟨0, 0, 1, 1⟩ = false) ∧
    (cfgOK (rows 2 2 [] base) = true ∧ forestFits (rows 2 2 [] base) 0 [.leaf 0, .leaf 1] = true) := by
  decide

theorem witness_LeavesTileRaster :
    (cfgOK (rows 2 2 [] base) = true ∧
      forestFits (rows 2 2 [] base) 0 [.node (.leaf 0) (.leaf 0), .leaf 1] = true) ∧
    (1 < (rows 2 2 [] base).cfg.imgW.toNat ∧ 1 < (rows 2 2 [] base).cfg.imgH.toNat) := by decide

/-- A leaf is due as leaf number `n`. -/
def leafNumber (n : Nat) : State :=
  { waiting ⟨0, 0, 5, 4⟩ 49 with dec := ⟨[], n⟩ }

theorem witness_WireTokens :
    (Running (leafNumber 256) ∧ (leafNumber 256).due = .node 0 ∧
      (leafNumber 256).wstk = ⟨0, 0, 5, 4⟩ :: [] ∧
      (leafNumber 256).pal.palettes.length ≤ (leafNumber 256).dec.leaford / 256) ∧
    ((leafNumber 255).pal.palettes[(leafNumber 255).dec.leaford / 256]? = some [⟨200, 100, 50⟩] ∧
      [(⟨200, 100, 50⟩ : Color)].length ≤ (1 : Byte).toNat ∧
      (0 : Byte).toNat < [(⟨200, 100, 50⟩ : Color)].length) ∧
    (children ⟨0, 0, 5, 4⟩ (splitGeom 5 4) = some (⟨0, 0, 2, 4⟩, ⟨2, 0, 3, 4⟩) ∧
      splitGeom 1 1 = .undivided) ∧
    (∀ i, base.due ≠ .node i) :=
  ⟨by decide, by decide, by decide, fun i h => by cases h⟩

theorem witness_WireFields :
    (Running (base.withDue .count) ∧ (base.withDue .count).due = .count) ∧
    ((base.withDue (.size 1)).due = .size 1 ∧ (1 : Byte) ≠ 0) ∧
    ((base.withDue (.entry 0 2 [])).due = .entry 0 2 [] ∧ 1 < 2 ∧ 1 ≤ 1) ∧
    base.due = .none ∧ Config.magic = Config.magic ∧ Config.magic + 1 ≠ Config.magic :=
  ⟨⟨by decide, rfl⟩, ⟨rfl, by decide⟩, ⟨rfl, by decide, by decide⟩, rfl, rfl, by simp⟩

-- D18's table, and one with an empty palette
theorem witness_FieldStepsAreDecPaltab :
    Running (stream t1 base) ∧ (stream t1 base).cmd = none ∧
    tableFits [[⟨200, 100, 50⟩]] = true ∧
    unreadBits (stream t1 base) = tableWire [[⟨200, 100, 50⟩]] ++ unreadBits (stream [0x80, 0] base) ∧
    unreadBits (stream [0, 1, 0, 0x80] base) = tableWire [[]] ++ unreadBits (stream [0x80] base) := by
  decide +kernel

-- the first field of D1, one step
theorem test_step_field :
    step ((stream t1 base).withDue .count) =
      .next { (stream t1 base).advance 16 with due := .size 1 } := rfl

theorem witness_TokenStepsAreDecTree :
    Running afterTable ∧ afterTable.cmd = none ∧ cfgOK afterTable = true ∧
    forestFits afterTable 0 [.leaf 0] = true ∧
    unreadBits afterTable = forestWire [.leaf 0] ++ List.replicate 7 false ∧
    refsInRange afterTable.pal.palettes 0 (forestRefs [.leaf 0]) = true := by decide +kernel

/-! ## Table words where the next step fetches them -/

theorem test_fetch_command : step (State.reset.withFetchWord 8 0xFF) = exec .reset State.reset := rfl
theorem test_fetch_leaf :
    step (State.reset.withFetchWord 9 0x100) =
      exec (.leaf 0) ((State.reset.withFetchWord 9 0x100).advance 9) := rfl
theorem test_fetch_header :
    step (State.reset.withFetchWord 72 0x320001040004030201) =
      exec (.artHeader 0x01020304 4 256 50) State.reset := rfl

end Sys2Proof.Tests
end

section
/-! The in-bounds pixels of a region (00_scope.md R9). -/

namespace Sys2Proof.Machine

theorem covers_iff (r : Region) (px py : Nat) :
    covers r px py = true ↔ (r.x ≤ px ∧ px < r.x + r.w) ∧ (r.y ≤ py ∧ py < r.y + r.h) := by
  simp only [covers, Bool.and_eq_true, decide_eq_true_eq, and_assoc]

/-- Membership by offsets from the region's corner, as `inBounds` enumerates it: row, then column. -/
theorem mem_inBounds_iff_exists_offsets (s : State) (r : Region) (p : Nat × Nat) :
    p ∈ inBounds s r ↔
      ∃ j < min (r.y + r.h) s.cfg.imgH.toNat - r.y,
        ∃ i < min (r.x + r.w) s.cfg.imgW.toNat - r.x, (r.x + i, r.y + j) = p := by
  simp only [inBounds, List.mem_flatMap, List.mem_map, List.mem_range]

theorem mem_inBounds_iff (s : State) (r : Region) (p : Nat × Nat) :
    p ∈ inBounds s r ↔
      covers r p.1 p.2 = true ∧ p.1 < s.cfg.imgW.toNat ∧ p.2 < s.cfg.imgH.toNat := by
  obtain ⟨px, py⟩ := p
  rw [mem_inBounds_iff_exists_offsets, covers_iff]
  constructor
  · rintro ⟨j, hj, i, hi, hp⟩
    obtain ⟨rfl, rfl⟩ := Prod.mk.inj hp
    dsimp only
    omega
  · rintro ⟨⟨⟨hx, hxw⟩, hy, hyh⟩, hpx, hpy⟩
    refine ⟨py - r.y, by omega, px - r.x, by omega, ?_⟩
    rw [Nat.add_sub_cancel' hx, Nat.add_sub_cancel' hy]

/-- Within a row the columns differ, and two rows share no pixel because their second coordinates
differ. -/
theorem nodup_inBounds (s : State) (r : Region) : (inBounds s r).Nodup := by
  refine List.nodup_flatMap.2 ⟨fun j _ => ?row, ?rows⟩
  case row =>
    refine List.nodup_range.map fun i i' h => ?_
    exact Nat.add_left_cancel (Prod.mk.inj h).1
  case rows =>
    refine List.nodup_range.imp fun {j j'} hne => ?_
    refine List.disjoint_left.2 fun p hp hp' => hne ?_
    obtain ⟨i, -, rfl⟩ := List.mem_map.1 hp
    obtain ⟨i', -, h⟩ := List.mem_map.1 hp'
    exact Nat.add_left_cancel (Prod.mk.inj h).2.symm

/-- Settles O32: the two ranges enumerate the rectangle cut at the image's edges. -/
theorem inBoundsPixels : Obligations.InBoundsPixels :=
  fun s r => ⟨nodup_inBounds s r, mem_inBounds_iff s r⟩

end Sys2Proof.Machine
end

section
/-! What a command's body leaves alone, and what it keeps of the invariant (10_state.md R45, R22 to
R41). `Tidy s t` says both of two states; every part of every body is a `Tidy` step, and a body is
tidy because such steps compose. -/

namespace Sys2Proof.Machine

/-- The state with the parts that the body of a command may write blanked (10_state.md R38). -/
def hostPart (s : State) : State :=
  { s with
    res := State.reset.res
    wr := State.reset.wr
    rd := State.reset.rd
    ana := State.reset.ana
    pal := State.reset.pal
    enc := State.reset.enc
    dec := State.reset.dec
    wstk := State.reset.wstk }

/-- What `Inv` says of the block's own parts while no fault is pending. -/
structure Ordered (s : State) : Prop where
  writer : writerOK s.wr = true
  within : ∀ c, s.wbufCap = some c → s.wr.wbuf.length ≤ c
  reader : s.rd.rpos ≤ 8 * s.rd.rlen
  stack : s.wstk = []
  jobs : s.dec.leaford = s.dec.jobq.length
  palettes : ∀ cs ∈ s.pal.palettes, cs.length ≤ Config.group

theorem inv_iff (s : State) :
    Inv s ↔ Memory.wf s.raster = true ∧ Memory.wf s.stripe = true ∧ Memory.wf s.rbuf = true ∧
      s.due = .none ∧
      (s.fault.flag = false →
        (s.fault.err = 0 ∧ s.fault.info0 = 0 ∧ s.fault.info1 = 0) ∧ Ordered s) := by
  unfold Inv
  refine and_congr_right fun _ => and_congr_right fun _ => and_congr_right fun _ =>
    and_congr_right fun _ => imp_congr_right fun _ => ?_
  constructor
  · rintro ⟨e, i0, i1, hw, hc, hr, hk, hj, hp⟩
    exact ⟨⟨e, i0, i1⟩, hw, hc, hr, hk, hj, hp⟩
  · rintro ⟨⟨e, i0, i1⟩, ⟨hw, hc, hr, hk, hj, hp⟩⟩
    exact ⟨e, i0, i1, hw, hc, hr, hk, hj, hp⟩

/-- From `s` to `t` only what a body may write has changed, and it is in order in `t` if it is in `s`. -/
structure Tidy (s t : State) : Prop where
  host : hostPart t = hostPart s
  ordered : Ordered s → Ordered t

theorem Tidy.refl (s : State) : Tidy s s := ⟨rfl, id⟩

theorem Tidy.trans {s t u : State} (h : Tidy s t) (h' : Tidy t u) : Tidy s u :=
  ⟨h'.host.trans h.host, h'.ordered ∘ h.ordered⟩

/-- The configuration and the stripe table are the host's, so that they stay valid. -/
theorem Tidy.keeps_cfgOK {s t : State} (h : Tidy s t) (hc : cfgOK s = true) : cfgOK t = true :=
  (cfgOK_congr s t (congrArg (·.stripe) h.host) (congrArg (·.cfg) h.host)
    (congrArg (·.era) h.host)).trans hc

theorem HostSideKept.of_hostPart {s t : State} (h : hostPart t = hostPart s) : HostSideKept s t := by
  have hcfg : t.cfg = s.cfg := congrArg (·.cfg) h
  have hera : t.era = s.era := congrArg (·.era) h
  have hraster : t.raster = s.raster := congrArg (·.raster) h
  have hstripe : t.stripe = s.stripe := congrArg (·.stripe) h
  have hrbuf : t.rbuf = s.rbuf := congrArg (·.rbuf) h
  refine ⟨congrArg (·.cmd) h, congrArg (·.arg) h, hcfg, congrArg (·.wbufCap) h,
    congrArg (·.hostq) h, fun x y => ?_, fun i => ?_, fun a => ?_⟩
  · simp only [pixel, hcfg, hera, hraster]
  · simp only [stripeAt, hera, hstripe]
  · simp only [rbyte, hera, hrbuf]

/-! ## One lemma per part of the state -/

theorem tidy_withRes (s : State) (q : Quad) : Tidy s (s.withRes q) :=
  ⟨rfl, fun ⟨hw, hc, hr, hk, hj, hp⟩ => ⟨hw, hc, hr, hk, hj, hp⟩⟩

theorem tidy_withAna (s : State) (a : Analysis) : Tidy s (s.withAna a) :=
  ⟨rfl, fun ⟨hw, hc, hr, hk, hj, hp⟩ => ⟨hw, hc, hr, hk, hj, hp⟩⟩

theorem tidy_withEnc (s : State) (c : Cursors) : Tidy s (s.withEnc c) :=
  ⟨rfl, fun ⟨hw, hc, hr, hk, hj, hp⟩ => ⟨hw, hc, hr, hk, hj, hp⟩⟩

theorem tidy_emptyStack (s : State) : Tidy s (s.withStack []) :=
  ⟨rfl, fun ⟨hw, hc, hr, _, hj, hp⟩ => ⟨hw, hc, hr, rfl, hj, hp⟩⟩

theorem tidy_withWr {s : State} {w : Writer}
    (h : Ordered s → writerOK w = true ∧ ∀ c, s.wbufCap = some c → w.wbuf.length ≤ c) :
    Tidy s (s.withWr w) :=
  ⟨rfl, fun o => ⟨(h o).1, (h o).2, o.reader, o.stack, o.jobs, o.palettes⟩⟩

theorem tidy_withRd {s : State} {r : Reader} (h : Ordered s → r.rpos ≤ 8 * r.rlen) :
    Tidy s (s.withRd r) :=
  ⟨rfl, fun o => ⟨o.writer, o.within, h o, o.stack, o.jobs, o.palettes⟩⟩

theorem tidy_withDec {s : State} {d : Jobs} (h : d.leaford = d.jobq.length) :
    Tidy s (s.withDec d) :=
  ⟨rfl, fun o => ⟨o.writer, o.within, o.reader, o.stack, h, o.palettes⟩⟩

theorem tidy_withPal {s : State} {p : Palettes}
    (h : Ordered s → ∀ cs ∈ p.palettes, cs.length ≤ Config.group) : Tidy s (s.withPal p) :=
  ⟨rfl, fun o => ⟨o.writer, o.within, o.reader, o.stack, o.jobs, h o⟩⟩

/-- Bits that are there to be read can be passed over. -/
theorem tidy_advance {s : State} {n : Nat} (h : n ≤ (unreadBits s).length) :
    Tidy s (s.advance n) := by
  refine tidy_withRd fun o => ?_
  have := o.reader
  rw [unreadBits_length] at h
  dsimp only
  omega

/-! ## Writing bodies -/

/-- A writing body that, where it succeeds on an ordered writer, appends some bits. -/
def Appends (f : Option Nat → Writer → Except Raise Writer) : Prop :=
  ∀ cap w w', writerOK w = true → f cap w = .ok w' → ∃ bits, Wrote cap w bits w'

theorem Emits.appends {f : Option Nat → Writer → Except Raise Writer} {bits : List Bool}
    (hf : Emits f bits) : Appends f := by
  intro cap w w' hw h
  rcases hf cap w hw with ⟨w1, h1, o⟩ | ⟨k, h1, -⟩
  · rw [h1] at h
    cases h
    exact ⟨bits, o⟩
  · rw [h1] at h
    cases h

/-- A table that is written whole has an encoding: the first palette that has none stops it. -/
theorem tableFits_of_putPaltab {ps : List (List Color)} {cap : Option Nat} {w w' : Writer}
    (hw : writerOK w = true) (h : putPaltab ps cap w = .ok w') : tableFits ps = true := by
  have hn : ps.length ≤ 65535 := by
    by_contra hn
    rw [putPaltab, if_pos (by omega)] at h
    cases h
  by_cases hall : ∀ cs ∈ ps, cs.length ≤ 255
  · simpa [tableFits, hn] using hall
  · obtain ⟨p, cs, hp, hc, hq⟩ := exists_first_long ps hall
    rcases putPaltab_tooBig cap ps p cs w hw hn hp hc hq with ⟨he, -⟩ | ⟨k, he, -⟩ <;>
      rw [he] at h <;> cases h

theorem appends_putPaltab (ps : List (List Color)) : Appends (putPaltab ps) :=
  fun cap w w' hw h => (emits_putPaltab ps (tableFits_of_putPaltab hw h)).appends cap w w' hw h

/-- A flush appends its byte only below the capacity (40_bitio.md R124, R130). -/
theorem appends_flush : Appends flush := by
  intro cap w w' hw h
  rcases flush_cases cap w hw with ⟨w1, h1, h0, hok, hbits, hpre⟩ | ⟨he, -, -⟩
  · rw [h1] at h
    cases h
    refine ⟨_, hok, hbits, hpre, fun c hcap hle => ?_⟩
    unfold flush at h1
    split at h1
    · cases h1
      exact hle
    · rcases emitByte_cases cap w.wacc w with ⟨e, hf⟩ | ⟨e, -⟩
      · rw [e] at h1
        cases h1
        simp only [hcap, wbufIsFull, decide_eq_false_iff_not] at hf
        simp only [List.length_append, List.length_singleton]
        omega
      · rw [e] at h1
        cases h1
  · rw [he] at h
    cases h

theorem Appends.tidy {f : Option Nat → Writer → Except Raise Writer} (hf : Appends f)
    {s t : State} (h : onWriter f s = .ok t) : Tidy s t := by
  obtain ⟨w, hw, rfl⟩ := onWriter_eq_ok f s t h
  refine tidy_withWr fun o => ?_
  obtain ⟨bits, hwrote⟩ := hf s.wbufCap s.wr w o.writer hw
  exact ⟨hwrote.ok, fun c hc => hwrote.within c hc (o.within c hc)⟩

theorem tidy_encPaltab {s t : State} (h : encPaltab s = .ok t) : Tidy s t :=
  (appends_putPaltab _).tidy h

/-! ## Reading bodies -/

theorem tidy_getbit {s t : State} {b : Bool} (h : getbit s = some (b, t)) : Tidy s t := by
  rcases getbit_cases s with ⟨b', rest, hu, hg, -⟩ | ⟨-, hg⟩
  · rw [hg] at h
    cases h
    exact tidy_advance (by simp [hu])
  · rw [hg] at h
    cases h

theorem tidy_getbits {n v : Nat} {s t : State} (h : getbits n s = some (v, t)) : Tidy s t := by
  unfold getbits at h
  split at h
  · cases h
  · have hn : n ≤ (unreadBits s).length := by
      rw [unreadBits_length]
      omega
    rw [getbitsLoop_eq _ _ _ hn] at h
    cases h
    exact tidy_advance hn

/-- A palette table that is read is a whole table of the wire format, whose palettes have at most 255
entries (30_encoding.md R97). -/
theorem tidy_decPaltab {s t : State} (h : decPaltab s = .ok t) : Tidy s t := by
  rcases table_or_cut s.rd.rpos (unreadBits s) with ⟨ps, rest, hfit, hu⟩ | ⟨i0, i1, hcut⟩
  · rw [(decPaltab_of_wire ps rest s hfit hu).1] at h
    cases h
    simp only [tableFits, Bool.and_eq_true, decide_eq_true_eq, List.all_eq_true] at hfit
    have hp : Tidy s (s.withPal { s.pal with palettes := ps }) :=
      tidy_withPal fun _ cs hcs => (hfit.2 cs hcs).trans (by decide)
    refine hp.trans (tidy_advance ?_)
    have : unreadBits (s.withPal { s.pal with palettes := ps }) = unreadBits s := rfl
    simp [this, hu]
  · rw [decPaltab_of_cut s i0 i1 hcut] at h
    cases h

theorem jobsFrom_length (k : Nat) (rs : List Region) (refs : List Byte)
    (h : rs.length = refs.length) : (jobsFrom k rs refs).length = refs.length := by
  induction rs generalizing k refs with
  | nil =>
    cases refs with
    | nil => rfl
    | cons _ _ => cases h
  | cons r rs ih =>
    cases refs with
    | nil => cases h
    | cons idx refs => simp only [jobsFrom, List.length_cons, ih (k + 1) refs (by simpa using h)]

/-- DEC_TREE's body leaves one paint job per leaf (10_state.md R37). -/
theorem tidy_decTree {s t : State} (hc : cfgOK s = true) (h : decTree s = .ok t) : Tidy s t := by
  obtain ⟨ts, rest, hfit, hu, hr⟩ := decTree_sound s t hc h
  rw [decTree_of_forest s ts rest hc hfit hu hr] at h
  cases h
  have hd : Tidy s (s.withDec ⟨jobsFrom 0 (forestRegions s 0 ts) (forestRefs ts),
      (forestRefs ts).length⟩) :=
    tidy_withDec (jobsFrom_length 0 _ _ (forestRegions_length s 0 ts hfit)).symm
  refine (hd.trans (tidy_advance ?_)).trans (tidy_emptyStack _)
  have : ∀ d, unreadBits (s.withDec d) = unreadBits s := fun _ => rfl
  simp [this, hu]

/-! ## The analysis, the palettes and the emission -/

theorem tidy_analyze {s t : State} (hc : cfgOK s = true) (h : analyze Config.luma s = .ok t) :
    Tidy s t := by
  obtain ⟨p, c, -, he⟩ := analyze_ok s hc
  rw [he] at h
  cases h
  exact (tidy_withAna s ⟨p, c⟩).trans (tidy_emptyStack _)

theorem Built.length_le {tol : Nat} {cols : List Color} {p : Palettes} (h : Built tol cols p) :
    ∀ cs ∈ p.palettes, cs.length ≤ Config.group := by
  intro cs hcs
  obtain ⟨g, hg, rfl⟩ := List.mem_iff_getElem.mp hcs
  have := (h.sizes g).2
  rwa [paletteAt, List.getElem?_eq_getElem hg, Option.getD_some] at this

theorem tidy_palBuild {s t : State} (h : palBuild s = .ok t) : Tidy s t := by
  obtain ⟨p, he, hb⟩ := palBuild_ok s
  rw [he] at h
  cases h
  exact tidy_withPal fun _ => hb.length_le

theorem length_le_of_mem_opened {p : Palettes} (h : ∀ cs ∈ p.palettes, cs.length ≤ Config.group) :
    ∀ cs ∈ opened p, cs.length ≤ Config.group := by
  intro cs hcs
  unfold opened openGroup at hcs
  split at hcs
  · rcases List.mem_append.mp hcs with hm | hm
    · exact h cs hm
    · rw [List.mem_singleton.mp hm]
      exact Nat.zero_le _
  · exact h cs hcs

theorem length_paletteAt_le {ps : List (List Color)} {n : Nat} (h : ∀ cs ∈ ps, cs.length ≤ n)
    (g : Nat) : (paletteAt ps g).length ≤ n := by
  unfold paletteAt
  cases hg : ps[g]? with
  | none => exact Nat.zero_le n
  | some cs => exact h cs (List.mem_of_getElem? hg)

/-- A push appends to a palette only while it has fewer than 256 entries (42_palette.md R162). -/
theorem palPush_length_le {tol : Nat} {c : Color} {p : Palettes} {r : Pushed}
    (hr : palPush tol c p = .ok r) (h : ∀ cs ∈ p.palettes, cs.length ≤ Config.group) :
    ∀ cs ∈ r.pal.palettes, cs.length ≤ Config.group := by
  have hopen := length_le_of_mem_opened h
  rcases palPush_cases tol c p with ⟨j, e, -, -, -, he⟩ | ⟨-, hne, he⟩ | ⟨-, -, he⟩ <;>
    rw [he] at hr <;> cases hr
  · exact hopen
  · intro cs hcs
    rcases List.mem_or_eq_of_mem_set hcs with hm | rfl
    · exact hopen cs hm
    · have := length_paletteAt_le hopen (p.leafref.length / Config.group)
      rw [List.length_append, List.length_singleton]
      exact Nat.lt_of_le_of_ne this hne

theorem tidy_encVisit {i : Nat} {r : Region} {s : State} {v : Visited}
    (h : encVisit i r s = .ok v) : Tidy s v.1 := by
  rcases encVisit_cases i r s with ⟨idx, w, -, -, hw, e⟩ | ⟨kids, w, -, -, hw, e⟩ | ⟨-, e⟩ |
    ⟨-, -, e⟩ | ⟨-, -, e⟩ | ⟨_, _, -, -, -, e⟩ | ⟨_, _, -, -, -, e⟩ <;> rw [e] at h <;> cases h
  · exact (tidy_withEnc s _).trans
      ((emits_putLeaf idx).appends.tidy (onWriter_ok (putLeaf idx) (s.withEnc _) w hw))
  · exact (tidy_withEnc s _).trans
      (emits_putInternal.appends.tidy (onWriter_ok putInternal (s.withEnc _) w hw))

theorem tidy_encTree {s t : State} (hc : cfgOK s = true) (h : encTree s = .ok t) : Tidy s t := by
  obtain ⟨u, hwalk, hend⟩ := bind_eq_ok _ _ _ h
  have ht : t = u := by
    split at hend
    · cases hend
    · cases hend
      rfl
  have h0 := tidy_withEnc s ⟨0, 0⟩
  obtain ⟨s', hs', rfl⟩ := walk_eq_ok encVisit_blind _ _ (h0.keeps_cfgOK hc) hwalk
  have hk : Tidy s s' := hs'.keeps (P := Tidy s) (fun _ _ _ _ hv hs => hs.trans (tidy_encVisit hv)) h0
  rw [ht]
  exact hk.trans (tidy_emptyStack _)

theorem tidy_encodeBody {s t : State} (hc : cfgOK s = true)
    (h : encodeBody Config.luma s = .ok t) : Tidy s t := by
  obtain ⟨p, c, pal, -, -, hb, -, -, hcm, he⟩ := encodeBody_mid s hc
  have hmid : Tidy s (encodeMid s p c pal) :=
    (((tidy_withAna s ⟨p, c⟩).trans (tidy_emptyStack _)).trans
      (tidy_withPal fun _ => hb.length_le)).trans (tidy_withWr fun _ => ⟨rfl, fun _ _ => Nat.zero_le _⟩)
  rw [he] at h
  obtain ⟨s1, h1, h⟩ := bind_eq_ok _ _ _ h
  obtain ⟨s2, h2, h3⟩ := bind_eq_ok _ _ _ h
  have t1 := tidy_encPaltab h1
  exact ((hmid.trans t1).trans (tidy_encTree (t1.keeps_cfgOK hcm) h2)).trans (appends_flush.tidy h3)

end Sys2Proof.Machine
end

section
/-! Every command's body is tidy and what it frees on a fault is the block's, so that every command
keeps the host's side and the invariant. -/

namespace Sys2Proof.Machine

/-! What a faulting body leaves unspecified is none of the host's. -/

@[simp] theorem hostPart_freeWriter (s : State) : hostPart (freeWriter s) = hostPart s := rfl
@[simp] theorem hostPart_freePosition (s : State) : hostPart (freePosition s) = hostPart s := rfl
@[simp] theorem hostPart_freeLength (s : State) : hostPart (freeLength s) = hostPart s := rfl
@[simp] theorem hostPart_freeAnalysis (s : State) : hostPart (freeAnalysis s) = hostPart s := rfl
@[simp] theorem hostPart_freePaletteTable (s : State) : hostPart (freePaletteTable s) = hostPart s := rfl
@[simp] theorem hostPart_freeReferences (s : State) : hostPart (freeReferences s) = hostPart s := rfl
@[simp] theorem hostPart_freeCursors (s : State) : hostPart (freeCursors s) = hostPart s := rfl
@[simp] theorem hostPart_freeJobs (s : State) : hostPart (freeJobs s) = hostPart s := rfl
@[simp] theorem hostPart_freeWalk (s : State) : hostPart (freeWalk s) = hostPart s := rfl
@[simp] theorem hostPart_freeRes0 (s : State) : hostPart (freeRes0 s) = hostPart s := rfl
@[simp] theorem hostPart_freeRes01 (s : State) : hostPart (freeRes01 s) = hostPart s := rfl
@[simp] theorem hostPart_freeRes012 (s : State) : hostPart (freeRes012 s) = hostPart s := rfl

@[simp] theorem hostPart_freeDecPaltab (s : State) : hostPart (freeDecPaltab s) = hostPart s := by
  simp [freeDecPaltab]
@[simp] theorem hostPart_freeDecTree (s : State) : hostPart (freeDecTree s) = hostPart s := by
  simp [freeDecTree]

/-- What the parts of a command have in common: under the configuration it needs, its body is tidy;
and what it leaves unspecified after a fault is the block's own (60_exceptions.md R225). -/
structure Sound (needs : State → Bool) (body : State → Except Raise State)
    (freed : State → State) : Prop where
  tidy : ∀ s t, needs s = true → body s = .ok t → Tidy s t
  frees : ∀ s, hostPart (freed s) = hostPart s

/-- A body that never fails. -/
theorem Sound.pure {needs : State → Bool} {f : State → State} (h : ∀ s, Tidy s (f s)) :
    Sound needs (fun s => .ok (f s)) id :=
  ⟨fun s _ _ ht => Except.ok.inj ht ▸ h s, fun _ => rfl⟩

/-- A body that ends by writing result registers. -/
theorem Sound.result {needs : State → Bool} {body : State → Except Raise State}
    {freed : State → State} (q : State → Quad)
    (h : ∀ s t, needs s = true → body s = .ok t → Tidy s t)
    (hf : ∀ s, hostPart (freed s) = hostPart s) :
    Sound needs (fun s => body s >>= fun t => Pure.pure (t.withRes (q t))) freed := by
  refine ⟨fun s t hn ht => ?_, hf⟩
  obtain ⟨u, hu, he⟩ := bind_eq_ok _ _ _ ht
  cases he
  exact (h s u hn hu).trans (tidy_withRes u _)

theorem Sound.onWriter {f : State → Option Nat → Writer → Except Raise Writer}
    (h : ∀ s, Appends (f s)) :
    Sound noNeeds (fun s => onWriter (f s) s) freeWriter :=
  ⟨fun s _ _ ht => (h s).tidy ht, fun _ => rfl⟩

/-- Every command but RESET has the one shape, with sound parts. -/
theorem exec_sound (i : Instr) (hp : portOf i = .cmd) (hr : i ≠ .reset) :
    ∃ needs operands body freed, (∀ s, exec i s = runCommand needs operands body freed s) ∧
      Sound needs body freed := by
  cases i with
  | leaf _ | internal | palCount _ | palSize _ | palEntry _ _ _ | pad _ | artHeader _ _ _ _ => cases hp
  | reset => exact absurd rfl hr
  | nop => exact ⟨_, _, _, _, exec_nop, .pure Tidy.refl⟩
  | bwInit =>
    exact ⟨_, _, _, _, exec_bwInit, .pure fun _ => tidy_withWr fun _ => ⟨rfl, fun _ _ => Nat.zero_le _⟩⟩
  | putbit => exact ⟨_, _, _, _, exec_putbit, .onWriter fun _ => (emits_putbit _).appends⟩
  | putbits => exact ⟨_, _, _, _, exec_putbits, .onWriter fun _ => (emits_putbits _ _).appends⟩
  | bwFlush => exact ⟨_, _, _, _, exec_bwFlush, .onWriter fun _ => appends_flush⟩
  | brInit => exact ⟨_, _, _, _, exec_brInit, .pure fun _ => tidy_withRd fun _ => Nat.zero_le _⟩
  | getbit =>
    refine ⟨_, _, _, _, exec_getbit, fun s t _ ht => ?_, by simp⟩
    split at ht <;> cases ht
    exact (tidy_getbit ‹_›).trans (tidy_withRes _ _)
  | getbits =>
    refine ⟨_, _, _, _, exec_getbits, fun s t _ ht => ?_, by simp⟩
    split at ht <;> cases ht
    exact (tidy_getbits ‹_›).trans (tidy_withRes _ _)
  | splitgeom => exact ⟨_, _, _, _, exec_splitgeom, .pure fun s => tidy_withRes s _⟩
  | classify => exact ⟨_, _, _, _, exec_classify, .pure fun s => tidy_withRes s _⟩
  | avgcolor => exact ⟨_, _, _, _, exec_avgcolor, .pure fun s => tidy_withRes s _⟩
  | analyze =>
    exact ⟨_, _, _, _, exec_analyze, .result _ (fun _ _ => tidy_analyze) (by simp)⟩
  | palInit =>
    exact ⟨_, _, _, _, exec_palInit, .pure fun _ => tidy_withPal fun _ _ h => absurd h List.not_mem_nil⟩
  | palPush =>
    refine ⟨_, _, _, _, exec_palPush, fun s t _ ht => ?_, by simp⟩
    obtain ⟨r, hr, he⟩ := bind_eq_ok _ _ _ ht
    cases he
    exact (tidy_withPal fun o => palPush_length_le hr o.palettes).trans (tidy_withRes _ _)
  | palBuild =>
    exact ⟨_, _, _, _, exec_palBuild, .result _ (fun _ _ _ => tidy_palBuild) (by simp)⟩
  | encPaltab =>
    exact ⟨_, _, _, _, exec_encPaltab, .onWriter fun s => appends_putPaltab s.pal.palettes⟩
  | encTree => exact ⟨_, _, _, _, exec_encTree, ⟨fun _ _ => tidy_encTree, by simp⟩⟩
  | encode =>
    exact ⟨_, _, _, _, exec_encode, .result _ (fun _ _ => tidy_encodeBody) (by simp)⟩
  | decPaltab =>
    exact ⟨_, _, _, _, exec_decPaltab, .result _ (fun _ _ _ => tidy_decPaltab) (by simp)⟩
  | decTree =>
    exact ⟨_, _, _, _, exec_decTree, .result _ (fun _ _ => tidy_decTree) (by simp)⟩
  | decode =>
    refine ⟨_, _, _, _, exec_decode, fun s t hc ht => ?_, by simp⟩
    obtain ⟨s1, h1, h⟩ := bind_eq_ok _ _ _ ht
    obtain ⟨s2, h2, he⟩ := bind_eq_ok _ _ _ h
    cases he
    have t1 : Tidy s s1 := (tidy_withRd fun _ => Nat.zero_le _).trans (tidy_decPaltab h1)
    exact (t1.trans (tidy_decTree (t1.keeps_cfgOK hc) h2)).trans (tidy_withRes _ _)

end Sys2Proof.Machine
end

section
/-! One step, by what it fetches (10_state.md R28, 20_memory.md R71). -/

namespace Sys2Proof.Machine

section
variable {s t : State} {i : Instr} {op : HostOp} {q : List HostOp}

theorem step_of_run (h : fetch s = .run i t) : step s = exec i t := by
  simp only [step, h]

theorem step_of_done (h : fetch s = .done t) : step s = .next t := by
  simp only [step, h]

theorem step_of_stop {f : Fault} (h : fetch s = .stop f) : step s = .fault f := by
  simp only [step, h]

theorem fetch_of_cmd {code : Byte} (hc : s.cmd = some code) :
    fetch s = fetchCommand code { s with cmd := none } := by
  simp only [fetch, hc]

/-- With no command pending a due field is taken before the host acts. -/
theorem fetch_of_due (hc : s.cmd = none) (hd : s.due ≠ .none) : fetch s = fetchField s := by
  cases h : s.due with
  | none => exact absurd h hd
  | count | size _ | entry _ _ _ | node _ => simp only [fetch, hc, h]

theorem fetch_of_idle (hc : s.cmd = none) (hd : s.due = .none) (hq : s.hostq = []) :
    fetch s = .done s := by
  simp only [fetch, hc, hd, hq]

theorem fetch_of_host (hc : s.cmd = none) (hd : s.due = .none) (hq : s.hostq = op :: q) :
    fetch s = fetchHost op { s with hostq := q } := by
  cases s
  subst hc hd hq
  rfl

theorem fetchCommand_of_decode {code : Byte} (hd : decodeCommand code = some i) :
    fetchCommand code s = .run i s := by
  simp only [fetchCommand, hd]

theorem fetchCommand_of_reserved {code : Byte} (hd : decodeCommand code = none) :
    fetchCommand code s = .done (unknownCommand code s) := by
  simp only [fetchCommand, hd]

theorem fetchHost_header {bytes : List Byte} {rest : List Bool}
    (hd : decode .header (bytesToBits bytes) = .ok (i, rest)) :
    fetchHost (.readHeader bytes) s = .run i s := by
  simp only [fetchHost, hd]

theorem fetchHost_badHeader {bytes : List Byte} {e : Reject}
    (hd : decode .header (bytesToBits bytes) = .error e) :
    fetchHost (.readHeader bytes) s = .done s := by
  simp only [fetchHost, hd]

/-- Every action but the reading of a header is done by `hostAct`. -/
theorem fetchHost_of_ok (hop : ∀ bytes, op ≠ .readHeader bytes) (h : hostAct op s = .ok t) :
    fetchHost op s = .done t := by
  cases op with
  | readHeader bytes => exact absurd rfl (hop bytes)
  | _ => simp only [fetchHost, h]

theorem fetchHost_of_error {f : Fault} (hop : ∀ bytes, op ≠ .readHeader bytes)
    (h : hostAct op s = .error f) : fetchHost op s = .stop f := by
  cases op with
  | readHeader bytes => exact absurd rfl (hop bytes)
  | _ => simp only [fetchHost, h]

end

theorem portOf_of_decodeCommand {code : Byte} {i : Instr} (h : decodeCommand code = some i) :
    portOf i = .cmd := by
  unfold decodeCommand at h
  split at h <;> cases h <;> rfl

/-- What is read at the header's port is a header. -/
theorem decode_header_cases (bits : List Bool) :
    (∃ magic width height quality rest,
        decode .header bits = .ok (.artHeader magic width height quality, rest)) ∨
      ∃ e, decode .header bits = .error e := by
  cases h : decode .header bits with
  | error e => exact .inr ⟨e, rfl⟩
  | ok v =>
    simp only [decode] at h
    repeat' split at h
    all_goals cases h
    exact .inl ⟨_, _, _, _, _, rfl⟩

end Sys2Proof.Machine
end

section
/-! What the host's actions may write (10_state.md R45). -/

namespace Sys2Proof.Machine

/-- The state with the parts that the host may write blanked. -/
def blockPart (s : State) : State :=
  { s with
    cmd := State.reset.cmd
    arg := State.reset.arg
    cfg := State.reset.cfg
    raster := State.reset.raster
    stripe := State.reset.stripe
    rbuf := State.reset.rbuf
    ana := State.reset.ana }

/-- What an action of the host other than a power-on does to the rest of the state: the block's parts
stay, PATTERN and LEAFCOLOR keep their lengths, the memories their form. -/
structure HostWrote (s t : State) : Prop where
  block : blockPart t = blockPart s
  raster : Memory.wf s.raster = true → Memory.wf t.raster = true
  stripe : Memory.wf s.stripe = true → Memory.wf t.stripe = true
  rbuf : Memory.wf s.rbuf = true → Memory.wf t.rbuf = true
  pattern : t.ana.pattern.length = s.ana.pattern.length
  leafcolor : t.ana.leafcolor.length = s.ana.leafcolor.length

theorem HostWrote.refl (s : State) : HostWrote s s := ⟨rfl, id, id, id, rfl, rfl⟩

/-- A register write reaches CMD, ARG and the configuration only. -/
theorem writeReg_eq (num : Byte) (v : Word) (s : State) :
    ∃ cmd arg cfg, writeReg num v s = { s with cmd := cmd, arg := arg, cfg := cfg } := by
  unfold writeReg
  split <;> exact ⟨_, _, _, rfl⟩

theorem hostAct_wrote {op : HostOp} {s t : State} (hop : op ≠ .powerOn)
    (h : hostAct op s = .ok t) : HostWrote s t := by
  cases op with
  | powerOn => exact absurd rfl hop
  | readHeader bytes =>
    cases h
    exact .refl s
  | writeReg num v =>
    cases h
    obtain ⟨cmd, arg, cfg, e⟩ := writeReg_eq num v s
    rw [e]
    exact ⟨rfl, id, id, id, rfl, rfl⟩
  | writeRaster a c =>
    simp only [hostAct] at h
    split at h <;> cases h
    exact ⟨rfl, Memory.wf_write _ a c, id, id, rfl, rfl⟩
  | writeStripe i v =>
    simp only [hostAct] at h
    split at h <;> cases h
    exact ⟨rfl, id, Memory.wf_write _ i v, id, rfl, rfl⟩
  | writeRbuf a v =>
    simp only [hostAct] at h
    split at h <;> cases h
    exact ⟨rfl, id, id, Memory.wf_write _ a v, rfl, rfl⟩
  | writePattern i v =>
    cases h
    exact ⟨rfl, id, id, id, List.length_set, rfl⟩
  | writeLeafcolor i c =>
    cases h
    exact ⟨rfl, id, id, id, rfl, List.length_set⟩

theorem Ordered.of_blockPart {s t : State} (h : Ordered s) (e : blockPart t = blockPart s) :
    Ordered t := by
  have hwr : t.wr = s.wr := congrArg (·.wr) e
  have hcap : t.wbufCap = s.wbufCap := congrArg (·.wbufCap) e
  have hrd : t.rd = s.rd := congrArg (·.rd) e
  have hwstk : t.wstk = s.wstk := congrArg (·.wstk) e
  have hdec : t.dec = s.dec := congrArg (·.dec) e
  have hpal : t.pal = s.pal := congrArg (·.pal) e
  obtain ⟨writer, within, reader, stack, jobs, palettes⟩ := h
  exact ⟨by rwa [hwr], by rwa [hcap, hwr], by rwa [hrd], by rwa [hwstk], by rwa [hdec],
    by rwa [hpal]⟩

end Sys2Proof.Machine
end

section
/-! The invariant of every step (10_state.md R22 to R41, 40_bitio.md R129, R130). -/

namespace Sys2Proof.Machine

theorem inv_of_running {s : State} (hf : s.fault = ⟨false, 0, 0, 0⟩)
    (hraster : Memory.wf s.raster = true) (hstripe : Memory.wf s.stripe = true)
    (hrbuf : Memory.wf s.rbuf = true) (hdue : s.due = .none) (ho : Ordered s) : Inv s :=
  (inv_iff s).2 ⟨hraster, hstripe, hrbuf, hdue, fun _ => ⟨by simp [hf], ho⟩⟩

theorem Inv.due_none {s : State} (h : Inv s) : s.due = .none := by
  obtain ⟨-, -, -, hdue, -⟩ := h
  exact hdue

theorem Inv.of_tidy {s t : State} (h : Inv s) (ht : Tidy s t) : Inv t := by
  obtain ⟨hraster, hstripe, hrbuf, hdue, hrun⟩ := (inv_iff s).1 h
  have hfault : t.fault = s.fault := congrArg (·.fault) ht.host
  refine (inv_iff t).2 ⟨(congrArg (Memory.wf ·.raster) ht.host).trans hraster,
    (congrArg (Memory.wf ·.stripe) ht.host).trans hstripe,
    (congrArg (Memory.wf ·.rbuf) ht.host).trans hrbuf, (congrArg (·.due) ht.host).trans hdue, ?_⟩
  rw [hfault]
  exact fun hf => ⟨(hrun hf).1, ht.ordered (hrun hf).2⟩

/-- While a fault is pending only the memories and `due` count. -/
theorem inv_of_faulted {s : State} (hf : s.fault.flag = true) (hraster : Memory.wf s.raster = true)
    (hstripe : Memory.wf s.stripe = true) (hrbuf : Memory.wf s.rbuf = true)
    (hdue : s.due = .none) : Inv s := by
  refine (inv_iff s).2 ⟨hraster, hstripe, hrbuf, hdue, fun h => ?_⟩
  rw [hf] at h
  cases h

theorem inv_raiseFault {s : State} (h : Inv s) (r : Raise) : Inv (raiseFault r s) := by
  obtain ⟨hraster, hstripe, hrbuf, -, -⟩ := h
  exact inv_of_faulted rfl hraster hstripe hrbuf rfl

theorem inv_bodyFault {s : State} (h : Inv s) (r : Raise) {freed : State → State}
    (hf : ∀ s, hostPart (freed s) = hostPart s) : Inv (bodyFault freed r s) := by
  obtain ⟨hraster, hstripe, hrbuf, -, -⟩ := h
  exact inv_of_faulted rfl ((congrArg (Memory.wf ·.raster) (hf s)).trans hraster)
    ((congrArg (Memory.wf ·.stripe) (hf s)).trans hstripe)
    ((congrArg (Memory.wf ·.rbuf) (hf s)).trans hrbuf) rfl

/-- A command keeps the invariant: its five ends are the state itself, a fault of the configuration or
of an operand, the body's state, and the body's fault. -/
theorem Sound.keeps_inv {needs : State → Bool} {operands : State → Option Raise}
    {body : State → Except Raise State} {freed : State → State} (h : Sound needs body freed)
    {s t : State} (hs : Inv s) (ht : runCommand needs operands body freed s = .next t) : Inv t := by
  rcases runCommand_cases needs operands body freed s with ⟨-, e⟩ | ⟨-, -, e⟩ | ⟨r, -, -, -, e⟩ |
    ⟨u, -, hn, -, hb, e⟩ | ⟨r, -, -, -, -, e⟩ <;> rw [e] at ht <;> cases ht
  · exact hs
  · exact inv_raiseFault hs _
  · exact inv_raiseFault hs r
  · exact hs.of_tidy (h.tidy s _ hn hb)
  · exact inv_bodyFault hs r h.frees

theorem ordered_softReset (s : State) : Ordered (softReset s) :=
  ⟨rfl, fun _ _ => Nat.zero_le _, Nat.zero_le _, rfl, rfl, fun _ h => absurd h List.not_mem_nil⟩

theorem ordered_powerOn (s : State) : Ordered (powerOn s) :=
  ⟨rfl, fun _ _ => Nat.zero_le _, Nat.zero_le _, rfl, rfl, fun _ h => absurd h List.not_mem_nil⟩

theorem inv_powerOn (s : State) : Inv (powerOn s) :=
  inv_of_running rfl rfl rfl rfl rfl (ordered_powerOn s)

theorem inv_softReset {s : State} (h : Inv s) : Inv (softReset s) := by
  obtain ⟨hraster, hstripe, hrbuf, hdue, -⟩ := h
  exact inv_of_running rfl hraster hstripe hrbuf hdue (ordered_softReset s)

theorem exec_keeps_inv {i : Instr} (hp : portOf i = .cmd) {s t : State} (hs : Inv s)
    (ht : exec i s = .next t) : Inv t := by
  by_cases hr : i = .reset
  · subst hr
    rw [exec_reset] at ht
    cases ht
    exact inv_softReset hs
  · obtain ⟨_, _, _, _, he, hsound⟩ := exec_sound i hp hr
    rw [he] at ht
    exact hsound.keeps_inv hs ht

theorem inv_hostAct {op : HostOp} {s t : State} (hs : Inv s) (ht : hostAct op s = .ok t) : Inv t := by
  by_cases hop : op = .powerOn
  · subst hop
    cases ht
    exact inv_powerOn s
  · obtain ⟨hblock, hraster, hstripe, hrbuf, -, -⟩ := hostAct_wrote hop ht
    obtain ⟨kraster, kstripe, krbuf, hdue, hrun⟩ := (inv_iff s).1 hs
    have hfault : t.fault = s.fault := congrArg (·.fault) hblock
    refine (inv_iff t).2 ⟨hraster kraster, hstripe kstripe, hrbuf krbuf,
      (congrArg (·.due) hblock).trans hdue, fun hf => ?_⟩
    rw [hfault] at hf ⊢
    exact ⟨(hrun hf).1, (hrun hf).2.of_blockPart hblock⟩

theorem inv_unknownCommand {s : State} (h : Inv s) (code : Byte) : Inv (unknownCommand code s) := by
  unfold unknownCommand
  split
  · exact h
  · exact inv_raiseFault h _

/-- ART_HEADER writes two registers of the host's configuration, or nothing. -/
theorem inv_artHeader {s t : State} (h : Inv s) {magic : BitVec 32} {w ht : Half} {q : Byte}
    (he : exec (.artHeader magic w ht q) s = .next t) : Inv t := by
  simp only [exec, execArtHeader] at he
  split at he <;> cases he <;> exact h

/-- Settles O12: a step at a command boundary runs a command, raises IllegalCommand, waits, or is an
action of the host. -/
theorem stepKeepsInv : Obligations.StepKeepsInv := by
  intro s t hs ht
  cases hcmd : s.cmd with
  | some code =>
    have hs' : Inv { s with cmd := none } := hs
    have hf := fetch_of_cmd hcmd
    cases hd : decodeCommand code with
    | some i =>
      rw [step_of_run (hf.trans (fetchCommand_of_decode hd))] at ht
      exact exec_keeps_inv (portOf_of_decodeCommand hd) hs' ht
    | none =>
      rw [step_of_done (hf.trans (fetchCommand_of_reserved hd))] at ht
      cases ht
      exact inv_unknownCommand hs' code
  | none =>
    have hdue : s.due = .none := hs.due_none
    cases hq : s.hostq with
    | nil =>
      rw [step_of_done (fetch_of_idle hcmd hdue hq)] at ht
      cases ht
      exact hs
    | cons op q =>
      have hs' : Inv { s with hostq := q } := hs
      have hf := fetch_of_host hcmd hdue hq
      by_cases hop : ∃ bytes, op = .readHeader bytes
      · obtain ⟨bytes, rfl⟩ := hop
        rcases decode_header_cases (bytesToBits bytes) with ⟨m, w, h, b, rest, hd⟩ | ⟨e, hd⟩
        · rw [step_of_run (hf.trans (fetchHost_header hd))] at ht
          exact inv_artHeader hs' ht
        · rw [step_of_done (hf.trans (fetchHost_badHeader hd))] at ht
          cases ht
          exact hs'
      · rw [not_exists] at hop
        cases ha : hostAct op { s with hostq := q } with
        | ok u =>
          rw [step_of_done (hf.trans (fetchHost_of_ok hop ha))] at ht
          cases ht
          exact inv_hostAct hs' ha
        | error f =>
          rw [step_of_stop (hf.trans (fetchHost_of_error hop ha))] at ht
          cases ht

/-- Settles O11. -/
theorem resetInv : Obligations.ResetInv :=
  inv_of_running rfl rfl rfl rfl rfl
    ⟨rfl, fun _ _ => Nat.zero_le _, Nat.zero_le _, rfl, rfl, fun _ h => absurd h List.not_mem_nil⟩

end Sys2Proof.Machine
end

section
/-! Who may write what (10_state.md R45): no instruction but the header's writes the host's side, and
no host action but a power-on the block's. -/

namespace Sys2Proof.Machine

theorem HostSideKept.refl (s : State) : HostSideKept s s := .of_hostPart rfl

theorem hostSideKept_withDue {s t : State} (h : hostPart t = hostPart s) (d : Due) :
    HostSideKept s (t.withDue d) :=
  have k : HostSideKept s t := .of_hostPart h
  k

theorem hostSideKept_raiseFault (r : Raise) {s t : State} (h : hostPart t = hostPart s) :
    HostSideKept s (raiseFault r t) :=
  have k : HostSideKept s t := .of_hostPart h
  k

theorem hostSideKept_bodyFault (r : Raise) {s : State} {freed : State → State}
    (h : hostPart (freed s) = hostPart s) : HostSideKept s (bodyFault freed r s) :=
  have k : HostSideKept s (freed s) := .of_hostPart h
  k

theorem hostSideKept_softReset (s : State) : HostSideKept s (softReset s) :=
  ⟨rfl, rfl, rfl, rfl, rfl, fun _ _ => rfl, fun _ => rfl, fun _ => rfl⟩

theorem Sound.keeps_host {needs : State → Bool} {operands : State → Option Raise}
    {body : State → Except Raise State} {freed : State → State} (h : Sound needs body freed)
    {s t : State} (ht : runCommand needs operands body freed s = .next t) : HostSideKept s t := by
  rcases runCommand_cases needs operands body freed s with ⟨-, e⟩ | ⟨-, -, e⟩ | ⟨r, -, -, -, e⟩ |
    ⟨u, -, hn, -, hb, e⟩ | ⟨r, -, -, -, -, e⟩ <;> rw [e] at ht <;> cases ht
  · exact .refl s
  · exact hostSideKept_raiseFault _ rfl
  · exact hostSideKept_raiseFault r rfl
  · exact .of_hostPart (h.tidy s _ hn hb).host
  · exact hostSideKept_bodyFault r (h.frees s)

/-- All a token can do as an instruction (44_decoder.md R187): nothing where no token is due, else its
effect at the region on top of the stack, or the fault of that effect. -/
theorem tokenOutcome_cases (t : Token) (s : State) :
    tokenOutcome t s = .next s ∨
    (∃ r rest v, s.wstk = r :: rest ∧ tokenEffect t r (s.withStack rest) = .ok v ∧
      tokenOutcome t s = .next (pushKids v)) ∨
    (∃ r rest e, s.wstk = r :: rest ∧ tokenEffect t r (s.withStack rest) = .error e ∧
      tokenOutcome t s = .next (bodyFault freeDecTree e s)) := by
  unfold tokenOutcome
  split
  · exact .inl rfl
  · split
    · rename_i r rest _ hk
      cases he : tokenEffect t r (s.withStack rest) with
      | ok v => exact .inr (.inl ⟨r, rest, v, hk, he, rfl⟩)
      | error e => exact .inr (.inr ⟨r, rest, e, hk, he, rfl⟩)
    · exact .inl rfl

theorem hostPart_tokenEffect {t : Token} {r : Region} {s : State} {v : Visited}
    (h : tokenEffect t r s = .ok v) : hostPart v.1 = hostPart s := by
  rcases tokenEffect_cases t r s with ⟨_, _, -, -, -, e⟩ | ⟨_, -, -, e⟩ | ⟨_, -, -, e⟩ |
    ⟨_, _, -, -, -, e⟩ | ⟨-, -, e⟩ <;> rw [e] at h <;> cases h <;> rfl

theorem hostPart_pushKids (v : Visited) : hostPart (pushKids v) = hostPart v.1 := by
  obtain ⟨s, _ | _⟩ := v <;> rfl

theorem tokenOutcome_keeps_host {t : Token} {s u : State} (h : tokenOutcome t s = .next u) :
    HostSideKept s u := by
  rcases tokenOutcome_cases t s with e | ⟨r, rest, v, -, hv, e⟩ | ⟨r, rest, x, -, -, e⟩ <;>
    rw [e] at h <;> cases h
  · exact .refl s
  · have hs : hostPart (s.withStack rest) = hostPart s := rfl
    exact .of_hostPart (((hostPart_pushKids v).trans (hostPart_tokenEffect hv)).trans hs)
  · exact hostSideKept_bodyFault x (hostPart_freeDecTree s)

theorem exec_keeps_host {i : Instr} (hp : portOf i ≠ .header) {s t : State}
    (h : exec i s = .next t) : HostSideKept s t := by
  by_cases hc : portOf i = .cmd
  · by_cases hr : i = .reset
    · subst hr
      rw [exec_reset] at h
      cases h
      exact hostSideKept_softReset s
    · obtain ⟨_, _, _, _, he, hsound⟩ := exec_sound i hc hr
      rw [he] at h
      exact hsound.keeps_host h
  · cases i with
    | leaf idx => exact tokenOutcome_keeps_host h
    | internal => exact tokenOutcome_keeps_host h
    | palCount p =>
      simp only [exec, execPalCount] at h
      repeat' split at h
      all_goals cases h
      · exact .refl s
      · exact hostSideKept_withDue rfl _
      · exact .refl s
    | palSize n =>
      simp only [exec, execPalSize] at h
      repeat' split at h
      all_goals cases h
      · exact .refl s
      · exact hostSideKept_withDue rfl _
      · exact hostSideKept_withDue rfl _
      · exact .refl s
    | palEntry r g b =>
      simp only [exec, execPalEntry] at h
      repeat' split at h
      all_goals cases h
      · exact .refl s
      · exact hostSideKept_withDue rfl _
      · exact hostSideKept_withDue rfl _
      · exact .refl s
    | pad n =>
      cases h
      exact .refl s
    | artHeader _ _ _ _ => exact absurd rfl hp
    | _ => exact absurd rfl hc

theorem HostWrote.keeps_block {s t : State} (h : HostWrote s t) : BlockSideKept s t :=
  ⟨congrArg (·.fault) h.block, congrArg (·.res) h.block, congrArg (·.wr) h.block,
    congrArg (·.rd) h.block, congrArg (·.pal) h.block, congrArg (·.enc) h.block,
    congrArg (·.dec) h.block, congrArg (·.wstk) h.block, h.pattern, h.leafcolor⟩

/-- Settles O13: a command's parts are sound, a field or token writes the block's parts and what is due,
and the host's actions write the host's. -/
theorem blockAndHostOwnership : Obligations.BlockAndHostOwnership :=
  ⟨fun _ _ _ hp h => exec_keeps_host hp h, fun _ _ _ hop h => (hostAct_wrote hop h).keeps_block⟩

end Sys2Proof.Machine
end

section
/-! What the host writes and reads of the buffers (10_state.md R30 to R38, 20_memory.md R67, R71). -/

namespace Sys2Proof.Machine

section
variable {s t : State}

theorem hostAct_writeRaster {a : Nat} {c : Color} (h : hostAct (.writeRaster a c) s = .ok t) :
    t = { s with raster := Memory.write s.raster a c } := by
  simp only [hostAct] at h
  split at h <;> cases h
  rfl

theorem hostAct_writeStripe {i : Nat} {v : Stripe} (h : hostAct (.writeStripe i v) s = .ok t) :
    t = { s with stripe := Memory.write s.stripe i v } := by
  simp only [hostAct] at h
  split at h <;> cases h
  rfl

theorem hostAct_writeRbuf {a : Nat} {v : Byte} (h : hostAct (.writeRbuf a v) s = .ok t) :
    t = { s with rbuf := Memory.write s.rbuf a v } := by
  simp only [hostAct] at h
  split at h <;> cases h
  rfl

theorem hostAct_writePattern {i : Nat} {v : Bool} (h : hostAct (.writePattern i v) s = .ok t) :
    t = s.withAna { s.ana with pattern := s.ana.pattern.set i v } := by
  cases h
  rfl

theorem hostAct_writeLeafcolor {i : Nat} {c : Color}
    (h : hostAct (.writeLeafcolor i c) s = .ok t) :
    t = s.withAna { s.ana with leafcolor := s.ana.leafcolor.set i c } := by
  cases h
  rfl

/-- RASTER[a] (10_state.md R30): the colour the host last wrote, or the entry's free value. -/
def rasterAt (s : State) (a : Nat) : Color :=
  (Memory.read s.raster a).getD (Config.unwrittenPixel s.era a)

theorem readRaster_eq (s : State) (a : Nat) : readRaster s a = packColor (rasterAt s a) := rfl

theorem pixel_eq (s : State) (x y : Nat) : pixel s x y = rasterAt s (y * s.cfg.imgW.toNat + x) := rfl

theorem rasterAt_write (s : State) (a b : Nat) (c : Color) :
    rasterAt { s with raster := Memory.write s.raster a c } b =
      if b = a then c else rasterAt s b := by
  by_cases h : b = a
  · subst h
    simp [rasterAt, Memory.read_write_same]
  · simp [rasterAt, Memory.read_write_other _ _ _ _ h, h]

theorem stripeAt_write (s : State) (i j : Nat) (v : Stripe) :
    stripeAt { s with stripe := Memory.write s.stripe i v } j =
      if j = i then v else stripeAt s j := by
  by_cases h : j = i
  · subst h
    simp [stripeAt, Memory.read_write_same]
  · simp [stripeAt, Memory.read_write_other _ _ _ _ h, h]

theorem rbyte_write (s : State) (a b : Nat) (v : Byte) :
    rbyte { s with rbuf := Memory.write s.rbuf a v } b = if b = a then v else rbyte s b := by
  by_cases h : b = a
  · subst h
    simp [rbyte, Memory.read_write_same]
  · simp [rbyte, Memory.read_write_other _ _ _ _ h, h]

/-- Two pixels inside the image width have two entries (20_memory.md R67). -/
theorem entry_injective {w x y px py : Nat} (hx : x < w) (hpx : px < w)
    (h : py * w + px = y * w + x) : (px, py) = (x, y) := by
  have hmod := congrArg (· % w) h
  have hdiv := congrArg (· / w) h
  have hw : 0 < w := Nat.zero_lt_of_lt hx
  simp only [Nat.mul_add_mod_self_right, Nat.mod_eq_of_lt, hx, hpx] at hmod
  simp only [Nat.mul_comm _ w, Nat.mul_add_div hw, Nat.div_eq_of_lt, hx, hpx, Nat.add_zero] at hdiv
  rw [hmod, hdiv]

theorem pixel_write {x y px py : Nat} (c : Color) (hx : x < s.cfg.imgW.toNat)
    (hpx : px < s.cfg.imgW.toNat) :
    pixel { s with raster := Memory.write s.raster (y * s.cfg.imgW.toNat + x) c } px py =
      if (px, py) = (x, y) then c else pixel s px py := by
  rw [pixel_eq, pixel_eq, rasterAt_write]
  dsimp only
  by_cases h : (px, py) = (x, y)
  · obtain ⟨rfl, rfl⟩ := Prod.mk.inj h
    simp
  · rw [if_neg h, if_neg fun e => h (entry_injective hx hpx e)]

theorem readLeafcolor_of_some {k : Nat} {c : Color} (h : s.ana.leafcolor[k]? = some c) :
    readLeafcolor s k = some (packColor c) := by
  simp only [readLeafcolor, h, Option.map_some]

theorem readPalette_of_some {p : Nat} {cs : List Color} (h : s.pal.palettes[p]? = some cs) (j : Nat) :
    readPalette s p j = (cs[j]?).map packColor := by
  simp only [readPalette, h, Option.bind_some]

theorem readPalsize_of_some {p : Nat} {cs : List Color} (h : s.pal.palettes[p]? = some cs) :
    readPalsize s p = some cs.length := by
  simp only [readPalsize, h, Option.map_some]

end

/-- Settles O14: a write to a sparse memory or below a list's length reads back and keeps the other
entries; the block's buffers read entry by entry. -/
theorem hostWriteReadsBack : Obligations.HostWriteReadsBack := by
  refine ⟨?raster, fun _ _ _ => rfl, ?pixel, ?stripe, ?rbuf, fun _ _ => ⟨rfl, rfl⟩, ?pattern,
    ?leafcolor, fun _ _ => ⟨rfl, rfl, rfl, rfl⟩, fun _ _ _ => readLeafcolor_of_some, ?noLeafcolor,
    ?palette, ?noPalette⟩
  case raster =>
    intro s t a c h
    rw [hostAct_writeRaster h]
    refine ⟨?_, fun b hb => ?_⟩
    · rw [readRaster_eq, rasterAt_write, if_pos rfl]
      rfl
    · rw [readRaster_eq, readRaster_eq, rasterAt_write, if_neg hb]
  case pixel =>
    intro s t x y c hx h
    rw [hostAct_writeRaster h]
    refine ⟨?_, fun px py hpx hne => ?_⟩
    · rw [pixel_write c hx hx, if_pos rfl]
    · rw [pixel_write c hx hpx, if_neg hne]
  case stripe =>
    intro s t i v h
    rw [hostAct_writeStripe h]
    refine ⟨?_, fun j hj => ?_⟩
    · rw [readStripe, stripeAt_write, if_pos rfl]
    · rw [readStripe, readStripe, stripeAt_write, if_neg hj]
  case rbuf =>
    intro s t a v h
    rw [hostAct_writeRbuf h]
    refine ⟨?_, fun b hb => ?_⟩
    · rw [readRbuf, rbyte_write, if_pos rfl]
    · rw [readRbuf, readRbuf, rbyte_write, if_neg hb]
  case pattern =>
    intro s t i v hi h
    rw [hostAct_writePattern h]
    exact ⟨List.getElem?_set_self hi, fun j hj => List.getElem?_set_ne hj.symm⟩
  case leafcolor =>
    intro s t i c hi h
    rw [hostAct_writeLeafcolor h]
    refine ⟨readLeafcolor_of_some (List.getElem?_set_self hi), fun j hj => ?_⟩
    simp only [readLeafcolor, withAna_ana, List.getElem?_set_ne hj.symm]
  case noLeafcolor =>
    intro s k hk
    simp only [readLeafcolor, List.getElem?_eq_none hk, Option.map_none]
  case palette =>
    intro s p cs hp
    refine ⟨readPalsize_of_some hp, fun j c hc => ?_, fun j hj => ?_⟩
    · rw [readPalette_of_some hp, hc]
      rfl
    · rw [readPalette_of_some hp, List.getElem?_eq_none hj]
      rfl
  case noPalette =>
    intro s p hp
    simp only [readPalsize, readPalette, List.getElem?_eq_none hp, Option.map_none, Option.bind_none,
      implies_true, and_self]

end Sys2Proof.Machine
end

section
/-! What a valid configuration is (10_state.md R29). -/

namespace Sys2Proof.Machine

theorem imgOK_iff (s : State) : imgOK s = true ↔ 1 ≤ s.cfg.imgW.toNat ∧ 1 ≤ s.cfg.imgH.toNat := by
  simp only [imgOK, Bool.and_eq_true, decide_eq_true_eq]

/-- Stripes `i` to `i + n`, the first at row `y`: each begins where the one before ends, and the last
ends at IMG_H. -/
theorem stripesOK_succ_iff (s : State) (n i y : Nat) :
    stripesOK s (n + 1) i y = true ↔
      (stripeAt s i).y.toNat = y ∧
      (∀ j, j < n + 1 → 1 ≤ (stripeAt s (i + j)).h.toNat) ∧
      (∀ j, j < n → (stripeAt s (i + (j + 1))).y.toNat =
        (stripeAt s (i + j)).y.toNat + (stripeAt s (i + j)).h.toNat) ∧
      (stripeAt s (i + n)).y.toNat + (stripeAt s (i + n)).h.toNat = s.cfg.imgH.toNat := by
  have hm : Config.minBlock = 1 := rfl
  induction n generalizing i y with
  | zero =>
    simp only [stripesOK, hm, Bool.and_eq_true, decide_eq_true_eq, Nat.forall_lt_succ_left,
      Nat.not_lt_zero, false_imp_iff, implies_true, and_true, true_and, Nat.add_zero, and_assoc]
    refine and_congr_right fun hy => ?_
    rw [hy]
  | succ n ih =>
    have e : ∀ j, i + 1 + j = i + (j + 1) := fun j => by omega
    rw [stripesOK]
    simp only [Bool.and_eq_true, decide_eq_true_eq, ih, hm, Nat.forall_lt_succ_left, and_assoc, e,
      Nat.add_zero, Nat.zero_add]
    refine and_congr_right fun hy => and_congr_right fun _ => ?_
    rw [hy]
    constructor
    · rintro ⟨hy1, hh1, hhs, hys, hend⟩
      exact ⟨hh1, hhs, hy1, hys, hend⟩
    · rintro ⟨hh1, hhs, hy1, hys, hend⟩
      exact ⟨hy1, hh1, hhs, hys, hend⟩

/-- Every stripe takes a row at least. -/
theorem stripesOK_rows (s : State) (n i y : Nat) (h : stripesOK s n i y = true) :
    y + n ≤ s.cfg.imgH.toNat := by
  induction n generalizing i y with
  | zero =>
    simp only [stripesOK, decide_eq_true_eq] at h
    omega
  | succ n ih =>
    have hm : Config.minBlock = 1 := rfl
    simp only [stripesOK, hm, Bool.and_eq_true, decide_eq_true_eq] at h
    have := ih (i + 1) _ h.2
    omega

theorem cfgOK_iff (s : State) :
    cfgOK s = true ↔
      1 ≤ s.cfg.imgW.toNat ∧ 1 ≤ s.cfg.imgH.toNat ∧ 1 ≤ s.cfg.nstripe.toNat ∧
      (stripeAt s 0).y.toNat = 0 ∧
      (∀ i, i < s.cfg.nstripe.toNat → 1 ≤ (stripeAt s i).h.toNat) ∧
      (∀ i, i + 1 < s.cfg.nstripe.toNat →
        (stripeAt s (i + 1)).y.toNat = (stripeAt s i).y.toNat + (stripeAt s i).h.toNat) ∧
      (stripeAt s (s.cfg.nstripe.toNat - 1)).y.toNat +
        (stripeAt s (s.cfg.nstripe.toNat - 1)).h.toNat = s.cfg.imgH.toNat := by
  simp only [cfgOK, Bool.and_eq_true, decide_eq_true_eq, imgOK_iff, and_assoc]
  refine and_congr_right fun _ => and_congr_right fun _ => and_congr_right fun hn => ?_
  obtain ⟨n, hn'⟩ : ∃ n, s.cfg.nstripe.toNat = n + 1 := ⟨s.cfg.nstripe.toNat - 1, by omega⟩
  rw [hn', stripesOK_succ_iff]
  simp only [Nat.zero_add, Nat.add_sub_cancel, Nat.add_lt_add_iff_right]

theorem nstripe_le_imgH {s : State} (h : cfgOK s = true) :
    s.cfg.nstripe.toNat ≤ s.cfg.imgH.toNat := by
  obtain ⟨-, -, -, hs⟩ := cfgOK_spec s h
  have := stripesOK_rows s _ 0 0 hs
  omega

/-- The commands that need an image. -/
theorem exec_without_img {s : State} {i : Instr} (hf : Running s) (hi : i = .classify ∨ i = .avgcolor)
    (hn : imgOK s = false) : exec i s = .next (raiseFault ⟨.badConfig, 0, 0⟩ s) := by
  rcases hi with rfl | rfl
  · exact (exec_classify s).trans (runCommand_badConfig _ _ _ _ s hf hn)
  · exact (exec_avgcolor s).trans (runCommand_badConfig _ _ _ _ s hf hn)

/-- The commands that need a stripe table. -/
theorem exec_without_cfg {s : State} {i : Instr} (hf : Running s)
    (hi : i = .analyze ∨ i = .encTree ∨ i = .encode ∨ i = .decTree ∨ i = .decode)
    (hn : cfgOK s = false) : exec i s = .next (raiseFault ⟨.badConfig, 0, 0⟩ s) := by
  rcases hi with rfl | rfl | rfl | rfl | rfl
  · exact (exec_analyze s).trans (runCommand_badConfig _ _ _ _ s hf hn)
  · exact (exec_encTree s).trans (runCommand_badConfig _ _ _ _ s hf hn)
  · exact (exec_encode s).trans (runCommand_badConfig _ _ _ _ s hf hn)
  · exact (exec_decTree s).trans (runCommand_badConfig _ _ _ _ s hf hn)
  · exact (exec_decode s).trans (runCommand_badConfig _ _ _ _ s hf hn)

/-- Settles O15: the stripe table by induction on NSTRIPE, and the commands by the shape they share. -/
theorem configValidity : Obligations.ConfigValidity :=
  ⟨imgOK_iff, cfgOK_iff, fun _ => nstripe_le_imgH, fun _ _ => exec_without_img,
    fun _ _ => exec_without_cfg⟩

end Sys2Proof.Machine
end

section
/-! What a step runs (10_state.md R28; 44_decoder.md R186, R187): the field that is due is the
instruction that the unread bits decode to. -/

namespace Sys2Proof

theorem splitField_eq_some {n v : Nat} {bits rest : List Bool}
    (h : splitField n bits = some (v, rest)) :
    n ≤ bits.length ∧ v = bitsToNat (bits.take n) ∧ rest = bits.drop n := by
  unfold splitField at h
  split at h
  · cases h
  · cases h
    exact ⟨by omega, rfl, rfl⟩

theorem decode_palCount {bits rest : List Bool} {i : Instr}
    (h : decode .palCount bits = .ok (i, rest)) :
    ∃ v, splitField 16 bits = some (v, rest) ∧ i = decodePalCount v := by
  simp only [decode] at h
  split at h <;> cases h
  exact ⟨_, ‹_›, rfl⟩

theorem decode_palSize {bits rest : List Bool} {i : Instr}
    (h : decode .palSize bits = .ok (i, rest)) :
    ∃ v, splitField 8 bits = some (v, rest) ∧ i = decodePalSize v := by
  simp only [decode] at h
  split at h <;> cases h
  exact ⟨_, ‹_›, rfl⟩

theorem decode_palEntry {bits rest : List Bool} {i : Instr}
    (h : decode .palEntry bits = .ok (i, rest)) :
    ∃ r g b rest1 rest2, splitField 8 bits = some (r, rest1) ∧
      splitField 8 rest1 = some (g, rest2) ∧ splitField 8 rest2 = some (b, rest) ∧
      i = decodePalEntry r g b := by
  simp only [decode] at h
  repeat' split at h
  all_goals cases h
  exact ⟨_, _, _, _, _, ‹_›, ‹_›, ‹_›, rfl⟩

namespace Machine

section
variable {s : State}

/-- A field that is there to be split off is there to be read, and the reader then stands after it. -/
theorem need_of_splitField {n v : Nat} {rest : List Bool} (p : Nat) (hn : 0 < n)
    (h : splitField n (unreadBits s) = some (v, rest)) :
    need n p s = .ok (v, s.advance n) ∧ unreadBits (s.advance n) = rest ∧
      (unreadBits s).length = n + rest.length := by
  obtain ⟨hl, rfl, rfl⟩ := splitField_eq_some h
  obtain ⟨hv, he⟩ := field_of_bits n (unreadBits s) hl
  obtain ⟨h1, h2⟩ := need_of_field n p _ _ s hn hv he
  refine ⟨h1, h2, ?_⟩
  rw [List.length_drop]
  omega

theorem fetchField_count {rest : List Bool} {i : Instr} (hd : s.due = .count)
    (h : decode .palCount (unreadBits s) = .ok (i, rest)) :
    fetchField s = .run i (s.advance ((unreadBits s).length - rest.length)) := by
  obtain ⟨v, hv, rfl⟩ := decode_palCount h
  obtain ⟨h1, -, hl⟩ := need_of_splitField 65536 (by decide) hv
  rw [hl, Nat.add_sub_cancel_right]
  simp only [fetchField, hd, h1, ok_bind, pure_eq_ok, fetched]

theorem fetchField_size {left : Nat} {rest : List Bool} {i : Instr} (hd : s.due = .size left)
    (h : decode .palSize (unreadBits s) = .ok (i, rest)) :
    fetchField s = .run i (s.advance ((unreadBits s).length - rest.length)) := by
  obtain ⟨v, hv, rfl⟩ := decode_palSize h
  obtain ⟨h1, -, hl⟩ := need_of_splitField s.pal.palettes.length (by decide) hv
  rw [hl, Nat.add_sub_cancel_right]
  simp only [fetchField, hd, h1, ok_bind, pure_eq_ok, fetched]

theorem fetchField_entry {left ents : Nat} {done : List Color} {rest : List Bool} {i : Instr}
    (hd : s.due = .entry left ents done)
    (h : decode .palEntry (unreadBits s) = .ok (i, rest)) :
    fetchField s = .run i (s.advance ((unreadBits s).length - rest.length)) := by
  obtain ⟨r, g, b, rest1, rest2, hr, hg, hb, rfl⟩ := decode_palEntry h
  obtain ⟨h1, u1, l1⟩ := need_of_splitField s.pal.palettes.length (by decide) hr
  rw [← u1] at hg
  obtain ⟨h2, u2, l2⟩ := need_of_splitField s.pal.palettes.length (by decide) hg
  rw [← u2] at hb
  obtain ⟨h3, -, l3⟩ := need_of_splitField s.pal.palettes.length (by decide) hb
  have hl : (unreadBits s).length - rest.length = 24 := by
    rw [u1] at l2
    rw [u2] at l3
    omega
  have hc : needColor s.pal.palettes.length s =
      .ok (⟨BitVec.ofNat 8 r, BitVec.ofNat 8 g, BitVec.ofNat 8 b⟩, s.advance 24) := by
    rw [needColor, h1, ok_bind]
    dsimp only
    rw [h2, ok_bind]
    dsimp only
    rw [h3, ok_bind, advance_advance, advance_advance]
    rfl
  rw [hl]
  simp only [fetchField, hd, hc, ok_bind, pure_eq_ok, fetched, decodePalEntry, BitVec.ofNat_toNat,
    BitVec.setWidth_eq]

theorem fetchField_node {k : Nat} {r : Region} {rs : List Region} {rest : List Bool} {i : Instr}
    (hd : s.due = .node k) (hk : s.wstk = r :: rs)
    (h : decode .token (unreadBits s) = .ok (i, rest)) :
    fetchField s = .run i (s.advance ((unreadBits s).length - rest.length)) := by
  rcases fetchToken_cases s with ⟨rest', hu, he⟩ | ⟨rest', hu, hl, he⟩ | ⟨hu, -⟩ | ⟨rest', hu, hl, -⟩ <;>
    rw [hu] at h
  · cases h
    simp only [fetchField, hd, hk, he, ok_bind, pure_eq_ok, fetched, hu, List.length_cons,
      Nat.add_sub_cancel_left, tokenInstr, decodeToken, Bool.false_eq_true, if_false]
  · have hs : splitField 8 rest' = some (bitsToNat (rest'.take 8), rest'.drop 8) := by
      rw [splitField, if_neg (by omega)]
    simp only [decode, hs] at h
    cases h
    have hn : (unreadBits s).length - (rest'.drop 8).length = 9 := by
      rw [hu, List.length_cons, List.length_drop]
      omega
    rw [hn]
    simp only [fetchField, hd, hk, he, ok_bind, pure_eq_ok, fetched, decodeToken, if_true]
  · cases h
  · have hs : splitField 8 rest' = none := by rw [splitField, if_pos hl]
    simp only [decode, hs] at h
    cases h

/-- Whatever field is due, reading it is decoding the unread bits. -/
theorem fetchField_of_decode {port : Port} {rest : List Bool} {i : Instr}
    (hport : duePort s = some port) (h : decode port (unreadBits s) = .ok (i, rest)) :
    fetchField s = .run i (s.advance ((unreadBits s).length - rest.length)) := by
  unfold duePort at hport
  split at hport <;> cases hport
  · exact fetchField_count ‹_› h
  · exact fetchField_size ‹_› h
  · exact fetchField_entry ‹_› h
  · exact fetchField_node ‹_› ‹_› h

theorem due_of_duePort {port : Port} (h : duePort s = some port) : s.due ≠ .none := by
  intro hd
  simp only [duePort, hd] at h
  cases h

end

/-- Settles O5: a pending code goes before a due field, and a due field before the host. -/
theorem stepRunsInstruction : Obligations.StepRunsInstruction := by
  refine ⟨fun s code i hc hd => ?_, fun s port i rest hc _ hport h => ?_,
    fun s bytes q i rest hc hd hq h => ?_⟩
  · exact step_of_run ((fetch_of_cmd hc).trans (fetchCommand_of_decode hd))
  · exact step_of_run ((fetch_of_due hc (due_of_duePort hport)).trans (fetchField_of_decode hport h))
  · exact step_of_run ((fetch_of_host hc hd hq).trans (fetchHost_header h))

theorem steps_two_of_next {t u : State} (h : step s = .next t) (h' : step t = .next u) :
    steps 2 s = .next u := by
  simp only [steps, h, h']

/-- Settles O6: the first step leaves the code in CMD, and the second runs it before all else. -/
theorem cmdWriteStartsCommand : Obligations.CmdWriteStartsCommand := by
  refine ⟨fun _ => rfl, fun s v q i hc hd hq hi => ?_, rfl⟩
  have hcmd : ({ s with cmd := none, hostq := q } : State) = { s with hostq := q } := by rw [← hc]
  have hwrite : step s = .next { s with cmd := some (v.setWidth 8), hostq := q } :=
    step_of_done ((fetch_of_host hc hd hq).trans (fetchHost_of_ok (fun _ h => by cases h) rfl))
  have hrun : step { s with cmd := some (v.setWidth 8), hostq := q } = exec i { s with hostq := q } := by
    rw [← hcmd]
    exact step_of_run ((fetch_of_cmd rfl).trans (fetchCommand_of_decode hi))
  obtain ⟨t, ht⟩ := exec_answers { s with hostq := q } i
  rw [ht] at hrun ⊢
  exact steps_two_of_next hwrite hrun

end Machine
end Sys2Proof
end

section
/-! The register map and STATUS (10_state.md R22, R43). -/

namespace Sys2Proof.Machine

/-! ## STATUS -/

theorem testBit_flags (reof wpart fault : Bool) :
    (reof.toNat * 4 + wpart.toNat * 2 + fault.toNat).testBit 0 = fault ∧
      (reof.toNat * 4 + wpart.toNat * 2 + fault.toNat).testBit 1 = wpart ∧
      (reof.toNat * 4 + wpart.toNat * 2 + fault.toNat).testBit 2 = reof := by
  revert reof wpart fault
  decide

theorem flags_lt (reof wpart fault : Bool) :
    reof.toNat * 4 + wpart.toNat * 2 + fault.toNat < 8 := by
  revert reof wpart fault
  decide

/-- ERR is the high byte of STATUS, and the three flags are the low byte. -/
theorem statusWord_toNat (s : State) :
    (statusWord s).toNat = 2 ^ 8 * s.fault.err.toNat +
      ((reof s).toNat * 4 + (wpart s).toNat * 2 + s.fault.flag.toNat) := by
  have herr : s.fault.err.toNat < 256 := s.fault.err.isLt
  have hflags := flags_lt (reof s) (wpart s) s.fault.flag
  rw [statusWord, BitVec.toNat_ofNat, Nat.mod_eq_of_lt (by omega)]
  omega

theorem statusWord_getLsbD (s : State) {k : Nat} (hk : k < 8) :
    (statusWord s).getLsbD k =
      ((reof s).toNat * 4 + (wpart s).toNat * 2 + s.fault.flag.toNat).testBit k := by
  have hflags := flags_lt (reof s) (wpart s) s.fault.flag
  rw [BitVec.getLsbD, statusWord_toNat, Nat.testBit_two_pow_mul_add _ (by omega), if_pos hk]

/-- Settles O9: STATUS is the byte ERR above the three flags. -/
theorem statusRegister : Obligations.StatusRegister := by
  intro s
  obtain ⟨hfault, hwpart, hreof⟩ := testBit_flags (reof s) (wpart s) s.fault.flag
  have hflags := flags_lt (reof s) (wpart s) s.fault.flag
  refine ⟨?_, ?_, ?_, fun k h3 h7 => ?_, ?_, rfl⟩
  · rw [statusWord_getLsbD s (by decide), hfault]
  · rw [statusWord_getLsbD s (by decide), hwpart, wpart, decide_eq_true_eq]
  · rw [statusWord_getLsbD s (by decide), hreof, reof, decide_eq_true_eq]
  · have hpow : 2 ^ 3 ≤ 2 ^ k := Nat.pow_le_pow_right (by decide) h3
    rw [statusWord_getLsbD s (by omega)]
    exact Nat.testBit_lt_two_pow (by omega)
  · rw [statusWord_toNat]
    omega

/-! ## Writes and reads by number -/

/-- A read-only or unassigned number ignores a write. -/
theorem writeReg_of_not_writable (s : State) (v : Word) (num : Byte)
    (h : ¬ (num.toNat = 0x00 ∨ (0x08 ≤ num.toNat ∧ num.toNat ≤ 0x0B) ∨ num.toNat = 0x10 ∨
      num.toNat = 0x11 ∨ (0x13 ≤ num.toNat ∧ num.toNat ≤ 0x15))) :
    writeReg num v s = s := by
  unfold writeReg
  split
  any_goals omega
  rfl

/-- CMD and the unassigned numbers read 0. -/
theorem readReg_of_not_readable (s : State) (num : Byte)
    (h : num.toNat = 0x00 ∨ (0x04 ≤ num.toNat ∧ num.toNat ≤ 0x07) ∨
      (0x16 ≤ num.toNat ∧ num.toNat ≤ 0x1F) ∨ (0x25 ≤ num.toNat ∧ num.toNat ≤ 0x27) ∨
      0x30 ≤ num.toNat) :
    readReg s num = 0 := by
  unfold readReg
  split
  any_goals omega
  rfl

/-- Each number reads a part of the state that a write to no other number reaches. -/
theorem readReg_writeReg_of_ne (s : State) (v : Word) {num other : Byte} (h : other ≠ num) :
    readReg (writeReg num v s) other = readReg s other := by
  have hne : other.toNat ≠ num.toNat := fun e => h (BitVec.eq_of_toNat_eq e)
  unfold writeReg
  split
  -- CMD, which no number reads, and the numbers that ignore a write
  case h_1 => rfl
  case h_11 => rfl
  all_goals
    unfold readReg
    split
    any_goals omega
    all_goals rfl

/-- A 16-bit register takes the low bits of what is written (log 14). -/
theorem toNat_written_half (v : Word) : ((v.setWidth 16).setWidth 64).toNat = v.toNat % 65536 := by
  rw [BitVec.toNat_setWidth_of_le (by decide), BitVec.toNat_setWidth]

/-- Settles O8: the numbers one by one, and the ranges by the equations of the two tables. -/
theorem registerMap : Obligations.RegisterMap := by
  have widen : ∀ {n : Nat} (r : BitVec n), n ≤ 64 → (r.setWidth 64).toNat = r.toNat :=
    fun _ h => BitVec.toNat_setWidth_of_le h
  refine ⟨fun s v => ⟨rfl, rfl, rfl, rfl, rfl, rfl, rfl, rfl, rfl, rfl⟩, writeReg_of_not_writable,
    fun s => ⟨rfl, rfl, rfl, rfl, widen _ (by decide), widen _ (by decide), widen _ (by decide),
      widen _ (by decide), widen _ (by decide)⟩,
    fun s => ⟨rfl, rfl, rfl, rfl, rfl, rfl, rfl, rfl, widen _ (by decide), widen _ (by decide), rfl,
      rfl, rfl, rfl, rfl, rfl, rfl, rfl, rfl, rfl⟩,
    readReg_of_not_readable, fun s v => ⟨rfl, rfl, rfl, rfl⟩, fun s v num hnum => ?_,
    fun s v num other _ h => readReg_writeReg_of_ne s v h⟩
  rcases hnum with rfl | rfl | rfl | rfl | rfl <;> exact toNat_written_half v

end Sys2Proof.Machine
end

section
/-! Where a step stops (10_state.md section 6, 20_memory.md R71, 70_reset_and_hazards.md R240): only the
host can stop it, with a write to an entry that the address space does not have (log 15). -/

namespace Sys2Proof.Machine

section
variable {s : State} {f : Fault} {op : HostOp}

/-! ## The host's actions -/

theorem hostAct_eq_error_iff : hostAct op s = .error f ↔
    (∃ a c, op = .writeRaster a c ∧ 65535 * 65535 ≤ a ∧ f = .noSuchEntry .raster a) ∨
    (∃ a v, op = .writeStripe a v ∧ 65535 ≤ a ∧ f = .noSuchEntry .stripe a) ∨
    (∃ a v, op = .writeRbuf a v ∧ 2 ^ 64 ≤ a ∧ f = .noSuchEntry .rbuf a) := by
  constructor
  · intro h
    cases op with
    | writeRaster a c =>
      simp only [hostAct] at h
      split at h <;> cases h
      next ha => exact .inl ⟨a, c, rfl, Nat.le_of_not_lt ha, rfl⟩
    | writeStripe a v =>
      simp only [hostAct] at h
      split at h <;> cases h
      next ha => exact .inr (.inl ⟨a, v, rfl, Nat.le_of_not_lt ha, rfl⟩)
    | writeRbuf a v =>
      simp only [hostAct] at h
      split at h <;> cases h
      next ha => exact .inr (.inr ⟨a, v, rfl, Nat.le_of_not_lt ha, rfl⟩)
    | writeReg | writePattern | writeLeafcolor | readHeader | powerOn => cases h
  · rintro (⟨a, c, rfl, ha, rfl⟩ | ⟨a, v, rfl, ha, rfl⟩ | ⟨a, v, rfl, ha, rfl⟩)
    all_goals exact if_neg (Nat.not_lt_of_le ha)

/-! ## What is fetched -/

theorem fetchCommand_ne_stop (code : Byte) : fetchCommand code s ≠ .stop f := by
  cases hd : decodeCommand code with
  | some i => simp [fetchCommand_of_decode hd]
  | none => simp [fetchCommand_of_reserved hd]

/-- A reader's fault is the block's own, recorded in the fault registers. -/
theorem fetched_ne_stop (freed : State → State) (r : Except Raise (Instr × State)) :
    fetched freed s r ≠ .stop f := by
  cases r <;> simp [fetched]

theorem fetchField_ne_stop : fetchField s ≠ .stop f := by
  unfold fetchField
  split
  case h_1 => simp
  case h_5 =>
    split
    · split <;> simp
    · exact fetched_ne_stop _ _
  all_goals exact fetched_ne_stop _ _

theorem fetchHost_eq_stop_iff : fetchHost op s = .stop f ↔ hostAct op s = .error f := by
  by_cases hop : ∃ bytes, op = .readHeader bytes
  · obtain ⟨bytes, rfl⟩ := hop
    rcases decode_header_cases (bytesToBits bytes) with ⟨m, w, h, b, rest, hd⟩ | ⟨e, hd⟩
    · simp [fetchHost_header hd, hostAct]
    · simp [fetchHost_badHeader hd, hostAct]
  · rw [not_exists] at hop
    cases ha : hostAct op s with
    | ok t => simp [fetchHost_of_ok hop ha]
    | error g => simp [fetchHost_of_error hop ha]

theorem fetch_eq_stop_iff : fetch s = .stop f ↔
    s.cmd = none ∧ s.due = .none ∧
      ∃ op q, s.hostq = op :: q ∧ hostAct op { s with hostq := q } = .error f := by
  constructor
  · intro h
    rcases Option.eq_none_or_eq_some s.cmd with hc | ⟨code, hc⟩
    · by_cases hd : s.due = .none
      · cases hq : s.hostq with
        | nil => cases (fetch_of_idle hc hd hq).symm.trans h
        | cons op q =>
          rw [fetch_of_host hc hd hq] at h
          exact ⟨hc, hd, op, q, rfl, fetchHost_eq_stop_iff.1 h⟩
      · exact absurd (fetch_of_due hc hd ▸ h) fetchField_ne_stop
    · exact absurd (fetch_of_cmd hc ▸ h) (fetchCommand_ne_stop code)
  · rintro ⟨hc, hd, op, q, hq, ha⟩
    exact (fetch_of_host hc hd hq).trans (fetchHost_eq_stop_iff.2 ha)

/-! ## The step -/

/-- An instruction always has a next state, so that a step goes on unless its fetch stops. -/
theorem step_cases (s : State) : (∃ t, step s = .next t) ∨ ∃ f, fetch s = .stop f := by
  cases h : fetch s with
  | run i t =>
    rw [step_of_run h]
    exact .inl (exec_answers t i)
  | done t => exact .inl ⟨t, step_of_done h⟩
  | stop f => exact .inr ⟨f, rfl⟩

theorem step_eq_fault_iff : step s = .fault f ↔ fetch s = .stop f := by
  refine ⟨fun h => ?_, step_of_stop⟩
  rcases step_cases s with ⟨t, e⟩ | ⟨g, e⟩
  · cases e.symm.trans h
  · cases (step_of_stop e).symm.trans h
    exact e

theorem step_ne_refused (s : State) (r : Refusal) : step s ≠ .refused r := by
  rcases step_cases s with ⟨t, e⟩ | ⟨f, e⟩
  · simp [e]
  · simp [step_of_stop e]

end

/-- Settles O7: the host's action is fetched as done, and a step faults exactly where the fetch stops,
which is where `hostAct` answers an error. -/
theorem stepHostActions : Obligations.StepHostActions := by
  refine ⟨fun s op q t hc hd hq hop ha => ?_, fun s hc hd hq => step_of_done (fetch_of_idle hc hd hq),
    fun s f => ?_, step_ne_refused⟩
  · exact step_of_done ((fetch_of_host hc hd hq).trans (fetchHost_of_ok hop ha))
  · rw [step_eq_fault_iff, fetch_eq_stop_iff]
    simp only [hostAct_eq_error_iff]

end Sys2Proof.Machine
end

section
/-! Encoding and decoding (30_encoding.md R92, R97, R98, R100, R104): each direction field by field, and
the commands by their codes. -/

namespace Sys2Proof

section
variable {i : Instr} {bits rest : List Bool}

/-! ## Fields -/

/-- A field of `n` bits is split off exactly where the bits begin with some word's. -/
theorem splitField_eq_some_iff {n v : Nat} :
    splitField n bits = some (v, rest) ↔
      ∃ x : BitVec n, v = x.toNat ∧ natToBits n x.toNat ++ rest = bits := by
  constructor
  · intro h
    obtain ⟨hlen, rfl, rfl⟩ := splitField_eq_some h
    obtain ⟨hlt, hbits⟩ := Machine.field_of_bits n bits hlen
    have hword := BitVec.toNat_ofNatLT (bitsToNat (bits.take n)) hlt
    exact ⟨.ofNatLT _ hlt, hword.symm, by rw [hword, ← hbits]⟩
  · rintro ⟨x, rfl, rfl⟩
    exact splitField_natToBits n x.toNat rest x.isLt

@[simp] theorem splitField_toNat {n : Nat} (x : BitVec n) :
    splitField n (natToBits n x.toNat ++ rest) = some (x.toNat, rest) :=
  splitField_eq_some_iff.2 ⟨x, rfl, rfl⟩

/-! ## Commands -/

/-- The code table read in either direction (30_encoding.md R104). -/
theorem decodeCommand_eq_some_iff {code : Byte} :
    decodeCommand code = some i ↔ commandCode i = some code.toNat := by
  constructor
  · intro h
    unfold decodeCommand at h
    split at h <;> cases h
    all_goals simp only [commandCode, *]
  · intro h
    cases i with
    | leaf | internal | palCount | palSize | palEntry | pad | artHeader => cases h
    | _ => simp only [decodeCommand, ← Option.some.inj h]

theorem commandCode_lt {c : Nat} (h : commandCode i = some c) : c < 2 ^ 8 := by
  cases i <;> cases h <;> decide

/-- Every instruction with a code is encoded as that code and read as a command. -/
theorem encode_of_commandCode {c : Nat} (h : commandCode i = some c) :
    encode i = natToBits 8 c ∧ portOf i = .cmd ∧ wellFormed i = true := by
  cases i <;> cases h <;> exact ⟨rfl, rfl, rfl⟩

theorem decode_cmd_eq_ok_iff :
    decode .cmd bits = .ok (i, rest) ↔
      ∃ code : Byte, commandCode i = some code.toNat ∧ natToBits 8 code.toNat ++ rest = bits := by
  constructor
  · intro h
    simp only [decode] at h
    repeat' split at h
    all_goals cases h
    next v hi hv =>
      obtain ⟨code, rfl, hbits⟩ := splitField_eq_some_iff.1 hv
      rw [BitVec.ofNat_toNat, BitVec.setWidth_eq] at hi
      exact ⟨code, decodeCommand_eq_some_iff.1 hi, hbits⟩
  · rintro ⟨code, hi, rfl⟩
    simp only [decode, splitField_toNat, BitVec.ofNat_toNat, BitVec.setWidth_eq,
      decodeCommand_eq_some_iff.2 hi]

/-! ## Decoding what was encoded -/

theorem decode_encode_command {c : Nat} (h : commandCode i = some c) :
    decode (portOf i) (encode i ++ rest) = .ok (i, rest) := by
  obtain ⟨henc, hport, -⟩ := encode_of_commandCode h
  have hcode := BitVec.toNat_ofNatLT c (commandCode_lt h)
  rw [henc, hport]
  exact decode_cmd_eq_ok_iff.2 ⟨_, by rw [hcode, h], by rw [hcode]⟩

/-- Reading each field gives back the word it was written from, the bits after it being the next field's. -/
theorem decode_encode (h : wellFormed i = true) :
    decode (portOf i) (encode i ++ rest) = .ok (i, rest) := by
  cases i with
  | internal => rfl
  | pad n =>
    have hn : ¬ 7 < n := Nat.not_lt_of_le (of_decide_eq_true h)
    simp [decode, portOf, encode, hn]
  | leaf | palCount | palSize | palEntry | artHeader =>
    simp [decode, portOf, encode, tokenInstr, decodeToken, decodePalCount, decodePalSize,
      decodePalEntry, decodeHeader]
  | _ => exact decode_encode_command rfl

/-! ## Encoding what was decoded -/

theorem decode_token (h : decode .token bits = .ok (i, rest)) :
    (i = .internal ∧ false :: rest = bits) ∨
      ∃ more v, true :: more = bits ∧ splitField 8 more = some (v, rest) ∧
        i = .leaf (BitVec.ofNat 8 v) := by
  simp only [decode] at h
  repeat' split at h
  all_goals cases h
  · exact .inl ⟨rfl, rfl⟩
  · exact .inr ⟨_, _, rfl, ‹_›, rfl⟩

theorem decode_pad {n : Nat} (h : decode (.pad n) bits = .ok (i, rest)) :
    n ≤ 7 ∧ i = .pad n ∧ rest = bits.drop n := by
  simp only [decode] at h
  repeat' split at h
  all_goals cases h
  exact ⟨by omega, rfl, rfl⟩

theorem decode_header (h : decode .header bits = .ok (i, rest)) :
    ∃ m w v q rest1 rest2 rest3, splitField 32 bits = some (m, rest1) ∧
      splitField 16 rest1 = some (w, rest2) ∧ splitField 16 rest2 = some (v, rest3) ∧
      splitField 8 rest3 = some (q, rest) ∧ i = decodeHeader m w v q := by
  simp only [decode] at h
  repeat' split at h
  all_goals cases h
  exact ⟨_, _, _, _, _, _, _, ‹_›, ‹_›, ‹_›, ‹_›, rfl⟩

/-- Each field read is the word whose bits stand in its place. -/
theorem encode_of_decode {port : Port} (hport : ∀ n, port ≠ .pad n)
    (h : decode port bits = .ok (i, rest)) :
    wellFormed i = true ∧ portOf i = port ∧ encode i ++ rest = bits := by
  cases port with
  | pad n => exact absurd rfl (hport n)
  | cmd =>
    obtain ⟨code, hi, hbits⟩ := decode_cmd_eq_ok_iff.1 h
    obtain ⟨henc, hp, hwf⟩ := encode_of_commandCode hi
    exact ⟨hwf, hp, henc ▸ hbits⟩
  | token =>
    rcases decode_token h with ⟨rfl, hbits⟩ | ⟨more, v, hbits, hv, rfl⟩
    · exact ⟨rfl, rfl, hbits⟩
    · obtain ⟨idx, rfl, rfl⟩ := splitField_eq_some_iff.1 hv
      exact ⟨rfl, rfl, by simp [encode, hbits]⟩
  | palCount =>
    obtain ⟨v, hv, rfl⟩ := decode_palCount h
    obtain ⟨p, rfl, rfl⟩ := splitField_eq_some_iff.1 hv
    exact ⟨rfl, rfl, by simp [decodePalCount, encode]⟩
  | palSize =>
    obtain ⟨v, hv, rfl⟩ := decode_palSize h
    obtain ⟨s, rfl, rfl⟩ := splitField_eq_some_iff.1 hv
    exact ⟨rfl, rfl, by simp [decodePalSize, encode]⟩
  | palEntry =>
    obtain ⟨_, _, _, _, _, hr, hg, hb, rfl⟩ := decode_palEntry h
    obtain ⟨r, rfl, rfl⟩ := splitField_eq_some_iff.1 hr
    obtain ⟨g, rfl, rfl⟩ := splitField_eq_some_iff.1 hg
    obtain ⟨b, rfl, rfl⟩ := splitField_eq_some_iff.1 hb
    exact ⟨rfl, rfl, by simp [decodePalEntry, encode]⟩
  | header =>
    obtain ⟨_, _, _, _, _, _, _, hm, hw, hv, hq, rfl⟩ := decode_header h
    obtain ⟨m, rfl, rfl⟩ := splitField_eq_some_iff.1 hm
    obtain ⟨w, rfl, rfl⟩ := splitField_eq_some_iff.1 hw
    obtain ⟨v, rfl, rfl⟩ := splitField_eq_some_iff.1 hv
    obtain ⟨q, rfl, rfl⟩ := splitField_eq_some_iff.1 hq
    exact ⟨rfl, rfl, by simp [decodeHeader, encode]⟩

end

/-- Settles O1. -/
theorem decodeOfEncode : Obligations.DecodeOfEncode :=
  fun _ _ h => decode_encode h

/-- Settles O2: padding by its length alone, every other port by its fields. -/
theorem encodeOfDecode : Obligations.EncodeOfDecode := by
  intro port bits i rest h
  by_cases hpad : ∃ n, port = .pad n
  · obtain ⟨n, rfl⟩ := hpad
    obtain ⟨hn, rfl, rfl⟩ := decode_pad h
    refine ⟨decide_eq_true hn, rfl, fun hne => absurd rfl (hne n), fun k hk => ?_⟩
    cases hk
    exact ⟨rfl, rfl⟩
  · rw [not_exists] at hpad
    obtain ⟨hwf, hport, hbits⟩ := encode_of_decode hpad h
    exact ⟨hwf, hport, fun _ => hbits, fun n hn => absurd hn (hpad n)⟩

/-- Settles O3: the wire rows by evaluation, the commands by their codes. -/
theorem decodeWords : Obligations.DecodeWords := by
  refine ⟨rfl, rfl, rfl, rfl, rfl, rfl, rfl, ?_⟩
  and_intros
  all_goals exact decodeCommand_eq_some_iff.2 rfl

/-! ## Reserved codes -/

/-- The gaps of the code table (30_encoding.md R107). -/
theorem decodeCommand_eq_none_iff {code : Byte} : decodeCommand code = none ↔
    (0x08 ≤ code.toNat ∧ code.toNat ≤ 0x0F) ∨ (0x14 ≤ code.toNat ∧ code.toNat ≤ 0x1F) ∨
    (0x23 ≤ code.toNat ∧ code.toNat ≤ 0x2F) ∨ (0x33 ≤ code.toNat ∧ code.toNat ≤ 0x3F) ∨
    (0x43 ≤ code.toNat ∧ code.toNat ≤ 0xFE) := by
  have hlt : code.toNat < 256 := code.isLt
  unfold decodeCommand
  split
  case h_23 =>
    simp only [imp_false, true_iff] at *
    omega
  all_goals
    simp only [reduceCtorEq, false_iff]
    omega

namespace Machine

/-- Settles O4: the gaps of the code table, and a step that fetches no instruction from the code. -/
theorem reservedCodes : Obligations.ReservedCodes := by
  refine ⟨fun _ => decodeCommand_eq_none_iff, fun s code hc hrun hd => ?_⟩
  have hraise : unknownCommand code { s with cmd := none } =
      raiseFault ⟨.illegalCommand, code.toNat, 0⟩ { s with cmd := none } :=
    if_neg (Bool.eq_false_iff.1 hrun)
  rw [← hraise]
  exact step_of_done ((fetch_of_cmd hc).trans (fetchCommand_of_reserved hd))

end Machine
end Sys2Proof
end

section
/-! The bit writer's commands (40_bitio.md R121 to R124): one bit and one byte with and without room, and
a command whose body works on the writer. -/

namespace Sys2Proof.Machine

/-! ## Room for a byte -/

theorem wbufIsFull_eq_false_iff {cap : Option Nat} {n : Nat} :
    wbufIsFull cap n = false ↔ ∀ c, cap = some c → n < c := by
  cases cap <;> simp [wbufIsFull]

theorem emitByte_of_room {cap : Option Nat} {b : Byte} {w : Writer}
    (h : ∀ c, cap = some c → w.wbuf.length < c) :
    emitByte cap b w = .ok ⟨w.wbuf ++ [b], 0, 0⟩ := by
  simp [emitByte, wbufIsFull_eq_false_iff.mpr h]

theorem emitByte_of_full {c : Nat} {b : Byte} {w : Writer} (h : c ≤ w.wbuf.length) :
    emitByte (some c) b w = .error ⟨.wbufFull, w.wbuf.length, 0⟩ := by
  simp [emitByte, wbufIsFull, h]

theorem putbit_within {cap : Option Nat} {b : Bool} {w : Writer} (h : w.wnb ≠ 7) :
    putbit cap b w = .ok
      { w with
        wacc := w.wacc ||| (BitVec.ofNat 8 b.toNat <<< (7 - w.wnb.toNat))
        wnb := w.wnb + 1 } :=
  if_neg h

/-- The eighth bit goes to bit 0 and completes the byte. -/
theorem putbit_last {cap : Option Nat} {b : Bool} {w : Writer} (h : w.wnb = 7) :
    putbit cap b w = emitByte cap (w.wacc ||| BitVec.ofNat 8 b.toNat) w := by
  rw [putbit, if_pos h, h]
  exact congrArg (fun x => emitByte cap (w.wacc ||| x) w) (BitVec.shiftLeft_zero _)

theorem flush_of_boundary {cap : Option Nat} {w : Writer} (h : w.wnb = 0) : flush cap w = .ok w :=
  if_pos h

theorem flush_of_partial {cap : Option Nat} {w : Writer} (h : w.wnb ≠ 0) :
    flush cap w = emitByte cap w.wacc w :=
  if_neg h

/-! ## Operand checks -/

section
variable {s : State}

theorem checkPutbit_ok (h : arg0 s ≤ 1) : checkPutbit s = none := if_pos h

theorem checkPutbit_illegal (h : 1 < arg0 s) : checkPutbit s = some (illegalOperand 0 (arg0 s)) :=
  if_neg (by omega)

theorem checkPutbits_ok (hn : arg1 s ≤ 32) (hv : arg0 s < 2 ^ arg1 s) : checkPutbits s = none := by
  rw [checkPutbits, if_pos hn, if_pos hv]

theorem checkPutbits_width (h : 32 < arg1 s) :
    checkPutbits s = some (illegalOperand 1 (arg1 s)) :=
  if_neg (by omega)

theorem checkPutbits_value (hn : arg1 s ≤ 32) (hv : 2 ^ arg1 s ≤ arg0 s) :
    checkPutbits s = some (illegalOperand 0 (arg0 s)) := by
  rw [checkPutbits, if_pos hn, if_neg (Nat.not_lt.mpr hv)]

/-! ## A command whose body works on the writer -/

variable {i : Instr} {operands : State → Option Raise}
  {f : State → Option Nat → Writer → Except Raise Writer}

theorem writerCommand_ok {w : Writer}
    (he : exec i s = runCommand noNeeds operands (fun s => onWriter (f s) s) freeWriter s)
    (hf : Running s) (ho : operands s = none) (hw : f s s.wbufCap s.wr = .ok w) :
    exec i s = .next (s.withWr w) :=
  he.trans (runCommand_ok _ _ _ _ s _ hf rfl ho (onWriter_ok (f s) s w hw))

theorem writerCommand_full {k : Nat}
    (he : exec i s = runCommand noNeeds operands (fun s => onWriter (f s) s) freeWriter s)
    (hi : writesOf i = [.writer]) (hf : Running s) (ho : operands s = none)
    (hw : f s s.wbufCap s.wr = .error ⟨.wbufFull, k, 0⟩) : Faults i s 0x24 k 0 :=
  faults_of (hi ▸ frees_writer) he hf rfl ho (onWriter_error (f s) s _ hw)

end

/-! ## PUTBIT -/

theorem toNat_decide_eq_one {n : Nat} (h : n ≤ 1) : (decide (n = 1)).toNat = n := by
  obtain rfl | rfl : n = 0 ∨ n = 1 := by omega
  · rfl
  · rfl

section
variable {s : State}

theorem exec_putbit_within (hf : Running s) (ho : arg0 s ≤ 1) (h : s.wr.wnb ≠ 7) :
    exec .putbit s = .next (s.withWr
      { s.wr with
        wacc := s.wr.wacc ||| (BitVec.ofNat 8 (arg0 s) <<< (7 - s.wr.wnb.toNat))
        wnb := s.wr.wnb + 1 }) := by
  rw [writerCommand_ok (exec_putbit s) hf (checkPutbit_ok ho) (putbit_within h),
    toNat_decide_eq_one ho]

theorem exec_putbit_last (hf : Running s) (ho : arg0 s ≤ 1) (h : s.wr.wnb = 7)
    (hroom : ∀ c, s.wbufCap = some c → s.wr.wbuf.length < c) :
    exec .putbit s =
      .next (s.withWr ⟨s.wr.wbuf ++ [s.wr.wacc ||| BitVec.ofNat 8 (arg0 s)], 0, 0⟩) := by
  rw [writerCommand_ok (exec_putbit s) hf (checkPutbit_ok ho)
    ((putbit_last h).trans (emitByte_of_room hroom)), toNat_decide_eq_one ho]

theorem exec_putbit_full {c : Nat} (hf : Running s) (ho : arg0 s ≤ 1) (h : s.wr.wnb = 7)
    (hc : s.wbufCap = some c) (hfull : c ≤ s.wr.wbuf.length) :
    Faults .putbit s 0x24 s.wr.wbuf.length 0 :=
  writerCommand_full (exec_putbit s) rfl hf (checkPutbit_ok ho)
    ((putbit_last h).trans (hc ▸ emitByte_of_full hfull))

/-! ## PUTBITS -/

/-- With room the field's bits are appended, whatever byte boundaries they cross. -/
theorem exec_putbits_ok (hf : Running s) (hw : writerOK s.wr = true) (hn : arg1 s ≤ 32)
    (hv : arg0 s < 2 ^ arg1 s) (hroom : roomFor s (arg1 s) = true) :
    ∃ w, exec .putbits s = .next (s.withWr w) ∧ writerOK w = true ∧
      writerBits w = writerBits s.wr ++ natToBits (arg1 s) (arg0 s) := by
  obtain ⟨w, hput, hwrote⟩ := (emits_putbits (arg0 s) (arg1 s)).ok s hw
    (by rwa [natToBits_length])
  exact ⟨w, writerCommand_ok (exec_putbits s) hf (checkPutbits_ok hn hv) hput, hwrote.ok, hwrote.bits⟩

theorem exec_putbits_full {c : Nat} (hf : Running s) (hw : writerOK s.wr = true) (hn : arg1 s ≤ 32)
    (hv : arg0 s < 2 ^ arg1 s) (hc : s.wbufCap = some c) (hlen : s.wr.wbuf.length ≤ c)
    (hroom : roomFor s (arg1 s) = false) : Faults .putbits s 0x24 c 0 :=
  writerCommand_full (exec_putbits s) rfl hf (checkPutbits_ok hn hv)
    ((emits_putbits (arg0 s) (arg1 s)).full s hw c hc hlen (by rwa [natToBits_length]))

/-! ## BW_FLUSH -/

theorem exec_bwFlush_boundary (hf : Running s) (h : s.wr.wnb = 0) : exec .bwFlush s = .next s :=
  writerCommand_ok (f := fun _ => flush) (exec_bwFlush s) hf rfl (flush_of_boundary h)

theorem exec_bwFlush_partial (hf : Running s) (h : s.wr.wnb ≠ 0)
    (hroom : ∀ c, s.wbufCap = some c → s.wr.wbuf.length < c) :
    exec .bwFlush s = .next (s.withWr ⟨s.wr.wbuf ++ [s.wr.wacc], 0, 0⟩) :=
  writerCommand_ok (f := fun _ => flush) (exec_bwFlush s) hf rfl
    ((flush_of_partial h).trans (emitByte_of_room hroom))

theorem exec_bwFlush_full {c : Nat} (hf : Running s) (h : s.wr.wnb ≠ 0) (hc : s.wbufCap = some c)
    (hfull : c ≤ s.wr.wbuf.length) : Faults .bwFlush s 0x24 s.wr.wbuf.length 0 :=
  writerCommand_full (f := fun _ => flush) (exec_bwFlush s) rfl hf rfl
    ((flush_of_partial h).trans (hc ▸ emitByte_of_full hfull))

end

/-- The partial byte of an ordered writer is its bits and zeros (20_memory.md R64). -/
theorem bytesToBits_append_wacc {w : Writer} (hw : writerOK w = true) :
    bytesToBits (w.wbuf ++ [w.wacc]) =
      writerBits w ++ List.replicate (8 - w.wnb.toNat) false := by
  have hk : w.wnb.toNat < 8 := w.wnb.isLt
  obtain ⟨x, hx, -⟩ := (writerOK_iff w).mp hw
  have hlast : bytesToBits [w.wacc] = natToBits 8 w.wacc.toNat := by
    rw [bytesToBits, List.flatMap_singleton]
  rw [bytesToBits_append, hlast, writerBits_of_acc w x hx, hx,
    natToBits_mul_pow 8 w.wnb.toNat x (by omega), List.append_assoc]

end Sys2Proof.Machine
end

section
/-! The bit reader's commands (40_bitio.md R125 to R127). -/

namespace Sys2Proof.Machine

section
variable {s : State}

theorem reof_restarted_iff (n : Nat) : reof (s.withRd ⟨n, 0⟩) = true ↔ n = 0 := by
  simp [reof]

/-! ## GETBIT -/

theorem getbit_of_lt (h : s.rd.rpos < 8 * s.rd.rlen) :
    getbit s = some (streamBit s s.rd.rpos, s.advance 1) :=
  if_neg (by omega)

theorem getbit_of_end (h : 8 * s.rd.rlen ≤ s.rd.rpos) : getbit s = none := if_pos h

theorem exec_getbit_ok (hf : Running s) (h : s.rd.rpos < 8 * s.rd.rlen) :
    exec .getbit s =
      .next (setRes0 (s.advance 1) (streamBit s s.rd.rpos).toNat) := by
  rw [exec_getbit]
  exact runCommand_ok _ _ _ _ _ _ hf rfl rfl (by rw [getbit_of_lt h])

theorem exec_getbit_end (hf : Running s) (h : 8 * s.rd.rlen ≤ s.rd.rpos) :
    Faults .getbit s 0x12 s.rd.rpos 1 :=
  faults_of (r := ⟨.streamExhausted, s.rd.rpos, 1⟩) frees_getbit (exec_getbit s) hf rfl rfl
    (by rw [getbit_of_end h])

/-! ## GETBITS -/

theorem checkGetbits_ok (h : arg0 s ≤ 32) : checkGetbits s = none := if_pos h

theorem checkGetbits_illegal (h : 32 < arg0 s) :
    checkGetbits s = some (illegalOperand 0 (arg0 s)) :=
  if_neg (by omega)

theorem getbits_of_le {n : Nat} (h : s.rd.rpos + n ≤ 8 * s.rd.rlen) :
    getbits n s = some (bitsToNat ((unreadBits s).take n), s.advance n) := by
  rw [getbits, if_neg (by omega), getbitsLoop_eq _ _ _ (by rw [unreadBits_length]; omega)]
  rfl

/-- The length is checked before the first bit is read, so that none is consumed. -/
theorem getbits_of_short {n : Nat} (h : 8 * s.rd.rlen < s.rd.rpos + n) : getbits n s = none :=
  if_pos h

theorem exec_getbits_ok (hf : Running s) (hn : arg0 s ≤ 32)
    (h : s.rd.rpos + arg0 s ≤ 8 * s.rd.rlen) :
    exec .getbits s = .next (setRes0 (s.advance (arg0 s))
      (bitsToNat ((unreadBits s).take (arg0 s)))) := by
  rw [exec_getbits]
  exact runCommand_ok _ _ _ _ _ _ hf rfl (checkGetbits_ok hn) (by rw [getbits_of_le h])

theorem exec_getbits_short (hf : Running s) (hn : arg0 s ≤ 32)
    (h : 8 * s.rd.rlen < s.rd.rpos + arg0 s) : Faults .getbits s 0x12 s.rd.rpos (arg0 s) :=
  faults_of (r := ⟨.streamExhausted, s.rd.rpos, arg0 s⟩) frees_getbit (exec_getbits s) hf rfl
    (checkGetbits_ok hn) (by rw [getbits_of_short h])

end

end Sys2Proof.Machine
end

section
/-! Fields written, flushed and read back (40_bitio.md R128). -/

namespace Sys2Proof.Machine

theorem length_fieldBits (fs : List (Nat × Nat)) :
    (fieldBits fs).length = (fs.map Prod.snd).sum := by
  simp [fieldBits, List.length_flatMap]

/-- What an emitting body wrote where it succeeded. -/
theorem Emits.wrote {f : Option Nat → Writer → Except Raise Writer} {bits : List Bool}
    (hf : Emits f bits) {cap : Option Nat} {w w' : Writer} (hw : writerOK w = true)
    (h : f cap w = .ok w') : Wrote cap w bits w' := by
  rcases hf cap w hw with ⟨w1, he, hwrote⟩ | ⟨k, he, -⟩ <;> rw [he] at h <;> cases h
  exact hwrote

/-- The bytes of a flushed writer are the fields' bits and 0 to 7 zeros. -/
theorem bytesToBits_of_fields {cap : Option Nat} {fs : List (Nat × Nat)} {w1 w2 : Writer}
    (hput : putFields cap fs emptyWriter = .ok w1) (hflush : flush cap w1 = .ok w2) :
    ∃ k < 8, bytesToBits w2.wbuf = fieldBits fs ++ List.replicate k false := by
  have hwrote : Wrote cap emptyWriter (fieldBits fs) w1 := (emits_putFields fs).wrote rfl hput
  rcases flush_cases cap w1 hwrote.ok with ⟨w, he, h0, hok, hbits, -⟩ | ⟨he, -, -⟩ <;>
    rw [he] at hflush <;> cases hflush
  refine ⟨(8 - w1.wnb.toNat) % 8, Nat.mod_lt _ (by decide), ?_⟩
  have hempty : writerBits emptyWriter = [] := rfl
  rw [← (flushed_bytes w2 h0 hok).2, hbits, hwrote.bits, hempty, List.nil_append]

/-- Settles O26: the stream is the fields' bits and the flush's zeros, the fields are read off its front,
and the zeros are left. -/
theorem fieldsRoundTrip : Obligations.FieldsRoundTrip := by
  intro cap fs w1 w2 s hv hput hflush
  obtain ⟨k, hk, hbytes⟩ := bytesToBits_of_fields hput hflush
  have hu : unreadBits (loaded w2.wbuf s) = fieldBits fs ++ List.replicate k false :=
    (unreadBits_loaded w2.wbuf s).trans hbytes
  have hrest : unreadBits ((loaded w2.wbuf s).advance (fs.map Prod.snd).sum) =
      List.replicate k false := by
    rw [unreadBits_advance, hu, List.drop_left' (length_fieldBits fs)]
  refine ⟨_, getFields_of_fields fs _ _ (Nat.zero_le _) hv hu, Nat.zero_add _,
    unreadBits_length _, ?_, ?_⟩
  · rw [hrest, List.length_replicate]
    omega
  · rw [hrest]
    exact fun b hb => List.eq_of_mem_replicate hb

end Sys2Proof.Machine
end

section
/-! WBUF is append-only (40_bitio.md R131): every writing body, on any writer, leaves the bytes already
in WBUF at its front; every other body leaves the writer alone. -/

namespace Sys2Proof.Machine

/-! ## Writing bodies -/

/-- A writing body that, where it succeeds, leaves the bytes already in WBUF at its front. -/
def Extends (f : Option Nat → Writer → Except Raise Writer) : Prop :=
  ∀ cap w w', f cap w = .ok w' → w.wbuf <+: w'.wbuf

theorem Extends.bind {f g : Option Nat → Writer → Except Raise Writer}
    (hf : Extends f) (hg : Extends g) : Extends fun cap w => f cap w >>= g cap := by
  intro cap w w' h
  obtain ⟨w1, h1, h2⟩ := bind_eq_ok _ _ _ h
  exact (hf cap w w1 h1).trans (hg cap w1 w' h2)

theorem extends_skip : Extends fun _ w => .ok w := by
  intro _ w _ h
  cases h
  exact List.prefix_refl _

theorem wbuf_prefix_emitByte {cap : Option Nat} {b : Byte} {w w' : Writer}
    (h : emitByte cap b w = .ok w') : w.wbuf <+: w'.wbuf := by
  rcases emitByte_cases cap b w with ⟨e, -⟩ | ⟨e, -⟩ <;> rw [e] at h <;> cases h
  exact List.prefix_append _ _

theorem extends_putbit (b : Bool) : Extends fun cap => putbit cap b := by
  intro cap w w' (h : putbit cap b w = .ok w')
  by_cases h7 : w.wnb = 7
  · rw [putbit_last h7] at h
    exact wbuf_prefix_emitByte h
  · rw [putbit_within h7] at h
    cases h
    exact List.prefix_refl _

theorem extends_putbits (v n : Nat) : Extends fun cap => putbits cap v n := by
  induction n with
  | zero => exact extends_skip
  | succ n ih => exact (extends_putbit (v.testBit n)).bind ih

theorem extends_flush : Extends flush := by
  intro cap w w' h
  by_cases h0 : w.wnb = 0
  · rw [flush_of_boundary h0] at h
    exact extends_skip cap w w' h
  · rw [flush_of_partial h0] at h
    exact wbuf_prefix_emitByte h

theorem extends_putColor (c : Color) : Extends fun cap => putColor cap c :=
  (extends_putbits _ 8).bind ((extends_putbits _ 8).bind (extends_putbits _ 8))

theorem extends_putColors (cs : List Color) : Extends fun cap => putColors cap cs := by
  induction cs with
  | nil => exact extends_skip
  | cons c rest ih => exact (extends_putColor c).bind ih

theorem extends_putPalettes (ps : List (List Color)) (p : Nat) :
    Extends fun cap => putPalettes cap p ps := by
  induction ps generalizing p with
  | nil => exact extends_skip
  | cons cs rest ih =>
    intro cap w w' h
    simp only [putPalettes] at h
    split at h
    · cases h
    · exact ((extends_putbits _ 8).bind ((extends_putColors cs).bind (ih (p + 1)))) cap w w' h

theorem extends_putPaltab (ps : List (List Color)) : Extends (putPaltab ps) := by
  intro cap w w' h
  rw [putPaltab] at h
  split at h
  · cases h
  · exact ((extends_putbits _ 16).bind (extends_putPalettes ps 0)) cap w w' h

theorem extends_putLeaf (idx : Byte) : Extends (putLeaf idx) :=
  (extends_putbit true).bind (extends_putbits _ 8)

theorem extends_putInternal : Extends putInternal := extends_putbit false

theorem Extends.onWriter {f : Option Nat → Writer → Except Raise Writer} (hf : Extends f)
    {s t : State} (h : onWriter f s = .ok t) : s.wr.wbuf <+: t.wr.wbuf := by
  obtain ⟨w, hw, rfl⟩ := onWriter_eq_ok f s t h
  exact hf _ _ _ hw

theorem wbuf_prefix_encVisit {i : Nat} {r : Region} {s : State} {v : Visited}
    (h : encVisit i r s = .ok v) : s.wr.wbuf <+: v.1.wr.wbuf := by
  rcases encVisit_cases i r s with ⟨idx, w, -, -, hw, e⟩ | ⟨kids, w, -, -, hw, e⟩ | ⟨-, e⟩ |
    ⟨-, -, e⟩ | ⟨-, -, e⟩ | ⟨_, _, -, -, -, e⟩ | ⟨_, _, -, -, -, e⟩ <;> rw [e] at h <;> cases h
  · exact extends_putLeaf idx _ _ _ hw
  · exact extends_putInternal _ _ _ hw

/-- Each visit of the emission pass extends WBUF, so the whole walk does. -/
theorem wbuf_prefix_encTree {s t : State} (hc : cfgOK s = true) (h : encTree s = .ok t) :
    s.wr.wbuf <+: t.wr.wbuf := by
  obtain ⟨u, hwalk, hend⟩ := bind_eq_ok _ _ _ h
  have ht : t = u := by
    split at hend
    · cases hend
    · cases hend
      rfl
  obtain ⟨s', hs', rfl⟩ := walk_eq_ok encVisit_blind _ _ ((tidy_withEnc s ⟨0, 0⟩).keeps_cfgOK hc) hwalk
  rw [ht]
  exact hs'.keeps (P := fun u => s.wr.wbuf <+: u.wr.wbuf)
    (fun _ _ _ _ hv hs => hs.trans (wbuf_prefix_encVisit hv)) (List.prefix_refl _)

/-! ## Bodies that leave the writer alone -/

theorem wr_of_getbit {s t : State} {b : Bool} (h : getbit s = some (b, t)) : t.wr = s.wr := by
  rcases getbit_cases s with ⟨_, _, -, e, -⟩ | ⟨-, e⟩ <;> rw [e] at h <;> cases h
  rfl

theorem wr_of_getbits {n v : Nat} {s t : State} (h : getbits n s = some (v, t)) : t.wr = s.wr := by
  by_cases hn : s.rd.rpos + n ≤ 8 * s.rd.rlen
  · rw [getbits_of_le hn] at h
    cases h
    rfl
  · rw [getbits_of_short (by omega)] at h
    cases h

theorem wr_of_analyze {s t : State} (hc : cfgOK s = true) (h : analyze Config.luma s = .ok t) :
    t.wr = s.wr := by
  obtain ⟨_, _, -, e⟩ := analyze_ok s hc
  rw [e] at h
  cases h
  rfl

theorem wr_of_palBuild {s t : State} (h : palBuild s = .ok t) : t.wr = s.wr := by
  obtain ⟨_, e, -⟩ := palBuild_ok s
  rw [e] at h
  cases h
  rfl

theorem wr_of_decPaltab {s t : State} (h : decPaltab s = .ok t) : t.wr = s.wr := by
  rcases table_or_cut s.rd.rpos (unreadBits s) with ⟨ps, rest, hfit, hu⟩ | ⟨i0, i1, hcut⟩
  · rw [(decPaltab_of_wire ps rest s hfit hu).1] at h
    cases h
    rfl
  · rw [decPaltab_of_cut s i0 i1 hcut] at h
    cases h

theorem wr_of_decTree {s t : State} (hc : cfgOK s = true) (h : decTree s = .ok t) : t.wr = s.wr := by
  obtain ⟨ts, rest, hfit, hu, hr⟩ := decTree_sound s t hc h
  rw [decTree_of_forest s ts rest hc hfit hu hr] at h
  cases h
  rfl

theorem wr_of_tokenEffect {t : Token} {r : Region} {s : State} {v : Visited}
    (h : tokenEffect t r s = .ok v) : v.1.wr = s.wr := by
  rcases tokenEffect_cases t r s with ⟨_, _, -, -, -, e⟩ | ⟨_, -, -, e⟩ | ⟨_, -, -, e⟩ |
    ⟨_, _, -, -, -, e⟩ | ⟨-, -, e⟩ <;> rw [e] at h <;> cases h <;> rfl

theorem wr_pushKids (v : Visited) : (pushKids v).wr = v.1.wr := by
  obtain ⟨s, _ | _⟩ := v <;> rfl

theorem wr_of_tokenOutcome {t : Token} {s u : State} (h : tokenOutcome t s = .next u) :
    u.wr = s.wr := by
  rcases tokenOutcome_cases t s with e | ⟨r, rest, v, -, hv, e⟩ | ⟨r, rest, x, -, -, e⟩ <;>
    rw [e] at h <;> cases h
  · rfl
  · have hs : (s.withStack rest).wr = s.wr := rfl
    exact ((wr_pushKids v).trans (wr_of_tokenEffect hv)).trans hs
  · rfl

/-- No row of the wire format writes to the bit writer. -/
theorem wr_of_exec_wire {i : Instr} (hp : portOf i ≠ .cmd) {s t : State}
    (h : exec i s = .next t) : t.wr = s.wr := by
  cases i with
  | leaf idx => exact wr_of_tokenOutcome h
  | internal => exact wr_of_tokenOutcome h
  | palCount p =>
    simp only [exec, execPalCount] at h
    repeat' split at h
    all_goals (cases h; rfl)
  | palSize n =>
    simp only [exec, execPalSize] at h
    repeat' split at h
    all_goals (cases h; rfl)
  | palEntry r g b =>
    simp only [exec, execPalEntry] at h
    repeat' split at h
    all_goals (cases h; rfl)
  | pad n =>
    cases h
    rfl
  | artHeader magic width height quality =>
    simp only [exec, execArtHeader] at h
    split at h <;> cases h <;> rfl
  | _ => exact absurd rfl hp

/-! ## Commands -/

/-- A body that, under the configuration it needs, leaves the bytes already in WBUF at its front. -/
def Grows (needs : State → Bool) (body : State → Except Raise State) : Prop :=
  ∀ s t, needs s = true → body s = .ok t → s.wr.wbuf <+: t.wr.wbuf

theorem Grows.of_wr {needs : State → Bool} {body : State → Except Raise State}
    (h : ∀ s t, needs s = true → body s = .ok t → t.wr = s.wr) : Grows needs body :=
  fun s t hn hb => h s t hn hb ▸ List.prefix_refl _

/-- A body that never fails and leaves the writer alone. -/
theorem Grows.pure {needs : State → Bool} {f : State → State} (h : ∀ s, (f s).wr = s.wr) :
    Grows needs fun s => .ok (f s) :=
  .of_wr fun s _ _ ht => Except.ok.inj ht ▸ h s

/-- A body that ends by writing result registers. -/
theorem Grows.result {needs : State → Bool} {body : State → Except Raise State} (q : State → Quad)
    (h : Grows needs body) :
    Grows needs fun s => body s >>= fun t => Pure.pure (t.withRes (q t)) := by
  intro s t hn ht
  obtain ⟨u, hu, he⟩ := bind_eq_ok _ _ _ ht
  cases he
  exact h s u hn hu

/-- A command with such a body that ends without a fault pending: it was refused, or its body
succeeded. -/
theorem Grows.runCommand {needs : State → Bool} {operands : State → Option Raise}
    {body : State → Except Raise State} {freed : State → State} (h : Grows needs body)
    {s t : State} (ht : runCommand needs operands body freed s = .next t) (hr : Running t) :
    s.wr.wbuf <+: t.wr.wbuf := by
  rcases runCommand_cases needs operands body freed s with ⟨-, e⟩ | ⟨-, -, e⟩ | ⟨r, -, -, -, e⟩ |
    ⟨u, -, hn, -, hb, e⟩ | ⟨r, -, -, -, -, e⟩ <;> rw [e] at ht <;> cases ht
  · exact List.prefix_refl _
  · cases hr
  · cases hr
  · exact h s _ hn hb
  · cases hr

/-- Every command that does not start the bit stream anew has such a body. -/
theorem exec_grows (i : Instr) (hp : portOf i = .cmd) (hinit : i ≠ .bwInit) (henc : i ≠ .encode)
    (hreset : i ≠ .reset) :
    ∃ needs operands body freed, (∀ s, exec i s = runCommand needs operands body freed s) ∧
      Grows needs body := by
  cases i with
  | leaf _ | internal | palCount _ | palSize _ | palEntry _ _ _ | pad _ | artHeader _ _ _ _ => cases hp
  | bwInit => exact absurd rfl hinit
  | encode => exact absurd rfl henc
  | reset => exact absurd rfl hreset
  | nop => exact ⟨_, _, _, _, exec_nop, .pure fun _ => rfl⟩
  | putbit => exact ⟨_, _, _, _, exec_putbit, fun _ _ _ => (extends_putbit _).onWriter⟩
  | putbits => exact ⟨_, _, _, _, exec_putbits, fun _ _ _ => (extends_putbits _ _).onWriter⟩
  | bwFlush => exact ⟨_, _, _, _, exec_bwFlush, fun _ _ _ => extends_flush.onWriter⟩
  | brInit => exact ⟨_, _, _, _, exec_brInit, .pure fun _ => rfl⟩
  | getbit =>
    refine ⟨_, _, _, _, exec_getbit, .of_wr fun s t _ ht => ?_⟩
    split at ht <;> cases ht
    exact (setRes0_wr _ _).trans (wr_of_getbit ‹_›)
  | getbits =>
    refine ⟨_, _, _, _, exec_getbits, .of_wr fun s t _ ht => ?_⟩
    split at ht <;> cases ht
    exact (setRes0_wr _ _).trans (wr_of_getbits ‹_›)
  | splitgeom => exact ⟨_, _, _, _, exec_splitgeom, .pure fun _ => rfl⟩
  | classify => exact ⟨_, _, _, _, exec_classify, .pure fun _ => rfl⟩
  | avgcolor => exact ⟨_, _, _, _, exec_avgcolor, .pure fun _ => rfl⟩
  | analyze => exact ⟨_, _, _, _, exec_analyze, .result _ (.of_wr fun _ _ => wr_of_analyze)⟩
  | palInit => exact ⟨_, _, _, _, exec_palInit, .pure fun _ => rfl⟩
  | palPush =>
    refine ⟨_, _, _, _, exec_palPush, .of_wr fun s t _ ht => ?_⟩
    obtain ⟨r, -, he⟩ := bind_eq_ok _ _ _ ht
    cases he
    rfl
  | palBuild => exact ⟨_, _, _, _, exec_palBuild, .result _ (.of_wr fun _ _ _ => wr_of_palBuild)⟩
  | encPaltab =>
    exact ⟨_, _, _, _, exec_encPaltab, fun s _ _ => (extends_putPaltab s.pal.palettes).onWriter⟩
  | encTree => exact ⟨_, _, _, _, exec_encTree, fun _ _ => wbuf_prefix_encTree⟩
  | decPaltab =>
    exact ⟨_, _, _, _, exec_decPaltab, .result _ (.of_wr fun _ _ _ => wr_of_decPaltab)⟩
  | decTree => exact ⟨_, _, _, _, exec_decTree, .result _ (.of_wr fun _ _ => wr_of_decTree)⟩
  | decode =>
    refine ⟨_, _, _, _, exec_decode, .of_wr fun s t hc ht => ?_⟩
    obtain ⟨s1, h1, h⟩ := bind_eq_ok _ _ _ ht
    obtain ⟨s2, h2, he⟩ := bind_eq_ok _ _ _ h
    cases he
    have t1 : Tidy s s1 := (tidy_withRd fun _ => Nat.zero_le _).trans (tidy_decPaltab h1)
    have hbr : (brInit (arg0 s) s).wr = s.wr := rfl
    exact ((wr_of_decTree (t1.keeps_cfgOK hc) h2).trans (wr_of_decPaltab h1)).trans hbr

/-- Settles O25: a command's body extends WBUF or leaves the writer alone, and a row of the wire format
leaves it alone. -/
theorem wbufAppendOnly : Obligations.WbufAppendOnly := by
  intro i s t hinit henc hreset h hr
  by_cases hp : portOf i = .cmd
  · obtain ⟨_, _, _, _, he, hgrows⟩ := exec_grows i hp hinit henc hreset
    rw [he] at h
    exact hgrows.runCommand h hr
  · rw [wr_of_exec_wire hp h]

end Sys2Proof.Machine
end

section
/-! The commands of the bit writer and the bit reader, case by case (40_bitio.md R121 to R127). The
theorems have the names of the model's functions, hence a namespace of their own. -/

namespace Sys2Proof.Machine.BitCommands

/-- Settles O21: BW_INIT has no checks and its body cannot fail. -/
theorem bwInit : Obligations.BwInit :=
  ⟨rfl, fun s hf => ⟨(exec_bwInit s).trans (runCommand_ok _ _ _ _ _ _ hf rfl rfl rfl), rfl⟩⟩

/-- Settles O22: the operand is a bit; it falls within a byte, or is its last with or without room. -/
theorem putbit : Obligations.Putbit :=
  ⟨rfl, fun s hf =>
    ⟨fun h => (exec_putbit s).trans (runCommand_operand _ _ _ _ _ _ hf rfl (checkPutbit_illegal h)),
      fun ho h => exec_putbit_within hf ho h,
      fun ho h hroom => exec_putbit_last hf ho h hroom,
      fun _ ho h hc hfull => exec_putbit_full hf ho h hc hfull⟩⟩

/-- Settles O23: the checks, the width first; the bits a field emits; WbufFull at the capacity. -/
theorem putbits : Obligations.Putbits :=
  ⟨rfl, fun s hf hw =>
    ⟨fun h => (exec_putbits s).trans (runCommand_operand _ _ _ _ _ _ hf rfl (checkPutbits_width h)),
      fun hn hv => (exec_putbits s).trans
        (runCommand_operand _ _ _ _ _ _ hf rfl (checkPutbits_value hn hv)),
      fun hn hv hroom => exec_putbits_ok hf hw hn hv hroom,
      fun _ hn hv hc hlen hroom => exec_putbits_full hf hw hn hv hc hlen hroom⟩⟩

/-- Settles O24: at a byte boundary; within a byte, with and without room. -/
theorem bwFlush : Obligations.BwFlush :=
  ⟨rfl, fun _ hf hw =>
    ⟨fun h => exec_bwFlush_boundary hf h,
      fun h hroom => ⟨exec_bwFlush_partial hf h hroom, bytesToBits_append_wacc hw⟩,
      fun _ h hc hfull => exec_bwFlush_full hf h hc hfull⟩⟩

/-- Settles O27: BR_INIT has no checks and its body cannot fail. -/
theorem brInit : Obligations.BrInit :=
  ⟨rfl, fun s hf =>
    ⟨(exec_brInit s).trans (runCommand_ok _ _ _ _ _ _ hf rfl rfl rfl), reof_restarted_iff _⟩⟩

/-- Settles O28: the position is inside the stream or at its end. -/
theorem getbit : Obligations.Getbit :=
  ⟨rfl, fun _ hf => ⟨fun h => exec_getbit_ok hf h, fun h => exec_getbit_end hf h⟩⟩

/-- Settles O29: the check; enough bits are left, or too few. -/
theorem getbits : Obligations.Getbits :=
  ⟨rfl, fun s hf =>
    ⟨fun h => (exec_getbits s).trans (runCommand_operand _ _ _ _ _ _ hf rfl (checkGetbits_illegal h)),
      fun hn h => exec_getbits_ok hf hn h,
      fun hn h => exec_getbits_short hf hn h⟩⟩

end Sys2Proof.Machine.BitCommands
end

section
/-! The split rule, case by case, and the command that evaluates it (41_classifier.md R140, R147). -/

namespace Sys2Proof.Machine

/-! ## The rule -/

section
variable {w h : Nat}

theorem splitGeom_of_width (hle : h ≤ w) (h2 : 2 ≤ w) :
    splitGeom w h = .width (w / 2) (w - w / 2) :=
  if_pos ⟨hle, show 1 ≤ w / 2 by omega⟩

theorem splitGeom_of_height (hw : 1 ≤ w) (hlt : w < h) :
    splitGeom w h = .height (h / 2) (h - h / 2) :=
  (if_neg fun hc => hlt.not_ge hc.1).trans (if_neg (show ¬ h / 2 < 1 by omega))

theorem splitGeom_eq_undivided_iff (hw : 1 ≤ w) (hh : 1 ≤ h) :
    splitGeom w h = .undivided ↔ w = 1 ∧ h = 1 := by
  constructor
  · intro hs
    rcases splitGeom_cases ⟨0, 0, w, h⟩ hw hh with ⟨hw1, hh1, -⟩ | ⟨-, -, e⟩ | ⟨-, -, e⟩
    · exact ⟨hw1, hh1⟩
    all_goals cases hs.symm.trans e
  · rintro ⟨rfl, rfl⟩
    rfl

/-- A width split halves the width, the first half the smaller. -/
theorem eq_halves_of_width (hw : 1 ≤ w) (hh : 1 ≤ h) {a b : Nat} (hs : splitGeom w h = .width a b) :
    2 ≤ w ∧ a = w / 2 ∧ b = w - w / 2 := by
  rcases splitGeom_cases ⟨0, 0, w, h⟩ hw hh with ⟨-, -, e⟩ | ⟨-, h2, e⟩ | ⟨-, -, e⟩ <;>
    cases hs.symm.trans e
  exact ⟨h2, rfl, rfl⟩

theorem eq_halves_of_height (hw : 1 ≤ w) (hh : 1 ≤ h) {a b : Nat}
    (hs : splitGeom w h = .height a b) : 2 ≤ h ∧ a = h / 2 ∧ b = h - h / 2 := by
  rcases splitGeom_cases ⟨0, 0, w, h⟩ hw hh with ⟨-, -, e⟩ | ⟨-, -, e⟩ | ⟨-, h2, e⟩ <;>
    cases hs.symm.trans e
  exact ⟨h2, rfl, rfl⟩

/-- The halves of a side of at least 2. -/
theorem halves_sizes {n : Nat} (h2 : 2 ≤ n) :
    1 ≤ n / 2 ∧ n / 2 ≤ n - n / 2 ∧ n - n / 2 - n / 2 ≤ 1 ∧ n / 2 + (n - n / 2) = n := by
  omega

end

/-- Settles O30: the sides decide the case, and the sizes are the halves of the side that is split. -/
theorem splitRule : Obligations.SplitRule := by
  refine fun w h hw hh => ⟨splitGeom_eq_undivided_iff hw hh, splitGeom_of_width,
    splitGeom_of_height hw, fun a b hs => ?width, fun a b hs => ?height⟩
  case width =>
    obtain ⟨h2, rfl, rfl⟩ := eq_halves_of_width hw hh hs
    obtain ⟨h1, hle, hdiff, hsum⟩ := halves_sizes h2
    exact ⟨h1, hle, hdiff, hsum, fun x y => by rw [hs, children]⟩
  case height =>
    obtain ⟨h2, rfl, rfl⟩ := eq_halves_of_height hw hh hs
    obtain ⟨h1, hle, hdiff, hsum⟩ := halves_sizes h2
    exact ⟨h1, hle, hdiff, hsum, fun x y => by rw [hs, children]⟩

/-! ## SPLITGEOM -/

theorem sideOK_iff (n : Nat) : sideOK n = true ↔ 1 ≤ n ∧ n ≤ 65535 := by
  simp only [sideOK, Bool.and_eq_true, decide_eq_true_eq]

section
variable {s : State}

theorem checkSplitgeom_ok (hw : 1 ≤ arg0 s ∧ arg0 s ≤ 65535) (hh : 1 ≤ arg1 s ∧ arg1 s ≤ 65535) :
    checkSplitgeom s = none := by
  rw [checkSplitgeom, if_pos ((sideOK_iff _).2 hw), if_pos ((sideOK_iff _).2 hh)]

theorem checkSplitgeom_width (hw : ¬ (1 ≤ arg0 s ∧ arg0 s ≤ 65535)) :
    checkSplitgeom s = some (illegalOperand 0 (arg0 s)) :=
  if_neg (mt (sideOK_iff _).1 hw)

theorem checkSplitgeom_height (hw : 1 ≤ arg0 s ∧ arg0 s ≤ 65535)
    (hh : ¬ (1 ≤ arg1 s ∧ arg1 s ≤ 65535)) :
    checkSplitgeom s = some (illegalOperand 1 (arg1 s)) := by
  rw [checkSplitgeom, if_pos ((sideOK_iff _).2 hw), if_neg (mt (sideOK_iff _).1 hh)]

theorem exec_splitgeom_operand {r : Raise} (hf : Running s) (ho : checkSplitgeom s = some r) :
    exec .splitgeom s = .next (raiseFault r s) :=
  (exec_splitgeom s).trans (runCommand_operand _ _ _ _ s r hf rfl ho)

theorem exec_splitgeom_ok {d : Division} (hf : Running s) (ho : checkSplitgeom s = none)
    (hd : splitGeom (arg0 s) (arg1 s) = d) :
    exec .splitgeom s =
      .next (setRes012 s (divisionKind d) (divisionFirst d) (divisionSecond d)) := by
  subst hd
  exact (exec_splitgeom s).trans (runCommand_ok _ _ _ _ s _ hf rfl ho rfl)

end

/-- Settles O31: the two checks, the width first; the results of each division. -/
theorem splitgeomCommand : Obligations.SplitgeomCommand :=
  ⟨rfl, fun _ hf =>
    ⟨fun hw => exec_splitgeom_operand hf (checkSplitgeom_width hw),
      fun hw hh => exec_splitgeom_operand hf (checkSplitgeom_height hw hh),
      fun hw hh =>
        ⟨exec_splitgeom_ok hf (checkSplitgeom_ok hw hh),
          fun _ _ => exec_splitgeom_ok hf (checkSplitgeom_ok hw hh),
          fun _ _ => exec_splitgeom_ok hf (checkSplitgeom_ok hw hh)⟩⟩⟩

end Sys2Proof.Machine
end

section
/-! The spread of a set of pixels, and the energies of a region (41_classifier.md R141, R142). -/

namespace Sys2Proof.Machine

/-- The largest and the smallest of a list, as `spreadOf` folds them. -/
theorem spreadOf_eq_max_sub_min {l : List Nat} (hl : l ≠ []) :
    ∃ hi lo, l.max? = some hi ∧ l.min? = some lo ∧ spreadOf l = hi - lo := by
  cases l with
  | nil => exact absurd rfl hl
  | cons a rest => exact ⟨_, _, List.max?_cons', List.min?_cons', rfl⟩

section
variable (luma : Color → BitVec 16) (s : State)

/-- The luma of a pixel, as `spread` takes it. -/
abbrev pixelLuma (p : Nat × Nat) : Nat := (luma (pixel s p.1 p.2)).toNat

variable {luma s} {ps qs : List (Nat × Nat)}

/-- The spread of some pixels is attained: by a brightest and a darkest of them. -/
theorem spread_extremes (hne : ps ≠ []) :
    ∃ p ∈ ps, ∃ q ∈ ps, spread luma s ps = pixelLuma luma s p - pixelLuma luma s q ∧
      ∀ x ∈ ps, pixelLuma luma s q ≤ pixelLuma luma s x ∧
        pixelLuma luma s x ≤ pixelLuma luma s p := by
  obtain ⟨hi, lo, hmax, hmin, he⟩ :=
    spreadOf_eq_max_sub_min (l := ps.map (pixelLuma luma s)) (by simpa using hne)
  obtain ⟨hhi, hle⟩ := List.max?_eq_some_iff.1 hmax
  obtain ⟨hlo, hge⟩ := List.min?_eq_some_iff.1 hmin
  obtain ⟨p, hp, rfl⟩ := List.mem_map.1 hhi
  obtain ⟨q, hq, rfl⟩ := List.mem_map.1 hlo
  exact ⟨p, hp, q, hq, he, fun x hx =>
    ⟨hge _ (List.mem_map_of_mem hx), hle _ (List.mem_map_of_mem hx)⟩⟩

theorem spread_eq_zero_of_flat {c : Color} (hc : ∀ p ∈ ps, pixel s p.1 p.2 = c) :
    spread luma s ps = 0 := by
  by_cases hne : ps = []
  · rw [hne]
    rfl
  · obtain ⟨p, hp, q, hq, he, -⟩ := spread_extremes (luma := luma) (s := s) hne
    rw [he, pixelLuma, pixelLuma, hc p hp, hc q hq, Nat.sub_self]

/-- More pixels have extremes at least as far apart. -/
theorem spread_mono (hne : ps ≠ []) (hsub : ps ⊆ qs) : spread luma s ps ≤ spread luma s qs := by
  obtain ⟨p, hp, q, hq, he, -⟩ := spread_extremes (luma := luma) (s := s) hne
  obtain ⟨p', -, q', -, he', hall⟩ :=
    spread_extremes (luma := luma) (s := s) (List.ne_nil_of_mem (hsub hp))
  rw [he, he']
  exact tsub_le_tsub (hall p (hsub hp)).2 (hall q (hsub hq)).1

end

/-! ## The ring and the inner pixels of a region -/

section
variable {s : State} {r : Region} {p : Nat × Nat}

/-- For an in-bounds pixel the outline is what the rule says it is: of an empty region, where the
subtractions would be truncated, there is none. -/
theorem onRing_iff (hp : p ∈ inBounds s r) :
    onRing r p = true ↔
      p.1 = r.x ∨ p.1 = r.x + r.w - 1 ∨ p.2 = r.y ∨ p.2 = r.y + r.h - 1 := by
  obtain ⟨hc, -, -⟩ := (mem_inBounds_iff s r p).1 hp
  rw [covers_iff] at hc
  simp only [onRing, Bool.or_eq_true, decide_eq_true_eq, or_assoc]
  omega

/-- The pixels of the inner energy. -/
abbrev innerPixels (s : State) (r : Region) : List (Nat × Nat) :=
  (inBounds s r).filter fun p => !onRing r p

theorem mem_ring_iff :
    p ∈ (inBounds s r).filter (onRing r) ↔ p ∈ inBounds s r ∧
      (p.1 = r.x ∨ p.1 = r.x + r.w - 1 ∨ p.2 = r.y ∨ p.2 = r.y + r.h - 1) := by
  rw [List.mem_filter]
  exact and_congr_right onRing_iff

theorem mem_innerPixels_iff :
    p ∈ innerPixels s r ↔ p ∈ inBounds s r ∧
      ¬ (p.1 = r.x ∨ p.1 = r.x + r.w - 1 ∨ p.2 = r.y ∨ p.2 = r.y + r.h - 1) := by
  rw [List.mem_filter, Bool.not_eq_true', Bool.eq_false_iff]
  exact and_congr_right fun hp => not_congr (onRing_iff hp)

/-- An inner pixel keeps a pixel's distance from every side of its region. -/
theorem strictly_inside_of_mem_innerPixels (hp : p ∈ innerPixels s r) :
    r.x < p.1 ∧ p.1 + 1 < r.x + r.w ∧ r.y < p.2 ∧ p.2 + 1 < r.y + r.h := by
  obtain ⟨hin, hring⟩ := mem_innerPixels_iff.1 hp
  obtain ⟨hc, -, -⟩ := (mem_inBounds_iff s r p).1 hin
  rw [covers_iff] at hc
  omega

end

section
variable {luma : Color → BitVec 16} {s : State} {r : Region}

theorem innerEnergy_eq_zero_of_narrow (h : r.w ≤ 2 ∨ r.h ≤ 2) : innerEnergy luma s r = 0 := by
  refine spread_eq_zero_of_flat (c := default) fun p hp => ?_
  have := strictly_inside_of_mem_innerPixels hp
  omega

/-- A 3x3 region has one inner pixel at most, its centre. -/
theorem innerEnergy_eq_zero_of_three (hw : r.w = 3) (hh : r.h = 3) : innerEnergy luma s r = 0 := by
  refine spread_eq_zero_of_flat (c := pixel s (r.x + 1) (r.y + 1)) fun p hp => ?_
  have := strictly_inside_of_mem_innerPixels hp
  rw [show p.1 = r.x + 1 by omega, show p.2 = r.y + 1 by omega]

end

/-- Settles O33: the extremes of the spread give its laws, and the two filters are the ring and the
rest. -/
theorem spreadLaws : Obligations.SpreadLaws :=
  fun _ s => ⟨rfl, fun _ => spread_extremes, fun _ _ => spread_eq_zero_of_flat,
    fun _ _ => spread_mono, fun _ => rfl,
    fun r => ⟨(inBounds s r).filter (onRing r), innerPixels s r, fun _ _ => mem_ring_iff,
      fun _ _ => mem_innerPixels_iff, rfl, rfl⟩,
    fun _ => innerEnergy_eq_zero_of_narrow, fun _ => innerEnergy_eq_zero_of_three⟩

end Sys2Proof.Machine
end

section
/-! The classifier's decision and the command that evaluates it (41_classifier.md R143 to R148). -/

namespace Sys2Proof.Machine

/-! ## The decision, step by step -/

section
variable {luma : Color → BitVec 16} {s : State} {r : Region}

theorem edgeDom_iff :
    edgeDom luma s r = true ↔ 0 < borderEnergy luma s r ∧ 0 < innerEnergy luma s r ∧
      2 * innerEnergy luma s r ≤ borderEnergy luma s r ∧ (2 < r.w ∨ 2 < r.h) := by
  have hm : Config.minBlock = 1 := rfl
  simp only [edgeDom, hm, Bool.and_eq_true, Bool.or_eq_true, decide_eq_true_eq, and_assoc]

theorem classify_pixel (h1 : r.w = 1 ∧ r.h = 1) : classify luma s r = (.undivided, 1) :=
  if_pos ⟨h1.1.le, h1.2.le⟩

section
variable (hw : 1 ≤ r.w) (hh : 1 ≤ r.h) (hne : ¬ (r.w = 1 ∧ r.h = 1))
include hw hh hne

theorem not_pixel_sized : ¬ (r.w ≤ Config.minBlock ∧ r.h ≤ Config.minBlock) := by
  have hm : Config.minBlock = 1 := rfl
  omega

theorem classify_flat (hE : energy luma s r = 0) : classify luma s r = (.undivided, 2) :=
  (if_neg (not_pixel_sized hw hh hne)).trans (if_pos hE)

theorem classify_smooth (hE : energy luma s r ≠ 0) (hd : edgeDom luma s r = false)
    (hg : energy luma s r ≤ s.cfg.maxgrad.toNat) (hw4 : r.w ≤ 4) (hh4 : r.h ≤ 4) :
    classify luma s r = (.undivided, 4) :=
  (if_neg (not_pixel_sized hw hh hne)).trans ((if_neg hE).trans (if_pos ⟨hd, hg, hw4, hh4⟩))

/-- Step 5: a region that is more than one pixel has a split, so the decision never comes to step 6. -/
theorem classify_rough (hE : energy luma s r ≠ 0)
    (hrough : edgeDom luma s r = true ∨ s.cfg.maxgrad.toNat < energy luma s r ∨ 4 < r.w ∨ 4 < r.h) :
    classify luma s r = (splitGeom r.w r.h, 5) ∧ splitGeom r.w r.h ≠ .undivided := by
  have hdiv : splitGeom r.w r.h ≠ .undivided := mt (splitGeom_eq_undivided_iff hw hh).1 hne
  have hstep4 : ¬ (edgeDom luma s r = false ∧ energy luma s r ≤ s.cfg.maxgrad.toNat ∧
      r.w ≤ 4 * Config.minBlock ∧ r.h ≤ 4 * Config.minBlock) := by
    have hm : Config.minBlock = 1 := rfl
    rintro ⟨hd, hg, hw4, hh4⟩
    rcases hrough with h | h | h | h
    · exact absurd (h.symm.trans hd) (by decide)
    all_goals omega
  refine ⟨?_, hdiv⟩
  rw [classify, if_neg (not_pixel_sized hw hh hne), if_neg hE, if_neg hstep4]
  cases hs : splitGeom r.w r.h with
  | undivided => exact absurd hs hdiv
  | width | height => rfl

end

/-- Steps 1, 2, 4 and 5 share out every region of sides at least 1. -/
theorem classify_cases (hw : 1 ≤ r.w) (hh : 1 ≤ r.h) :
    (r.w = 1 ∧ r.h = 1 ∧ classify luma s r = (.undivided, 1)) ∨
    (energy luma s r = 0 ∧ classify luma s r = (.undivided, 2)) ∨
    (energy luma s r ≠ 0 ∧ r.w ≤ 4 ∧ r.h ≤ 4 ∧ classify luma s r = (.undivided, 4)) ∨
    (energy luma s r ≠ 0 ∧ splitGeom r.w r.h ≠ .undivided ∧
      classify luma s r = (splitGeom r.w r.h, 5)) := by
  by_cases hne : r.w = 1 ∧ r.h = 1
  · exact .inl ⟨hne.1, hne.2, classify_pixel hne⟩
  by_cases hE : energy luma s r = 0
  · exact .inr (.inl ⟨hE, classify_flat hw hh hne hE⟩)
  by_cases hrough :
      edgeDom luma s r = true ∨ s.cfg.maxgrad.toNat < energy luma s r ∨ 4 < r.w ∨ 4 < r.h
  · obtain ⟨he, hdiv⟩ := classify_rough hw hh hne hE hrough
    exact .inr (.inr (.inr ⟨hE, hdiv, he⟩))
  · simp only [not_or, not_lt, Bool.not_eq_true] at hrough
    obtain ⟨hd, hg, hw4, hh4⟩ := hrough
    exact .inr (.inr (.inl ⟨hE, hw4, hh4, classify_smooth hw hh hne hE hd hg hw4 hh4⟩))

theorem classify_step_ne_six (hw : 1 ≤ r.w) (hh : 1 ≤ r.h) : (classify luma s r).2 ≠ 6 := by
  rcases classify_cases (luma := luma) (s := s) hw hh with
    ⟨-, -, e⟩ | ⟨-, e⟩ | ⟨-, -, -, e⟩ | ⟨-, -, e⟩
  all_goals simp [e]

/-- Above 4 pixels a side only flatness makes a leaf. -/
theorem classify_large_leaf_iff (hw : 1 ≤ r.w) (hh : 1 ≤ r.h) (h4 : 4 < r.w ∨ 4 < r.h) :
    (classify luma s r).1 = .undivided ↔ energy luma s r = 0 := by
  rcases classify_cases (luma := luma) (s := s) hw hh with
    ⟨hw1, hh1, -⟩ | ⟨hE, e⟩ | ⟨-, hw4, hh4, -⟩ | ⟨hE, hdiv, e⟩
  · omega
  · rw [e]
    exact iff_of_true rfl hE
  · omega
  · rw [e]
    exact iff_of_false hdiv hE

end

/-- Settles O34: the equations of the steps, and what follows from their sharing out every region. -/
theorem classifyDecision : Obligations.ClassifyDecision :=
  fun _ _ _ hw hh => ⟨classify_pixel, classify_flat hw hh, classify_smooth hw hh,
    classify_rough hw hh, classify_step_ne_six hw hh, classify_large_leaf_iff hw hh, edgeDom_iff⟩

/-! ## CLASSIFY -/

section
variable {s : State}

/-- The checks pass where each of the four does. -/
theorem checkClassify_eq_none_iff :
    checkClassify s = none ↔ arg0 s ≤ 65535 ∧ arg1 s ≤ 65535 ∧
      (1 ≤ arg2 s ∧ arg2 s ≤ 65535) ∧ (1 ≤ arg3 s ∧ arg3 s ≤ 65535) := by
  simp only [checkClassify, sideOK_iff]
  split_ifs with hx hy hw hh
  · exact iff_of_true rfl ⟨hx, hy, hw, hh⟩
  all_goals exact iff_of_false not_false (by omega)

theorem checkClassify_x (hx : 65535 < arg0 s) :
    checkClassify s = some (illegalOperand 0 (arg0 s)) :=
  if_neg hx.not_ge

theorem checkClassify_y (hx : arg0 s ≤ 65535) (hy : 65535 < arg1 s) :
    checkClassify s = some (illegalOperand 1 (arg1 s)) := by
  rw [checkClassify, if_pos hx, if_neg hy.not_ge]

theorem checkClassify_width (hx : arg0 s ≤ 65535) (hy : arg1 s ≤ 65535)
    (hw : ¬ (1 ≤ arg2 s ∧ arg2 s ≤ 65535)) :
    checkClassify s = some (illegalOperand 2 (arg2 s)) := by
  rw [checkClassify, if_pos hx, if_pos hy, if_neg (mt (sideOK_iff _).1 hw)]

theorem checkClassify_height (hx : arg0 s ≤ 65535) (hy : arg1 s ≤ 65535)
    (hw : 1 ≤ arg2 s ∧ arg2 s ≤ 65535) (hh : ¬ (1 ≤ arg3 s ∧ arg3 s ≤ 65535)) :
    checkClassify s = some (illegalOperand 3 (arg3 s)) := by
  rw [checkClassify, if_pos hx, if_pos hy, if_pos ((sideOK_iff _).2 hw),
    if_neg (mt (sideOK_iff _).1 hh)]

theorem exec_classify_operand {r : Raise} (hf : Running s) (hi : imgOK s = true)
    (ho : checkClassify s = some r) : exec .classify s = .next (raiseFault r s) :=
  (exec_classify s).trans (runCommand_operand _ _ _ _ s r hf hi ho)

theorem exec_classify_ok {d : Division} {n : Nat} (hf : Running s) (hi : imgOK s = true)
    (ho : checkClassify s = none) (hc : classify Config.luma s (argRegion s) = (d, n)) :
    exec .classify s =
      .next (setRes0123 s (divisionKind d) (divisionFirst d) (divisionSecond d) n) :=
  (exec_classify s).trans (runCommand_ok _ _ _ _ s _ hf hi ho (by rw [hc]))

/-- A region that begins beyond the image's right or lower edge has no pixel. -/
theorem inBounds_eq_nil {r : Region} (h : s.cfg.imgW.toNat ≤ r.x ∨ s.cfg.imgH.toNat ≤ r.y) :
    inBounds s r = [] :=
  List.eq_nil_iff_forall_not_mem.2 fun p hp => by
    obtain ⟨hc, hx, hy⟩ := (mem_inBounds_iff s r p).1 hp
    rw [covers_iff] at hc
    omega

theorem energy_eq_zero_of_outside {luma : Color → BitVec 16} {r : Region}
    (h : s.cfg.imgW.toNat ≤ r.x ∨ s.cfg.imgH.toNat ≤ r.y) : energy luma s r = 0 := by
  rw [energy, inBounds_eq_nil h]
  rfl

end

/-- Settles O35: the checks in operand order, the results of each decision, and the two decisions that
do not depend on a pixel. -/
theorem classifyCommand : Obligations.ClassifyCommand := by
  refine ⟨rfl, fun s hf => ⟨exec_without_img hf (.inl rfl), fun hi =>
    ⟨fun hx => exec_classify_operand hf hi (checkClassify_x hx),
      fun hx hy => exec_classify_operand hf hi (checkClassify_y hx hy),
      fun hx hy hw => exec_classify_operand hf hi (checkClassify_width hx hy hw),
      fun hx hy hw hh => exec_classify_operand hf hi (checkClassify_height hx hy hw hh),
      fun hx hy hw hh => ?_⟩⟩⟩
  have ho := checkClassify_eq_none_iff.2 ⟨hx, hy, hw, hh⟩
  refine ⟨?_, fun h1 => exec_classify_ok hf hi ho (classify_pixel h1), fun hout hne =>
    exec_classify_ok hf hi ho (classify_flat hw.1 hh.1 hne (energy_eq_zero_of_outside hout))⟩
  cases hc : classify Config.luma s (argRegion s) with
  | mk d n =>
    rw [exec_classify_ok hf hi ho hc]
    cases d <;> rfl

end Sys2Proof.Machine
end

section
/-! The mean colour of a region and the command that evaluates it (41_classifier.md R149). -/

namespace Sys2Proof.Machine

/-- The truncated mean of one channel over some colours, 0 over none. -/
def channelMean (ch : Color → Byte) (cs : List Color) : Nat :=
  (cs.map fun c => (ch c).toNat).sum / cs.length

/-- No mean exceeds the largest value of a channel. -/
theorem channelMean_le (ch : Color → Byte) (cs : List Color) : channelMean ch cs ≤ 255 := by
  have hsum : (cs.map fun c => (ch c).toNat).sum ≤ cs.length * 255 := by
    have := List.sum_le_card_nsmul (cs.map fun c => (ch c).toNat) 255 (by
      simp only [List.mem_map, forall_exists_index, and_imp, forall_apply_eq_imp_iff₂]
      exact fun c _ => Nat.le_of_lt_succ (ch c).isLt)
    simpa using this
  exact Nat.div_le_of_le_mul hsum

theorem toNat_channelMean (ch : Color → Byte) (cs : List Color) :
    (BitVec.ofNat 8 (channelMean ch cs)).toNat = channelMean ch cs :=
  Nat.mod_eq_of_lt (Nat.lt_succ_of_le (channelMean_le ch cs))

section
variable {s : State} {r : Region} {cs : List Color}

theorem avgColor_eq (hcs : cs = (inBounds s r).map fun p => pixel s p.1 p.2) :
    avgColor s r = ⟨BitVec.ofNat 8 (channelMean Color.r cs),
      BitVec.ofNat 8 (channelMean Color.g cs), BitVec.ofNat 8 (channelMean Color.b cs)⟩ := by
  subst hcs
  rfl

theorem avgColor_channels (hcs : cs = (inBounds s r).map fun p => pixel s p.1 p.2) :
    (avgColor s r).r.toNat = channelMean Color.r cs ∧
    (avgColor s r).g.toNat = channelMean Color.g cs ∧
    (avgColor s r).b.toNat = channelMean Color.b cs := by
  rw [avgColor_eq hcs]
  exact ⟨toNat_channelMean _ _, toNat_channelMean _ _, toNat_channelMean _ _⟩

theorem packColor_avgColor (hcs : cs = (inBounds s r).map fun p => pixel s p.1 p.2) :
    packColor (avgColor s r) =
      channelMean Color.r cs * 65536 + channelMean Color.g cs * 256 + channelMean Color.b cs := by
  obtain ⟨hr, hg, hb⟩ := avgColor_channels hcs
  rw [packColor, hr, hg, hb]

/-- A region whose corner lies in the image has that pixel. -/
theorem corner_mem_inBounds (hw : 1 ≤ r.w) (hh : 1 ≤ r.h) (hx : r.x < s.cfg.imgW.toNat)
    (hy : r.y < s.cfg.imgH.toNat) : (r.x, r.y) ∈ inBounds s r :=
  (mem_inBounds_iff s r _).2 ⟨(covers_iff r _ _).2 (by dsimp only; omega), hx, hy⟩

end

/-! ## AVGCOLOR -/

section
variable {s : State}

theorem checkAvgcolor_of_checkClassify {r : Raise} (ho : checkClassify s = some r) :
    checkAvgcolor s = some r := by
  simp only [checkAvgcolor, ho]

theorem checkAvgcolor_outside (ho : checkClassify s = none)
    (hout : s.cfg.imgW.toNat ≤ arg0 s ∨ s.cfg.imgH.toNat ≤ arg1 s) :
    checkAvgcolor s = some (illegalOperand 0 (arg0 s)) := by
  simp only [checkAvgcolor, ho]
  exact if_neg (by omega)

theorem checkAvgcolor_ok (ho : checkClassify s = none) (hx : arg0 s < s.cfg.imgW.toNat)
    (hy : arg1 s < s.cfg.imgH.toNat) : checkAvgcolor s = none := by
  simp only [checkAvgcolor, ho]
  exact if_pos ⟨hx, hy⟩

theorem exec_avgcolor_operand {r : Raise} (hf : Running s) (hi : imgOK s = true)
    (ho : checkAvgcolor s = some r) : exec .avgcolor s = .next (raiseFault r s) :=
  (exec_avgcolor s).trans (runCommand_operand _ _ _ _ s r hf hi ho)

theorem exec_avgcolor_ok (hf : Running s) (hi : imgOK s = true) (ho : checkAvgcolor s = none) :
    exec .avgcolor s = .next (setRes0 s (packColor (avgColor s (argRegion s)))) :=
  (exec_avgcolor s).trans (runCommand_ok _ _ _ _ s _ hf hi ho rfl)

end

/-- Settles O36: the channels are the means, which fit a byte; the checks; a region that passes them has
its corner pixel. -/
theorem avgcolorCommand : Obligations.AvgcolorCommand := by
  refine ⟨rfl, fun _ _ _ => avgColor_channels, fun s hf =>
    ⟨exec_without_img hf (.inr rfl), fun hi =>
      ⟨fun _ ho => exec_avgcolor_operand hf hi (checkAvgcolor_of_checkClassify ho),
        fun ho hout => exec_avgcolor_operand hf hi (checkAvgcolor_outside ho hout),
        fun ho hx hy cs hcs => ⟨?nonempty, channelMean_le Color.r cs, channelMean_le Color.g cs,
          channelMean_le Color.b cs, ?_⟩⟩⟩⟩
  case nonempty =>
    obtain ⟨-, -, ⟨hw, -⟩, hh, -⟩ := checkClassify_eq_none_iff.1 ho
    have hcorner := corner_mem_inBounds (s := s) (r := argRegion s) hw hh hx hy
    rw [hcs]
    exact List.ne_nil_of_mem (List.mem_map_of_mem hcorner)
  · rw [exec_avgcolor_ok hf hi (checkAvgcolor_ok ho hx hy), packColor_avgColor hcs]
    rfl

end Sys2Proof.Machine
end

section
/-! The trees of the stripes: how deep and how large they are, and that their leaves tile the raster
(41_classifier.md R140, R150 to R152, 43_encoder.md R175). -/

namespace Sys2Proof.Machine

/-! ## The children of a region -/

section
variable {r ra rb : Region}

/-- The two ways a non-empty region divides: beside each other, or one below the other. -/
theorem children_cases (hw : 1 ≤ r.w) (hh : 1 ≤ r.h)
    (hk : children r (splitGeom r.w r.h) = some (ra, rb)) :
    (2 ≤ r.w ∧ ra = ⟨r.x, r.y, r.w / 2, r.h⟩ ∧ rb = ⟨r.x + r.w / 2, r.y, r.w - r.w / 2, r.h⟩) ∨
    (2 ≤ r.h ∧ ra = ⟨r.x, r.y, r.w, r.h / 2⟩ ∧ rb = ⟨r.x, r.y + r.h / 2, r.w, r.h - r.h / 2⟩) := by
  rcases splitGeom_cases r hw hh with ⟨-, -, hs⟩ | ⟨-, h2, hs⟩ | ⟨-, h2, hs⟩ <;> rw [hs] at hk <;>
    cases hk
  · exact .inl ⟨h2, rfl, rfl⟩
  · exact .inr ⟨h2, rfl, rfl⟩

/-- A non-empty region inside a raster of these sides. -/
def InRaster (w h : Nat) (r : Region) : Prop :=
  1 ≤ r.w ∧ 1 ≤ r.h ∧ r.x + r.w ≤ w ∧ r.y + r.h ≤ h

theorem InRaster.children {w h : Nat} (hr : InRaster w h r)
    (hk : children r (splitGeom r.w r.h) = some (ra, rb)) :
    InRaster w h ra ∧ InRaster w h rb := by
  obtain ⟨hw, hh, hx, hy⟩ := hr
  rcases children_cases hw hh hk with ⟨h2, rfl, rfl⟩ | ⟨h2, rfl, rfl⟩ <;>
    simp only [InRaster] <;> omega

/-- A pixel of a region lies in one of its children. -/
theorem covers_children (hw : 1 ≤ r.w) (hh : 1 ≤ r.h)
    (hk : children r (splitGeom r.w r.h) = some (ra, rb)) (px py : Nat) :
    (covers ra px py).toNat + (covers rb px py).toNat = (covers r px py).toNat := by
  rcases children_cases hw hh hk with ⟨h2, rfl, rfl⟩ | ⟨h2, rfl, rfl⟩ <;>
    simp only [Bool.toNat, Bool.cond_eq_ite, covers_iff] <;> split_ifs <;> omega

end

/-! ## The halvings of a side -/

/-- `clog 2` counts the halvings of a side down to 1, the larger half taken each time. -/
theorem clog_larger_half {n : Nat} (h2 : 2 ≤ n) :
    Nat.clog 2 (n - n / 2) + 1 = Nat.clog 2 n := by
  rw [Nat.clog_of_one_lt Nat.one_lt_two h2, show n - n / 2 = (n + 2 - 1) / 2 by omega]

theorem clog_smaller_half {n : Nat} (h2 : 2 ≤ n) : Nat.clog 2 (n / 2) + 1 ≤ Nat.clog 2 n := by
  rw [← clog_larger_half h2]
  exact Nat.succ_le_succ (Nat.clog_mono_right 2 (by omega))

/-- A 16-bit side is halved at most 16 times. -/
theorem clog_le_sixteen {n : Nat} (h : n ≤ 65535) : Nat.clog 2 n ≤ 16 :=
  Nat.clog_le_of_le_pow (by omega)

/-! ## A tree on a region -/

/-- The tree divides the region, whose sides are at least 1, only where the split rule does. -/
inductive Divides : WireTree → Region → Prop where
  | leaf {idx : Byte} {r : Region} (hw : 1 ≤ r.w) (hh : 1 ≤ r.h) : Divides (.leaf idx) r
  | node {a b : WireTree} {r ra rb : Region} (hw : 1 ≤ r.w) (hh : 1 ≤ r.h)
      (hk : children r (splitGeom r.w r.h) = some (ra, rb)) (ha : Divides a ra)
      (hb : Divides b rb) : Divides (.node a b) r

/-- A tree that fits divides its region: the children of a non-empty region are non-empty. -/
theorem divides_of_fits {t : WireTree} {r : Region} (hfit : t.fits r = true) (hw : 1 ≤ r.w)
    (hh : 1 ≤ r.h) : Divides t r := by
  induction t generalizing r with
  | leaf idx => exact .leaf hw hh
  | node a b iha ihb =>
    cases hk : children r (splitGeom r.w r.h) with
    | none => simp [WireTree.fits, hk] at hfit
    | some kids =>
      simp only [WireTree.fits, hk, Bool.and_eq_true] at hfit
      obtain ⟨haw, hah, hbw, hbh, -⟩ := children_area r _ _ hw hh hk
      exact .node hw hh hk (iha hfit.1 haw hah) (ihb hfit.2 hbw hbh)

section
variable {t : WireTree} {r : Region}

theorem Divides.nonempty (h : Divides t r) : 1 ≤ r.w ∧ 1 ≤ r.h := by
  cases h with
  | leaf hw hh => exact ⟨hw, hh⟩
  | node hw hh => exact ⟨hw, hh⟩

/-- A split halves one side, so the halvings of both sides bound the depth. -/
theorem Divides.depth_le (h : Divides t r) : t.depth ≤ Nat.clog 2 r.w + Nat.clog 2 r.h := by
  induction h with
  | leaf => exact Nat.zero_le _
  | @node a b r ra rb hw hh hk _ _ iha ihb =>
    rw [WireTree.depth]
    rcases children_cases hw hh hk with ⟨h2, rfl, rfl⟩ | ⟨h2, rfl, rfl⟩
    all_goals
      have hlarger := clog_larger_half h2
      have hsmaller := clog_smaller_half h2
      dsimp only at iha ihb
      omega

theorem Divides.refs_le (h : Divides t r) : t.refs.length ≤ r.w * r.h := by
  induction h with
  | leaf hw hh => exact Nat.mul_pos hw hh
  | node hw hh hk _ _ iha ihb =>
    obtain ⟨-, -, -, -, harea⟩ := children_area _ _ _ hw hh hk
    rw [WireTree.refs, List.length_append, ← harea]
    exact Nat.add_le_add iha ihb

theorem Divides.regions_inRaster {w h : Nat} (ht : Divides t r) (hr : InRaster w h r) :
    ∀ q ∈ t.regions r, InRaster w h q := by
  induction ht with
  | leaf => simpa only [WireTree.regions, List.mem_singleton, forall_eq] using hr
  | node _ _ hk _ _ iha ihb =>
    obtain ⟨ha, hb⟩ := hr.children hk
    simp only [WireTree.regions, hk, List.mem_append]
    rintro q (hq | hq)
    · exact iha ha q hq
    · exact ihb hb q hq

/-- A pixel lies in one leaf region if it lies in the tree's region, and else in none. -/
theorem Divides.count_covers (h : Divides t r) (px py : Nat) :
    (t.regions r).countP (fun q => covers q px py) = (covers r px py).toNat := by
  induction h with
  | leaf =>
    rw [WireTree.regions, List.countP_singleton, Bool.toNat, Bool.cond_eq_ite]
  | node hw hh hk _ _ iha ihb =>
    simp only [WireTree.regions, hk, List.countP_append, iha, ihb, covers_children hw hh hk]

end

/-! ## The trees of the stripes -/

/-- Trees on the stripes from stripe `i` on, which lie one below the other from row `y` to the raster's
last row. -/
inductive Stacked (s : State) : Nat → Nat → List WireTree → Prop where
  | nil {i : Nat} : Stacked s i s.cfg.imgH.toNat []
  | cons {i y h : Nat} {t : WireTree} {ts : List WireTree}
      (hroot : stripeRoot s i = ⟨0, y, s.cfg.imgW.toNat, h⟩)
      (ht : Divides t ⟨0, y, s.cfg.imgW.toNat, h⟩) (hts : Stacked s (i + 1) (y + h) ts) :
      Stacked s i y (t :: ts)

section
variable {s : State} {i y : Nat} {ts : List WireTree}

theorem stacked_of_forestFits (hw : 1 ≤ s.cfg.imgW.toNat) (hfit : forestFits s i ts = true)
    (hs : stripesOK s ts.length i y = true) : Stacked s i y ts := by
  induction ts generalizing i y with
  | nil =>
    simp only [List.length_nil, stripesOK, decide_eq_true_eq] at hs
    exact hs ▸ .nil
  | cons t ts ih =>
    simp only [forestFits, Bool.and_eq_true] at hfit
    simp only [List.length_cons, stripesOK, Bool.and_eq_true, decide_eq_true_eq] at hs
    obtain ⟨⟨hy, hh⟩, hrest⟩ := hs
    have hroot : stripeRoot s i = ⟨0, y, s.cfg.imgW.toNat, (stripeAt s i).h.toNat⟩ := by
      rw [stripeRoot, hy]
    exact .cons hroot (divides_of_fits (hroot ▸ hfit.1) hw hh) (ih hfit.2 hrest)

theorem stacked_of_cfgOK (hc : cfgOK s = true) (hfit : forestFits s 0 ts = true) :
    Stacked s 0 0 ts := by
  obtain ⟨hw, -, -, hs⟩ := cfgOK_spec s hc
  have hlen := forestFits_length s 0 ts hfit
  rw [Nat.zero_add] at hlen
  exact stacked_of_forestFits hw hfit (hlen ▸ hs)

theorem Stacked.le_imgH (h : Stacked s i y ts) : y ≤ s.cfg.imgH.toNat := by
  induction h with
  | nil => exact le_rfl
  | cons _ _ _ ih => exact (Nat.le_add_right _ _).trans ih

/-- A leaf takes a pixel at least, so the leaves of the stripes are no more than the pixels below the
first stripe's top. -/
theorem Stacked.refs_le (h : Stacked s i y ts) :
    (forestRefs ts).length + s.cfg.imgW.toNat * y ≤ s.cfg.imgW.toNat * s.cfg.imgH.toNat := by
  induction h with
  | nil => simp only [forestRefs, List.flatMap_nil, List.length_nil, Nat.zero_add, le_refl]
  | cons _ ht _ ih =>
    have hle := ht.refs_le
    simp only [forestRefs, List.flatMap_cons, List.length_append] at ih ⊢
    rw [Nat.mul_add] at ih
    dsimp only at hle
    omega

theorem Stacked.regions_inRaster (h : Stacked s i y ts) :
    ∀ q ∈ forestRegions s i ts, InRaster s.cfg.imgW.toNat s.cfg.imgH.toNat q := by
  induction h with
  | nil => exact fun _ hq => absurd hq List.not_mem_nil
  | @cons i y h t ts hroot ht hts ih =>
    have hr : InRaster s.cfg.imgW.toNat s.cfg.imgH.toNat ⟨0, y, s.cfg.imgW.toNat, h⟩ := by
      obtain ⟨hw, hh⟩ := ht.nonempty
      exact ⟨hw, hh, (Nat.zero_add _).le, hts.le_imgH⟩
    simp only [forestRegions, hroot, List.mem_append]
    rintro q (hq | hq)
    · exact ht.regions_inRaster hr q hq
    · exact ih q hq

/-- Of the raster's pixels those from row `y` on lie in one leaf region each, the others in none. -/
theorem Stacked.count_covers (h : Stacked s i y ts) {px py : Nat} (hx : px < s.cfg.imgW.toNat)
    (hy : py < s.cfg.imgH.toNat) :
    (forestRegions s i ts).countP (fun q => covers q px py) = (decide (y ≤ py)).toNat := by
  induction h with
  | nil =>
    rw [decide_eq_false hy.not_ge]
    rfl
  | @cons i y h t ts hroot ht _ ih =>
    rw [forestRegions, hroot, List.countP_append, ht.count_covers, ih]
    simp only [Bool.toNat, Bool.cond_eq_ite, covers_iff, decide_eq_true_eq]
    split_ifs <;> omega

end

/-- Every tree has a leaf. -/
theorem length_le_forestRefs (ts : List WireTree) : ts.length ≤ (forestRefs ts).length := by
  induction ts with
  | nil => exact le_rfl
  | cons t ts ih =>
    have hpat := t.pattern_length
    simp only [forestRefs, List.flatMap_cons, List.length_cons, List.length_append] at ih ⊢
    omega

/-- Settles O55: 16 halvings of each side; a leaf takes a pixel; the counts of the stripes' trees. -/
theorem treeSizes : Obligations.TreeSizes := by
  refine ⟨fun t r hfit hw hw16 hh hh16 => ?_, fun s ts hc hfit => ?_⟩
  · have ht := divides_of_fits hfit hw hh
    exact ⟨ht.depth_le.trans (Nat.add_le_add (clog_le_sixteen hw16) (clog_le_sixteen hh16)), ht.refs_le⟩
  · have hlen := forestFits_length s 0 ts hfit
    have hpattern := forestPattern_length ts
    have hwire := forestWire_length ts
    have hleaf := length_le_forestRefs ts
    have hpixels := (stacked_of_cfgOK hc hfit).refs_le
    refine ⟨hwire, ?_, ?_, ?_, by simpa using hpixels⟩ <;> omega

/-- Settles O56: the leaves of one tree tile its region, and the stripes tile the raster. -/
theorem leavesTileRaster : Obligations.LeavesTileRaster := by
  refine fun s ts hc hfit => ⟨(stacked_of_cfgOK hc hfit).regions_inRaster, fun px py hx hy => ?_⟩
  rw [← List.countP_eq_length_filter, (stacked_of_cfgOK hc hfit).count_covers hx hy,
    decide_eq_true (Nat.zero_le py)]
  rfl

/-! ## ANALYZE -/

/-- Every stripe has a leaf, as every tree has one. -/
theorem AnalyzedStripes.le_leaves {s : State} {p : List Bool} {c : List Color}
    (h : AnalyzedStripes s s.cfg.nstripe.toNat 0 p c) : s.cfg.nstripe.toNat ≤ c.length := by
  obtain ⟨ts, hfit, -, hrefs, -⟩ :=
    h.forest (Nat.zero_add _) (List.replicate c.length 0) List.length_replicate
  have hlen := forestFits_length s 0 ts hfit
  have hleaf := length_le_forestRefs ts
  rw [hrefs, List.length_replicate] at hleaf
  omega

/-- ANALYZE writes what its body gives and the two counts (41_classifier.md R150). -/
theorem exec_analyze_ok {s : State} {p : List Bool} {c : List Color} (hf : Running s)
    (hc : cfgOK s = true)
    (ha : analyze Config.luma s = .ok ((s.withAna ⟨p, c⟩).withStack [])) :
    exec .analyze s = .next (setRes01 ((s.withAna ⟨p, c⟩).withStack []) c.length p.length) :=
  (exec_analyze s).trans (runCommand_ok _ _ _ _ s _ hf hc rfl (by rw [ha]; rfl))

/-- Settles O37: the body is the recursion over the stripes, whose counts are those of its trees. -/
theorem analyzeCommand : Obligations.AnalyzeCommand := by
  intro s hf hc
  obtain ⟨p, c, hrec, ha⟩ := analyze_ok s hc
  exact ⟨p, c, hrec, exec_analyze_ok hf hc ha, hrec.counts, hrec.le_leaves⟩

end Sys2Proof.Machine
end

section
/-! The merging test (42_palette.md R160). -/

namespace Sys2Proof.Machine

theorem absdiff_le_iff (a b n : Nat) : absdiff a b ≤ n ↔ a ≤ b + n ∧ b ≤ a + n := by
  unfold absdiff
  split <;> omega

theorem near_iff (tol : Nat) (c e : Color) : near tol c e = true ↔
    (c.r.toNat ≤ e.r.toNat + tol ∧ e.r.toNat ≤ c.r.toNat + tol) ∧
    (c.g.toNat ≤ e.g.toNat + tol ∧ e.g.toNat ≤ c.g.toNat + tol) ∧
    (c.b.toNat ≤ e.b.toNat + tol ∧ e.b.toNat ≤ c.b.toNat + tol) := by
  simp only [near, Bool.and_eq_true, decide_eq_true_eq, absdiff_le_iff, and_assoc]

theorem near_comm (tol : Nat) (c e : Color) : near tol c e = near tol e c := by
  rw [Bool.eq_iff_iff, near_iff, near_iff]
  exact and_congr and_comm (and_congr and_comm and_comm)

/-- Without tolerance each channel is bounded by the other both ways. -/
theorem near_zero_iff (c e : Color) : near 0 c e = true ↔ c = e := by
  constructor
  · intro h
    obtain ⟨⟨hr, hr'⟩, ⟨hg, hg'⟩, hb, hb'⟩ := (near_iff 0 c e).1 h
    have er : c.r = e.r := BitVec.eq_of_toNat_eq (hr.antisymm hr')
    have eg : c.g = e.g := BitVec.eq_of_toNat_eq (hg.antisymm hg')
    have eb : c.b = e.b := BitVec.eq_of_toNat_eq (hb.antisymm hb')
    cases c
    cases e
    exact (Color.mk.injEq ..).mpr ⟨er, eg, eb⟩
  · rintro rfl
    exact near_self 0 c

/-- Settles O38: the test on every channel, and the rule's own three colours. -/
theorem nearTest : Obligations.NearTest :=
  ⟨near_iff, near_self, near_comm, near_zero_iff, by decide, by decide, by decide⟩

end Sys2Proof.Machine
end

section
/-! The palette commands (42_palette.md R161 to R165). The theorems that settle their statements
have the names of the model's functions, hence a namespace of their own. -/

namespace Sys2Proof.Machine

/-! ## A colour's 24 bits -/

theorem packColor_lt (c : Color) : packColor c < 2 ^ 24 := by
  have hr := c.r.isLt
  have hg := c.g.isLt
  have hb := c.b.isLt
  unfold packColor
  omega

theorem unpackColor_packColor (c : Color) : unpackColor (packColor c) = c := by
  have hg := c.g.isLt
  have hb := c.b.isLt
  have er : packColor c / 65536 = c.r.toNat := by unfold packColor; omega
  have eg : packColor c / 256 = c.g.toNat + c.r.toNat * 2 ^ 8 := by unfold packColor; omega
  have eb : packColor c = c.b.toNat + (c.r.toNat * 256 + c.g.toNat) * 2 ^ 8 := by
    unfold packColor; omega
  refine (Color.mk.injEq ..).mpr ⟨?_, ?_, ?_⟩ <;> apply BitVec.eq_of_toNat_eq
  · rw [er, BitVec.toNat_ofNat, Nat.mod_eq_of_lt c.r.isLt]
  · rw [eg, BitVec.toNat_ofNat, Nat.add_mul_mod_self_right, Nat.mod_eq_of_lt hg]
  · rw [eb, BitVec.toNat_ofNat, Nat.add_mul_mod_self_right, Nat.mod_eq_of_lt hb]

theorem packColor_unpackColor {v : Nat} (h : v < 2 ^ 24) : packColor (unpackColor v) = v := by
  simp only [packColor, unpackColor, BitVec.toNat_ofNat]
  omega

/-! ## One push -/

section
variable {tol : Nat} {c : Color} {p : Palettes} {cur : List Color}

/-- One palette per group begun: a push finds its group's, or opens it (42_palette.md R162). -/
theorem group_lt_length_opened (h : p.palettes.length = groupsOf p.leafref.length) :
    p.leafref.length / Config.group < (opened p).length := by
  obtain ⟨-, -, hlen⟩ := groupsOf_succ p.leafref.length
  unfold opened openGroup
  split
  · rw [List.length_append, List.length_singleton]
    omega
  · omega

theorem current_eq (h : (opened p)[p.leafref.length / Config.group]? = some cur) :
    current p = cur := by
  rw [current, paletteAt, h, Option.getD_some]

theorem palPush_reuse {j : Nat} {e : Color} (hj : (current p)[j]? = some e)
    (hn : near tol c e = true)
    (hfirst : ∀ m e', m < j → (current p)[m]? = some e' → near tol c e' = false) :
    palPush tol c p = .ok ⟨p.leafref.length / Config.group, j, 0,
      ⟨opened p, p.leafref ++ [BitVec.ofNat 8 j]⟩⟩ := by
  have hno : ¬ ∀ e' ∈ current p, near tol c e' = false := fun h =>
    Bool.false_ne_true ((h e (List.mem_of_getElem? hj)).symm.trans hn)
  rcases palPush_cases tol c p with ⟨i, d, hi, hd, hfirst', hp⟩ | ⟨h, -⟩ | ⟨h, -⟩
  · have hij : i = j := by
      rcases Nat.lt_trichotomy i j with hlt | heq | hgt
      · exact absurd (hfirst i d hlt hi) (ne_false_of_eq_true hd)
      · exact heq
      · exact absurd (hfirst' j e hgt hj) (ne_false_of_eq_true hn)
    rw [hp, hij]
  · exact absurd h hno
  · exact absurd h hno

theorem palPush_append (hno : ∀ e ∈ current p, near tol c e = false)
    (hroom : (current p).length ≠ Config.group) :
    palPush tol c p = .ok ⟨p.leafref.length / Config.group, (current p).length, 1,
      ⟨(opened p).set (p.leafref.length / Config.group) (current p ++ [c]),
        p.leafref ++ [BitVec.ofNat 8 (current p).length]⟩⟩ := by
  rcases palPush_cases tol c p with ⟨i, d, hi, hd, -⟩ | ⟨-, -, hp⟩ | ⟨-, hfull, -⟩
  · exact absurd (hno d (List.mem_of_getElem? hi)) (ne_false_of_eq_true hd)
  · exact hp
  · exact absurd hfull hroom

theorem palPush_full (hno : ∀ e ∈ current p, near tol c e = false)
    (hfull : (current p).length = Config.group) :
    palPush tol c p =
      .error ⟨.paletteFull, p.leafref.length / Config.group, p.leafref.length⟩ := by
  rcases palPush_cases tol c p with ⟨i, d, hi, hd, -⟩ | ⟨-, hroom, -⟩ | ⟨-, -, hp⟩
  · exact absurd (hno d (List.mem_of_getElem? hi)) (ne_false_of_eq_true hd)
  · exact absurd hfull hroom
  · exact hp

end

/-! ## PAL_PUSH -/

section
variable {s : State} {c : Color}

theorem checkPalPush_color (h : 2 ^ 24 ≤ arg0 s) :
    checkPalPush s = some (illegalOperand 0 (arg0 s)) :=
  if_neg h.not_gt

theorem checkPalPush_palettes (h : arg0 s < 2 ^ 24)
    (hpal : s.pal.palettes.length ≠ groupsOf s.pal.leafref.length) :
    checkPalPush s = some ⟨.badConfig, 1, s.pal.palettes.length⟩ := by
  rw [checkPalPush, if_pos h, if_neg hpal]

theorem checkPalPush_ok (h : arg0 s = packColor c)
    (hpal : s.pal.palettes.length = groupsOf s.pal.leafref.length) : checkPalPush s = none := by
  rw [checkPalPush, if_pos (h ▸ packColor_lt c), if_pos hpal]

theorem exec_palPush_operand {r : Raise} (hf : Running s) (ho : checkPalPush s = some r) :
    exec .palPush s = .next (raiseFault r s) :=
  (exec_palPush s).trans (runCommand_operand _ _ _ _ s r hf rfl ho)

theorem exec_palPush_ok {r : Pushed} (hf : Running s) (hc : arg0 s = packColor c)
    (hpal : s.pal.palettes.length = groupsOf s.pal.leafref.length)
    (hr : palPush s.cfg.colortol.toNat c s.pal = .ok r) :
    exec .palPush s = .next (setRes012 (s.withPal r.pal) r.g r.j r.isNew) :=
  (exec_palPush s).trans (runCommand_ok _ _ _ _ s _ hf rfl (checkPalPush_ok hc hpal)
    (by rw [hc, unpackColor_packColor, hr]; rfl))

theorem faults_palPush {r : Raise} (hf : Running s) (hc : arg0 s = packColor c)
    (hpal : s.pal.palettes.length = groupsOf s.pal.leafref.length)
    (hr : palPush s.cfg.colortol.toNat c s.pal = .error r) :
    Faults .palPush s (causeCode r.cause) r.info0 r.info1 :=
  faults_of frees_palPush (exec_palPush s) hf rfl (checkPalPush_ok hc hpal)
    (by rw [hc, unpackColor_packColor, hr]; rfl)

end

/-! ## PAL_BUILD -/

theorem palBuild_of_palPushAll {s : State} {p : Palettes}
    (h : palPushAll s.cfg.colortol.toNat s.ana.leafcolor ⟨[], []⟩ = .ok p) :
    palBuild s = .ok (s.withPal p) := by
  change (palPushAll s.cfg.colortol.toNat s.ana.leafcolor ⟨[], []⟩ >>=
    fun q => pure (s.withPal q)) = _
  rw [h, ok_bind, pure_eq_ok]

theorem exec_palBuild_ok {s : State} {p : Palettes} (hf : Running s)
    (h : palPushAll s.cfg.colortol.toNat s.ana.leafcolor ⟨[], []⟩ = .ok p) :
    exec .palBuild s = .next (setRes0 (s.withPal p) p.palettes.length) :=
  (exec_palBuild s).trans (runCommand_ok _ _ _ _ s _ hf rfl rfl
    (by rw [palBuild_of_palPushAll h]; rfl))

theorem Built.one_le_length {tol : Nat} {cols : List Color} {p : Palettes} (h : Built tol cols p) :
    ∀ cs ∈ p.palettes, 1 ≤ cs.length := by
  intro cs hcs
  obtain ⟨g, hg, rfl⟩ := List.mem_iff_getElem.mp hcs
  have := h.nonempty g hg
  rwa [paletteAt, List.getElem?_eq_getElem hg, Option.getD_some] at this

end Sys2Proof.Machine

namespace Sys2Proof.Machine.PaletteCommands

/-- Settles O39: PAL_INIT has no checks and its body cannot fail. -/
theorem palInit : Obligations.PalInit :=
  ⟨rfl, fun s hf => (exec_palInit s).trans (runCommand_ok _ _ _ _ s _ hf rfl rfl rfl)⟩

/-- Settles O40: the two checks; the palette that is then there; the three things a push can do. -/
theorem palPush : Obligations.PalPush := by
  refine ⟨rfl, ?_⟩
  rintro s _ _ _ hf rfl rfl rfl
  refine ⟨fun hv => exec_palPush_operand hf (checkPalPush_color hv),
    fun hv hpal => exec_palPush_operand hf (checkPalPush_palettes hv hpal),
    fun hv => ⟨unpackColor (arg0 s), (packColor_unpackColor hv).symm⟩,
    fun hpal => ⟨_, paletteAt_of_lt _ _ (group_lt_length_opened hpal)⟩,
    fun c cur hc hpal hcur => ?_⟩
  obtain rfl : current s.pal = cur := current_eq hcur
  exact ⟨fun j e hj hn hfirst => exec_palPush_ok hf hc hpal (palPush_reuse hj hn hfirst),
    fun hno hroom => exec_palPush_ok hf hc hpal (palPush_append hno hroom),
    fun hno hfull => faults_palPush hf hc hpal (palPush_full hno hfull)⟩

/-- Settles O41: what the pushes of all leaf colours build. -/
theorem palBuild : Obligations.PalBuild := by
  intro s hf
  obtain ⟨p, hp, hb⟩ := palPushAll_built s.cfg.colortol.toNat s.ana.leafcolor [] _ (built_nil _)
  exact ⟨p, hp, exec_palBuild_ok hf hp, hb.refs, hb.groups, hb.represents,
    fun cs hcs => ⟨hb.one_le_length cs hcs, hb.length_le cs hcs⟩⟩

end Sys2Proof.Machine.PaletteCommands
end

section
/-! The palette table and the emission pass as commands (43_encoder.md R171, R173): whether WBUF has room
decides between what a body answers and WbufFull (40_bitio.md R130). The theorems that settle their
statements have the names of the model's functions, hence a namespace of their own. -/

namespace Sys2Proof.Machine

/-! ## Room -/

section
variable {α : Type} {x : Except Raise α} {s : State} {bits : List Bool} {P : Prop}

theorem outcome_of_room (hroom : roomFor s bits.length = true)
    (h : P ∨ ∃ k, x = .error ⟨.wbufFull, k, 0⟩ ∧ Filled s.wbufCap s.wr bits k) : P := by
  rcases h with hP | ⟨k, -, hfilled⟩
  · exact hP
  · rw [hfilled.no_room] at hroom
    cases hroom

theorem outcome_of_no_room {c : Nat} (hcap : s.wbufCap = some c) (hlen : s.wr.wbuf.length ≤ c)
    (hroom : roomFor s bits.length = false) (hP : P → ∃ w, Wrote s.wbufCap s.wr bits w)
    (h : P ∨ ∃ k, x = .error ⟨.wbufFull, k, 0⟩ ∧ Filled s.wbufCap s.wr bits k) :
    x = .error ⟨.wbufFull, c, 0⟩ := by
  rcases h with h | ⟨k, hx, hfilled⟩
  · obtain ⟨w, hwrote⟩ := hP h
    rw [hwrote.room fun c' hc' => by cases hcap.symm.trans hc'; exact hlen] at hroom
    cases hroom
  · rw [hx, hfilled.atCap c hcap hlen]

end

/-! ## ENC_PALTAB -/

section
variable {s : State}

theorem exec_encPaltab_ok {w : Writer} (hf : Running s)
    (h : putPaltab s.pal.palettes s.wbufCap s.wr = .ok w) : exec .encPaltab s = .next (s.withWr w) :=
  writerCommand_ok (f := fun s => putPaltab s.pal.palettes) (exec_encPaltab s) hf rfl h

theorem faults_encPaltab {r : Raise} (hf : Running s)
    (h : putPaltab s.pal.palettes s.wbufCap s.wr = .error r) :
    Faults .encPaltab s (causeCode r.cause) r.info0 r.info1 :=
  faults_of frees_writer (exec_encPaltab s) hf rfl rfl (onWriter_error _ s r h)

theorem putPaltab_count {ps : List (List Color)} (cap : Option Nat) (w : Writer)
    (h : 65535 < ps.length) :
    putPaltab ps cap w = .error ⟨.palCountOverflow, ps.length, 0⟩ :=
  if_pos h

theorem length_tableStart (ps : List (List Color)) (p : Nat) :
    (natToBits 16 ps.length ++ palettesWire (ps.take p)).length =
      16 + (palettesWire (ps.take p)).length := by
  rw [List.length_append, natToBits_length]

end

/-! ## ENC_TREE -/

section
variable {s : State}

theorem exec_encTree_ok {t : State} (hf : Running s) (hc : cfgOK s = true) (h : encTree s = .ok t) :
    exec .encTree s = .next t :=
  (exec_encTree s).trans (runCommand_ok _ _ _ _ s t hf hc rfl h)

theorem faults_encTree {r : Raise} (hf : Running s) (hc : cfgOK s = true) (h : encTree s = .error r) :
    Faults .encTree s (causeCode r.cause) r.info0 r.info1 :=
  faults_of frees_encTree (exec_encTree s) hf hc rfl h

theorem EmitFails.code_mem {bits : List Bool} {code : Byte} {info0 info1 : Nat}
    (h : EmitFails s bits code info0 info1) :
    code = 0x31 ∨ code = 0x32 ∨ code = 0x33 ∨ code = 0x34 := by
  cases h with
  | node _ _ _ h =>
    cases h with
    | noPattern => exact .inr (.inl rfl)
    | noRef => exact .inr (.inr (.inl rfl))
    | geometry => exact .inl rfl
  | leftover => exact .inr (.inr (.inr rfl))

/-- A disagreement is raised where there is room for the tokens before it. -/
theorem faults_encTree_of_emitFails {bits : List Bool} {code : Byte} {info0 info1 : Nat}
    (hf : Running s) (hc : cfgOK s = true) (hw : writerOK s.wr = true)
    (h : EmitFails s bits code info0 info1) (hroom : roomFor s bits.length = true) :
    Faults .encTree s code info0 info1 := by
  obtain ⟨_, _, rfl, he, -⟩ :=
    outcome_of_room hroom (encTree_of_fails s bits code info0 info1 hc hw h)
  exact faults_encTree hf hc he

theorem faults_encTree_full_of_emitFails {bits : List Bool} {code : Byte} {info0 info1 c : Nat}
    (hf : Running s) (hc : cfgOK s = true) (hw : writerOK s.wr = true)
    (h : EmitFails s bits code info0 info1) (hcap : s.wbufCap = some c)
    (hlen : s.wr.wbuf.length ≤ c) (hroom : roomFor s bits.length = false) :
    Faults .encTree s 0x24 c 0 :=
  faults_encTree hf hc (outcome_of_no_room hcap hlen hroom
    (fun ⟨_, w, _, _, hwrote⟩ => ⟨w, hwrote⟩) (encTree_of_fails s bits code info0 info1 hc hw h))

/-- A disagreement at the root of the first stripe is raised whatever the writer, as no token has been
written before it. -/
theorem faults_encTree_first {code : Byte} {info0 info1 : Nat} (hf : Running s) (hc : cfgOK s = true)
    (h : EmitError 0 0 0 (stripeRoot s 0) s.ana.pattern s.pal.leafref code info0 info1) :
    Faults .encTree s code info0 info1 := by
  have hn : 1 ≤ s.cfg.nstripe.toNat := (cfgOK_spec s hc).2.2.1
  obtain ⟨n, hn⟩ : ∃ n, s.cfg.nstripe.toNat = n + 1 := ⟨s.cfg.nstripe.toNat - 1, by omega⟩
  obtain ⟨cause, rfl, hvisit⟩ :=
    encVisit_of_emitError 0 (stripeRoot s 0) (s.withEnc ⟨0, 0⟩) code info0 info1 h
  have hfail : FailedStripes encVisit s.cfg.nstripe.toNat 0 (s.withEnc ⟨0, 0⟩)
      ⟨cause, info0, info1⟩ := hn ▸ .here (.here hvisit)
  have hwalk := walk_error encVisit_blind (s.withEnc ⟨0, 0⟩) _
    ((tidy_withEnc s ⟨0, 0⟩).keeps_cfgOK hc) hfail
  exact faults_encTree hf hc (by rw [encTree_eq, hwalk, error_bind])

/-- The first stripe begins at row 0, so that a geometry fault at its root has information (0, 0). -/
theorem emitError_of_pixel_root {pat : List Bool} {refs : List Byte} (hc : cfgOK s = true)
    (hw : s.cfg.imgW = 1) (hh : (stripeAt s 0).h = 1) :
    EmitError 0 0 0 (stripeRoot s 0) (false :: pat) refs 0x31 0 0 := by
  obtain ⟨-, -, -, hy, -⟩ := (cfgOK_iff s).mp hc
  have hroot : stripeRoot s 0 = ⟨0, 0, 1, 1⟩ := by
    rw [stripeRoot, hy, hw, hh]
    rfl
  rw [hroot]
  exact .geometry (by decide)

end

end Sys2Proof.Machine

namespace Sys2Proof.Machine.EncoderCommands

/-- Settles O42: the table is written whole, or its count, or the first palette that is too large, or
the capacity stops it. -/
theorem encPaltab : Obligations.EncPaltab := by
  intro s hf hw
  refine ⟨fun hfits hroom => ?_, fun hcount => faults_encPaltab hf (putPaltab_count _ _ hcount),
    fun p cs hcount hp hsize hfirst => ?_, fun c hfits hcap hlen hroom =>
      faults_encPaltab hf ((emits_putPaltab _ hfits).full s hw c hcap hlen hroom)⟩
  · obtain ⟨w, hput, hwrote⟩ := (emits_putPaltab _ hfits).ok s hw hroom
    exact ⟨w, exec_encPaltab_ok hf hput, hwrote.ok, hwrote.bits⟩
  · have hcases := putPaltab_tooBig s.wbufCap _ p cs s.wr hw hcount hp hsize hfirst
    rw [← length_tableStart]
    exact ⟨fun hroom => faults_encPaltab hf (outcome_of_room hroom hcases).1,
      fun c hcap hlen hroom =>
        faults_encPaltab hf (outcome_of_no_room hcap hlen hroom And.right hcases)⟩

/-- Settles O43: the emission pass over the trees, with and without room. -/
theorem encTree : Obligations.EncTree := by
  intro s ts hf hc hw hfit hpat hrefs
  have hcases := encTree_of_forest s ts hc hw hfit hpat hrefs
  refine ⟨fun hroom => ?_, fun c hcap hlen hroom => faults_encTree hf hc
    (outcome_of_no_room hcap hlen hroom (fun ⟨w, _, hwrote⟩ => ⟨w, hwrote⟩) hcases)⟩
  obtain ⟨w, he, hwrote⟩ := outcome_of_room hroom hcases
  exact ⟨w, exec_encTree_ok hf hc he, hwrote.ok, hwrote.bits⟩

/-- Settles O44: a disagreement is raised or preceded by WbufFull; there are trees or a disagreement;
the three that stand at the first node need no room; what is left over is the fourth. -/
theorem encTreeFaults : Obligations.EncTreeFaults := fun s hf hc hw =>
  ⟨fun _ _ _ _ h => ⟨h.code_mem, faults_encTree_of_emitFails hf hc hw h,
      fun _ hcap hlen hroom => faults_encTree_full_of_emitFails hf hc hw h hcap hlen hroom⟩,
    forest_or_emitFails s hc,
    fun hpat => faults_encTree_first hf hc (by rw [hpat]; exact .noPattern),
    fun _ hpat hrefs => faults_encTree_first hf hc (by rw [hpat, hrefs]; exact .noRef),
    fun _ hpat himg hh => faults_encTree_first hf hc
      (by rw [hpat]; exact emitError_of_pixel_root hc himg hh),
    fun _ _ _ hfit hpat hrefs hleft hroom =>
      faults_encTree_of_emitFails hf hc hw (.leftover hfit hpat hrefs hleft) hroom⟩

end Sys2Proof.Machine.EncoderCommands
end

section
/-! What a walk and the emission pass do not look at (43_encoder.md R173, 70_reset_and_hazards.md R246): a
change of the state that leaves alone all that they read, and that their writes leave alone, can be
made before them or after them. -/

namespace Sys2Proof.Machine

/-! ## Walks -/

/-- The change leaves alone what a walk itself reads and commutes with what it writes. -/
structure WalkIgnores (f : State → State) : Prop where
  wstk : ∀ s, (f s).wstk = s.wstk
  withStack : ∀ s k, f (s.withStack k) = (f s).withStack k
  root : ∀ s i, stripeRoot (f s) i = stripeRoot s i
  nstripe : ∀ s, (f s).cfg.nstripe = s.cfg.nstripe

section
variable {f : State → State}

theorem WalkIgnores.pushKids (hf : WalkIgnores f) (v : Visited) :
    pushKids (v.map f id) = f (pushKids v) := by
  obtain ⟨s, _ | ⟨a, b⟩⟩ := v
  · rfl
  · change (f s).withStack (a :: b :: (f s).wstk) = f (s.withStack (a :: b :: s.wstk))
    rw [hf.wstk, hf.withStack]

theorem WalkIgnores.walkLoop (hf : WalkIgnores f) {visit : Region → State → Except Raise Visited}
    (hv : ∀ r s, visit r (f s) = (visit r s).map (Prod.map f id)) (n : Nat) (s : State) :
    walkLoop visit n (f s) = (walkLoop visit n s).map f := by
  induction n generalizing s with
  | zero => rfl
  | succ n ih =>
    simp only [Machine.walkLoop, hf.wstk]
    cases s.wstk with
    | nil => rfl
    | cons r rest =>
      simp only [← hf.withStack, hv]
      cases visit r (s.withStack rest) with
      | error e => rfl
      | ok v => exact (congrArg _ (hf.pushKids v)).trans (ih _)

theorem WalkIgnores.walkStripes (hf : WalkIgnores f)
    {visit : Nat → Region → State → Except Raise Visited}
    (hv : ∀ i r s, visit i r (f s) = (visit i r s).map (Prod.map f id)) (n i : Nat) (s : State) :
    walkStripes visit n i (f s) = (walkStripes visit n i s).map f := by
  induction n generalizing i s with
  | zero => rfl
  | succ n ih =>
    simp only [Machine.walkStripes, hf.root, ← hf.withStack, hf.walkLoop (hv i)]
    cases Machine.walkLoop (visit i) (visitBound (stripeRoot s i)) (s.withStack [stripeRoot s i]) with
    | error e => rfl
    | ok t => exact ih (i + 1) t

theorem WalkIgnores.walk (hf : WalkIgnores f) {visit : Nat → Region → State → Except Raise Visited}
    (hv : ∀ i r s, visit i r (f s) = (visit i r s).map (Prod.map f id)) (s : State) :
    walk visit (f s) = (walk visit s).map f := by
  rw [Machine.walk, hf.nstripe, hf.walkStripes hv]
  rfl

end

/-! ## The emission pass -/

/-- The change leaves alone what a writing body reads and commutes with what it writes. -/
structure WriterIgnores (f : State → State) : Prop where
  wr : ∀ s, (f s).wr = s.wr
  wbufCap : ∀ s, (f s).wbufCap = s.wbufCap
  withWr : ∀ s w, f (s.withWr w) = (f s).withWr w

/-- The change leaves alone what the emission pass reads and commutes with what it writes. -/
structure EmissionIgnores (f : State → State) : Prop extends WalkIgnores f, WriterIgnores f where
  pattern : ∀ s, (f s).ana.pattern = s.ana.pattern
  leafref : ∀ s, (f s).pal.leafref = s.pal.leafref
  enc : ∀ s, (f s).enc = s.enc
  withEnc : ∀ s c, f (s.withEnc c) = (f s).withEnc c

section
variable {f : State → State}

theorem WriterIgnores.onWriter (hf : WriterIgnores f)
    (g : Option Nat → Writer → Except Raise Writer) (s : State) :
    onWriter g (f s) = (onWriter g s).map f := by
  simp only [Machine.onWriter, hf.wr, hf.wbufCap]
  cases g s.wbufCap s.wr with
  | error e => rfl
  | ok w => exact congrArg Except.ok (hf.withWr s w).symm

/-- A visit's answer after a writing body. -/
theorem visited_map (f : State → State) (x : Except Raise State) (o : Option (Region × Region)) :
    (x.map f >>= fun t => pure (t, o)) = (x >>= fun t => pure (t, o)).map (Prod.map f id) := by
  cases x <;> rfl

theorem EmissionIgnores.encLeaf (hf : EmissionIgnores f) (i : Nat) (s : State) :
    encLeaf i (f s) = (encLeaf i s).map (Prod.map f id) := by
  simp only [Machine.encLeaf, hf.leafref, hf.enc, ← hf.withEnc, hf.onWriter]
  cases s.pal.leafref[s.enc.refcur]? with
  | none => rfl
  | some idx => exact visited_map f _ none

theorem EmissionIgnores.encInternal (hf : EmissionIgnores f) (r : Region) (s : State) :
    encInternal r (f s) = (encInternal r s).map (Prod.map f id) := by
  simp only [Machine.encInternal, hf.enc, hf.onWriter]
  cases children r (splitGeom r.w r.h) with
  | none => rfl
  | some kids => exact visited_map f _ (some kids)

theorem EmissionIgnores.encVisit (hf : EmissionIgnores f) (i : Nat) (r : Region) (s : State) :
    encVisit i r (f s) = (encVisit i r s).map (Prod.map f id) := by
  simp only [Machine.encVisit, hf.pattern, hf.enc, ← hf.withEnc]
  cases s.ana.pattern[s.enc.patcur]? with
  | none => rfl
  | some isLeaf =>
    cases isLeaf
    · exact hf.encInternal r _
    · exact hf.encLeaf i _

theorem EmissionIgnores.encTree (hf : EmissionIgnores f) (s : State) :
    encTree (f s) = (encTree s).map f := by
  simp only [encTree_eq, ← hf.withEnc, hf.walk hf.encVisit]
  cases Machine.walk Machine.encVisit (s.withEnc ⟨0, 0⟩) with
  | error e => rfl
  | ok t =>
    simp only [Except.map, ok_bind, hf.enc, hf.pattern, hf.leafref]
    split <;> rfl

end

theorem emissionIgnores_withRes (q : Quad) : EmissionIgnores (·.withRes q) where
  wstk _ := rfl
  withStack _ _ := rfl
  root _ _ := rfl
  nstripe _ := rfl
  wr _ := rfl
  wbufCap _ := rfl
  withWr _ _ := rfl
  pattern _ := rfl
  leafref _ := rfl
  enc _ := rfl
  withEnc _ _ := rfl

section
variable (raster : Memory Color) (maxgrad colortol : Half) (leafcolor : List Color)
  (palettes : List (List Color))

theorem emissionIgnores_retouch :
    EmissionIgnores (retouch raster maxgrad colortol leafcolor palettes) where
  wstk _ := rfl
  withStack _ _ := rfl
  root _ _ := rfl
  nstripe _ := rfl
  wr _ := rfl
  wbufCap _ := rfl
  withWr _ _ := rfl
  pattern _ := rfl
  leafref _ := rfl
  enc _ := rfl
  withEnc _ _ := rfl

/-- A valid configuration is one of the image's sides and the stripe table (10_state.md R29). -/
theorem cfgOK_retouch (s : State) :
    cfgOK (retouch raster maxgrad colortol leafcolor palettes s) = cfgOK s :=
  Bool.eq_iff_iff.mpr ((cfgOK_iff _).trans (cfgOK_iff s).symm)

end

end Sys2Proof.Machine

namespace Sys2Proof.Machine.EncoderCommands

/-- Settles O45: the need of a valid configuration and the body are the same with other contents, so
that each of the command's answers has its counterpart. -/
theorem encTreeReadsNoPixels : Obligations.EncTreeReadsNoPixels := by
  intro raster maxgrad colortol leafcolor palettes s t ht
  have hcfg := cfgOK_retouch raster maxgrad colortol leafcolor palettes s
  have hbody := (emissionIgnores_retouch raster maxgrad colortol leafcolor palettes).encTree s
  rw [exec_encTree] at ht ⊢
  rcases runCommand_cases cfgOK noChecks Machine.encTree (freeWalk ∘ freeCursors ∘ freeWriter) s with
    ⟨hf, e⟩ | ⟨hf, hc, e⟩ | ⟨_, _, _, ho, _⟩ | ⟨u, hf, hc, _, hu, e⟩ | ⟨r, hf, hc, _, hr, e⟩
  · cases e.symm.trans ht
    exact ⟨_, runCommand_refused _ _ _ _ _ hf, rfl, fun _ => rfl⟩
  · cases e.symm.trans ht
    exact ⟨_, runCommand_badConfig _ _ _ _ _ hf (hcfg.trans hc), rfl, nofun⟩
  · cases ho
  · cases e.symm.trans ht
    rw [hu] at hbody
    exact ⟨_, runCommand_ok _ _ _ _ _ _ hf (hcfg.trans hc) rfl hbody, rfl, fun _ => rfl⟩
  · cases e.symm.trans ht
    rw [hr] at hbody
    exact ⟨_, runCommand_error _ _ _ _ _ _ hf (hcfg.trans hc) rfl hbody, rfl, nofun⟩

end Sys2Proof.Machine.EncoderCommands
end

section
/-! ENCODE (43_encoder.md R174): all its body can end in, and the six commands it is a sequence of
(70_reset_and_hazards.md R243). -/

namespace Sys2Proof.Machine

/-! ## The body -/

/-- What ENCODE leaves, but for its result register: the analysis, the palettes and references, the
payload as whole bytes, the cursors at the lengths. -/
def encoded (s : State) (p : List Bool) (c : List Color) (pal : Palettes) (bytes : List Byte) : State :=
  { s with
    ana := ⟨p, c⟩
    pal := pal
    wr := ⟨bytes, 0, 0⟩
    enc := ⟨p.length, pal.leafref.length⟩
    wstk := [] }

/-- All the body of ENCODE can end in, for this analysis and these palettes (43_encoder.md R174,
60_exceptions.md R218 to R220, R222). -/
inductive EncodeOutcome (s : State) (p : List Bool) (c : List Color) (pal : Palettes) :
    Except Raise State → Prop where
  | payload {ts : List WireTree} {bytes : List Byte} (hfits : tableFits pal.palettes = true)
      (hforest : forestFits s 0 ts = true) (hpat : forestPattern ts = p)
      (hrefs : forestRefs ts = pal.leafref)
      (hbytes : bytesToBits bytes = tableWire pal.palettes ++ forestWire ts ++
        List.replicate ((8 - (forestWire ts).length % 8) % 8) false) :
      EncodeOutcome s p c pal (.ok (encoded s p c pal bytes))
  | full {k : Nat} (hcap : s.wbufCap = some k) : EncodeOutcome s p c pal (.error ⟨.wbufFull, k, 0⟩)
  | count (hfits : tableFits pal.palettes = false) (hcount : 65535 < pal.palettes.length) :
      EncodeOutcome s p c pal (.error ⟨.palCountOverflow, pal.palettes.length, 0⟩)
  | size {q : Nat} {cs : List Color} (hfits : tableFits pal.palettes = false)
      (hcount : pal.palettes.length ≤ 65535) (hq : pal.palettes[q]? = some cs)
      (hsize : cs.length = 256)
      (hfirst : ∀ m ds, m < q → pal.palettes[m]? = some ds → ds.length ≤ 255) :
      EncodeOutcome s p c pal (.error ⟨.palSizeUnrepresentable, q, 256⟩)

section
variable {s : State} {p : List Bool} {c : List Color} {pal : Palettes}

theorem encodeMid_written (bytes : List Byte) :
    (((encodeMid s p c pal).withEnc ⟨p.length, pal.leafref.length⟩).withWr ⟨bytes, 0, 0⟩).withStack [] =
      encoded s p c pal bytes := by
  simp only [encodeMid, encoded, State.withAna, State.withStack, State.withPal, State.withWr,
    State.withEnc]

/-- The analysed pattern and the references are those of one tree per stripe, so that the emission pass
finds no inconsistency. -/
theorem encodeOutcome_of_fits (hrec : AnalyzedStripes s s.cfg.nstripe.toNat 0 p c)
    (hbuilt : Built s.cfg.colortol.toNat c pal) (hcfg : cfgOK (encodeMid s p c pal) = true)
    (hfits : tableFits pal.palettes = true) :
    EncodeOutcome s p c pal (emitAll (encodeMid s p c pal)) := by
  obtain ⟨ts, hforest, hpat, hrefs, -⟩ := hrec.forest (Nat.zero_add _) pal.leafref hbuilt.refs
  have hforest' : forestFits (encodeMid s p c pal) 0 ts = true :=
    (forestFits_congr s (encodeMid s p c pal) rfl rfl rfl 0 ts).trans hforest
  rcases emitAll_fits _ ts hcfg rfl hfits hforest' hpat.symm hrefs.symm with
    ⟨_, _, bytes, -, -, -, hbytes, he⟩ | ⟨k, hcap, he⟩ <;> rw [he]
  · exact encodeMid_written bytes ▸ .payload hfits hforest hpat hrefs hbytes
  · exact .full hcap

theorem emitAll_of_table_error {r : Raise}
    (h : putPaltab pal.palettes s.wbufCap emptyWriter = .error r) :
    emitAll (encodeMid s p c pal) = .error r := by
  have htab : encPaltab (encodeMid s p c pal) = .error r := onWriter_error _ _ r h
  rw [emitAll, htab, error_bind]

/-- A palette that a push builds has at most 256 entries, so that one the table cannot carry has 256. -/
theorem encodeOutcome_of_unfit (hbuilt : Built s.cfg.colortol.toNat c pal)
    (hfits : tableFits pal.palettes = false) :
    EncodeOutcome s p c pal (emitAll (encodeMid s p c pal)) := by
  rcases putPaltab_unfit pal.palettes s.wbufCap hfits with ⟨hcount, he⟩ |
    ⟨hcount, q, cs, hq, hlong, hfirst, he⟩ | ⟨k, hcap, he⟩ <;>
    rw [emitAll_of_table_error he]
  · exact .count hfits hcount
  · have hle : cs.length ≤ 256 := hbuilt.length_le cs (List.mem_of_getElem? hq)
    have hsize : cs.length = 256 := by omega
    rw [hsize]
    exact .size hfits hcount hq hsize hfirst
  · exact .full hcap

end

theorem encodeBody_outcome {s : State} (hc : cfgOK s = true) :
    ∃ p c pal, AnalyzedStripes s s.cfg.nstripe.toNat 0 p c ∧
      palPushAll s.cfg.colortol.toNat c ⟨[], []⟩ = .ok pal ∧
      EncodeOutcome s p c pal (encodeBody Config.luma s) := by
  obtain ⟨p, c, pal, hrec, hpush, hbuilt, -, -, hcfg, he⟩ := encodeBody_mid s hc
  refine ⟨p, c, pal, hrec, hpush, ?_⟩
  rw [he]
  cases hfits : tableFits pal.palettes
  · exact encodeOutcome_of_unfit hbuilt hfits
  · exact encodeOutcome_of_fits hrec hbuilt hcfg hfits

/-! ## The command -/

section
variable {s : State}

theorem exec_encode_ok {t : State} (hf : Running s) (hc : cfgOK s = true)
    (h : encodeBody Config.luma s = .ok t) :
    exec .encode s = .next (setRes0 t t.wr.wbuf.length) :=
  (exec_encode s).trans (runCommand_ok _ _ _ _ s _ hf hc rfl (by rw [h]; rfl))

theorem faults_encode {r : Raise} (hf : Running s) (hc : cfgOK s = true)
    (h : encodeBody Config.luma s = .error r) :
    Faults .encode s (causeCode r.cause) r.info0 r.info1 :=
  faults_of frees_encode (exec_encode s) hf hc rfl (by rw [h]; rfl)

/-- Where ENCODE ends without fault, its configuration was valid and its body succeeded. -/
theorem encodeBody_ok_of_exec {t : State} (hf : Running s) (h : exec .encode s = .next t)
    (ht : Running t) :
    cfgOK s = true ∧ ∃ u, encodeBody Config.luma s = .ok u ∧ t = setRes0 u u.wr.wbuf.length := by
  cases hc : cfgOK s
  · rw [exec_without_cfg hf (.inr (.inr (.inl rfl))) hc] at h
    cases h
    cases ht
  · refine ⟨rfl, ?_⟩
    cases hb : encodeBody Config.luma s with
    | ok u =>
      rw [exec_encode_ok hf hc hb] at h
      cases h
      exact ⟨u, rfl, rfl⟩
    | error r =>
      obtain ⟨t', he, hfault, -⟩ := faults_encode hf hc hb
      cases h.symm.trans he
      rw [Running, hfault] at ht
      cases ht

end

/-! ## The sequence -/

theorem Tidy.running {s t : State} (h : Tidy s t) (hf : Running s) : Running t :=
  (congrArg (·.fault.flag) h.host).trans hf

/-- ANALYZE, PAL_BUILD and BW_INIT come to the state in which ENCODE starts to write, but for RES. -/
theorem exec_to_encodeMid {s : State} {p : List Bool} {c : List Color} {pal : Palettes}
    (hf : Running s) (hc : cfgOK s = true)
    (hana : analyze Config.luma s = .ok ((s.withAna ⟨p, c⟩).withStack []))
    (hpush : palPushAll s.cfg.colortol.toNat c ⟨[], []⟩ = .ok pal) :
    ∃ s1 s2 q, exec .analyze s = .next s1 ∧ exec .palBuild s1 = .next s2 ∧
      exec .bwInit s2 = .next ((encodeMid s p c pal).withRes q) :=
  ⟨_, _, _, exec_analyze_ok hf hc hana, exec_palBuild_ok hf hpush,
    (exec_bwInit _).trans (runCommand_ok _ _ _ _ _ _ hf rfl rfl rfl)⟩

section
variable {s t : State}

/-! The results that ANALYZE and PAL_BUILD leave do not matter to the commands after them. -/

theorem exec_encPaltab_withRes (q : Quad) (hf : Running s) (h : encPaltab s = .ok t) :
    exec .encPaltab (s.withRes q) = .next (t.withRes q) := by
  have hbody : encPaltab (s.withRes q) = (encPaltab s).map (·.withRes q) :=
    (emissionIgnores_withRes q).onWriter (putPaltab s.pal.palettes) s
  rw [h] at hbody
  exact (exec_encPaltab _).trans (runCommand_ok _ _ _ _ _ _ hf rfl rfl hbody)

theorem exec_encTree_withRes (q : Quad) (hf : Running s) (hc : cfgOK s = true)
    (h : encTree s = .ok t) : exec .encTree (s.withRes q) = .next (t.withRes q) := by
  have hbody := (emissionIgnores_withRes q).encTree s
  rw [h] at hbody
  exact exec_encTree_ok hf ((tidy_withRes s q).keeps_cfgOK hc) hbody

theorem exec_bwFlush_withRes (q : Quad) (hf : Running s) (h : onWriter flush s = .ok t) :
    exec .bwFlush (s.withRes q) = .next (t.withRes q) := by
  have hbody := (emissionIgnores_withRes q).onWriter flush s
  rw [h] at hbody
  exact (exec_bwFlush _).trans (runCommand_ok _ _ _ _ _ _ hf rfl rfl hbody)

end

end Sys2Proof.Machine

namespace Sys2Proof.Machine.EncoderCommands

/-- Settles O46: with WBUF unbounded the body ends in the payload, or in a count or a size that the
table cannot carry. -/
theorem encodeCommand : Obligations.EncodeCommand := by
  intro s hf hc hcap
  obtain ⟨p, c, pal, hrec, hpush, hout⟩ := encodeBody_outcome hc
  refine ⟨p, c, pal, hrec, hpush, ?_⟩
  generalize hb : encodeBody Config.luma s = x at hout
  cases hout with
  | @payload ts bytes hfits hforest hpat hrefs hbytes =>
    rw [if_pos hfits]
    exact ⟨ts, bytes, hforest, hpat, hrefs, hbytes, exec_encode_ok hf hc hb⟩
  | full hfull => cases hcap.symm.trans hfull
  | count hfits hcount =>
    rw [if_neg (Bool.eq_false_iff.mp hfits), if_pos hcount]
    exact faults_encode hf hc hb
  | @size q cs hfits hcount hq hsize hfirst =>
    rw [if_neg (Bool.eq_false_iff.mp hfits), if_neg (Nat.not_lt.mpr hcount)]
    exact ⟨q, cs, hq, hsize, hfirst, faults_encode hf hc hb⟩

/-- Settles O47: the body's outcomes are those named, whatever the capacity. -/
theorem encodeNeverInconsistent : Obligations.EncodeNeverInconsistent := by
  intro s t hf hc ht
  obtain ⟨p, c, pal, hrec, hpush, hout⟩ := encodeBody_outcome hc
  generalize hb : encodeBody Config.luma s = x at hout
  cases hout with
  | payload =>
    rw [exec_encode_ok hf hc hb] at ht
    cases ht
    exact .inl rfl
  | @full k hcap => exact .inr (.inl ⟨k, hcap, faults_encode hf hc hb⟩)
  | count _ hcount =>
    exact .inr (.inr ⟨p, c, pal, hrec, hpush, .inl ⟨hcount, faults_encode hf hc hb⟩⟩)
  | @size q cs _ hcount hq hsize hfirst =>
    exact .inr (.inr ⟨p, c, pal, hrec, hpush,
      .inr ⟨q, cs, hcount, hq, hsize, hfirst, faults_encode hf hc hb⟩⟩)

/-- Settles O48: the six commands run the parts of ENCODE's body one by one, with the result registers
as PAL_BUILD leaves them. -/
theorem encodeIsTheSequence : Obligations.EncodeIsTheSequence := by
  intro s t hf ht hrun
  obtain ⟨hc, u, hbody, rfl⟩ := encodeBody_ok_of_exec hf ht hrun
  obtain ⟨p, c, pal, -, hpush, -, hana, -, hcfg, he⟩ := encodeBody_mid s hc
  obtain ⟨s1, s2, q, hanalyze, hbuild, hinit⟩ := exec_to_encodeMid hf hc hana hpush
  obtain ⟨a, htab, hrest⟩ := bind_eq_ok _ _ _ (he.symm.trans hbody)
  obtain ⟨b, htree, hflush⟩ := bind_eq_ok _ _ _ hrest
  have tidyA : Tidy (encodeMid s p c pal) a := tidy_encPaltab htab
  have hcfgA : cfgOK a = true := tidyA.keeps_cfgOK hcfg
  have hfA : Running a := tidyA.running hf
  have hfB : Running b := (tidy_encTree hcfgA htree).running hfA
  exact ⟨s1, s2, _, a.withRes q, b.withRes q, u.withRes q, hanalyze, hbuild, hinit,
    exec_encPaltab_withRes q hf htab, exec_encTree_withRes q hfA hcfgA htree,
    exec_bwFlush_withRes q hfB hflush, rfl⟩

end Sys2Proof.Machine.EncoderCommands
end

section
/-! The rows of the wire format as instructions (44_decoder.md R186, R187): a token at the region on top
of the walk stack, and the fields of the palette table where they are due. -/

namespace Sys2Proof.Machine

/-! ## Tokens -/

section
variable {s : State} {t : Token} {i : Nat} {r : Region} {rest : List Region}

theorem exec_tokenInstr (t : Token) (s : State) : exec (tokenInstr t) s = tokenOutcome t s := by
  cases t <;> rfl

theorem exec_token_ok {v : Visited} (hf : Running s) (hd : s.due = .node i) (hk : s.wstk = r :: rest)
    (h : tokenEffect t r (s.withStack rest) = .ok v) : exec (tokenInstr t) s = .next (pushKids v) := by
  have hflag : s.fault.flag = false := hf
  simp [exec_tokenInstr, tokenOutcome, hflag, hd, hk, h]

theorem exec_token_error {e : Raise} (hf : Running s) (hd : s.due = .node i) (hk : s.wstk = r :: rest)
    (h : tokenEffect t r (s.withStack rest) = .error e) :
    exec (tokenInstr t) s = .next (bodyFault freeDecTree e s) := by
  have hflag : s.fault.flag = false := hf
  simp [exec_tokenInstr, tokenOutcome, hflag, hd, hk, h]

theorem exec_token_not_due (hd : ∀ i, s.due ≠ .node i) : exec (tokenInstr t) s = .next s := by
  rw [exec_tokenInstr, tokenOutcome]
  split
  · rfl
  · split
    · exact absurd ‹_› (hd _)
    · rfl

/-- A token is a part of DEC_TREE, so that its fault frees what DEC_TREE writes. -/
theorem faults_token {e : Raise} (hf : Running s) (hd : s.due = .node i) (hk : s.wstk = r :: rest)
    (h : tokenEffect t r (s.withStack rest) = .error e) :
    Faults (tokenInstr t) s (causeCode e.cause) e.info0 e.info1 := by
  have hfrees : Frees freeDecTree (writesOf (tokenInstr t)) := by cases t <;> exact frees_decTree
  exact faults_of_bodyFault hfrees (exec_token_error hf hd hk h)

end

section
variable {s : State} {r : Region} {idx : Byte} {cs : List Color}

theorem decLeaf_noPalette (h : s.pal.palettes.length ≤ s.dec.leaford / 256) :
    decLeaf idx r s = .error ⟨.paletteRange, s.dec.leaford, s.dec.leaford / 256⟩ := by
  have hp : s.pal.palettes[s.dec.leaford / Config.group]? = none := List.getElem?_eq_none h
  simp only [decLeaf, hp]
  rfl

theorem decLeaf_noEntry (hp : s.pal.palettes[s.dec.leaford / 256]? = some cs)
    (h : cs.length ≤ idx.toNat) :
    decLeaf idx r s = .error ⟨.indexRange, s.dec.leaford, idx.toNat⟩ := by
  have hp' : s.pal.palettes[s.dec.leaford / Config.group]? = some cs := hp
  simp only [decLeaf, hp', if_pos h]

theorem decLeaf_paints (hp : s.pal.palettes[s.dec.leaford / 256]? = some cs)
    (h : idx.toNat < cs.length) :
    decLeaf idx r s = .ok (s.withDec ⟨s.dec.jobq ++
      [⟨r.x, r.y, r.w, r.h, jobPal (s.dec.leaford / 256), idx⟩], s.dec.leaford + 1⟩, none) := by
  have hp' : s.pal.palettes[s.dec.leaford / Config.group]? = some cs := hp
  simp only [decLeaf, hp', if_neg (Nat.not_le.mpr h)]
  rfl

theorem decInternal_splits {kids : Region × Region}
    (h : children r (splitGeom r.w r.h) = some kids) : decInternal r s = .ok (s, some kids) := by
  simp only [decInternal, h]

theorem decInternal_undivided (h : splitGeom r.w r.h = .undivided) :
    decInternal r s = .error ⟨.unsplittable, s.rd.rpos - 1, r.x * 65536 + r.y⟩ := by
  simp only [decInternal, splitGeom_undivided r h]

end

/-- Settles O57: a token that is due is its effect at the region on top of the stack, and each effect is
one of five. -/
theorem wireTokens : Obligations.WireTokens :=
  ⟨fun _ _ _ _ idx hf hd hk =>
    ⟨fun h => faults_token (t := .leaf idx) hf hd hk (decLeaf_noPalette h),
      fun _ hp h => faults_token (t := .leaf idx) hf hd hk (decLeaf_noEntry hp h),
      fun _ hp h => exec_token_ok (t := .leaf idx) hf hd hk (decLeaf_paints hp h),
      fun _ _ h => exec_token_ok (t := .internal) hf hd hk (decInternal_splits h),
      fun h => faults_token (t := .internal) hf hd hk (decInternal_undivided h)⟩,
    fun _ idx hd => ⟨exec_token_not_due (t := .leaf idx) hd, exec_token_not_due (t := .internal) hd⟩⟩

/-! ## Fields of the palette table -/

section
variable {s : State}

theorem exec_palCount_due (p : Half) (hf : Running s) (hd : s.due = .count) :
    exec (.palCount p) s = .next ((clearPalettes s).withDue (dueSize p.toNat)) := by
  have hflag : s.fault.flag = false := hf
  simp [exec, execPalCount, hflag, hd]

theorem exec_palSize_zero {left : Nat} (hf : Running s) (hd : s.due = .size left) :
    exec (.palSize 0) s = .next (closePalette [] (left - 1) s) := by
  have hflag : s.fault.flag = false := hf
  simp [exec, execPalSize, hflag, hd]

theorem exec_palSize_pos {left : Nat} {n : Byte} (hf : Running s) (hd : s.due = .size left)
    (hn : n ≠ 0) : exec (.palSize n) s = .next (s.withDue (.entry (left - 1) n.toNat [])) := by
  have hflag : s.fault.flag = false := hf
  have hn' : n.toNat ≠ 0 := fun h => hn (BitVec.eq_of_toNat_eq h)
  simp [exec, execPalSize, hflag, hd, hn']

theorem exec_palEntry_more {left ents : Nat} {done : List Color} {r g b : Byte} (hf : Running s)
    (hd : s.due = .entry left ents done) (h : 1 < ents) :
    exec (.palEntry r g b) s =
      .next (s.withDue (.entry left (ents - 1) (done ++ [⟨r, g, b⟩]))) := by
  have hflag : s.fault.flag = false := hf
  simp [exec, execPalEntry, hflag, hd, Nat.not_le.mpr h]

theorem exec_palEntry_last {left ents : Nat} {done : List Color} {r g b : Byte} (hf : Running s)
    (hd : s.due = .entry left ents done) (h : ents ≤ 1) :
    exec (.palEntry r g b) s = .next (closePalette (done ++ [⟨r, g, b⟩]) left s) := by
  have hflag : s.fault.flag = false := hf
  simp [exec, execPalEntry, hflag, hd, h]

theorem exec_tableField_idle (hd : s.due = .none) (p : Half) (n r g b : Byte) :
    exec (.palCount p) s = .next s ∧ exec (.palSize n) s = .next s ∧
      exec (.palEntry r g b) s = .next s := by
  simp [exec, execPalCount, execPalSize, execPalEntry, hd]

theorem dueSize_toNat (p : Half) : dueSize p.toNat = if p = 0 then .none else .size p.toNat := by
  have h : p.toNat = 0 ↔ p = 0 := ⟨fun h => BitVec.eq_of_toNat_eq h, fun h => h ▸ rfl⟩
  simp only [dueSize, h]

end

/-- Settles O58: the fields one by one, and the tag of the header. -/
theorem wireFields : Obligations.WireFields := by
  refine ⟨fun s p hf hd => ?_, fun s left n hf hd => ⟨exec_palSize_pos hf hd, ?_⟩,
    fun s left ents done r g b hf hd => ⟨exec_palEntry_more hf hd, exec_palEntry_last hf hd⟩,
    fun s p n r g b hd => exec_tableField_idle hd p n r g b, fun _ _ => rfl,
    fun s magic w h q => ⟨fun hm => if_pos hm, fun hm => if_neg hm⟩⟩
  · rw [exec_palCount_due p hf hd, dueSize_toNat]
    rfl
  · rintro rfl
    exact exec_palSize_zero hf hd

end Sys2Proof.Machine
end

section
/-! DEC_PALTAB and DEC_TREE as commands (44_decoder.md R186 to R188): every stream is one that the body
reads or one that it stops in, and the command answers accordingly. -/

namespace Sys2Proof.Machine

/-! ## DEC_PALTAB -/

section
variable {s : State}

theorem exec_decPaltab_ok {t : State} (hf : Running s) (h : decPaltab s = .ok t) :
    exec .decPaltab s = .next (setRes0 t t.pal.palettes.length) :=
  (exec_decPaltab s).trans (runCommand_ok _ _ _ _ s _ hf rfl rfl (by rw [h]; rfl))

theorem faults_decPaltab {r : Raise} (hf : Running s) (h : decPaltab s = .error r) :
    Faults .decPaltab s (causeCode r.cause) r.info0 r.info1 :=
  faults_of frees_decPaltab (exec_decPaltab s) hf rfl rfl (by rw [h]; rfl)

theorem faults_decPaltab_of_cut {info0 info1 : Nat} (hf : Running s)
    (h : TableCut s.rd.rpos (unreadBits s) info0 info1) : Faults .decPaltab s 0x11 info0 info1 :=
  faults_decPaltab hf (decPaltab_of_cut s info0 info1 h)

end

theorem length_palettesWire (ps : List (List Color)) (h : ∀ cs ∈ ps, cs.length ≤ 255) :
    (palettesWire ps).length = (ps.map fun cs => 8 + 24 * cs.length).sum := by
  induction ps with
  | nil => rfl
  | cons cs ps ih =>
    rw [palettesWire_cons, palSize_wire _ (h cs (by simp)), List.length_append, List.length_append,
      natToBits_length, colorsWire_length, ih fun ds hds => h ds (by simp [hds]), List.map_cons,
      List.sum_cons]

theorem tableFits_iff (ps : List (List Color)) :
    tableFits ps = true ↔ ps.length ≤ 65535 ∧ ∀ cs ∈ ps, cs.length ≤ 255 := by
  simp only [tableFits, Bool.and_eq_true, decide_eq_true_eq, List.all_eq_true]

theorem length_tableWire {ps : List (List Color)} (h : tableFits ps = true) :
    (tableWire ps).length = 16 + (ps.map fun cs => 8 + 24 * cs.length).sum := by
  rw [tableWire_eq ps h, List.length_append, natToBits_length,
    length_palettesWire ps ((tableFits_iff ps).mp h).2]

/-! ## DEC_TREE -/

section
variable {s : State}

theorem exec_decTree_ok {t : State} (hf : Running s) (hc : cfgOK s = true) (h : decTree s = .ok t) :
    exec .decTree s = .next (setRes0 t t.dec.jobq.length) :=
  (exec_decTree s).trans (runCommand_ok _ _ _ _ s _ hf hc rfl (by rw [h]; rfl))

theorem faults_decTree {r : Raise} (hf : Running s) (hc : cfgOK s = true)
    (h : decTree s = .error r) : Faults .decTree s (causeCode r.cause) r.info0 r.info1 :=
  faults_of frees_decTree (exec_decTree s) hf hc rfl (by rw [h]; rfl)

theorem ParseFails.code_mem {code : Byte} {info0 info1 : Nat} (h : ParseFails s code info0 info1) :
    code = 0x12 ∨ code = 0x13 ∨ code = 0x14 ∨ code = 0x15 := by
  obtain ⟨_, _, _, _, -, -, -, he⟩ := h
  cases he with
  | noBit | noIndex _ => exact .inl rfl
  | palette _ => exact .inr (.inl rfl)
  | index _ _ => exact .inr (.inr (.inl rfl))
  | split _ => exact .inr (.inr (.inr rfl))

theorem faults_decTree_of_parseFails {code : Byte} {info0 info1 : Nat} (hf : Running s)
    (hc : cfgOK s = true) (h : ParseFails s code info0 info1) : Faults .decTree s code info0 info1 := by
  obtain ⟨cause, rfl, he⟩ := decTree_of_fails s code info0 info1 hc h
  exact faults_decTree hf hc he

/-- The stream goes on with one tree per stripe, or with a token that cannot be taken. -/
theorem forest_or_parseFails (hc : cfgOK s = true) :
    (∃ ts rest, forestFits s 0 ts = true ∧ unreadBits s = forestWire ts ++ rest ∧
        refsInRange s.pal.palettes 0 (forestRefs ts) = true) ∨
      ∃ code info0 info1, ParseFails s code info0 info1 := by
  cases h : decTree s with
  | ok t => exact .inl (decTree_sound s t hc h)
  | error r => exact .inr ⟨_, _, _, fails_of_decTree s r hc h⟩

end

theorem jobPal_toNat {p : Nat} (h : p < 65536) : (jobPal p).toNat = p := by
  rw [jobPal, if_pos h, BitVec.toNat_ofNat, Nat.mod_eq_of_lt h]

/-- What DEC_TREE leaves after the tokens of these trees, but for its result register. -/
def treesRead (s : State) (ts : List WireTree) : State :=
  ((s.withDec ⟨jobsFrom 0 (forestRegions s 0 ts) (forestRefs ts), (forestRefs ts).length⟩).advance
    (forestWire ts).length).withStack []

theorem length_jobq_treesRead {s : State} {ts : List WireTree} (h : forestFits s 0 ts = true) :
    (treesRead s ts).dec.jobq.length = (forestRefs ts).length :=
  jobsFrom_length 0 _ _ (forestRegions_length s 0 ts h)

theorem exec_decTree_of_forest {s : State} {ts : List WireTree} {rest : List Bool} (hf : Running s)
    (hc : cfgOK s = true) (hfit : forestFits s 0 ts = true) (hu : unreadBits s = forestWire ts ++ rest)
    (hr : refsInRange s.pal.palettes 0 (forestRefs ts) = true) :
    exec .decTree s = .next (setRes0 (treesRead s ts) (forestRefs ts).length) :=
  length_jobq_treesRead hfit ▸ exec_decTree_ok hf hc (decTree_of_forest s ts rest hc hfit hu hr)

end Sys2Proof.Machine

namespace Sys2Proof.Machine.DecoderCommands

/-- Settles O49: the table is read whole, or the stream ends inside it. -/
theorem decPaltab : Obligations.DecPaltab := fun s hf =>
  ⟨fun ps rest hfits hu =>
    ⟨exec_decPaltab_ok hf (decPaltab_of_wire ps rest s hfits hu).1, length_tableWire hfits⟩,
    fun _ _ hcut => faults_decPaltab_of_cut hf hcut,
    table_or_cut s.rd.rpos (unreadBits s),
    fun hshort => faults_decPaltab_of_cut hf (.count hshort)⟩

/-- Settles O50: the walk over the stripes reads a forest's tokens into its leaves' jobs. -/
theorem decTree : Obligations.DecTree :=
  ⟨fun _ => jobPal_toNat, fun _ _ _ hf hc hfit hu hr =>
    ⟨exec_decTree_of_forest hf hc hfit hu hr, length_jobq_treesRead hfit⟩⟩

/-- Settles O51: a walk that stops has come to a token that it cannot take, and every other stream is
that of a forest. -/
theorem decTreeFaults : Obligations.DecTreeFaults := fun _ hf hc =>
  ⟨fun _ _ _ h => ⟨h.code_mem, faults_decTree_of_parseFails hf hc h⟩, forest_or_parseFails hc⟩

end Sys2Proof.Machine.DecoderCommands
end

section
/-! What the decoder does not look at (44_decoder.md R191): a change of the state that leaves alone all
that it reads, and that its writes leave alone, can be made before it or after it. -/

namespace Sys2Proof.Machine

/-- The change leaves alone what the reader reads and commutes with its moves. -/
structure ReaderIgnores (f : State → State) : Prop where
  rd : ∀ s, (f s).rd = s.rd
  bit : ∀ s k, streamBit (f s) k = streamBit s k
  withRd : ∀ s r, f (s.withRd r) = (f s).withRd r

/-- The change leaves alone what the decoder reads and commutes with what it writes. -/
structure DecoderIgnores (f : State → State) : Prop extends WalkIgnores f, ReaderIgnores f where
  palettes : ∀ s, (f s).pal.palettes = s.pal.palettes
  withPalettes : ∀ s ps,
    f (s.withPal { s.pal with palettes := ps }) = (f s).withPal { (f s).pal with palettes := ps }
  dec : ∀ s, (f s).dec = s.dec
  withDec : ∀ s d, f (s.withDec d) = (f s).withDec d

section
variable {f : State → State}

/-! ## The reader -/

theorem ReaderIgnores.unreadBits (hf : ReaderIgnores f) (s : State) :
    unreadBits (f s) = unreadBits s := by
  simp only [Machine.unreadBits, hf.rd, hf.bit]

theorem ReaderIgnores.advance (hf : ReaderIgnores f) (s : State) (n : Nat) :
    f (s.advance n) = (f s).advance n := by
  simp only [State.advance, hf.withRd, hf.rd]

theorem ReaderIgnores.getbit (hf : ReaderIgnores f) (s : State) :
    getbit (f s) = (getbit s).map (Prod.map id f) := by
  simp only [Machine.getbit, hf.rd, hf.bit, ← hf.withRd]
  split <;> rfl

theorem ReaderIgnores.getbitsLoop (hf : ReaderIgnores f) (n v : Nat) (s : State) :
    getbitsLoop n v (f s) = (getbitsLoop n v s).map (Prod.map id f) := by
  induction n generalizing v s with
  | zero => rfl
  | succ n ih =>
    simp only [Machine.getbitsLoop, hf.getbit]
    cases Machine.getbit s with
    | none => rfl
    | some b => exact ih _ b.2

theorem ReaderIgnores.getbits (hf : ReaderIgnores f) (n : Nat) (s : State) :
    getbits n (f s) = (getbits n s).map (Prod.map id f) := by
  simp only [Machine.getbits, hf.rd, hf.getbitsLoop]
  split <;> rfl

/-! ## The decoder -/

/-- The table is read off the unread bits alone. -/
theorem DecoderIgnores.decPaltab (hf : DecoderIgnores f) (s : State) :
    decPaltab (f s) = (decPaltab s).map f := by
  have hu := hf.unreadBits s
  rcases table_or_cut s.rd.rpos (Machine.unreadBits s) with ⟨ps, rest, hfits, hbits⟩ | ⟨_, _, hcut⟩
  · rw [(decPaltab_of_wire ps rest s hfits hbits).1,
      (decPaltab_of_wire ps rest (f s) hfits (hu.trans hbits)).1, Except.map, hf.advance,
      hf.withPalettes]
  · rw [decPaltab_of_cut s _ _ hcut, decPaltab_of_cut (f s) _ _ (by rw [hf.rd, hu]; exact hcut)]
    rfl

theorem DecoderIgnores.fetchToken (hf : DecoderIgnores f) (s : State) :
    fetchToken (f s) = (fetchToken s).map (Prod.map id f) := by
  simp only [Machine.fetchToken, hf.getbit, hf.rd, hf.dec]
  cases Machine.getbit s with
  | none => rfl
  | some b =>
    obtain ⟨_ | _, s1⟩ := b
    · rfl
    · simp only [Option.map_some, Prod.map_apply, id_eq, if_true, hf.getbits, hf.rd, hf.dec]
      cases Machine.getbits 8 s1 <;> rfl

theorem DecoderIgnores.tokenEffect (hf : DecoderIgnores f) (t : Token) (r : Region) (s : State) :
    tokenEffect t r (f s) = (tokenEffect t r s).map (Prod.map f id) := by
  cases t with
  | leaf idx =>
    simp only [Machine.tokenEffect, decLeaf, hf.palettes, hf.dec, ← hf.withDec]
    cases s.pal.palettes[s.dec.leaford / Config.group]? with
    | none => rfl
    | some cs => dsimp only; split <;> rfl
  | internal =>
    simp only [Machine.tokenEffect, decInternal, hf.rd]
    cases children r (splitGeom r.w r.h) <;> rfl

theorem DecoderIgnores.decVisit (hf : DecoderIgnores f) (i : Nat) (r : Region) (s : State) :
    decVisit i r (f s) = (decVisit i r s).map (Prod.map f id) := by
  rw [decVisit_eq, decVisit_eq, hf.fetchToken]
  cases Machine.fetchToken s with
  | error e => rfl
  | ok v => exact hf.tokenEffect v.1 r v.2

theorem DecoderIgnores.decTree (hf : DecoderIgnores f) (s : State) :
    decTree (f s) = (decTree s).map f := by
  rw [Machine.decTree, ← hf.withDec]
  exact hf.walk hf.decVisit _

end

/-! ## Commands -/

/-- A command that the change does not concern answers the changed state, or the same fault. -/
theorem runCommand_of_map {f : State → State} {needs : State → Bool}
    {body : State → Except Raise State} {freed : State → State} {s t : State}
    (hfault : ∀ s, (f s).fault = s.fault) (hneeds : needs (f s) = needs s)
    (hbody : body (f s) = (body s).map f)
    (ht : runCommand needs noChecks body freed s = .next t) :
    ∃ u, runCommand needs noChecks body freed (f s) = .next u ∧ u.fault = t.fault ∧
      (Running t → u = f t) := by
  have hflag : (f s).fault.flag = s.fault.flag := congrArg _ (hfault s)
  rcases runCommand_cases needs noChecks body freed s with
    ⟨hf, e⟩ | ⟨hf, hn, e⟩ | ⟨_, _, _, ho, _⟩ | ⟨u, hf, hn, _, hu, e⟩ | ⟨r, hf, hn, _, hr, e⟩
  · cases e.symm.trans ht
    exact ⟨_, runCommand_refused _ _ _ _ _ (hflag.trans hf), hfault s, fun _ => rfl⟩
  · cases e.symm.trans ht
    exact ⟨_, runCommand_badConfig _ _ _ _ _ (hflag.trans hf) (hneeds.trans hn), rfl, nofun⟩
  · cases ho
  · cases e.symm.trans ht
    rw [hu] at hbody
    exact ⟨_, runCommand_ok _ _ _ _ _ _ (hflag.trans hf) (hneeds.trans hn) rfl hbody, hfault _,
      fun _ => rfl⟩
  · cases e.symm.trans ht
    rw [hr] at hbody
    exact ⟨_, runCommand_error _ _ _ _ _ _ (hflag.trans hf) (hneeds.trans hn) rfl hbody, rfl, nofun⟩

theorem decoderIgnores_withRes (q : Quad) : DecoderIgnores (·.withRes q) where
  wstk _ := rfl
  withStack _ _ := rfl
  root _ _ := rfl
  nstripe _ := rfl
  rd _ := rfl
  bit _ _ := rfl
  withRd _ _ := rfl
  palettes _ := rfl
  withPalettes _ _ := rfl
  dec _ := rfl
  withDec _ _ := rfl

section
variable (raster : Memory Color) (maxgrad colortol : Half) (ana : Analysis) (leafref : List Byte)

theorem decoderIgnores_repaint : DecoderIgnores (repaint raster maxgrad colortol ana leafref) where
  wstk _ := rfl
  withStack _ _ := rfl
  root _ _ := rfl
  nstripe _ := rfl
  rd _ := rfl
  bit _ _ := rfl
  withRd _ _ := rfl
  palettes _ := rfl
  withPalettes _ _ := rfl
  dec _ := rfl
  withDec _ _ := rfl

/-- A valid configuration is one of the image's sides and the stripe table (10_state.md R29). -/
theorem cfgOK_repaint (s : State) :
    cfgOK (repaint raster maxgrad colortol ana leafref s) = cfgOK s :=
  Bool.eq_iff_iff.mpr ((cfgOK_iff _).trans (cfgOK_iff s).symm)

end

/-- The body of DECODE before its result registers (44_decoder.md R189). -/
def decodeBody (s : State) : Except Raise State := decPaltab (brInit (arg0 s) s) >>= decTree

theorem exec_decode_eq (s : State) : exec .decode s =
    runCommand cfgOK noChecks
      (fun s => decodeBody s >>= fun t => pure (setRes01 t t.dec.jobq.length t.rd.rpos))
      (freeRes01 ∘ freeLength ∘ freePosition ∘ freePaletteTable ∘ freeWalk ∘ freeJobs) s := by
  have hbody : (fun s => decodeBody s >>= fun t => pure (setRes01 t t.dec.jobq.length t.rd.rpos)) =
      fun s => (do
        let s1 ← decPaltab (brInit (arg0 s) s)
        let s2 ← decTree s1
        pure (setRes01 s2 s2.dec.jobq.length s2.rd.rpos)) := by
    funext s
    rw [decodeBody]
    cases decPaltab (brInit (arg0 s) s) <;> rfl
  rw [exec_decode, hbody]

theorem decodeBody_repaint (raster : Memory Color) (maxgrad colortol : Half) (ana : Analysis)
    (leafref : List Byte) (s : State) :
    decodeBody (repaint raster maxgrad colortol ana leafref s) =
      (decodeBody s).map (repaint raster maxgrad colortol ana leafref) := by
  have hf := decoderIgnores_repaint raster maxgrad colortol ana leafref
  have htable := hf.decPaltab (brInit (arg0 s) s)
  have hinit : brInit (arg0 (repaint raster maxgrad colortol ana leafref s))
      (repaint raster maxgrad colortol ana leafref s) =
      repaint raster maxgrad colortol ana leafref (brInit (arg0 s) s) := rfl
  rw [decodeBody, hinit, htable, decodeBody]
  cases decPaltab (brInit (arg0 s) s) with
  | error e => rfl
  | ok t => exact hf.decTree t

/-- A command's results, which count what is not changed, are the same. -/
theorem result_of_map {f : State → State} {x : Except Raise State} {res : State → State}
    (hres : ∀ t, res (f t) = f (res t)) :
    (x.map f >>= fun t => pure (res t)) = (x >>= fun t => pure (res t)).map f := by
  cases x with
  | error e => rfl
  | ok t => exact congrArg Except.ok (hres t)

end Sys2Proof.Machine

namespace Sys2Proof.Machine.DecoderCommands

/-- Settles O54: the need of a valid configuration and each body are the same with other contents, so
that each of the command's answers has its counterpart. -/
theorem decoderReadsNoPixels : Obligations.DecoderReadsNoPixels := by
  intro i raster maxgrad colortol ana leafref s t hi ht
  have hf := decoderIgnores_repaint raster maxgrad colortol ana leafref
  have hcfg := cfgOK_repaint raster maxgrad colortol ana leafref s
  rcases hi with rfl | rfl | rfl
  · rw [exec_decPaltab] at ht ⊢
    exact runCommand_of_map (fun _ => rfl) rfl
      ((congrArg (· >>= _) (hf.decPaltab s)).trans (result_of_map fun _ => rfl)) ht
  · rw [exec_decTree] at ht ⊢
    exact runCommand_of_map (fun _ => rfl) hcfg
      ((congrArg (· >>= _) (hf.decTree s)).trans (result_of_map fun _ => rfl)) ht
  · rw [exec_decode_eq] at ht ⊢
    exact runCommand_of_map (fun _ => rfl) hcfg
      ((congrArg (· >>= _) (decodeBody_repaint raster maxgrad colortol ana leafref s)).trans
        (result_of_map fun _ => rfl)) ht

end Sys2Proof.Machine.DecoderCommands
end

section
/-! DECODE (44_decoder.md R189): a payload's table and its tokens, the three commands it is a sequence
of (70_reset_and_hazards.md R244), and the payload that ENCODE wrote (R190). -/

namespace Sys2Proof.Machine

/-! ## The command -/

section
variable {s : State} {ps : List (List Color)} {ts : List WireTree} {rest : List Bool}

theorem exec_decode_ok {t : State} (hf : Running s) (hc : cfgOK s = true) (h : decodeBody s = .ok t) :
    exec .decode s = .next (setRes01 t t.dec.jobq.length t.rd.rpos) :=
  (exec_decode_eq s).trans (runCommand_ok _ _ _ _ s _ hf hc rfl (by rw [h]; rfl))

theorem faults_decode {r : Raise} (hf : Running s) (hc : cfgOK s = true)
    (h : decodeBody s = .error r) : Faults .decode s (causeCode r.cause) r.info0 r.info1 :=
  faults_of frees_decode (exec_decode_eq s) hf hc rfl (by rw [h]; rfl)

/-- Where DECODE ends without fault, its configuration was valid and its body succeeded. -/
theorem decodeBody_ok_of_exec {t : State} (hf : Running s) (h : exec .decode s = .next t)
    (ht : Running t) :
    cfgOK s = true ∧ ∃ u, decodeBody s = .ok u ∧ t = setRes01 u u.dec.jobq.length u.rd.rpos := by
  cases hc : cfgOK s
  · rw [exec_without_cfg hf (.inr (.inr (.inr (.inr rfl)))) hc] at h
    cases h
    cases ht
  · refine ⟨rfl, ?_⟩
    cases hb : decodeBody s with
    | ok u =>
      rw [exec_decode_ok hf hc hb] at h
      cases h
      exact ⟨u, rfl, rfl⟩
    | error r =>
      obtain ⟨t', he, hfault, -⟩ := faults_decode hf hc hb
      cases h.symm.trans he
      rw [Running, hfault] at ht
      cases ht

/-! ## The payload -/

/-- DECODE has read the table of its payload. -/
def tableRead (s : State) (ps : List (List Color)) : State :=
  { s with
    pal := { s.pal with palettes := ps }
    rd := ⟨arg0 s, (tableWire ps).length⟩ }

theorem cfgOK_tableRead (s : State) (ps : List (List Color)) : cfgOK (tableRead s ps) = cfgOK s :=
  cfgOK_congr s (tableRead s ps) rfl rfl rfl

theorem forestFits_tableRead (s : State) (ps : List (List Color)) (ts : List WireTree) :
    forestFits (tableRead s ps) 0 ts = forestFits s 0 ts :=
  forestFits_congr s (tableRead s ps) rfl rfl rfl 0 ts

theorem decodeBody_of_table (hfits : tableFits ps = true)
    (hu : unreadBits (s.withRd ⟨arg0 s, 0⟩) = tableWire ps ++ rest) :
    decodeBody s = decTree (tableRead s ps) ∧ unreadBits (tableRead s ps) = rest := by
  obtain ⟨htable, hrest⟩ := decPaltab_of_wire ps rest _ hfits hu
  have hread : ((s.withRd ⟨arg0 s, 0⟩).withPal { s.pal with palettes := ps }).advance
      (tableWire ps).length = tableRead s ps := by
    simp only [State.advance, withPal_rd, withRd_rd, Nat.zero_add]
    rfl
  have hbody : decodeBody s = (decPaltab (s.withRd ⟨arg0 s, 0⟩) >>= decTree) := rfl
  rw [withRd_pal, hread] at htable
  refine ⟨by rw [hbody, htable, ok_bind], ?_⟩
  rw [← hread, ← hrest]
  exact unreadBits_congr _ _ rfl rfl rfl

theorem decodeBody_of_cut {info0 info1 : Nat}
    (h : TableCut 0 (unreadBits (s.withRd ⟨arg0 s, 0⟩)) info0 info1) :
    decodeBody s = .error ⟨.palTabTruncated, info0, info1⟩ := by
  have hbody : decodeBody s = (decPaltab (s.withRd ⟨arg0 s, 0⟩) >>= decTree) := rfl
  rw [hbody, decPaltab_of_cut _ info0 info1 h, error_bind]

/-- What DECODE leaves of a payload with this table and these trees, but for its result registers. -/
def decoded (s : State) (ps : List (List Color)) (ts : List WireTree) : State :=
  { s with
    pal := { s.pal with palettes := ps }
    dec := ⟨jobsFrom 0 (forestRegions s 0 ts) (forestRefs ts), (forestRefs ts).length⟩
    rd := ⟨arg0 s, (tableWire ps).length + (forestWire ts).length⟩
    wstk := [] }

theorem treesRead_tableRead (s : State) (ps : List (List Color)) (ts : List WireTree) :
    treesRead (tableRead s ps) ts = decoded s ps ts := by
  rw [treesRead, forestRegions_congr s (tableRead s ps) rfl rfl rfl]
  rfl

theorem exec_decode_of_payload (hf : Running s) (hc : cfgOK s = true) (hfits : tableFits ps = true)
    (hfit : forestFits s 0 ts = true)
    (hu : unreadBits (s.withRd ⟨arg0 s, 0⟩) = tableWire ps ++ forestWire ts ++ rest)
    (hr : refsInRange ps 0 (forestRefs ts) = true) :
    exec .decode s = .next (setRes01 (decoded s ps ts) (forestRefs ts).length
      ((tableWire ps).length + (forestWire ts).length)) := by
  rw [List.append_assoc] at hu
  obtain ⟨hbody, hrest⟩ := decodeBody_of_table hfits hu
  have hfit' := (forestFits_tableRead s ps ts).trans hfit
  rw [decTree_of_forest _ ts rest ((cfgOK_tableRead s ps).trans hc) hfit' hrest hr] at hbody
  rw [← treesRead_tableRead, ← length_jobq_treesRead hfit']
  exact exec_decode_ok hf hc hbody

theorem faults_decode_of_parseFails {code : Byte} {info0 info1 : Nat} (hf : Running s)
    (hc : cfgOK s = true) (hfits : tableFits ps = true)
    (hu : unreadBits (s.withRd ⟨arg0 s, 0⟩) = tableWire ps ++ rest)
    (h : ParseFails (tableRead s ps) code info0 info1) : Faults .decode s code info0 info1 := by
  obtain ⟨cause, rfl, he⟩ := decTree_of_fails _ code info0 info1 ((cfgOK_tableRead s ps).trans hc) h
  exact faults_decode hf hc ((decodeBody_of_table hfits hu).1.trans he)

/-- Every payload is a table and a forest, or ends inside its table, or has a token after its table that
cannot be taken. -/
theorem payload_cases (hc : cfgOK s = true) :
    (∃ ps ts rest, tableFits ps = true ∧ forestFits s 0 ts = true ∧
        unreadBits (s.withRd ⟨arg0 s, 0⟩) = tableWire ps ++ forestWire ts ++ rest ∧
        refsInRange ps 0 (forestRefs ts) = true) ∨
      (∃ info0 info1, TableCut 0 (unreadBits (s.withRd ⟨arg0 s, 0⟩)) info0 info1) ∨
      ∃ ps rest code info0 info1, tableFits ps = true ∧
        unreadBits (s.withRd ⟨arg0 s, 0⟩) = tableWire ps ++ rest ∧
        ParseFails (tableRead s ps) code info0 info1 := by
  rcases table_or_cut 0 (unreadBits (s.withRd ⟨arg0 s, 0⟩)) with ⟨ps, rest, hfits, hu⟩ | hcut
  · have hrest := (decodeBody_of_table hfits hu).2
    rcases forest_or_parseFails ((cfgOK_tableRead s ps).trans hc) with
      ⟨ts, rest', hfit, hu', hr⟩ | ⟨code, info0, info1, hfails⟩
    · refine .inl ⟨ps, ts, rest', hfits, (forestFits_tableRead s ps ts).symm.trans hfit, ?_, hr⟩
      rw [hu, ← hrest, hu', List.append_assoc]
    · exact .inr (.inr ⟨ps, rest, code, info0, info1, hfits, hu, hfails⟩)
  · exact .inr (.inl hcut)

/-! ## The sequence -/

theorem exec_brInit_ok (hf : Running s) : exec .brInit s = .next (brInit (arg0 s) s) :=
  (exec_brInit s).trans (runCommand_ok _ _ _ _ s _ hf rfl rfl rfl)

/-- The result that DEC_PALTAB leaves does not matter to DEC_TREE. -/
theorem exec_decTree_withRes {t : State} (q : Quad) (hf : Running s) (hc : cfgOK s = true)
    (h : decTree s = .ok t) :
    exec .decTree (s.withRes q) = .next (setRes0 (t.withRes q) t.dec.jobq.length) := by
  have hbody := (decoderIgnores_withRes q).decTree s
  rw [h] at hbody
  exact exec_decTree_ok hf ((tidy_withRes s q).keeps_cfgOK hc) hbody

theorem decode_sequence {u : State} (hf : Running s) (hc : cfgOK s = true)
    (h : decodeBody s = .ok u) :
    ∃ s1 s2 q, exec .brInit s = .next s1 ∧ exec .decPaltab s1 = .next s2 ∧
      exec .decTree s2 = .next (u.withRes q) := by
  obtain ⟨a, htable, htree⟩ := bind_eq_ok _ _ _ h
  have tidyA : Tidy s a :=
    (tidy_withRd fun _ => Nat.zero_le _ : Tidy s (brInit (arg0 s) s)).trans (tidy_decPaltab htable)
  exact ⟨_, _, _, exec_brInit_ok hf, exec_decPaltab_ok hf htable,
    exec_decTree_withRes _ (tidyA.running hf) (tidyA.keeps_cfgOK hc) htree⟩

end

end Sys2Proof.Machine

namespace Sys2Proof.Machine.DecoderCommands

/-- Settles O52: a payload's table is DEC_PALTAB's from position 0, and its tokens DEC_TREE's after the
table. -/
theorem decodeCommand : Obligations.DecodeCommand := by
  refine ⟨fun _ _ _ _ => exec_decode_of_payload,
    fun s t hf h ht => ?_, fun s hf hc =>
      ⟨fun _ _ hcut => faults_decode hf hc (decodeBody_of_cut hcut),
        fun _ _ _ _ _ hfits hu h => ⟨h.code_mem, faults_decode_of_parseFails hf hc hfits hu h⟩,
        payload_cases hc⟩⟩
  obtain ⟨hc, u, hbody, rfl⟩ := decodeBody_ok_of_exec hf h ht
  obtain ⟨s1, s2, q, hinit, htable, htree⟩ := decode_sequence hf hc hbody
  exact ⟨s1, s2, _, hinit, htable, htree, rfl⟩

end Sys2Proof.Machine.DecoderCommands
end

section
/-! The round trip (44_decoder.md R190): the payload that ENCODE wrote is a table and a forest, and
DECODE reads them back. -/

namespace Sys2Proof.Machine

/-! ## What ENCODE wrote -/

/-- ENCODE's body from `s` has ended in `t`: the palettes have an encoding, the trees `ts` carry the
analysed pattern and the references, their leaves are the analysed regions, and WBUF is the table, the
tokens and the flush's zeros (43_encoder.md R174). -/
structure EncodedForest (s t : State) (ts : List WireTree) : Prop where
  host : hostPart t = hostPart s
  table : tableFits t.pal.palettes = true
  forest : forestFits s 0 ts = true
  pattern : forestPattern ts = t.ana.pattern
  refs : forestRefs ts = t.pal.leafref
  colors : t.ana.leafcolor = (forestRegions s 0 ts).map (avgColor s)
  inRange : refsInRange t.pal.palettes 0 t.pal.leafref = true
  bits : ∃ k < 8, bytesToBits t.wr.wbuf =
    tableWire t.pal.palettes ++ forestWire ts ++ List.replicate k false

theorem encodedForest_of_encodeBody {s t : State} (hc : cfgOK s = true)
    (h : encodeBody Config.luma s = .ok t) : ∃ ts, EncodedForest s t ts := by
  obtain ⟨p, c, pal, hrec, -, hbuilt, -, -, hcfg, he⟩ := encodeBody_mid s hc
  have hhost := (tidy_encodeBody hc h).host
  rw [he] at h
  cases hfits : tableFits pal.palettes with
  | false =>
    have hout := encodeOutcome_of_unfit (p := p) hbuilt hfits
    rw [h] at hout
    cases hout with
    | payload hfits' => cases hfits.symm.trans hfits'
  | true =>
    obtain ⟨ts, hforest, hpat, hrefs, hcolors⟩ := hrec.forest (Nat.zero_add _) pal.leafref hbuilt.refs
    have hforest' : forestFits (encodeMid s p c pal) 0 ts = true :=
      (forestFits_congr s (encodeMid s p c pal) rfl rfl rfl 0 ts).trans hforest
    rcases emitAll_fits _ ts hcfg rfl hfits hforest' hpat.symm hrefs.symm with
      ⟨_, _, bytes, -, -, -, hbytes, he'⟩ | ⟨_, -, he'⟩ <;> cases he'.symm.trans h
    exact ⟨ts, hhost, hfits, hforest, hpat, hrefs, hcolors, hbuilt.refsInRange, _,
      Nat.mod_lt _ (by decide), hbytes⟩

/-! ## The jobs that DECODE gives -/

theorem jobsFrom_getElem? (k m : Nat) (rs : List Region) (refs : List Byte) (j : Job)
    (h : (jobsFrom k rs refs)[m]? = some j) :
    j.pal = jobPal ((k + m) / Config.group) ∧ refs[m]? = some j.idx := by
  induction rs generalizing k m refs with
  | nil => simp [jobsFrom] at h
  | cons r rs ih =>
    cases refs with
    | nil => simp [jobsFrom] at h
    | cons idx refs =>
      cases m with
      | zero =>
        simp only [jobsFrom, List.getElem?_cons_zero, Option.some.injEq] at h
        subst h
        exact ⟨rfl, rfl⟩
      | succ m =>
        simp only [jobsFrom, List.getElem?_cons_succ] at h ⊢
        rw [show k + (m + 1) = k + 1 + m by omega]
        exact ih (k + 1) m refs h

/-- An index below a palette's size names a palette that is there. -/
theorem getElem?_of_lt_paletteAt {ps : List (List Color)} {g n : Nat}
    (h : n < (paletteAt ps g).length) : ps[g]? = some (paletteAt ps g) := by
  unfold paletteAt at h ⊢
  cases hg : ps[g]? with
  | none => simp [hg] at h
  | some cs => rfl

/-- A reference in range has its group's palette. -/
theorem group_lt_of_refsInRange (ps : List (List Color)) (k m : Nat) (refs : List Byte) (idx : Byte)
    (hr : refsInRange ps k refs = true) (h : refs[m]? = some idx) :
    (k + m) / Config.group < ps.length := by
  induction refs generalizing k m with
  | nil => cases h
  | cons x xs ih =>
    simp only [refsInRange, Bool.and_eq_true, decide_eq_true_eq] at hr
    cases m with
    | zero => exact (List.getElem?_eq_some_iff.mp (getElem?_of_lt_paletteAt hr.1)).1
    | succ m =>
      rw [show k + (m + 1) = k + 1 + m by omega]
      exact ih (k + 1) m hr.2 h

/-- A table has at most 65535 palettes, so that a job's 16 bits hold the index of its palette
(10_state.md R37). -/
theorem job_of_refsInRange {ps : List (List Color)} {rs : List Region} {refs : List Byte} {m : Nat}
    {j : Job} (hfits : tableFits ps = true) (hr : refsInRange ps 0 refs = true)
    (h : (jobsFrom 0 rs refs)[m]? = some j) : j.pal.toNat = m / 256 ∧ refs[m]? = some j.idx := by
  obtain ⟨hpal, hidx⟩ := jobsFrom_getElem? 0 m rs refs j h
  have hlt := group_lt_of_refsInRange ps 0 m refs j.idx hr hidx
  have hle := ((tableFits_iff ps).mp hfits).1
  rw [hpal, jobPal_toNat (by omega), Nat.zero_add]
  exact ⟨rfl, hidx⟩

/-! ## The copy -/

/-- The host's copy of these bytes to RBUF, with their number as DECODE's operand. -/
def payloadLoaded (bytes : List Byte) (s : State) : State :=
  { loaded bytes s with arg := { s.arg with r0 := BitVec.ofNat 64 bytes.length } }

theorem unreadBits_payloadLoaded {bytes : List Byte} (s : State) (h : bytes.length < 2 ^ 64) :
    unreadBits ((payloadLoaded bytes s).withRd ⟨arg0 (payloadLoaded bytes s), 0⟩) =
      bytesToBits bytes := by
  have harg : arg0 (payloadLoaded bytes s) = bytes.length := by
    show (BitVec.ofNat 64 bytes.length).toNat = bytes.length
    rw [BitVec.toNat_ofNat, Nat.mod_eq_of_lt h]
  rw [harg, ← unreadBits_loaded bytes s]
  exact unreadBits_congr _ _ rfl rfl rfl

/-- After the table and the tokens the payload's padding is left. -/
theorem unreadBits_decoded {s : State} {ps : List (List Color)} {ts : List WireTree} {rest : List Bool}
    (hu : unreadBits (s.withRd ⟨arg0 s, 0⟩) = tableWire ps ++ forestWire ts ++ rest) :
    unreadBits (decoded s ps ts) = rest := by
  have hread : unreadBits (decoded s ps ts) =
      unreadBits ((s.withRd ⟨arg0 s, 0⟩).advance (tableWire ps ++ forestWire ts).length) :=
    unreadBits_congr _ _ (by simp [decoded]) rfl rfl
  rw [hread, unreadBits_advance, hu, List.drop_left' rfl]

end Sys2Proof.Machine

namespace Sys2Proof.Machine.DecoderCommands

/-- Settles O53: the bytes that ENCODE wrote are a table that fits and a forest whose references are in
range, and DECODE reads both and leaves the flush's zeros. -/
theorem encodeDecodeRoundTrip : Obligations.EncodeDecodeRoundTrip := by
  rintro s t _ hf hexec ht rfl hlen
  obtain ⟨hc, e, hbody, rfl⟩ := encodeBody_ok_of_exec hf hexec ht
  obtain ⟨ts, he⟩ := encodedForest_of_encodeBody hc hbody
  obtain ⟨k, hk, hbits⟩ := he.bits
  set u := payloadLoaded e.wr.wbuf (setRes0 e e.wr.wbuf.length)
  have hstripe : u.stripe = s.stripe := congrArg (·.stripe) he.host
  have hcfg : u.cfg = s.cfg := congrArg (·.cfg) he.host
  have hera : u.era = s.era := congrArg (·.era) he.host
  have hregions : forestRegions u 0 ts = forestRegions s 0 ts :=
    forestRegions_congr s u hstripe hcfg hera 0 ts
  have hunread := (unreadBits_payloadLoaded (setRes0 e e.wr.wbuf.length) hlen).trans hbits
  have hdecode := exec_decode_of_payload (s := u) (ps := e.pal.palettes) ht
    ((cfgOK_congr s u hstripe hcfg hera).trans hc) he.table
    ((forestFits_congr s u hstripe hcfg hera 0 ts).trans he.forest) hunread (he.refs ▸ he.inRange)
  have hrest : unreadBits (decoded u e.pal.palettes ts) = List.replicate k false :=
    unreadBits_decoded hunread
  have hjobs : (decoded u e.pal.palettes ts).dec.jobq =
      jobsFrom 0 (forestRegions s 0 ts) e.pal.leafref := by
    rw [decoded, hregions, he.refs]
  have hcount : (jobsFrom 0 (forestRegions s 0 ts) e.pal.leafref).length = e.ana.leafcolor.length := by
    rw [← he.refs, he.colors, List.length_map, forestRegions_length s 0 ts he.forest]
    exact jobsFrom_length 0 _ _ (forestRegions_length s 0 ts he.forest)
  refine ⟨_, ts, hdecode, ht, rfl, he.forest, he.pattern, he.refs, he.colors, hjobs,
    (congrArg _ hjobs).trans hcount,
    fun m j hj => job_of_refsInRange he.table he.inRange (hjobs ▸ hj),
    (congrArg _ hrest).trans_le ?_, fun b hb => List.eq_of_mem_replicate (hrest ▸ hb)⟩
  rw [List.length_replicate]
  exact Nat.le_of_lt_succ hk

end Sys2Proof.Machine.DecoderCommands
end

section
/-! The wire fields taken one step each (44_decoder.md R186 to R188): the steps of a table end where
DEC_PALTAB ends, and the steps of a forest's tokens where DEC_TREE ends. -/

namespace Sys2Proof.Machine

/-! ## Steps -/

/-- No fault and no command is pending: a step takes the field that is due. -/
structure Ready (s : State) : Prop where
  running : Running s
  idle : s.cmd = none

section
variable {s t : State} {i : Instr} {rest : List Bool}

theorem steps_succ (h : step s = .next t) (n : Nat) : steps (n + 1) s = steps n t := by
  simp only [steps, h]

theorem steps_one (h : step s = .next t) : steps 1 s = .next t := steps_succ h 0

theorem steps_add {m : Nat} (h : steps m s = .next t) (n : Nat) : steps (m + n) s = steps n t := by
  induction m generalizing s with
  | zero =>
    cases h
    rw [Nat.zero_add]
  | succ m ih =>
    cases hs : step s with
    | next u =>
      rw [steps_succ hs] at h
      rw [Nat.add_right_comm, steps_succ hs, ih h]
    | fault f => simp only [steps, hs] at h; cases h
    | refused r => simp only [steps, hs] at h; cases h

/-- Where the instruction that is due lies next in the stream, the step runs it, the reader being after
it. -/
theorem step_of_wire (hs : Ready s) (hport : duePort s = some (portOf i)) (hw : wellFormed i = true)
    (hu : unreadBits s = encode i ++ rest) : step s = exec i (s.advance (encode i).length) := by
  have hdecode : decode (portOf i) (unreadBits s) = .ok (i, rest) := by rw [hu, decode_encode hw]
  have hfetch := fetchField_of_decode hport hdecode
  rw [hu, List.length_append, Nat.add_sub_cancel_right] at hfetch
  exact step_of_run ((fetch_of_due hs.idle (due_of_duePort hport)).trans hfetch)

end

/-! ## The palette table -/

section
variable {s : State} {rest : List Bool}

theorem step_palEntry {left ents : Nat} {done : List Color} {c : Color} (hs : Ready s)
    (hd : s.due = .entry left ents done) (hu : unreadBits s = encode (.palEntry c.r c.g c.b) ++ rest) :
    step s = exec (.palEntry c.r c.g c.b) (s.advance 24) :=
  step_of_wire hs (by simp only [duePort, hd, portOf]) rfl hu

/-- The entries of a palette, one step each. -/
theorem steps_entries (cs : List Color) {left : Nat} {done : List Color} (hs : Ready s)
    (hne : cs ≠ []) (hd : s.due = .entry left cs.length done)
    (hu : unreadBits s = colorsWire cs ++ rest) :
    steps cs.length s = .next ((closePalette (done ++ cs) left s).advance (24 * cs.length)) := by
  induction cs generalizing s done with
  | nil => exact absurd rfl hne
  | cons c cs ih =>
    have hwire : unreadBits s = encode (.palEntry c.r c.g c.b) ++ (colorsWire cs ++ rest) :=
      hu.trans (List.append_assoc _ _ _)
    have hstep := step_palEntry hs hd hwire
    have hd' : (s.advance 24).due = .entry left (cs.length + 1) done := hd
    cases cs with
    | nil =>
      exact steps_one (hstep.trans (exec_palEntry_last hs.running hd' (Nat.le_refl 1)))
    | cons c' cs =>
      have hmore := exec_palEntry_more (r := c.r) (g := c.g) (b := c.b) (s := s.advance 24) hs.running
        hd' (Nat.succ_lt_succ (Nat.succ_pos _))
      have hu' : unreadBits (s.advance 24) = colorsWire (c' :: cs) ++ rest :=
        (needColor_of_wire 0 c _ s hwire).2
      have hrest := ih (s := (s.advance 24).withDue (.entry left (cs.length + 1) (done ++ [c])))
        ⟨hs.running, hs.idle⟩ (List.cons_ne_nil _ _) rfl hu'
      rw [List.length_cons, steps_succ (hstep.trans hmore)]
      refine hrest.trans ?_
      simp only [closePalette, addPalette, State.withDue, State.withPal, State.advance, State.withRd,
        List.append_assoc, List.singleton_append, List.length_cons, Nat.mul_add, Nat.add_assoc,
        Nat.add_comm]

/-- A palette's size and its entries; one of no entries is complete with its size. -/
theorem steps_palette (cs : List Color) {left : Nat} (hs : Ready s) (hsize : cs.length ≤ 255)
    (hd : s.due = .size (left + 1))
    (hu : unreadBits s = natToBits 8 cs.length ++ (colorsWire cs ++ rest)) :
    steps (1 + cs.length) s = .next ((closePalette cs left s).advance (8 + 24 * cs.length)) := by
  have hwire : encode (.palSize (BitVec.ofNat 8 cs.length)) = natToBits 8 cs.length :=
    palSize_wire _ hsize
  have hstep : step s = exec (.palSize (BitVec.ofNat 8 cs.length)) (s.advance 8) :=
    step_of_wire hs (by simp only [duePort, hd, portOf]) rfl (hwire ▸ hu)
  have hu' : unreadBits (s.advance 8) = colorsWire cs ++ rest :=
    (need_of_field 8 0 _ _ s (by decide) (by omega) hu).2
  have hn : (BitVec.ofNat 8 cs.length).toNat = cs.length := by
    rw [BitVec.toNat_ofNat, Nat.mod_eq_of_lt (by omega)]
  cases cs with
  | nil => exact steps_one (hstep.trans (exec_palSize_zero (s := s.advance 8) hs.running hd))
  | cons c cs =>
    have hpos : BitVec.ofNat 8 (c :: cs).length ≠ 0 := fun h => by
      rw [h] at hn
      cases hn
    have hsz := exec_palSize_pos (s := s.advance 8) hs.running hd hpos
    rw [hn] at hsz
    have hrest := steps_entries (c :: cs) (s := (s.advance 8).withDue (.entry left (c :: cs).length []))
      ⟨hs.running, hs.idle⟩ (List.cons_ne_nil _ _) rfl hu'
    rw [Nat.add_comm, steps_succ (hstep.trans hsz)]
    refine hrest.trans ?_
    simp only [closePalette, addPalette, State.withDue, State.withPal, State.advance, State.withRd,
      List.nil_append, Nat.add_assoc]

/-- The palettes of a table, from its first size on. -/
theorem steps_palettes (ps : List (List Color)) (hs : Ready s) (hsize : ∀ cs ∈ ps, cs.length ≤ 255)
    (hu : unreadBits s = palettesWire ps ++ rest) :
    steps (ps.map fun cs => 1 + cs.length).sum (s.withDue (dueSize ps.length)) =
      .next (((s.withPal { s.pal with palettes := s.pal.palettes ++ ps }).advance
        (palettesWire ps).length).withDue .none) := by
  induction ps generalizing s with
  | nil =>
    rw [List.append_nil]
    rfl
  | cons cs ps ih =>
    have hcs : cs.length ≤ 255 := hsize cs (by simp)
    have hwire : palettesWire (cs :: ps) =
        natToBits 8 cs.length ++ (colorsWire cs ++ palettesWire ps) := by
      rw [palettesWire_cons, palSize_wire _ hcs, List.append_assoc]
    have hlen : (palettesWire (cs :: ps)).length = 8 + 24 * cs.length + (palettesWire ps).length := by
      rw [hwire, List.length_append, List.length_append, natToBits_length, colorsWire_length,
        Nat.add_assoc]
    rw [hwire, List.append_assoc, List.append_assoc] at hu
    have hfirst := steps_palette (s := s.withDue (.size (ps.length + 1))) cs ⟨hs.running, hs.idle⟩ hcs
      rfl hu
    have hu' : unreadBits (s.advance (8 + 24 * cs.length)) = palettesWire ps ++ rest := by
      rw [unreadBits_advance, hu, ← List.append_assoc, List.drop_left' (by
        rw [List.length_append, natToBits_length, colorsWire_length])]
    have hrest := ih (s := (addPalette cs s).advance (8 + 24 * cs.length)) ⟨hs.running, hs.idle⟩
      (fun ds hds => hsize ds (by simp [hds])) hu'
    rw [List.map_cons, List.sum_cons]
    refine (steps_add hfirst _).trans (hrest.trans ?_)
    rw [hlen]
    simp only [addPalette, State.withDue, State.withPal, State.advance, State.withRd,
      List.append_assoc, List.singleton_append, Nat.add_assoc]

/-- A whole table, from its count on. -/
theorem steps_table {ps : List (List Color)} (hs : Ready s) (hfits : tableFits ps = true)
    (hu : unreadBits s = tableWire ps ++ rest) :
    steps (1 + (ps.map fun cs => 1 + cs.length).sum) (s.withDue .count) =
      .next (((s.withPal { s.pal with palettes := ps }).advance
        (tableWire ps).length).withDue .none) := by
  obtain ⟨hcount, hsize⟩ := (tableFits_iff ps).mp hfits
  have hwire : encode (.palCount (BitVec.ofNat 16 ps.length)) = natToBits 16 ps.length :=
    palCount_wire _ hcount
  have hn : (BitVec.ofNat 16 ps.length).toNat = ps.length := by
    rw [BitVec.toNat_ofNat, Nat.mod_eq_of_lt (by omega)]
  rw [tableWire_eq ps hfits, List.append_assoc] at hu
  have hstep : step (s.withDue .count) =
      exec (.palCount (BitVec.ofNat 16 ps.length)) ((s.withDue .count).advance 16) :=
    step_of_wire ⟨hs.running, hs.idle⟩ rfl rfl (hwire ▸ hu)
  have hexec := exec_palCount_due (s := (s.withDue .count).advance 16) (BitVec.ofNat 16 ps.length)
    hs.running rfl
  rw [hn] at hexec
  have hrest := steps_palettes (s := clearPalettes (s.advance 16)) ps ⟨hs.running, hs.idle⟩ hsize
    (need_of_field 16 0 _ _ s (by decide) (by omega) hu).2
  rw [Nat.add_comm, steps_succ (hstep.trans hexec)]
  refine hrest.trans ?_
  rw [tableWire_eq ps hfits, List.length_append, natToBits_length]
  simp only [clearPalettes, State.withDue, State.withPal, State.advance, State.withRd,
    List.nil_append, Nat.add_assoc]

end

/-! ## The tokens -/

section
variable {s : State} {rest : List Bool} {i : Nat}

theorem Ready.parsed (hs : Ready s) (t : WireTree) (r : Region) : Ready (parsed s t r) :=
  have hfault : (Machine.parsed s t r).fault = s.fault := rfl
  have hcmd : (Machine.parsed s t r).cmd = s.cmd := rfl
  ⟨(congrArg (·.flag) hfault).trans hs.running, hcmd.trans hs.idle⟩

theorem parsed_node {a b : WireTree} {r ra rb : Region}
    (hk : children r (splitGeom r.w r.h) = some (ra, rb)) (ha : a.fits ra = true) :
    parsed s (.node a b) r = parsed (parsed (s.advance 1) a ra) b rb := by
  have hlen : (WireTree.node a b).wire.length = 1 + a.wire.length + b.wire.length := by
    simp only [WireTree.wire, List.length_append, encode, List.length_singleton, Nat.add_assoc]
  simp only [parsed, WireTree.regions, hk, WireTree.refs,
    jobsFrom_append _ _ _ _ _ (a.regions_length ra ha), hlen, State.advance, State.withDec,
    State.withRd, List.length_append, List.append_assoc, Nat.add_assoc]

/-- A token that is due at the region on top of the stack and can be taken is taken in one step. -/
theorem step_token {t : Token} {r : Region} {k : List Region} {v : Visited} (hs : Ready s)
    (hd : s.due = .node i) (hu : unreadBits s = encode (tokenInstr t) ++ rest)
    (h : tokenEffect t r ((s.advance (encode (tokenInstr t)).length).withStack k) = .ok v) :
    step (s.withStack (r :: k)) = .next (pushKids v) := by
  have hport : duePort (s.withStack (r :: k)) = some (portOf (tokenInstr t)) := by
    cases t <;> simp only [duePort, withStack_due, withStack_wstk, hd, tokenInstr, portOf]
  have hwf : wellFormed (tokenInstr t) = true := by cases t <;> rfl
  exact (step_of_wire (s := s.withStack (r :: k)) ⟨hs.running, hs.idle⟩ hport hwf hu).trans
    (exec_token_ok (s := (s.withStack (r :: k)).advance _) hs.running hd rfl h)

/-- A tree's tokens, one step each, take its region off the stack. -/
theorem steps_tree (t : WireTree) (r : Region) (k : List Region) (hs : Ready s) (hd : s.due = .node i)
    (hfit : t.fits r = true) (hu : unreadBits s = t.wire ++ rest)
    (hr : refsInRange s.pal.palettes s.dec.leaford t.refs = true) :
    steps t.pattern.length (s.withStack (r :: k)) = .next ((parsed s t r).withStack k) := by
  induction t generalizing r k s rest with
  | leaf idx =>
    simp only [WireTree.refs, refsInRange, Bool.and_true, decide_eq_true_eq] at hr
    exact steps_one (step_token (t := .leaf idx) hs hd hu
      (decLeaf_paints (getElem?_of_lt_paletteAt hr) hr))
  | node a b iha ihb =>
    obtain ⟨ra, rb, hk, ha, hb⟩ : ∃ ra rb, children r (splitGeom r.w r.h) = some (ra, rb) ∧
        a.fits ra = true ∧ b.fits rb = true := by
      simp only [WireTree.fits] at hfit
      split at hfit
      · cases hfit
      · exact ⟨_, _, ‹_›, Bool.and_eq_true_iff.mp hfit⟩
    simp only [WireTree.wire, List.append_assoc] at hu
    simp only [WireTree.refs, refsInRange_append, Bool.and_eq_true] at hr
    have hnode : step (s.withStack (r :: k)) = .next ((s.advance 1).withStack (ra :: rb :: k)) :=
      step_token (t := .internal) hs hd hu (decInternal_splits hk)
    have hu1 := (fetchToken_of_internal _ s hu).2
    have hfirst := iha (s := s.advance 1) ra (rb :: k) ⟨hs.running, hs.idle⟩ hd ha hu1 hr.1
    have hsecond := ihb (s := parsed (s.advance 1) a ra) rb k
      (Ready.parsed (s := s.advance 1) ⟨hs.running, hs.idle⟩ a ra) hd hb
      (decVisit_tree i a ra (s.advance 1) _ ha hu1 hr.1).2 hr.2
    rw [WireTree.pattern, List.length_cons, List.length_append, steps_succ hnode, steps_add hfirst,
      hsecond, parsed_node hk ha]

/-- The walk has come to stripe `i`: its root waits and a token is due, or, after the last stripe,
nothing. -/
def atStripe (s : State) (i : Nat) : State :=
  if i < s.cfg.nstripe.toNat then (s.withStack [stripeRoot s i]).withDue (.node i)
  else (s.withStack []).withDue .none

theorem atStripe_after (s : State) (k : List Region) (d : Due) (i : Nat) :
    atStripe ((s.withStack k).withDue d) i = atStripe s i := rfl

/-- With the stack empty a step goes on to the next stripe. -/
theorem step_leave_stripe (hs : Ready s) (hd : s.due = .node i) (hk : s.wstk = []) :
    step s = .next (atStripe s (i + 1)) := by
  refine step_of_done ((fetch_of_due hs.idle (by rw [hd]; exact nofun)).trans ?_)
  by_cases h : i + 1 < s.cfg.nstripe.toNat
  · simp only [fetchField, hd, hk, atStripe, if_pos h]
  · have hempty : s.withStack [] = s := by rw [← hk, withStack_self]
    simp only [fetchField, hd, hk, atStripe, if_neg h, hempty]

/-- The trees of the stripes from number `i` on: a step for each token, and one to leave each stripe. -/
theorem steps_forest (ts : List WireTree) (hs : Ready s) (hfit : forestFits s i ts = true)
    (hu : unreadBits s = forestWire ts ++ rest)
    (hr : refsInRange s.pal.palettes s.dec.leaford (forestRefs ts) = true) :
    steps ((forestPattern ts).length + ts.length) (atStripe s i) =
      .next (((parsedAll s i ts).withStack []).withDue .none) := by
  have hlen := forestFits_length s i ts hfit
  induction ts generalizing i s with
  | nil =>
    rw [atStripe, if_neg (by simpa using hlen.ge)]
    simp [steps, parsedAll, forestRegions, forestRefs, forestWire, jobsFrom, forestPattern,
      State.withDec, State.withStack, State.withDue]
  | cons t ts ih =>
    simp only [forestFits, Bool.and_eq_true] at hfit
    simp only [forestWire, forestRefs, List.flatMap_cons, List.append_assoc] at hu hr
    rw [refsInRange_append, Bool.and_eq_true] at hr
    have hat : atStripe s i = (s.withStack [stripeRoot s i]).withDue (.node i) :=
      if_pos (by rw [List.length_cons] at hlen; omega)
    have hstripe : steps t.pattern.length ((s.withStack [stripeRoot s i]).withDue (.node i)) =
        .next (((parsed s t (stripeRoot s i)).withStack []).withDue (.node i)) :=
      steps_tree (s := s.withDue (.node i)) t (stripeRoot s i) [] ⟨hs.running, hs.idle⟩ rfl hfit.1 hu
        hr.1
    have hready := hs.parsed t (stripeRoot s i)
    have hleave := step_leave_stripe
      (s := ((parsed s t (stripeRoot s i)).withStack []).withDue (.node i))
      ⟨hready.running, hready.idle⟩ rfl rfl
    have hfit' : forestFits (parsed s t (stripeRoot s i)) (i + 1) ts = true :=
      (forestFits_congr s (parsed s t (stripeRoot s i)) rfl rfl rfl _ _).trans hfit.2
    have hrest := ih (s := parsed s t (stripeRoot s i)) (i := i + 1) hready hfit'
      (decVisit_tree i t (stripeRoot s i) s _ hfit.1 hu hr.1).2 hr.2
      (forestFits_length _ _ _ hfit')
    have hcount : (forestPattern (t :: ts)).length + (t :: ts).length =
        t.pattern.length + ((forestPattern ts).length + ts.length + 1) := by
      simp only [forestPattern, List.flatMap_cons, List.length_append, List.length_cons]
      omega
    rw [hat, hcount, ← parsedAll_cons s i t ts hfit.1, steps_add hstripe, steps_succ hleave,
      atStripe_after, hrest]

/-- The whole forest, from the first stripe's root with no jobs. -/
theorem steps_forest_start {ts : List WireTree} (hs : Ready s) (hc : cfgOK s = true)
    (hfit : forestFits s 0 ts = true) (hu : unreadBits s = forestWire ts ++ rest)
    (hr : refsInRange s.pal.palettes 0 (forestRefs ts) = true) :
    steps ((forestPattern ts).length + ts.length)
        (((s.withDec ⟨[], 0⟩).withStack [stripeRoot s 0]).withDue (.node 0)) =
      .next ((treesRead s ts).withDue .none) := by
  have hat : atStripe (s.withDec ⟨[], 0⟩) 0 =
      ((s.withDec ⟨[], 0⟩).withStack [stripeRoot s 0]).withDue (.node 0) :=
    if_pos (cfgOK_spec s hc).2.2.1
  have hfit' : forestFits (s.withDec ⟨[], 0⟩) 0 ts = true :=
    (forestFits_congr s (s.withDec ⟨[], 0⟩) rfl rfl rfl 0 ts).trans hfit
  have hregions : forestRegions (s.withDec ⟨[], 0⟩) 0 ts = forestRegions s 0 ts :=
    forestRegions_congr s (s.withDec ⟨[], 0⟩) rfl rfl rfl 0 ts
  rw [← hat, steps_forest (s := s.withDec ⟨[], 0⟩) ts ⟨hs.running, hs.idle⟩ hfit' hu hr, parsedAll,
    hregions, withDec_dec, List.nil_append, Nat.zero_add]
  rfl

end

end Sys2Proof.Machine

namespace Sys2Proof.Machine.DecoderCommands

/-- Settles O59: by induction on the palettes, and on the entries of each. -/
theorem fieldStepsAreDecPaltab : Obligations.FieldStepsAreDecPaltab :=
  fun _ _ _ hf hidle hfits hu => steps_table ⟨hf, hidle⟩ hfits hu

/-- Settles O60: by induction on the stripes, and on the tree of each. -/
theorem tokenStepsAreDecTree : Obligations.TokenStepsAreDecTree :=
  fun _ _ _ hf hidle hc hfit hu hr => (steps_forest_start ⟨hf, hidle⟩ hc hfit hu hr :)

end Sys2Proof.Machine.DecoderCommands
end

section
/-! NOP and RESET (45_system.md R200, R201). The theorem that settles RESET's statement has the name of
the model's function, hence a namespace of their own. -/

namespace Sys2Proof.Machine.SystemCommands

/-- With no fault, no partial byte and no bit left to read, REOF alone is set. -/
theorem statusWord_of_only_reof {s : State} (hfault : s.fault = ⟨false, 0, 0, 0⟩)
    (hwpart : wpart s = false) (hreof : reof s = true) : statusWord s = 0x0004 := by
  apply BitVec.eq_of_toNat_eq
  rw [statusWord_toNat, hfault, hwpart, hreof]
  rfl

/-- RESET empties both bit streams: an empty writer holds no partial byte, and an empty stream is at its
end. -/
theorem statusWord_softReset (s : State) : statusWord (softReset s) = 0x0004 :=
  statusWord_of_only_reof rfl rfl rfl

/-- Settles O19: a faulted state refuses NOP as it refuses every command; otherwise NOP has no checks and
its body is the identity. -/
theorem nopDoesNothing : Obligations.NopDoesNothing := by
  refine ⟨rfl, fun s => (exec_nop s).trans ?_⟩
  cases hf : s.fault.flag with
  | true => exact runCommand_refused _ _ _ _ _ hf
  | false => exact runCommand_ok _ _ _ _ _ _ hf rfl rfl rfl

/-- Settles O20: RESET answers `softReset` without looking at FAULT. -/
theorem softReset : Obligations.SoftReset :=
  ⟨rfl, fun s => ⟨_, exec_reset s, rfl, statusWord_softReset s⟩⟩

end Sys2Proof.Machine.SystemCommands
end

section
/-! Fault entry, and the fault state until it is left (60_exceptions.md R211, R221, R226, R227). -/

namespace Sys2Proof.Machine

/-! ## Fault entry -/

/-- The register that the host reads is STATUS: FAULT is its lowest bit, and ERR its second byte. -/
theorem readReg_status (s : State) :
    (readReg s 0x01).getLsbD 0 = s.fault.flag ∧
      (readReg s 0x01).toNat / 256 = s.fault.err.toNat := by
  obtain ⟨hfault, -, -, -, herr, hread⟩ := statusRegister s
  rw [hread, BitVec.toNat_setWidth_of_le (by decide), BitVec.getLsbD_setWidth]
  exact ⟨hfault, herr⟩

/-- Settles O16: fault entry writes the four registers, which the host then reads, and the codes are
those of the table. -/
theorem faultEntry : Obligations.FaultEntry := by
  refine ⟨fun _ _ => rfl, fun r s => ?_, rfl, rfl, rfl, rfl, rfl, rfl, rfl, rfl, rfl, rfl, rfl, rfl, rfl,
    rfl, rfl, rfl⟩
  obtain ⟨hflag, herr⟩ := readReg_status (raiseFault r s)
  exact ⟨hflag, herr, rfl, rfl⟩

/-! ## Refusal -/

section
variable {s : State}

/-- While a fault is pending every command but RESET changes nothing. -/
theorem exec_of_faulted {i : Instr} (hp : portOf i = .cmd) (hr : i ≠ .reset)
    (hf : s.fault.flag = true) : exec i s = .next s := by
  obtain ⟨needs, operands, body, freed, he⟩ := exec_command i hp hr
  rw [he]
  exact runCommand_refused needs operands body freed s hf

theorem unknownCommand_of_faulted (code : Byte) (hf : s.fault.flag = true) :
    unknownCommand code s = s :=
  if_pos hf

/-- RESET has no code but 0xFF. -/
theorem code_of_decodeCommand_reset {code : Byte} (h : decodeCommand code = some .reset) :
    code = 0xFF := by
  have hcode : some 0xFF = some code.toNat := decodeCommand_eq_some_iff.1 h
  exact BitVec.eq_of_toNat_eq (Option.some.inj hcode).symm

end

/-- Settles O17: a listed code is that of a command, which refuses, and a reserved one raises nothing. -/
theorem refusedWhileFaulted : Obligations.RefusedWhileFaulted := by
  intro s code hc hf hcode
  have hfetch := fetch_of_cmd hc
  cases hd : decodeCommand code with
  | some i =>
    have hr : i ≠ .reset := fun e => hcode (code_of_decodeCommand_reset (e ▸ hd))
    rw [step_of_run (hfetch.trans (fetchCommand_of_decode hd))]
    exact exec_of_faulted (portOf_of_decodeCommand hd) hr hf
  | none =>
    rw [step_of_done (hfetch.trans (fetchCommand_of_reserved hd))]
    exact congrArg _ (unknownCommand_of_faulted code hf)

/-! ## Leaving the fault state -/

section
variable {s t : State}

theorem step_reset (hc : s.cmd = some 0xFF) : step s = .next (softReset { s with cmd := none }) :=
  step_of_run ((fetch_of_cmd hc).trans (fetchCommand_of_decode rfl))

theorem step_powerOn {q : List HostOp} (hc : s.cmd = none) (hd : s.due = .none)
    (hq : s.hostq = .powerOn :: q) : step s = .next (powerOn { s with hostq := q }) :=
  step_of_done ((fetch_of_host hc hd hq).trans (fetchHost_of_ok (fun _ h => by cases h) rfl))

/-- ART_HEADER loads two configuration registers or nothing. -/
theorem fault_artHeader {magic : BitVec 32} {width height : Half} {quality : Byte}
    (h : exec (.artHeader magic width height quality) s = .next t) : t.fault = s.fault := by
  simp only [exec, execArtHeader] at h
  split at h <;> cases h <;> rfl

/-- No action of the host but a power-on reaches the fault registers. -/
theorem fault_of_step_host {op : HostOp} {q : List HostOp} (hc : s.cmd = none) (hd : s.due = .none)
    (hq : s.hostq = op :: q) (hop : op ≠ .powerOn) (ht : step s = .next t) : t.fault = s.fault := by
  have hfetch := fetch_of_host hc hd hq
  by_cases hheader : ∃ bytes, op = .readHeader bytes
  · obtain ⟨bytes, rfl⟩ := hheader
    rcases decode_header_cases (bytesToBits bytes) with ⟨m, w, h, b, rest, hdec⟩ | ⟨e, hdec⟩
    · rw [step_of_run (hfetch.trans (fetchHost_header hdec))] at ht
      exact (fault_artHeader ht :)
    · rw [step_of_done (hfetch.trans (fetchHost_badHeader hdec))] at ht
      cases ht
      rfl
  · rw [not_exists] at hheader
    cases ha : hostAct op { s with hostq := q } with
    | ok u =>
      rw [step_of_done (hfetch.trans (fetchHost_of_ok hheader ha))] at ht
      cases ht
      obtain ⟨hfault, -⟩ := (hostAct_wrote hop ha).keeps_block
      exact hfault
    | error f =>
      rw [step_of_stop (hfetch.trans (fetchHost_of_error hheader ha))] at ht
      cases ht

end

/-- Settles O18: of the pending codes RESET's alone is not refused, and of the host's actions the power-on
alone reaches the fault registers; by the invariant no field is due. -/
theorem faultLeftOnlyByReset : Obligations.FaultLeftOnlyByReset := by
  intro s t hs hf ht hne
  have hdue : s.due = .none := hs.due_none
  cases hc : s.cmd with
  | some code =>
    by_cases hcode : code = 0xFF
    · subst hcode
      cases (step_reset hc).symm.trans ht
      exact ⟨.inl rfl, rfl⟩
    · cases (refusedWhileFaulted s code hc hf hcode).symm.trans ht
      exact absurd rfl hne
  | none =>
    cases hq : s.hostq with
    | nil =>
      cases (step_of_done (fetch_of_idle hc hdue hq)).symm.trans ht
      exact absurd rfl hne
    | cons op q =>
      by_cases hop : op = .powerOn
      · subst hop
        cases (step_powerOn hc hdue hq).symm.trans ht
        exact ⟨.inr ⟨rfl, q, rfl⟩, rfl⟩
      · exact absurd (fault_of_step_host hc hdue hq hop ht) hne

end Sys2Proof.Machine
end

section
/-! Power-on reset (70_reset_and_hazards.md R240; 10_state.md R44). -/

namespace Sys2Proof.Machine

/-- The capacity of WBUF and the model's own fields (logs 3, 4, 6) are behind no register number. -/
theorem readReg_of_unreadable (s : State) (cap : Option Nat) (q : List HostOp) (ctr age : Nat)
    (num : Byte) :
    readReg { s with wbufCap := cap, hostq := q, freeCtr := ctr, era := age } num = readReg s num := by
  unfold readReg
  split <;> rfl

/-- MINBLOCK is a constant of the block, and an empty stream is at its end; every other number reads a
register or a counter that is 0, or nothing. -/
theorem readReg_reset (num : Byte) :
    readReg State.reset num = if num = 0x12 then 1 else if num = 0x01 then 0x0004 else 0 := by
  have hstatus : statusWord State.reset = 0x0004 :=
    SystemCommands.statusWord_of_only_reof rfl rfl rfl
  split
  case isTrue hminblock => subst hminblock; rfl
  case isFalse hminblock =>
    split
    case isTrue hnum => subst hnum; exact congrArg (BitVec.setWidth 64) hstatus
    case isFalse hnum =>
      have hne12 : num.toNat ≠ 0x12 := fun e => hminblock (BitVec.eq_of_toNat_eq e)
      have hne01 : num.toNat ≠ 0x01 := fun e => hnum (BitVec.eq_of_toNat_eq e)
      unfold readReg
      split
      any_goals contradiction
      all_goals rfl

/-- An image without columns is no configuration (10_state.md R29). -/
theorem cfgOK_of_imgW_zero {s : State} (h : s.cfg.imgW = 0) : cfgOK s = false := by
  refine Bool.eq_false_iff.mpr fun hc => ?_
  obtain ⟨hw, -⟩ := (cfgOK_iff s).mp hc
  rw [h] at hw
  exact absurd hw (by decide)

/-- Settles O10: a power-on differs from the reset state in what no register number reads, and in the
reset state nothing is pending, due or queued. -/
theorem powerOnReset : Obligations.PowerOnReset :=
  ⟨readReg_reset, cfgOK_of_imgW_zero rfl, rfl, rfl, rfl, rfl, rfl,
    step_of_done (fetch_of_idle rfl rfl rfl),
    fun s => readReg_of_unreadable State.reset s.wbufCap s.hostq s.freeCtr (s.era + 1),
    fun _ => ⟨cfgOK_of_imgW_zero rfl, rfl, rfl, rfl, rfl, rfl⟩⟩

end Sys2Proof.Machine
end
